-- ==== Sys2Proof/Word.lean ====
section
/-! DEFINITION. The widths the manual treats as bits: bytes of messages and characters, and 16-bit fields. -/

namespace Sys2Proof

/-- A byte of the host link, or the eight value bits of a station-line character (R42, R134). -/
abbrev Byte := BitVec 8

/-- A two-byte field: kinds, host tags, generations, 16-bit counters (R2, R26, R59, R106, R143). -/
abbrev Half := BitVec 16

end Sys2Proof
end

