-- ==== Sys2Proof/Config.lean ====
section
/-! DEFINITION. What one part fixes: identity, capacities, times and rates, as the manual states them; and the two
free values the manual leaves open. -/

namespace Sys2Proof.Config

/-- Vendor code of HELLO (R144). -/
def vendorCode : Half := 0x0F3C
/-- Part code of HELLO (R144). -/
def partCode : Half := 0x0316
/-- Revision of HELLO (R144). -/
def revision : Byte := 2

/-- Station addresses 1..63 (R1). -/
def stationCapacity : Nat := 63
/-- Slots of a cycle list (R85). -/
def cycleListCapacity : Nat := 64
/-- Live tickets (R106). -/
def ticketCapacity : Nat := 16
/-- Entries of the report queue (R120). -/
def reportCapacity : Nat := 32
/-- Places for notice entries, all notice kinds together (R120). -/
def noticePlaces : Nat := 16
/-- Bytes of the image store (R23). -/
def imageStoreSize : Nat := 2048
/-- Messages the inbound buffer holds (R137). -/
def inboundCapacity : Nat := 2
/-- Largest value of the credit counter (R130). -/
def creditLimit : Nat := 32

/-- Gap limit inside a reply, in CT (section 3.5, R52). -/
def gapLimitCT : Nat := 2
/-- Turnaround guard, in CT (section 3.5, R70). -/
def turnaroundGuardCT : Nat := 1
/-- Quiet guard, in CT (section 3.5, R70). -/
def quietGuardCT : Nat := 3
/-- Broadcast guard, in CT (section 3.5, R70). -/
def broadcastGuardCT : Nat := 4
/-- Jam limit, in CT (section 3.5, R72). -/
def jamLimitCT : Nat := 64
/-- Host link inter-byte gap limit, in ms (section 5.4 of the scope, R136). -/
def hostGapLimitMs : Nat := 5
/-- The rest after an empty pass: 1 ms in the period timer's unit of 100 us (R93). -/
def emptyPassRest : Nat := 10

/-- Largest period of CYCLE_START, in 100 us (R88). -/
def periodLimit : Nat := 60000
/-- Smallest and largest non-zero hold time, in ms (R149). -/
def holdTimeLow : Nat := 10
def holdTimeHigh : Nat := 60000

/-- Station-line rate in bit/s for a rate index 0..7 (R43). -/
def lineRate : Nat → Nat
  | 0 => 19200
  | 1 => 38400
  | 2 => 57600
  | 3 => 115200
  | 4 => 250000
  | 5 => 500000
  | 6 => 1000000
  | _ => 2000000

/-- Host link rate in bit/s for a strap value HRATE1 * 2 + HRATE0 (R133). -/
def hostRate : BitVec 2 → Nat
  | 0 => 115200
  | 1 => 460800
  | 2 => 1000000
  | _ => 3000000

/-- FREE VALUE (DESIGN CHOICE, log entry 9). Whether the length of an ACCEPT reply suits an EXCHANGE or SAMPLE whose
station has no profile any more: test 6 of R67 reads `profile.in_len`, and R67 says the profile read is the one that
stands at classification; after a STATION_REMOVE taken while the exchange is in flight there is none. The n-th such
judgement reads `absentProfileSuits n`. -/
opaque absentProfileSuits : Nat → Bool

/-- FREE VALUE (DESIGN CHOICE, log entry 17). Which block HELLO or STATUS reads next, of those it has still to read: R138 gives
each reading an event of its own and no order among them. The n-th such reading takes the block at place `readChoice n`, counted
around the blocks left. -/
opaque readChoice : Nat → Nat

end Sys2Proof.Config
end

