-- ==== Sys2Proof/Syntax.lean ====
section
/-! DEFINITION. The commands of the block: one constructor of `Instr` for each row of spec/opcode_table.json, with the
types of their operands. -/

namespace Sys2Proof

/-- The three samples the line receiver takes around the centre of one bit (R45). -/
structure BitSamples where
  first  : Bool
  second : Bool
  third  : Bool
deriving DecidableEq, Repr

/-- The samples of the ten bits that follow a start bit: eight value bits, bit 0 first, the mark bit and the stop bit
(R42, R45). -/
structure CharSamples where
  value : Vector BitSamples 8
  mark  : BitSamples
  stop  : BitSamples
deriving DecidableEq, Repr

/-- The blocks that ask the report unit for reports (R121). -/
inductive ReportSource where
  | engine
  | stationTable
  | image
  | ticketTable
  | scheduler
  | supervision
deriving DecidableEq, Repr

/-- An event that falls between the engine's becoming IDLE and the arbiter's choice that follows (log entry 26): none, LREQ
asserted (R158), the hold timer's expiry, or the taking of the message at the head of the inbound buffer (R117, section
11.5). -/
inductive BeforeChoice where
  | nothing
  | lreqAsserted
  | holdTimerExpiry
  | command
deriving DecidableEq, Repr

/-- The order in which the events of a row that leads to IDLE fall: the requests for reports of different blocks (R121; log
entry 5), and what comes before the arbiter's choice (log entry 26). -/
structure IdleOrder where
  reports : List ReportSource
  before  : BeforeChoice
deriving DecidableEq, Repr

/-- The commands and events the block takes, one constructor per row of spec/opcode_table.json.

The twenty rows from `hello` to `badType` are takings of a message by the command processor (R138). Their operands are
the bytes of that message, which stands at the head of the inbound buffer of the state, so the constructors carry none
(DESIGN CHOICE, log entry 2).

The operand `order` of three rows says in which order the requests of different blocks reach the report unit, which R121
leaves open (DESIGN CHOICE, log entry 5), and at QUIET_TIMER_EXPIRY and LREQ_NEGATED which event, if any, comes before the
arbiter's choice that follows, which R117 and R158 leave open (DESIGN CHOICE, log entry 26). -/
inductive Instr where
  | hello
  | lineSetup
  | status
  | stationDefine
  | stationRemove
  | stationQuery
  | cycleSet
  | cycleStart
  | cycleStop
  | cycleQuery
  | imageWrite
  | imageRead
  | submit
  | cancel
  | ticketQuery
  | credit
  | holdSetup
  | resume
  | restart
  | badType
  /-- A byte on HRXD; `stopBit` is the level sampled at its stop bit, false for a framing error (R133, R135). -/
  | hostByteReceived (value : Byte) (stopBit : Bool)
  | hostGapTimeout
  | responseTaken
  | reportTaken
  | transmitEnd
  /-- The end of the RESTART response (R146). `crcByte` is the second CRC byte of a message that comes together with it, the
  restart being first (R147; log entry 25); none where no byte comes with it. -/
  | restartTakesEffect (crcByte : Option Byte)
  /-- RESET_N, with the strap pins as they stand when they are sampled (R133, R148). -/
  | pinReset (hrate1 hrate0 : Bool)
  /-- A falling edge on LRXD and the three samples of the start bit (R45). -/
  | startDetected (start : BitSamples)
  /-- The ten bits that follow a start bit (R45, R46). -/
  | characterDelivered (samples : CharSamples)
  | lowLineBrokenCharacter
  | frameSent
  | replyTimeoutExpiry
  | gapTimerExpiry
  | quietTimerExpiry (order : IdleOrder)
  | jamTimerExpiry (order : List ReportSource)
  | periodTimerExpiry
  | holdTimerExpiry
  | lreqAsserted
  | lreqNegated (order : IdleOrder)
  | limitTimerExpiry
  | hrxdStartBit
deriving DecidableEq, Repr

end Sys2Proof
end

