-- ==== Sys2Proof/WellFormed.lean ====
section
/-! DEFINITION. The checks a command must pass to be one the block can be given. The operand types leave few ill-formed
terms: only an `order` can name a block that asks for no report at its row. -/

namespace Sys2Proof

/-- The blocks whose requests can fall at the end of an exchange: the station table (R11), the image (R28), the ticket
table (R114) and the scheduler (R97). -/
def ReportSource.asksAtExchangeEnd : ReportSource → Bool
  | .stationTable | .image | .ticketTable | .scheduler => true
  | .engine | .supervision => false

/-- The blocks whose requests can fall at a jam: the engine (R72), the station table, the ticket table and the scheduler.
The exchange ends BROKEN, so the image asks for nothing (R27). -/
def ReportSource.asksAtJam : ReportSource → Bool
  | .engine | .stationTable | .ticketTable | .scheduler => true
  | .image | .supervision => false

/-- The blocks whose requests fall at the line's return: the station table (R10, R11) and the supervision unit (R158). -/
def ReportSource.asksAtReturn : ReportSource → Bool
  | .stationTable | .supervision => true
  | .engine | .image | .ticketTable | .scheduler => false

/-- A command is well formed when its `order`, if it has one, names only blocks that can ask at its row. -/
def Instr.wellFormed : Instr → Bool
  | .quietTimerExpiry order => order.reports.all ReportSource.asksAtExchangeEnd
  | .jamTimerExpiry order => order.all ReportSource.asksAtJam
  | .lreqNegated order => order.reports.all ReportSource.asksAtReturn
  | .hello | .lineSetup | .status | .stationDefine | .stationRemove | .stationQuery | .cycleSet | .cycleStart
  | .cycleStop | .cycleQuery | .imageWrite | .imageRead | .submit | .cancel | .ticketQuery | .credit | .holdSetup
  | .resume | .restart | .badType | .hostByteReceived _ _ | .hostGapTimeout | .responseTaken | .reportTaken
  | .transmitEnd | .restartTakesEffect _ | .pinReset _ _ | .startDetected _ | .characterDelivered _
  | .lowLineBrokenCharacter | .frameSent | .replyTimeoutExpiry | .gapTimerExpiry | .periodTimerExpiry
  | .holdTimerExpiry | .lreqAsserted | .limitTimerExpiry | .hrxdStartBit => true

end Sys2Proof
end

