-- ==== Sys2Proof/Decode.lean ====
section
/-! DEFINITION. Reading a command from a word. spec/opcode_table.json gives no row any bits: the block fetches no
instruction, and its commands are events. -/

namespace Sys2Proof

/-- The command that a word spells by the table's bits: none, for no row of the table gives bits. -/
def decodeTableWord (_nbits _w : Nat) : Option Instr := none

end Sys2Proof
end

