-- ==== Sys2Proof/Machine/State.lean ====
section
/-! DEFINITION. The state of the part, block by block, as plain data; the reasons a command can stop; and the state
right after pin reset. Field names are the manual's. -/

namespace Sys2Proof.Machine

/-! ## Station table (spec/01_station_table.md) -/

/-- Health states (section 1.2). -/
inductive Health where
  | unused | absent | online | suspect | offline | mismatch
deriving DecidableEq, Repr

/-- When a GOOD input delivery asks for an INPUT_CHANGE report (R2, R28). -/
inductive Notify where
  | none | onChange | every
deriving DecidableEq, Repr

/-- The host's description of a station (R2). -/
structure Profile where
  kind        : Half
  inLen       : Nat
  outLen      : Nat
  failLimit   : Nat
  divisor     : Nat
  notify      : Notify
  probeEnable : Bool
deriving DecidableEq, Repr

/-- What a station reported in its last GOOD PROBE reply (R1, R7). -/
structure Identity where
  kind   : Half
  inLen  : Byte
  outLen : Byte
deriving DecidableEq, Repr

/-- The four counters of an entry, 16 bits each (R3). -/
structure Counters where
  good           : Half
  failedAttempts : Half
  refusals       : Half
  desyncs        : Half
deriving DecidableEq, Repr

/-- All four counters 0 (R3). -/
def Counters.zero : Counters := ⟨0, 0, 0, 0⟩

/-- One entry of the station table (R1). -/
structure StationEntry where
  state    : Health
  profile  : Option Profile
  toggle   : Bool
  failRun  : Nat
  identity : Option Identity
  counters : Counters
deriving DecidableEq, Repr

/-- An UNUSED entry (R1, R21). -/
def StationEntry.unused : StationEntry :=
  { state := .unused, profile := none, toggle := false, failRun := 0, identity := none, counters := .zero }

/-! ## Process image (spec/02_process_image.md) -/

inductive InState where
  | none | fresh | stale
deriving DecidableEq, Repr

inductive OutState where
  | unset | dirty | sending | clean
deriving DecidableEq, Repr

/-- An input area (R26). -/
structure InputArea where
  bytes : List Byte
  state : InState
  gen   : Half
deriving DecidableEq, Repr

/-- An output area (R30). -/
structure OutputArea where
  bytes : List Byte
  state : OutState
  gen   : Half
deriving DecidableEq, Repr

/-- The two areas of a defined station (R23). -/
structure Areas where
  input  : InputArea
  output : OutputArea
deriving DecidableEq, Repr

/-! ## Station line and exchange engine (spec/03, spec/04) -/

/-- A station-line character as sent or as taken into a reply: eight value bits and the mark bit (R42). -/
structure LineChar where
  value : Byte
  mark  : Bool
deriving DecidableEq, Repr

/-- A finished character as the receiver hands it to the engine, with its class (R46): `broken` when the stop bit's
majority is 0, `noisy` when the samples of a data bit or of the stop bit disagree. -/
structure RxChar where
  value  : Byte
  mark   : Bool
  broken : Bool
  noisy  : Bool
deriving DecidableEq, Repr

/-- The receiver's sampling state (R44 to R47). -/
inductive LineRx where
  /-- Off: LDE is asserted or the line is lent (R44). -/
  | off
  /-- Turned on, no falling edge seen since; the line may still be low (R44). -/
  | turnedOn
  /-- Seeking a falling edge on a line that has been high. -/
  | seeking
  /-- A character is in reception, at the rate index in force at its falling edge (R43, R45). -/
  | receiving (rateIndex : Nat)
  /-- After a broken character: the line is low until it is seen high (R46). -/
  | waitHigh
deriving DecidableEq, Repr

/-- The twelve line statistics, 16 bits each (R59). -/
structure LineStats where
  framesSent    : Half
  goodReplies   : Half
  noReply       : Half
  broken        : Half
  wrongStation  : Half
  desync        : Half
  late          : Half
  stray         : Half
  noiseMarked   : Half
  framingErrors : Half
  falseStarts   : Half
  jams          : Half
deriving DecidableEq, Repr

/-- All twelve line statistics 0 (R60). -/
def LineStats.zero : LineStats := ⟨0, 0, 0, 0, 0, 0, 0, 0, 0, 0, 0, 0⟩

/-- The line port. -/
structure LinePort where
  rateIndex    : Nat
  replyTimeout : Nat
  retryCount   : Nat
  rx           : LineRx
  stats        : LineStats
deriving DecidableEq, Repr

/-- The seven functions of the station line (R50). -/
inductive LineFunction where
  | exchange | sample | probe | paramRead | paramWrite | hold | release
deriving DecidableEq, Repr

/-- What an exchange was taken for (R61). -/
inductive Origin where
  | cyclic
  | ticket (id : Byte)
  | discovery
  | resync
  | broadcast
deriving DecidableEq, Repr

/-- The outcome of an attempt, and of an exchange (R68, R74). -/
inductive AttemptOutcome where
  | good | refused | notReady | noReply | broken | wrongStation | desync
deriving DecidableEq, Repr

/-- The exchange record (R61). -/
structure ExchangeRecord where
  station        : Nat
  func           : LineFunction
  origin         : Origin
  toggle         : Bool
  data           : List Byte
  attempt        : Nat
  attemptLimit   : Nat
  failedAttempts : Nat
  lastOutcome    : Option AttemptOutcome
  reply          : List LineChar
  discard        : Bool
  noRetry        : Bool
deriving DecidableEq, Repr

/-- The three guards (R70). -/
inductive GuardKind where
  | turnaround | quiet | broadcast
deriving DecidableEq, Repr

/-- The six engine states (section 4.2). GUARD holds the kind of guard in force; with no record it is the jam wait
(R73). -/
inductive EngineState where
  | idle
  | sending
  | awaiting
  | receiving
  | guard (kind : GuardKind)
  | released
deriving DecidableEq, Repr

/-- The exchange engine. A timer is `none` while stopped, and `some n` while it runs for the length n it was started for
(log entry 3). -/
structure Engine where
  state      : EngineState
  record     : Option ExchangeRecord
  replyTimer : Option Nat
  gapTimer   : Option Nat
  quietTimer : Option Nat
  jamTimer   : Option Nat
deriving DecidableEq, Repr

/-- An engine that holds no record and runs no timer, in the state given (R61, R63, R82). -/
def Engine.empty (st : EngineState) : Engine :=
  { state := st, record := none, replyTimer := none, gapTimer := none, quietTimer := none, jamTimer := none }

/-! ## Line arbiter and cycle scheduler (spec/05) -/

/-- The line arbiter. -/
structure Arbiter where
  demandAllowance : Nat
  probeCursor     : Nat
deriving DecidableEq, Repr

inductive SchedState where
  | stopped | active | resting
deriving DecidableEq, Repr

inductive CycleMode where
  | single | continuous
deriving DecidableEq, Repr

inductive CyclePhase where
  | slots | discovery
deriving DecidableEq, Repr

inductive StopRequest where
  | none | afterSlot | afterCycle
deriving DecidableEq, Repr

/-- The cycle summary (R95). -/
structure CycleSummary where
  cycleNumber : Half
  slotsInList : Byte
  exchanged   : Byte
  probed      : Byte
  skipped     : Byte
  failed      : Byte
  overrun     : Bool
  abandoned   : Bool
deriving DecidableEq, Repr

/-- The starting values of the summary of a cycle (R95). -/
def CycleSummary.start (number : Half) (slots : Nat) : CycleSummary :=
  { cycleNumber := number, slotsInList := BitVec.ofNat 8 slots, exchanged := 0, probed := 0, skipped := 0, failed := 0,
    overrun := false, abandoned := false }

/-- The cycle scheduler. -/
structure Scheduler where
  cycleList     : List Nat
  pendingList   : Option (List Nat)
  state         : SchedState
  mode          : CycleMode
  period        : Nat
  demandShare   : Nat
  probeBudget   : Nat
  cycleNumber   : Half
  phase         : CyclePhase
  slotCursor    : Nat
  startMark     : Nat
  probesIssued  : Nat
  periodTimer   : Option Nat
  stopRequest   : StopRequest
  slotInFlight  : Bool
  slotAbandoned : Bool
  summary       : CycleSummary
  overruns      : Half
deriving DecidableEq, Repr

/-! ## Ticket table (spec/06) -/

/-- The functions a ticket can carry (R106). -/
inductive TicketFunction where
  | sample | probe | paramRead | paramWrite
deriving DecidableEq, Repr

inductive Priority where
  | normal | urgent
deriving DecidableEq, Repr

/-- The status a reply carries (R49). -/
inductive ReplyStatus where
  | accept | refuse | notReady
deriving DecidableEq, Repr

/-- The ten outcomes of a ticket (R106). -/
inductive TicketOutcome where
  | completed | refused | notReady | noReply | broken | wrongStation | desync | stationDown | withdrawn | cancelled
deriving DecidableEq, Repr

/-- A ticket's result (R106). -/
structure TicketResult where
  outcome  : TicketOutcome
  status   : Option ReplyStatus
  data     : List Byte
  attempts : Nat
deriving DecidableEq, Repr

/-- A ticket's state; the result is present exactly in DONE (R106). -/
inductive TicketState where
  | queued
  | onLine
  | done (result : TicketResult)
deriving DecidableEq, Repr

/-- A ticket (R106). -/
structure Ticket where
  id       : Byte
  station  : Nat
  func     : TicketFunction
  data     : List Byte
  priority : Priority
  hostTag  : Half
  state    : TicketState
deriving DecidableEq, Repr

/-- The ticket table: the live tickets in queue order, and the id counter (R106, R107). -/
structure TicketTable where
  queue     : List Ticket
  idCounter : Byte
deriving DecidableEq, Repr

/-! ## Report unit (spec/07) -/

/-- The contents of a DEMAND_DONE entry (R125). -/
structure DemandDone where
  id       : Byte
  hostTag  : Half
  outcome  : TicketOutcome
  status   : Option ReplyStatus
  attempts : Nat
  data     : List Byte
deriving DecidableEq, Repr

/-- The causes a SUPERVISION request names (R128); `other` stands for resume and line returned. -/
inductive SupervisionCause where
  | holdEntered | handoverGranted | limitExpired | other
deriving DecidableEq, Repr

/-- A request to place a report (R121). -/
inductive ReportRequest where
  | inputChange (station : Nat)
  | stationState (station : Nat) (before : Health)
  | demandDone (content : DemandDone)
  | cycleDone (summary : CycleSummary)
  | lineFault (station : Nat)
  | supervision (cause : SupervisionCause)
deriving DecidableEq, Repr

/-- An entry of the report queue, with what it holds while it waits (R123 to R128). -/
inductive ReportEntry where
  | inputChange (station : Nat)
  | stationState (station : Nat) (before : Health) (count : Byte)
  | demandDone (content : DemandDone)
  | cycleDone (summary : CycleSummary) (merged : Byte)
  | lineFault (jams : Byte) (station : Nat)
  | supervision (holdEntries : Byte) (grants : Byte) (longHandover : Bool)
deriving DecidableEq, Repr

/-- The report unit (R120, R122, R130, R131). -/
structure ReportUnit where
  queue    : List ReportEntry
  credit   : Nat
  lost     : Byte
  sequence : Byte
deriving DecidableEq, Repr

/-- The report unit after a reset (R132). -/
def ReportUnit.initial : ReportUnit := { queue := [], credit := 0, lost := 0, sequence := 0 }

/-! ## Host link (spec/08) -/

/-- A message: TYPE, TAG and payload (R134). -/
structure Message where
  type    : Byte
  tag     : Byte
  payload : List Byte
deriving DecidableEq, Repr

/-- The receiver of the host link with the message in assembly (R135). `got` holds TYPE, TAG and payload so far. -/
inductive HostRx where
  | hunt
  | length
  | body (len : Byte) (got : List Byte)
  | crc (len : Byte) (got : List Byte) (first : Option Byte)
deriving DecidableEq, Repr

/-- The transmitter: free, or sending a message, held as the bytes of its frame (R141). -/
inductive Transmitter where
  | free
  | sendingResponse (frame : List Byte)
  | sendingReport (frame : List Byte)
deriving DecidableEq, Repr

inductive RestartLevel where
  | warm | cold
deriving DecidableEq, Repr

/-- The blocks that HELLO and STATUS read, each in one event of its own (R138, R144, R145). -/
inductive ReadBlock where
  | linePort | hostLink | supervision | scheduler | reportUnit | ticketTable | image
deriving DecidableEq, Repr

/-- The command processor: idle, or deciding the message it has taken, from its taking to the placement of its response
(R138, R141, R147). `reads` holds what HELLO or STATUS has read so far, block by block; it is empty for every other command. -/
inductive Processor where
  | idle
  | deciding (message : Message) (reads : List (ReadBlock × List Byte))
deriving DecidableEq, Repr

/-- The nine link statistics, 16 bits each (R143). -/
structure LinkStats where
  goodMessages  : Half
  huntDiscards  : Half
  lengthErrors  : Half
  framingErrors : Half
  gapTimeouts   : Half
  crcErrors     : Half
  drops         : Half
  responsesSent : Half
  reportsSent   : Half
deriving DecidableEq, Repr

/-- All nine link statistics 0 (R143). -/
def LinkStats.zero : LinkStats := ⟨0, 0, 0, 0, 0, 0, 0, 0, 0⟩

/-- The host link. `restart` is a restart arranged by RESTART that has not taken effect (R146). `waitHigh` says that a byte
with a framing error was the last and HRXD has not been seen high since (R133). -/
structure HostLink where
  rx        : HostRx
  waitHigh  : Bool
  gapTimer  : Option Nat
  inbound   : List Message
  dropped   : Byte
  processor : Processor
  response  : Option Message
  tx        : Transmitter
  restart   : Option RestartLevel
  stats     : LinkStats
  strap     : BitVec 2
deriving DecidableEq, Repr

/-- The host link after a reset, at the rate given (R147, R148). -/
def HostLink.initial (strap : BitVec 2) : HostLink :=
  { rx := .hunt, waitHigh := false, gapTimer := none, inbound := [], dropped := 0, processor := .idle, response := none,
    tx := .free, restart := none, stats := .zero, strap := strap }

/-! ## Supervision unit (spec/09) -/

inductive HoldState where
  | notHeld | held
deriving DecidableEq, Repr

inductive BroadcastClaim where
  | none | hold | release
deriving DecidableEq, Repr

inductive HandoverState where
  | none | requested | granted
deriving DecidableEq, Repr

/-- The supervision unit. -/
structure Supervision where
  holdTime      : Nat
  holdTimer     : Option Nat
  hold          : HoldState
  claim         : BroadcastClaim
  handoverLimit : Nat
  handover      : HandoverState
  limitTimer    : Option Nat
deriving DecidableEq, Repr

/-! ## The part -/

/-- The state of the part, and the queue of the commands and events still to come. -/
structure State where
  pending   : List Instr
  lreq      : Bool
  line      : LinePort
  engine    : Engine
  arbiter   : Arbiter
  sched     : Scheduler
  stations  : Vector StationEntry 63
  image     : Vector (Option Areas) 63
  tickets   : TicketTable
  reports   : ReportUnit
  host      : HostLink
  sup       : Supervision
  freeDraws : Nat
deriving DecidableEq, Repr

/-- The line port after pin reset (R47, R58, R60). -/
def LinePort.initial : LinePort :=
  { rateIndex := 3, replyTimeout := 10, retryCount := 1, rx := .turnedOn, stats := .zero }

/-- The scheduler after pin reset (R105). The start mark is the model's choice (log entry 6). -/
def Scheduler.initial : Scheduler :=
  { cycleList := [], pendingList := none, state := .stopped, mode := .single, period := 0, demandShare := 1,
    probeBudget := 0, cycleNumber := 0, phase := .slots, slotCursor := 0, startMark := 63, probesIssued := 0,
    periodTimer := none, stopRequest := .none, slotInFlight := false, slotAbandoned := false,
    summary := .start 0 0, overruns := 0 }

/-- The supervision unit after pin reset with LREQ negated (R159, R161). -/
def Supervision.initial : Supervision :=
  { holdTime := 0, holdTimer := none, hold := .notHeld, claim := .none, handoverLimit := 0, handover := .none,
    limitTimer := none }

/-- The part right after pin reset, with LREQ negated and both straps sampled 0 (log entries 7 and 8), and nothing
waiting. -/
def State.reset : State :=
  { pending := [], lreq := false, line := .initial, engine := .empty .idle,
    arbiter := { demandAllowance := 0, probeCursor := 63 }, sched := .initial,
    stations := Vector.replicate 63 .unused, image := Vector.replicate 63 none,
    tickets := { queue := [], idCounter := 0 }, reports := .initial, host := .initial 0, sup := .initial,
    freeDraws := 0 }

/-! ## Reasons a command stops -/

/-- The eight timers of the part. -/
inductive TimerName where
  | replyTimeout | gap | quiet | jam | period | hold | handoverLimit | hostGap
deriving DecidableEq, Repr

/-- Why a command stops with a fault. Each says that the event given cannot happen in the state it is given in, by the
rule named; the part itself raises nothing. All are safe: nothing is claimed of an event that the spec excludes (DESIGN
CHOICE, log entry 1). -/
inductive Fault where
  /-- A command row with nothing in the inbound buffer (R138). Safe. -/
  | noMessageWaiting
  /-- A command row whose TYPE is not that of the message at the head of the inbound buffer (R138). Safe. -/
  | otherMessageType
  /-- A command row while the response buffer holds a response, or between a RESTART's response and its taking effect
  (R138, R140, R146). Safe. -/
  | responseBufferHeld
  /-- A command row while another command is being decided: the processor takes messages one at a time (R138). Safe. -/
  | processorDeciding
  /-- RESPONSE_TAKEN or REPORT_TAKEN while the transmitter is sending (R141). Safe. -/
  | transmitterBusy
  /-- RESPONSE_TAKEN with no response waiting (R141). Safe. -/
  | noResponseWaiting
  /-- REPORT_TAKEN with a response waiting, an empty queue or no credit (R131, R141), while a command is being decided (R141),
  or while a restart is due (R146). Safe. -/
  | noReportOffered
  /-- TRANSMIT_END while the transmitter is free (R142). Safe. -/
  | transmitterFree
  /-- RESTART_TAKES_EFFECT with no restart arranged, or before its response is being sent (R146). Safe. -/
  | noRestartDue
  /-- RESTART_TAKES_EFFECT together with a second CRC byte that no message in assembly awaits (R147). Safe. -/
  | noMessageEnding
  /-- QUIET_TIMER_EXPIRY with an event named to come before a choice, where the guard ends in a retry and no choice follows
  (R69, R100). Safe. -/
  | noChoiceFollows
  /-- FRAME_SENT while the engine is not SENDING (R64). Safe. -/
  | noFrameInProgress
  /-- The expiry of a timer that is not running. Safe. -/
  | timerStopped (timer : TimerName)
  /-- CHARACTER_DELIVERED with the receiver on and no character in reception (R45). Safe. -/
  | noCharacterInReception
  /-- LOW_LINE_BROKEN_CHARACTER while the receiver seeks a falling edge on a high line or receives a character (R44, R46). Safe. -/
  | lineNotFoundLow
  /-- LREQ_ASSERTED with LREQ asserted, or LREQ_NEGATED with LREQ negated. Safe. -/
  | lreqUnchanged
deriving DecidableEq, Repr

/-- Why a command has no meaning. -/
inductive Refusal where
  /-- Raised by `exec` for a row of the table that has no meaning yet. Safe. -/
  | notModelled (mnemonic : String)
deriving DecidableEq, Repr

end Sys2Proof.Machine
end

