-- ==== Sys2Proof/Machine/Crc.lean ====
section
/-! DEFINITION. The two checks: the CRC-8 of the station line (R51) and the CRC-16 of the host link (R134). -/

namespace Sys2Proof.Machine

/-- One shift of the CRC-8 register (R51). -/
def crc8Shift (r : Byte) : Byte := if r.msb then (r <<< 1) ^^^ 0x2F else r <<< 1

/-- One value byte taken into the CRC-8 register (R51). -/
def crc8Step (r b : Byte) : Byte := Nat.repeat crc8Shift 8 (r ^^^ b)

/-- The check character's value over the value bytes of a frame (R51). -/
def crc8 (bytes : List Byte) : Byte := bytes.foldl crc8Step 0x00

/-- One shift of the CRC-16 register (R134). -/
def crc16Shift (r : Half) : Half := if r.msb then (r <<< 1) ^^^ 0x1021 else r <<< 1

/-- One byte taken into the CRC-16 register (R134). -/
def crc16Step (r : Half) (b : Byte) : Half := Nat.repeat crc16Shift 8 (r ^^^ (b.setWidth 16 <<< 8))

/-- The CRC of a host link frame over LEN, TYPE, TAG and payload (R134). -/
def crc16 (bytes : List Byte) : Half := bytes.foldl crc16Step 0xFFFF

end Sys2Proof.Machine
end

