-- ==== Sys2Proof/Machine/Flags.lean ====
section
/-! DEFINITION. Counters and the yes-or-no judgements the rules compute: saturating counts, classes of outcomes, guards. -/

namespace Sys2Proof.Machine

/-- One more on a saturating 16-bit counter (section 5.3 of the scope, R59, R143). -/
def satInc (c : Half) : Half := if c = 0xFFFF then c else c + 1

/-- `n` more on a saturating 16-bit counter (R3). -/
def satAdd (c : Half) (n : Nat) : Half := BitVec.ofNat 16 (min (c.toNat + n) 0xFFFF)

/-- One more on a saturating 8-bit count (R95, R122, R124, R126 to R128, R137). -/
def satInc8 (c : Byte) : Byte := if c = 0xFF then c else c + 1

/-- A timer started for a length of 0 does not run (R88, R149, R156). -/
def timerFor (length : Nat) : Option Nat := if length = 0 then none else some length

/-- The attempts that count as failed (R4, R68). -/
def AttemptOutcome.isFailedAttempt : AttemptOutcome → Bool
  | .noReply | .broken | .wrongStation => true
  | .good | .refused | .notReady | .desync => false

/-- The outcomes that allow a retry (R68). -/
def AttemptOutcome.allowsRetry : AttemptOutcome → Bool
  | .noReply | .broken | .wrongStation => true
  | .good | .refused | .notReady | .desync => false

/-- The outcomes that are failures for the health of a station under a data function (R6, R75) and for the summary
(R95). -/
def AttemptOutcome.isFailure : AttemptOutcome → Bool
  | .noReply | .broken | .wrongStation | .desync => true
  | .good | .refused | .notReady => false

/-- The guard an outcome calls for (R68, R70). -/
def AttemptOutcome.guardKind : AttemptOutcome → GuardKind
  | .good | .refused | .notReady => .turnaround
  | .noReply | .broken | .wrongStation | .desync => .quiet

/-- The length of a guard, in CT (R70). -/
def GuardKind.length : GuardKind → Nat
  | .turnaround => Config.turnaroundGuardCT
  | .quiet => Config.quietGuardCT
  | .broadcast => Config.broadcastGuardCT

/-- The four data functions (R4). -/
def LineFunction.isData : LineFunction → Bool
  | .exchange | .sample | .paramRead | .paramWrite => true
  | .probe | .hold | .release => false

/-- The functions that are not started while the part is held (R80, R153). -/
def LineFunction.heldForbidden : LineFunction → Bool
  | .exchange | .paramWrite => true
  | .sample | .paramRead | .probe | .hold | .release => false

/-- The function a ticket puts on the line (R106, R111). -/
def TicketFunction.onLine : TicketFunction → LineFunction
  | .sample => .sample
  | .probe => .probe
  | .paramRead => .paramRead
  | .paramWrite => .paramWrite

/-- The data length that suits a ticket's function (R108, check 4). -/
def TicketFunction.suits : TicketFunction → Nat → Bool
  | .sample, n | .probe, n => n == 0
  | .paramRead, n => n == 1
  | .paramWrite, n => decide (2 ≤ n ∧ n ≤ 17)

/-- The line statistic of an attempt's outcome; REFUSED and NOT_READY have none (R59, R68). -/
def LineStats.countOutcome (st : LineStats) : AttemptOutcome → LineStats
  | .good => { st with goodReplies := satInc st.goodReplies }
  | .noReply => { st with noReply := satInc st.noReply }
  | .broken => { st with broken := satInc st.broken }
  | .wrongStation => { st with wrongStation := satInc st.wrongStation }
  | .desync => { st with desync := satInc st.desync }
  | .refused | .notReady => st

/-- The statistics a delivered character moves by its class (R46). -/
def LineStats.countClass (st : LineStats) (c : RxChar) : LineStats :=
  { st with
    noiseMarked := if c.noisy then satInc st.noiseMarked else st.noiseMarked
    framingErrors := if c.broken then satInc st.framingErrors else st.framingErrors }

/-- An identity matches a profile (R7). -/
def Identity.matchesProfile (i : Identity) (p : Profile) : Bool :=
  (p.kind == 0 || p.kind == i.kind) && p.inLen == i.inLen.toNat && p.outLen == i.outLen.toNat

/-- The bytes a profile takes of the image store (R23). -/
def Profile.allocation (p : Profile) : Nat := p.inLen + p.outLen

/-- A candidate for a discovery probe (R92). -/
def StationEntry.isCandidate (e : StationEntry) : Bool :=
  match e.profile with
  | none => false
  | some p => p.probeEnable && (e.state == .absent || e.state == .offline)

/-- A ticket that is QUEUED. -/
def Ticket.isQueued (t : Ticket) : Bool := t.state == .queued

/-- A ticket that is DONE. -/
def Ticket.isDone (t : Ticket) : Bool :=
  match t.state with
  | .done _ => true
  | .queued | .onLine => false

/-- A waiting ticket in the sense of R109 and R110: QUEUED or ON_LINE. -/
def Ticket.isWaiting (t : Ticket) : Bool := !t.isDone

/-- A QUEUED ticket is blocked by a waiting ticket of its station ahead of it, or by hold if it is a PARAM_WRITE
(R110). -/
def Ticket.blockedBehind (ahead : List Ticket) (held : Bool) (t : Ticket) : Bool :=
  ahead.any (fun u => u.station == t.station && u.isWaiting) || (t.func == .paramWrite && held)

/-- A notice entry: every kind but DEMAND_DONE (R120). -/
def ReportEntry.isNotice : ReportEntry → Bool
  | .demandDone _ => false
  | .inputChange _ | .stationState _ _ _ | .cycleDone _ _ | .lineFault _ _ | .supervision _ _ _ => true

/-- A request for a completion report, which always finds a place (R120, R122). -/
def ReportRequest.isCompletion : ReportRequest → Bool
  | .demandDone _ => true
  | .inputChange _ | .stationState _ _ | .cycleDone _ | .lineFault _ | .supervision _ => false

/-- Whether a delivery of `bytes` to an input area asks for an INPUT_CHANGE report (R28). -/
def Notify.asks (n : Notify) (before : InputArea) (bytes : List Byte) : Bool :=
  match n with
  | .none => false
  | .onChange => bytes != before.bytes || before.state != .fresh
  | .every => true

/-- A cycle that handed the arbiter no exchange at all (R93): nothing was exchanged and nothing probed. -/
def CycleSummary.isEmptyPass (c : CycleSummary) : Bool := c.exchanged == 0 && c.probed == 0

end Sys2Proof.Machine
end

