-- ==== Sys2Proof/Machine/Operands.lean ====
section
/-! DEFINITION. The forms in which operands come and go: bit samples and line characters (R42, R45, R46), line frames
(R48, R49), the bytes and frames of the host link (R133, R134), the encodings of enumerated fields (R162), and the
payload layouts of the commands (R163). -/

namespace Sys2Proof

/-- The majority value of a bit's three samples (R45). -/
def BitSamples.majority (b : BitSamples) : Bool :=
  (b.first && b.second) || (b.first && b.third) || (b.second && b.third)

/-- All three samples agree (R46). -/
def BitSamples.agree (b : BitSamples) : Bool := b.first == b.second && b.second == b.third

namespace Machine

/-! ## Bits, bytes and line characters -/

/-- The byte whose bits, bit 0 first, are given (R42). -/
def byteOfBits (bits : List Bool) : Byte := BitVec.ofNat 8 (bits.foldr (fun b n => b.toNat + 2 * n) 0)

/-- The eight bits of a byte, bit 0 first (section 5.2 of the scope). -/
def bitsOfByte (b : Byte) : List Bool := (List.range 8).map b.getLsbD

/-- The eleven bits of a line character in the order sent: start bit low, value bits, mark bit, stop bit high (R42). -/
def LineChar.bits (c : LineChar) : List Bool := [false] ++ bitsOfByte c.value ++ [c.mark, true]

/-- The ten bits of a host link byte in the order sent (R133). -/
def hostByteBits (b : Byte) : List Bool := [false] ++ bitsOfByte b ++ [true]

/-- The class and value of a finished character from the samples of its ten bits (R46). The mark bit is the ninth data
bit (DEDUCED, log entry 19). -/
def classify (c : CharSamples) : RxChar :=
  { value := byteOfBits (c.value.toList.map BitSamples.majority)
    mark := c.mark.majority
    broken := !c.stop.majority
    noisy := !(c.value.toList.all BitSamples.agree && c.mark.agree && c.stop.agree) }

/-- The broken character that a full CT of low line delivers: value bits 0 and M 0 (R44, R46). -/
def lowLineChar : RxChar := { value := 0, mark := false, broken := true, noisy := false }

/-- A number carried in one byte. -/
def byte (n : Nat) : Byte := BitVec.ofNat 8 n

/-- A flag or presence indicator (R162). -/
def flag (b : Bool) : Byte := if b then 1 else 0

/-- A two-byte field, low byte first (section 5.2 of the scope). -/
def le16 (h : Half) : List Byte := [h.setWidth 8, (h >>> 8).setWidth 8]

/-- A two-byte field read low byte first. -/
def half (lo hi : Byte) : Half := (hi.setWidth 16 <<< 8) ||| lo.setWidth 16

/-! ## Encodings (R162, R50) -/

/-- The function character's value (R50). -/
def LineFunction.code : LineFunction → Byte
  | .exchange => 1 | .sample => 2 | .probe => 3 | .paramRead => 4 | .paramWrite => 5 | .hold => 6 | .release => 7

def Health.code : Health → Byte
  | .unused => 0 | .absent => 1 | .online => 2 | .suspect => 3 | .offline => 4 | .mismatch => 5

def Notify.code : Notify → Byte
  | .none => 0 | .onChange => 1 | .every => 2

def Priority.code : Priority → Byte
  | .normal => 0 | .urgent => 1

def TicketState.code : TicketState → Byte
  | .queued => 0 | .onLine => 1 | .done _ => 2

def TicketOutcome.code : TicketOutcome → Byte
  | .completed => 0 | .refused => 1 | .notReady => 2 | .noReply => 3 | .broken => 4 | .wrongStation => 5
  | .desync => 6 | .stationDown => 7 | .withdrawn => 8 | .cancelled => 9

def ReplyStatus.code : ReplyStatus → Byte
  | .accept => 0 | .refuse => 1 | .notReady => 2

def SchedState.code : SchedState → Byte
  | .stopped => 0 | .active => 1 | .resting => 2

def CycleMode.code : CycleMode → Byte
  | .single => 0 | .continuous => 1

def CyclePhase.code : CyclePhase → Byte
  | .slots => 0 | .discovery => 1

def StopRequest.code : StopRequest → Byte
  | .none => 0 | .afterSlot => 1 | .afterCycle => 2

def InState.code : InState → Byte
  | .none => 0 | .fresh => 1 | .stale => 2

def OutState.code : OutState → Byte
  | .unset => 0 | .dirty => 1 | .sending => 2 | .clean => 3

def HoldState.code : HoldState → Byte
  | .notHeld => 0 | .held => 1

def HandoverState.code : HandoverState → Byte
  | .none => 0 | .requested => 1 | .granted => 2

def RestartLevel.code : RestartLevel → Byte
  | .warm => 0 | .cold => 1

/-- An optional reply status; absent is 0xFF (R162). -/
def statusByte : Option ReplyStatus → Byte
  | some st => st.code
  | none => 0xFF

/-- A flag a command carries: 0 or 1, and anything else is reserved (R162). -/
def decodeFlag (b : Byte) : Option Bool :=
  if b = 0 then some false else if b = 1 then some true else none

def decodeNotify (b : Byte) : Option Notify :=
  if b = 0 then some .none else if b = 1 then some .onChange else if b = 2 then some .every else none

/-- A SUBMIT function byte; EXCHANGE, HOLD and RELEASE are reserved here (R162). -/
def decodeTicketFunction (b : Byte) : Option TicketFunction :=
  if b = 2 then some .sample else if b = 3 then some .probe else if b = 4 then some .paramRead
  else if b = 5 then some .paramWrite else none

def decodePriority (b : Byte) : Option Priority :=
  if b = 0 then some .normal else if b = 1 then some .urgent else none

def decodeMode (b : Byte) : Option CycleMode :=
  if b = 0 then some .single else if b = 1 then some .continuous else none

/-- CYCLE_STOP *when* (R162): the stop request it asks for. -/
def decodeWhen (b : Byte) : Option StopRequest :=
  if b = 0 then some .afterSlot else if b = 1 then some .afterCycle else none

def decodeLevel (b : Byte) : Option RestartLevel :=
  if b = 0 then some .warm else if b = 1 then some .cold else none

/-- The reply status of a status character; 3..255 are none (R49). -/
def decodeStatus (b : Byte) : Option ReplyStatus :=
  if b = 0 then some .accept else if b = 1 then some .refuse else if b = 2 then some .notReady else none

/-- The twelve result codes of a response (R139). -/
inductive Result where
  | ok | badLength | badType | badField | wrongState | noStation | noSpace | queueFull | noTicket | tooLate
  | alreadyDone | range
deriving DecidableEq, Repr

def Result.code : Result → Byte
  | .ok => 0 | .badLength => 1 | .badType => 2 | .badField => 3 | .wrongState => 4 | .noStation => 5 | .noSpace => 6
  | .queueFull => 7 | .noTicket => 8 | .tooLate => 9 | .alreadyDone => 10 | .range => 11

/-! ## Station-line frames (R48, R49) -/

/-- The address character of a request: station, T, request direction (R48). -/
def requestAddress (station : Nat) (toggle : Bool) : Byte := byte (station + 64 * toggle.toNat)

/-- The value bytes of a frame and its check character, the first with M 1 and the others with M 0 (R48, R51). -/
def frameOfBytes : List Byte → List LineChar
  | [] => []
  | first :: rest =>
    ⟨first, true⟩ :: (rest ++ [crc8 (first :: rest)]).map (fun b => ⟨b, false⟩)

/-- The frame sent in every attempt of an exchange or in a broadcast (R48, R64). -/
def ExchangeRecord.frame (r : ExchangeRecord) : List LineChar :=
  frameOfBytes ([requestAddress r.station r.toggle, r.func.code, byte r.data.length] ++ r.data)

/-- The value of the reply character at a position, 0 where the reply is shorter. -/
def ExchangeRecord.replyByte (r : ExchangeRecord) (i : Nat) : Byte := ((r.reply[i]?).map LineChar.value).getD 0

/-- The data characters of a complete reply: those between the length and the check (R49). -/
def ExchangeRecord.replyData (r : ExchangeRecord) : List Byte := ((r.reply.drop 3).dropLast).map LineChar.value

/-- The status of a complete reply (R49). -/
def ExchangeRecord.replyStatus (r : ExchangeRecord) : Option ReplyStatus := decodeStatus (r.replyByte 1)

/-- The identity a PROBE reply's data bytes carry (R50). -/
def identityOf (data : List Byte) : Identity :=
  { kind := half (data[0]?.getD 0) (data[1]?.getD 0), inLen := data[2]?.getD 0, outLen := data[3]?.getD 0 }

/-! ## Host link frames (R134) -/

/-- The SYNC byte (R134). -/
def syncByte : Byte := 0x5A

/-- The bytes a message's CRC covers: LEN, TYPE, TAG and payload (R134). -/
def Message.covered (m : Message) : List Byte := byte (m.payload.length + 2) :: m.type :: m.tag :: m.payload

/-- The bytes of a message's frame (R134). -/
def Message.frame (m : Message) : List Byte := syncByte :: (m.covered ++ le16 (crc16 m.covered))

/-! ## Payloads of the commands (R163) -/

/-- The TYPE codes of the nineteen commands (R163). -/
def typeHello : Byte := 0x01
def typeLineSetup : Byte := 0x02
def typeStatus : Byte := 0x03
def typeStationDefine : Byte := 0x10
def typeStationRemove : Byte := 0x11
def typeStationQuery : Byte := 0x12
def typeCycleSet : Byte := 0x20
def typeCycleStart : Byte := 0x21
def typeCycleStop : Byte := 0x22
def typeCycleQuery : Byte := 0x23
def typeImageWrite : Byte := 0x30
def typeImageRead : Byte := 0x31
def typeSubmit : Byte := 0x40
def typeCancel : Byte := 0x41
def typeTicketQuery : Byte := 0x42
def typeCredit : Byte := 0x50
def typeHoldSetup : Byte := 0x60
def typeResume : Byte := 0x61
def typeRestart : Byte := 0x70

/-- The command TYPEs assigned (R138 step 1, R163). -/
def commandTypes : List Byte :=
  [typeHello, typeLineSetup, typeStatus, typeStationDefine, typeStationRemove, typeStationQuery, typeCycleSet,
   typeCycleStart, typeCycleStop, typeCycleQuery, typeImageWrite, typeImageRead, typeSubmit, typeCancel,
   typeTicketQuery, typeCredit, typeHoldSetup, typeResume, typeRestart]

/-- The fields of STATION_DEFINE as they stand in the payload. -/
structure DefineFields where
  address     : Nat
  kind        : Half
  inLen       : Nat
  outLen      : Nat
  failLimit   : Nat
  divisor     : Nat
  notify      : Byte
  probeEnable : Byte
deriving DecidableEq, Repr

/-- One item of IMAGE_WRITE (R34). -/
structure WriteItem where
  address : Nat
  offset  : Nat
  data    : List Byte
deriving DecidableEq, Repr

/-- The fields of CYCLE_START as they stand in the payload. -/
structure StartFields where
  mode        : Byte
  period      : Nat
  demandShare : Nat
  probeBudget : Nat
deriving DecidableEq, Repr

/-- The fields of SUBMIT as they stand in the payload. -/
structure SubmitFields where
  address  : Nat
  func     : Byte
  priority : Byte
  hostTag  : Half
  data     : List Byte
deriving DecidableEq, Repr

/-- A payload of no bytes (HELLO, RESUME). -/
def parseEmpty : List Byte → Option Unit
  | [] => some ()
  | _ :: _ => none

/-- A payload of one byte. -/
def parseOne : List Byte → Option Byte
  | [b] => some b
  | _ => none

/-- LINE_SETUP: rate index, reply timeout, retry count. -/
def parseLineSetup : List Byte → Option (Nat × Nat × Nat)
  | [rate, timeout, retries] => some (rate.toNat, timeout.toNat, retries.toNat)
  | _ => none

/-- STATION_QUERY: address, clear flag. -/
def parseStationQuery : List Byte → Option (Nat × Byte)
  | [a, c] => some (a.toNat, c)
  | _ => none

/-- STATION_DEFINE. -/
def parseDefine : List Byte → Option DefineFields
  | [a, k0, k1, il, ol, fl, dv, nt, pe] =>
    some { address := a.toNat, kind := half k0 k1, inLen := il.toNat, outLen := ol.toNat, failLimit := fl.toNat,
           divisor := dv.toNat, notify := nt, probeEnable := pe }
  | _ => none

/-- CYCLE_SET: a slot count and exactly that many addresses. -/
def parseCycleSet : List Byte → Option (List Nat)
  | [] => none
  | n :: addrs => if addrs.length = n.toNat then some (addrs.map BitVec.toNat) else none

/-- CYCLE_START. -/
def parseStart : List Byte → Option StartFields
  | [m, p0, p1, ds, pb] =>
    some { mode := m, period := (half p0 p1).toNat, demandShare := ds.toNat, probeBudget := pb.toNat }
  | _ => none

/-- `k` items of IMAGE_WRITE that end exactly at the payload's end, each of 1..32 data bytes. -/
def parseItems : Nat → List Byte → Option (List WriteItem)
  | 0, [] => some []
  | 0, _ :: _ => none
  | k + 1, a :: off :: m :: rest =>
    if 1 ≤ m.toNat ∧ m.toNat ≤ 32 ∧ m.toNat ≤ rest.length then
      (parseItems k (rest.drop m.toNat)).map
        (fun items => { address := a.toNat, offset := off.toNat, data := rest.take m.toNat } :: items)
    else none
  | _ + 1, _ => none

/-- IMAGE_WRITE: 1..4 items. -/
def parseImageWrite : List Byte → Option (List WriteItem)
  | [] => none
  | k :: rest => if 1 ≤ k.toNat ∧ k.toNat ≤ 4 then parseItems k.toNat rest else none

/-- IMAGE_READ: one or two addresses. -/
def parseImageRead : List Byte → Option (List Nat)
  | [] => none
  | k :: addrs =>
    if (k.toNat = 1 ∨ k.toNat = 2) ∧ addrs.length = k.toNat then some (addrs.map BitVec.toNat) else none

/-- SUBMIT: a data length and exactly that many data bytes. -/
def parseSubmit : List Byte → Option SubmitFields
  | a :: f :: p :: t0 :: t1 :: d :: data =>
    if data.length = d.toNat then
      some { address := a.toNat, func := f, priority := p, hostTag := half t0 t1, data := data }
    else none
  | _ => none

/-- HOLD_SETUP: hold time, handover limit. -/
def parseHoldSetup : List Byte → Option (Nat × Nat)
  | [t0, t1, l] => some ((half t0 t1).toNat, l.toNat)
  | _ => none

end Machine

end Sys2Proof
end

