-- ==== Sys2Proof/Machine/Ops.lean ====
section
/-! DEFINITION. The shared operations, block by block: entries and areas (spec/01, spec/02), the report unit (spec/07),
the ticket table (spec/06), the outcome record at the station table (R3 to R12), and what the image does at a capture and
at the end of an exchange (R27 to R33). -/

namespace Sys2Proof.Machine

/-- The outcome of a command whose event can happen only under a guard: the next state, or the fault that names what
excludes it (log entry 1). -/
def guarded (possible : Bool) (fault : Fault) (next : State) : Host.Outcome State Fault Refusal :=
  if possible then .next next else .fault fault

/-! ## Pins and views -/

/-- The part is held (R151). -/
def State.isHeld (s : State) : Bool := s.sup.hold == .held

/-- LDE is asserted exactly in SENDING (section 4.2, R42). -/
def State.lde (s : State) : Bool := s.engine.state == .sending

/-- LGNT is asserted exactly while the line is granted (R156, R158). -/
def State.lgnt (s : State) : Bool := s.sup.handover == .granted

/-- The level of HOLD_N: low while the part is held (R151). -/
def State.holdN (s : State) : Bool := !s.isHeld

/-- The frame being sent on the station line, if any (R64). -/
def State.frameOnLine (s : State) : List LineChar :=
  if s.lde then
    match s.engine.record with
    | some r => r.frame
    | none => []
  else []

/-- The bits of the frame being sent, in the order they stand on LTXD (R42). -/
def State.ltxdBits (s : State) : List Bool := s.frameOnLine.flatMap LineChar.bits

/-- The level of LTXD `k` bit times after the frame in progress was begun: the frame's bits while LDE is asserted, and high,
the idle level, while it is negated, at once after a reset too (R42, R47). -/
def State.ltxd (s : State) (k : Nat) : Bool := if s.lde then (s.ltxdBits[k]?).getD true else true

/-- The bytes of the message being sent on the host link, if any (R141). -/
def Transmitter.frame : Transmitter → List Byte
  | .free => []
  | .sendingResponse f | .sendingReport f => f

/-- The bits of the message being sent, in the order they stand on HTXD (R133). -/
def State.htxdBits (s : State) : List Bool := s.host.tx.frame.flatMap hostByteBits

/-- The level of HTXD `k` bit times after the message in progress was begun: the message's bits while one is being sent, and
high while the transmitter is free (R133, R142). -/
def State.htxd (s : State) (k : Nat) : Bool := (s.htxdBits[k]?).getD true

/-- The line rate in force, in bit/s (R43). -/
def State.lineBitRate (s : State) : Nat := Config.lineRate s.line.rateIndex

/-- The host link rate in force, in bit/s (R133). -/
def State.hostBitRate (s : State) : Nat := Config.hostRate s.host.strap

/-! ## Entries of the station table and areas of the image -/

/-- The addresses that have an entry (R1). -/
def addresses : List Nat := List.range' 1 63

/-- An address that names an entry (R1). -/
def validAddress (a : Nat) : Bool := decide (1 ≤ a ∧ a ≤ 63)

/-- The entry of an address. Addresses without an entry read as UNUSED; no rule reads one. -/
def State.entry (s : State) (a : Nat) : StationEntry :=
  if 1 ≤ a then (s.stations[a - 1]?).getD .unused else .unused

/-- Replaces the entry of an address 1..63; any other address has none. -/
def State.setEntry (s : State) (a : Nat) (e : StationEntry) : State :=
  if 1 ≤ a then { s with stations := s.stations.setIfInBounds (a - 1) e } else s

/-- The areas of an address, if it holds any (R23). -/
def State.areas (s : State) (a : Nat) : Option Areas :=
  if 1 ≤ a then (s.image[a - 1]?).getD none else none

/-- Replaces the areas of an address 1..63. -/
def State.setAreas (s : State) (a : Nat) (ar : Option Areas) : State :=
  if 1 ≤ a then { s with image := s.image.setIfInBounds (a - 1) ar } else s

/-- The station at an address is defined, that is, not UNUSED (R1). -/
def State.isDefined (s : State) (a : Nat) : Bool := (s.entry a).state != .unused

/-- The bytes of the image store the station at an address holds (R23). -/
def State.allocationOf (s : State) (a : Nat) : Nat :=
  match (s.entry a).profile with
  | some p => p.allocation
  | none => 0

/-- The allocations of all stations but one (R15, check 4). -/
def State.allocatedExcept (s : State) (a : Nat) : Nat :=
  ((addresses.filter (fun b => b != a)).map s.allocationOf).sum

/-- The allocations of all stations (R23). -/
def State.allocated (s : State) : Nat := (addresses.map s.allocationOf).sum

/-- The free bytes of the image store (R23). -/
def State.freeBytes (s : State) : Nat := Config.imageStoreSize - s.allocated

/-- Newly allocated or reset areas of a profile (R24, R41). -/
def Profile.freshAreas (p : Profile) : Areas :=
  { input := { bytes := List.replicate p.inLen 0, state := .none, gen := 0 }
    output := { bytes := List.replicate p.outLen 0, state := .unset, gen := 0 } }

/-! ## The report unit (R121, R122) -/

/-- What an entry becomes when a request merges with it, if it does (R121, R123 to R128). -/
def ReportEntry.merge : ReportEntry → ReportRequest → Option ReportEntry
  | .inputChange a, .inputChange b => if a = b then some (.inputChange a) else none
  | .stationState a before n, .stationState b _ => if a = b then some (.stationState a before (satInc8 n)) else none
  | .cycleDone _ n, .cycleDone c => some (.cycleDone c (satInc8 n))
  | .lineFault n _, .lineFault st => some (.lineFault (satInc8 n) st)
  | .supervision h g l, .supervision .holdEntered => some (.supervision (satInc8 h) g l)
  | .supervision h g l, .supervision .handoverGranted => some (.supervision h (satInc8 g) l)
  | .supervision h g _, .supervision .limitExpired => some (.supervision h g true)
  | .supervision h g l, .supervision .other => some (.supervision h g l)
  | _, _ => none

/-- The entry a request makes when nothing waits for it to merge with (R123 to R128). -/
def ReportRequest.newEntry : ReportRequest → ReportEntry
  | .inputChange a => .inputChange a
  | .stationState a before => .stationState a before 1
  | .demandDone d => .demandDone d
  | .cycleDone c => .cycleDone c 1
  | .lineFault st => .lineFault 1 st
  | .supervision .holdEntered => .supervision 1 0 false
  | .supervision .handoverGranted => .supervision 0 1 false
  | .supervision .limitExpired => .supervision 0 0 true
  | .supervision .other => .supervision 0 0 false

/-- The queue with a request merged into the entry it merges with, in place; none where nothing merges (R121). -/
def mergeInto : List ReportEntry → ReportRequest → Option (List ReportEntry)
  | [], _ => none
  | e :: es, r =>
    match e.merge r with
    | some e' => some (e' :: es)
    | none => (mergeInto es r).map (fun es' => e :: es')

/-- The number of notice entries waiting (R120). -/
def ReportUnit.notices (u : ReportUnit) : Nat := u.queue.countP ReportEntry.isNotice

/-- A request taken at the report unit: merged, placed at the tail, or lost and counted (R121, R122). A completion always
finds a place. -/
def ReportUnit.place (u : ReportUnit) (r : ReportRequest) : ReportUnit :=
  match mergeInto u.queue r with
  | some q => { u with queue := q }
  | none =>
    if r.isCompletion || decide (u.notices < Config.noticePlaces) then { u with queue := u.queue ++ [r.newEntry] }
    else { u with lost := satInc8 u.lost }

/-- The unsent INPUT_CHANGE and STATION_STATE entries of a station (R129). -/
def ReportEntry.isStationNotice (a : Nat) : ReportEntry → Bool
  | .inputChange b => b == a
  | .stationState b _ _ => b == a
  | .demandDone _ | .cycleDone _ _ | .lineFault _ _ | .supervision _ _ _ => false

/-- Drops a station's notices without counting a loss (R129). -/
def ReportUnit.dropStation (u : ReportUnit) (a : Nat) : ReportUnit :=
  { u with queue := u.queue.filter (fun e => !e.isStationNotice a) }

/-- A request with the block that makes it. -/
abbrev TaggedRequest := ReportSource × ReportRequest

/-- The order in which the report unit takes the requests of one event. Each block's own requests keep their order
(R121); `order` says block by block whose next request is taken, and what it does not name follows as listed
(log entry 5). -/
def interleave : List ReportSource → List TaggedRequest → List ReportRequest
  | [], reqs => reqs.map Prod.snd
  | src :: order, reqs =>
    match reqs.find? (fun r => r.1 == src) with
    | some r => r.2 :: interleave order (reqs.eraseP (fun r => r.1 == src))
    | none => interleave order reqs

/-! ## The ticket table -/

/-- The live ticket that holds an id (R106). -/
def TicketTable.find (t : TicketTable) (id : Byte) : Option Ticket := t.queue.find? (fun u => u.id == id)

/-- Gives the live ticket that holds an id a new state. -/
def TicketTable.setState (t : TicketTable) (id : Byte) (st : TicketState) : TicketTable :=
  { t with queue := t.queue.map (fun u => if u.id = id then { u with state := st } else u) }

/-- The contents of the DEMAND_DONE report of a ticket that becomes DONE (R114, R125). -/
def Ticket.report (t : Ticket) (res : TicketResult) : DemandDone :=
  { id := t.id, hostTag := t.hostTag, outcome := res.outcome, status := res.status, attempts := res.attempts,
    data := res.data }

/-- A ticket becomes DONE with a result, and the report it asks for in the same event (R112 to R114). A DONE ticket is not
changed (R113). -/
def TicketTable.complete (t : TicketTable) (id : Byte) (res : TicketResult) : TicketTable × List ReportRequest :=
  match t.find id with
  | none => (t, [])
  | some u => if u.isDone then (t, []) else (t.setState id (.done res), [.demandDone (u.report res)])

/-- A result without an exchange of its own: no status and no data (R113). -/
def TicketResult.bare (o : TicketOutcome) (attempts : Nat) : TicketResult :=
  { outcome := o, status := none, data := [], attempts := attempts }

/-- The first QUEUED ticket that is not blocked, given the tickets ahead (R110). -/
def firstEligible (held : Bool) : List Ticket → List Ticket → Option Ticket
  | _, [] => none
  | ahead, t :: rest =>
    if t.isQueued && !t.blockedBehind ahead held then some t else firstEligible held (ahead ++ [t]) rest

/-- The eligible ticket (R110). -/
def State.eligibleTicket (s : State) : Option Ticket := firstEligible s.isHeld [] s.tickets.queue

/-- The ids of the QUEUED tickets that are blocked, given the tickets ahead (R110). -/
def blockedIds (held : Bool) : List Ticket → List Ticket → List Byte
  | _, [] => []
  | ahead, t :: rest =>
    (if t.isQueued && t.blockedBehind ahead held then [t.id] else []) ++ blockedIds held (ahead ++ [t]) rest

/-! ## The station table's part of an outcome (R3 to R12) -/

/-- The outcome record the engine hands the station table (R4). `identity` is read for a GOOD PROBE alone. -/
structure OutcomeRecord where
  func           : LineFunction
  outcome        : AttemptOutcome
  failedAttempts : Nat
  identity       : Identity
deriving DecidableEq, Repr

/-- The counters after an outcome record (R3). -/
def Counters.count (c : Counters) (o : OutcomeRecord) : Counters :=
  { good := if o.outcome = .good then satInc c.good else c.good
    failedAttempts := satAdd c.failedAttempts o.failedAttempts
    refusals := if o.outcome = .refused ∨ o.outcome = .notReady then satInc c.refusals else c.refusals
    desyncs := if o.outcome = .desync then satInc c.desyncs else c.desyncs }

/-- A failure that counts: fail_run goes up by 1, and the station is OFFLINE at the limit, otherwise SUSPECT (R6, R9,
R14). -/
def StationEntry.fail (e : StationEntry) (p : Profile) : StationEntry :=
  { e with failRun := e.failRun + 1
           state := if p.failLimit ≤ e.failRun + 1 then .offline else .suspect }

/-- A data function's outcome at the entry: success (R5) or failure (R6). -/
def StationEntry.takeData (e : StationEntry) (p : Profile) (o : AttemptOutcome) : StationEntry :=
  if o.isFailure then e.fail p else { e with failRun := 0, toggle := !e.toggle }

/-- A PROBE's outcome at the entry: GOOD (R7, R8) or failed (R9). -/
def StationEntry.takeProbe (e : StationEntry) (p : Profile) (o : OutcomeRecord) : StationEntry :=
  if o.outcome = .good then
    { e with toggle := false, failRun := 0, identity := some o.identity
             state := if o.identity.matchesProfile p then .online else .mismatch }
  else
    match e.state with
    | .suspect | .online => e.fail p
    | .absent | .offline | .mismatch | .unused => e

/-- The entry after an outcome record, all changes together (R4). An entry without a profile is handed no record, since
its exchange carries the discard flag. -/
def StationEntry.take (e : StationEntry) (o : OutcomeRecord) : StationEntry :=
  match e.profile with
  | none => e
  | some p =>
    let counted := { e with counters := e.counters.count o }
    if o.func = .probe then counted.takeProbe p o else counted.takeData p o.outcome

/-- A FRESH input area becomes STALE when its station leaves ONLINE (R29). -/
def Areas.markStale (ar : Areas) : Areas :=
  { ar with input := { ar.input with state := if ar.input.state = .fresh then .stale else ar.input.state } }

/-- Marks the input area of a station STALE (R12, R29). -/
def State.markStale (s : State) (a : Nat) : State := s.setAreas a ((s.areas a).map Areas.markStale)

/-- The station table takes an outcome record: the entry, the STALE marking (R12) and the STATION_STATE request (R11). -/
def State.tableTakes (s : State) (a : Nat) (o : OutcomeRecord) : State × List TaggedRequest :=
  let e := s.entry a
  let e' := e.take o
  let s1 := s.setEntry a e'
  let s2 := if e.state = .online ∧ e'.state ≠ .online then s1.markStale a else s1
  (s2, if e.state ≠ e'.state then [(.stationTable, .stationState a e.state)] else [])

/-- The return of the line at one entry: ONLINE becomes SUSPECT (R10). -/
def StationEntry.lineReturned (e : StationEntry) : StationEntry :=
  if e.state = .online then { e with state := .suspect } else e

/-- The addresses whose entries are ONLINE, in rising order. -/
def State.onlineAddresses (s : State) : List Nat := addresses.filter (fun a => (s.entry a).state == .online)

/-- The return of the line at the table: every ONLINE entry becomes SUSPECT in one event, its input area STALE, and a
STATION_STATE report is asked for in rising order of address (R10 to R12, R121). -/
def State.tableLineReturned (s : State) : State × List TaggedRequest :=
  let online := s.onlineAddresses
  ({ s with
      stations := s.stations.map StationEntry.lineReturned
      image := (online.foldl State.markStale s).image },
   online.map (fun a => (.stationTable, .stationState a .online)))

/-! ## The image at a capture and at the end of an exchange -/

/-- The output area at a capture (R31). -/
def OutputArea.capture (o : OutputArea) : OutputArea :=
  { o with state := if o.state = .dirty then .sending else o.state }

/-- Captures the output area of a station: its bytes, and a DIRTY area becomes SENDING (R31). -/
def State.capture (s : State) (a : Nat) : State × List Byte :=
  match s.areas a with
  | some ar => (s.setAreas a (some { ar with output := ar.output.capture }), ar.output.bytes)
  | none => (s, [])

/-- The output area when an EXCHANGE has ended (R32, R33). -/
def OutputArea.resolve (o : OutputArea) (good : Bool) : OutputArea :=
  { o with state := if o.state = .sending then (if good then .clean else .dirty) else o.state }

/-- The input area after a delivery (R27). -/
def InputArea.deliver (i : InputArea) (bytes : List Byte) : InputArea :=
  { bytes := bytes, state := .fresh, gen := i.gen + 1 }

/-- The areas at the end of an exchange: EXCHANGE resolves the outputs, and EXCHANGE and SAMPLE that end GOOD deliver the
inputs, together (R27, R32, R33). -/
def Areas.exchangeEnded (ar : Areas) (f : LineFunction) (o : AttemptOutcome) (bytes : List Byte) : Areas :=
  { input := if (f = .exchange ∨ f = .sample) ∧ o = .good then ar.input.deliver bytes else ar.input
    output := if f = .exchange then ar.output.resolve (o == .good) else ar.output }

/-- The notify setting of a station (R2). -/
def State.notifyOf (s : State) (a : Nat) : Notify :=
  match (s.entry a).profile with
  | some p => p.notify
  | none => .none

/-- The image takes the end of an exchange (R27, R28, R32, R33). -/
def State.imageTakes (s : State) (a : Nat) (f : LineFunction) (o : AttemptOutcome) (bytes : List Byte) :
    State × List TaggedRequest :=
  match s.areas a with
  | none => (s, [])
  | some ar =>
    (s.setAreas a (some (ar.exchangeEnded f o bytes)),
     if ((f = .exchange ∨ f = .sample) ∧ o = .good) ∧ (s.notifyOf a).asks ar.input bytes = true then
       [(.image, .inputChange a)]
     else [])

end Sys2Proof.Machine
end

