-- ==== Sys2Proof/Machine/ReportTaking.lean ====
section
/-! DEFINITION. The taking of a report for sending (R131), which the free transmitter does as soon as a report offer stands
(R141), and the placing of reports, each of which finds an offer that stood before it taken. -/

namespace Sys2Proof.Machine

/-! ## The contents of a report -/

/-- The eight bytes of a cycle summary (R165). -/
def CycleSummary.bytes (c : CycleSummary) : List Byte :=
  le16 c.cycleNumber ++ [c.slotsInList, c.exchanged, c.probed, c.skipped, c.failed,
    flag c.overrun ||| (flag c.abandoned <<< 1)]

/-- The areas an address reads as; a defined station always has its own. -/
def State.areasOrEmpty (s : State) (a : Nat) : Areas :=
  (s.areas a).getD { input := { bytes := [], state := .none, gen := 0 }, output := { bytes := [], state := .unset, gen := 0 } }

/-- An input area in a response or report: station, in_len, bytes, in_state, in_gen (R164, R165). -/
def InputArea.bytesFor (i : InputArea) (a : Nat) : List Byte :=
  [byte a, byte i.bytes.length] ++ i.bytes ++ [i.state.code] ++ le16 i.gen

/-- The TYPE of a report (R165). -/
def ReportEntry.type : ReportEntry → Byte
  | .inputChange _ => 0xE0
  | .stationState _ _ _ => 0xE1
  | .demandDone _ => 0xE2
  | .cycleDone _ _ => 0xE3
  | .lineFault _ _ => 0xE4
  | .supervision _ _ _ => 0xE5

/-- The body of a report, with what is read at the moment of its taking (R123 to R128, R131, R165). -/
def State.reportBody (s : State) : ReportEntry → List Byte
  | .inputChange a => (s.areasOrEmpty a).input.bytesFor a
  | .stationState a before n => [byte a, before.code, (s.entry a).state.code, n]
  | .demandDone d =>
    [d.id] ++ le16 d.hostTag ++ [d.outcome.code, statusByte d.status, byte d.attempts, byte d.data.length] ++ d.data
  | .cycleDone c n => c.bytes ++ [n]
  | .lineFault n a => [n, byte a]
  | .supervision h g l => [s.sup.hold.code, s.sup.handover.code, h, g, flag l]

/-- The report as a message: marker 0xFE, lost count, body; the sequence number is its TAG (R131, R165). -/
def State.reportMessage (s : State) (e : ReportEntry) : Message :=
  { type := e.type, tag := s.reports.sequence, payload := 0xFE :: s.reports.lost :: s.reportBody e }

/-- The ticket a DEMAND_DONE report names leaves the table when the report is taken (R115, R131 item 6). -/
def TicketTable.leave (t : TicketTable) : ReportEntry → TicketTable
  | .demandDone d => { t with queue := t.queue.filter (fun u => u.id != d.id) }
  | .inputChange _ | .stationState _ _ _ | .cycleDone _ _ | .lineFault _ _ | .supervision _ _ _ => t

/-! ## The taking of a report -/

/-- The report unit when its head entry is taken: the entry leaves, a credit is spent, the lost count has been sent, and the
sequence number goes up (R131, items 1 and 3 to 5). -/
def ReportUnit.taken (u : ReportUnit) : ReportUnit :=
  { queue := u.queue.tail, credit := u.credit - 1, lost := 0, sequence := u.sequence + 1 }

/-- The head entry `e` is taken for sending (R131). -/
def State.takeReport (s : State) (e : ReportEntry) : State :=
  { s with
    tickets := s.tickets.leave e
    reports := s.reports.taken
    host := { s.host with tx := .sendingReport (s.reportMessage e).frame } }

/-- The command processor may take a message: it decides none, the response buffer is empty and no restart is due (R138, R140,
R146). -/
def State.processorFree (s : State) : Bool :=
  s.host.processor == .idle && s.host.response.isNone && s.host.restart.isNone

/-- The head entry, where a report offer stands and the transmitter is free to take it: no response is waiting and no command is
being decided (R131, R141). -/
def State.dueReport (s : State) : Option ReportEntry :=
  if s.processorFree && s.host.tx == .free && s.reports.credit != 0 then s.reports.queue.head? else none

/-- The free transmitter's choice where a report is due: it takes the report, at once (R141; log entry 13). Without one nothing
changes. -/
def State.takeDueReport (s : State) : State :=
  { s with
    tickets := s.dueReport.elim s.tickets s.tickets.leave
    reports := s.dueReport.elim s.reports (fun _ => s.reports.taken)
    host := { s.host with tx := s.dueReport.elim s.host.tx (fun e => .sendingReport (s.reportMessage e).frame) } }

/-! ## The placing of reports -/

/-- A request of the state taken at the report unit (R121). A report that was due before it has been taken (R141). -/
def State.place (s : State) (r : ReportRequest) : State :=
  { s.takeDueReport with reports := s.takeDueReport.reports.place r }

/-- Requests taken one after the other. -/
def State.placeAll (s : State) (rs : List ReportRequest) : State := rs.foldl State.place s

/-- Completes a ticket and has its report placed (R113, R114). -/
def State.completeTicket (s : State) (id : Byte) (res : TicketResult) : State :=
  let c := s.tickets.complete id res
  State.placeAll { s with tickets := c.1 } c.2

end Sys2Proof.Machine
end

