-- ==== Sys2Proof/Machine/Arbiter.lean ====
section
/-! DEFINITION. The hand-over of an exchange to the engine (R62), the grant of the line (R156), the cycle scheduler's
answer to the arbiter's question (R87 to R95), and the arbiter's choice (R100 to R104). -/

namespace Sys2Proof.Machine

/-! ## Hand-over and grant -/

/-- The exchange record the engine builds from the arbiter's hand-over (R62). Address 0 has no entry and so toggle 0: a
broadcast carries T 0. A broadcast's attempt limit is 1 (R61). -/
def State.buildRecord (s : State) (station : Nat) (f : LineFunction) (origin : Origin) (data : List Byte) :
    ExchangeRecord :=
  { station := station, func := f, origin := origin, toggle := (s.entry station).toggle, data := data, attempt := 1,
    attemptLimit := if origin = .broadcast then 1 else 1 + s.line.retryCount, failedAttempts := 0, lastOutcome := none,
    reply := [], discard := false, noRetry := false }

/-- The engine begins an attempt of a record: SENDING, no timer running, the receiver off and a character in reception
abandoned (R44, R62, R69). -/
def State.startAttempt (s : State) (r : ExchangeRecord) : State :=
  { s with
    engine := { Engine.empty .sending with record := some r }
    line := { s.line with rx := .off } }

/-- The arbiter hands the engine an exchange; an EXCHANGE captures the output area in the same event (R31, R62, R101).
`data` is the ticket's request data where the function carries it. -/
def State.handOver (s : State) (station : Nat) (f : LineFunction) (origin : Origin) (data : List Byte) : State :=
  if f = .exchange then
    let c := s.capture station
    c.1.startAttempt (c.1.buildRecord station f origin c.2)
  else s.startAttempt (s.buildRecord station f origin data)

/-- The arbiter hands the engine the claimed broadcast, and the claim is settled (R104, R152). -/
def State.handBroadcast (s : State) (f : LineFunction) : State :=
  let s1 := s.handOver 0 f .broadcast []
  { s1 with sup := { s1.sup with claim := .none } }

/-- The line is lent: GRANTED, the engine RELEASED with its receiver off, the limit timer started (R82, R156, R161). -/
def State.lendLine (s : State) : State :=
  { s with
    engine := .empty .released
    line := { s.line with rx := .off }
    sup := { s.sup with handover := .granted, limitTimer := timerFor s.sup.handoverLimit } }

/-- The arbiter grants the line (R156). -/
def State.grant (s : State) : State := s.lendLine.place (.supervision .handoverGranted)

/-! ## Tickets at the arbiter (R102, R103, R111) -/

/-- What the take of an eligible ticket does, by its function and its station's state (R103). -/
inductive Take where
  | own | resync | down
deriving DecidableEq, Repr

/-- The judgement of a ticket against its station's entry (R103, R111). A ticket of an UNUSED station cannot be taken; no
rule reads that row. -/
def takeOf (f : TicketFunction) (st : Health) : Take :=
  match f, st with
  | _, .unused => .down
  | .probe, _ => .own
  | _, .online => .own
  | _, .suspect => .resync
  | _, _ => .down

/-- A take that places an exchange on the line while the scheduler is ACTIVE lowers the demand allowance (R102). -/
def State.spendAllowance (s : State) : State :=
  if s.sched.state = .active then
    { s with arbiter := { s.arbiter with demandAllowance := s.arbiter.demandAllowance - 1 } }
  else s

/-- The ticket goes ON_LINE and the engine is handed its exchange (R103). -/
def State.putOnLine (s : State) (t : Ticket) : State :=
  let s1 := s.spendAllowance
  { s1 with tickets := s1.tickets.setState t.id .onLine }.handOver t.station t.func.onLine (.ticket t.id) t.data

/-- Item 3 of a choice: takes tickets until one uses the line or none is eligible, and tells whether the line was used
(R100, R103). Each turn without line time makes one ticket DONE, so as many turns as tickets suffice. -/
def State.ticketItem : Nat → State → State × Bool
  | 0, s => (s, false)
  | n + 1, s =>
    if s.sched.state = .active ∧ s.arbiter.demandAllowance = 0 then (s, false)
    else
      match s.eligibleTicket with
      | none => (s, false)
      | some t =>
        match takeOf t.func (s.entry t.station).state with
        | .own => (s.putOnLine t, true)
        | .resync => (s.spendAllowance.handOver t.station .probe .resync [], true)
        | .down => ticketItem n (s.completeTicket t.id (.bare .stationDown 0))

/-! ## The scheduler's answer (R87, R90 to R95) -/

/-- The period timer at a cycle start (R88, R93). -/
def Scheduler.startPeriod (c : Scheduler) : Scheduler := { c with periodTimer := timerFor c.period }

/-- STOPPED, with the period timer stopped and no stop request standing (R93, R94, R97). -/
def Scheduler.stop (c : Scheduler) : Scheduler :=
  { c with state := .stopped, periodTimer := none, stopRequest := .none }

/-- The pending list, if present, becomes the cycle list (R85). -/
def Scheduler.install (c : Scheduler) : Scheduler :=
  match c.pendingList with
  | some l => { c with cycleList := l, pendingList := none }
  | none => c

/-- A cycle with the number given begins with the list in force: phase SLOTS, cursor 0, no probe issued, summary reset,
period timer restarted, ACTIVE (R88, R93). -/
def Scheduler.beginCycle (c : Scheduler) (number : Half) : Scheduler :=
  Scheduler.startPeriod
    { c with state := .active, cycleNumber := number, phase := .slots, slotCursor := 0, probesIssued := 0,
             summary := .start number c.cycleList.length }

/-- The next cycle starts, or the scheduler stops at an empty list (R93). -/
def Scheduler.nextCycle (c : Scheduler) : Scheduler :=
  let c1 := c.install
  if c1.cycleList = [] then c1.stop else c1.beginCycle (c1.cycleNumber + 1)

/-- What follows the completion of a cycle, its summary having been placed (R93). -/
def Scheduler.completed (c : Scheduler) : Scheduler :=
  if c.mode = .single ∨ c.stopRequest = .afterCycle then c.stop
  else if c.summary.overrun = false ∧ c.periodTimer.isSome then { c with state := .resting }
  else if c.summary.isEmptyPass then { c with state := .resting, periodTimer := some Config.emptyPassRest }
  else c.nextCycle

/-- The function and origin a slot yields, or none where it is skipped (R90, R91). -/
def State.judgeSlot (s : State) (a : Nat) : Option (LineFunction × Origin) :=
  let e := s.entry a
  match e.profile with
  | none => none
  | some p =>
    let active := s.sched.cycleNumber.toNat % p.divisor == 0
    match e.state with
    | .online =>
      if !active then none
      else
        let written := (s.areas a).any (fun ar => ar.output.state != .unset)
        if decide (0 < p.outLen) && written && !s.isHeld then some (.exchange, .cyclic) else some (.sample, .cyclic)
    | .suspect => if active then some (.probe, .resync) else none
    | .unused | .absent | .offline | .mismatch => none

/-- The summary after a slot that yields a function (R90, R95). -/
def CycleSummary.countYield (c : CycleSummary) (f : LineFunction) : CycleSummary :=
  if f = .probe then { c with probed := satInc8 c.probed } else { c with exchanged := satInc8 c.exchanged }

/-- An exchange the scheduler hands the arbiter: station, function, origin. -/
abbrev Offer := Nat × LineFunction × Origin

/-- Steps the slots from the cursor on: skipped slots are counted and passed, and the first that yields ends the question
(R87, R90). -/
def State.stepSlots : List Nat → State → State × Option Offer
  | [], s => (s, none)
  | a :: rest, s =>
    match s.judgeSlot a with
    | none =>
      stepSlots rest
        { s with sched := { s.sched with
            slotCursor := s.sched.slotCursor + 1
            summary := { s.sched.summary with skipped := satInc8 s.sched.summary.skipped } } }
    | some (f, o) =>
      ({ s with sched := { s.sched with
          slotCursor := s.sched.slotCursor + 1
          summary := s.sched.summary.countYield f } }, some (a, f, o))

/-- The address `k` places after an address, in rising order, wrapping from 63 to 1 (R92). -/
def addressAfter (a k : Nat) : Nat := (a - 1 + k) % 63 + 1

/-- The number of addresses a search of the discovery phase looks at: 63 in the first, and then those after the probe
cursor up to the start mark (R92). -/
def State.searchLength (s : State) : Nat :=
  if s.sched.probesIssued = 0 then 63 else (s.sched.startMark + 63 - s.arbiter.probeCursor) % 63

/-- The candidate a search finds, if any (R92). -/
def State.findCandidate (s : State) : Option Nat :=
  ((List.range' 1 s.searchLength).map (addressAfter s.arbiter.probeCursor)).find? (fun a => (s.entry a).isCandidate)

/-- The discovery phase asked for work: a probe, or none when the phase is over (R92). -/
def State.discover (s : State) : State × Option Offer :=
  if s.sched.probesIssued = s.sched.probeBudget then (s, none)
  else
    match s.findCandidate with
    | none => (s, none)
    | some a =>
      ({ s with
          arbiter := { s.arbiter with probeCursor := a }
          sched := { s.sched with
            probesIssued := s.sched.probesIssued + 1
            summary := { s.sched.summary with probed := satInc8 s.sched.summary.probed } } },
       some (a, .probe, .discovery))

/-- The passage from SLOTS to DISCOVERY (R87, R92). -/
def State.enterDiscovery (s : State) : State :=
  { s with sched := { s.sched with phase := .discovery, startMark := s.arbiter.probeCursor } }

/-- The work the scheduler finds for one question within the cycle in progress (R87). Where the last slot of the list yields an
exchange, the phase stays SLOTS, with the cursor at the list's length, until the next question (DEDUCED, log entry 29). -/
def State.stepCycle (s : State) : State × Option Offer :=
  match s.sched.phase with
  | .discovery => s.discover
  | .slots =>
    match State.stepSlots (s.sched.cycleList.drop s.sched.slotCursor) s with
    | (s1, some offer) => (s1, some offer)
    | (s1, none) => s1.enterDiscovery.discover

/-- Places the summary and completes the cycle (R93). -/
def State.completeCycle (s : State) : State :=
  let s1 := s.place (.cycleDone s.sched.summary)
  { s1 with sched := s1.sched.completed }

/-- The scheduler's answer to the arbiter. -/
inductive Answer where
  /-- An exchange to be taken. -/
  | take (offer : Offer)
  /-- Nothing. -/
  | nothing
  /-- The cycle completed and the scheduler left ACTIVE. -/
  | leftActive
deriving DecidableEq, Repr

/-- The arbiter's question (R87). A cycle that completes and starts the next at once goes on in the same question; a
choice completes at most two cycles (R100), so three turns suffice. -/
def State.ask : Nat → State → State × Answer
  | 0, s => (s, .nothing)
  | n + 1, s =>
    if s.sched.state ≠ .active ∨ s.sched.stopRequest = .afterSlot then (s, .nothing)
    else
      match s.stepCycle with
      | (s1, some offer) => (s1, .take offer)
      | (s1, none) =>
        let s2 := s1.completeCycle
        if s2.sched.state = .active then ask n s2 else (s2, .leftActive)

/-- The arbiter takes the scheduler's exchange: slot in flight, and the allowance back at demand_share (R87, R102). -/
def State.takeOffer (s : State) (offer : Offer) : State :=
  { s with
    sched := { s.sched with slotInFlight := true }
    arbiter := { s.arbiter with demandAllowance := s.sched.demandShare } }.handOver offer.1 offer.2.1 offer.2.2 []

/-! ## The choice (R100) -/

/-- The turns item 3 may need: one for each live ticket, and one to find none. -/
def State.ticketTurns (s : State) : Nat := s.tickets.queue.length + 1

/-- Items 3, 4 and 5 of a choice: tickets, then the scheduler, then tickets again if a cycle completed and left ACTIVE
(R100). -/
def State.chooseWork (s : State) : State :=
  match State.ticketItem s.ticketTurns s with
  | (s1, true) => s1
  | (s1, false) =>
    match State.ask 3 s1 with
    | (s2, .take offer) => s2.takeOffer offer
    | (s2, .nothing) => s2
    | (s2, .leftActive) => (State.ticketItem s2.ticketTurns s2).1

/-- The arbiter's choice, made when the engine is IDLE (R100): handover, broadcast, ticket, scheduler. -/
def State.arbiterChoice (s : State) : State :=
  if s.engine.state ≠ .idle then s
  else if s.sup.handover = .requested then s.grant
  else
    match s.sup.claim with
    | .hold => s.handBroadcast .hold
    | .release => s.handBroadcast .release
    | .none => s.chooseWork

/-- A choice of the arbiter's within an event that may have placed reports before it: a report due has been taken (R100,
R141). -/
def State.choose (s : State) : State := s.takeDueReport.arbiterChoice

end Sys2Proof.Machine
end

