-- ==== Sys2Proof/Machine/Exchange.lean ====
section
/-! DEFINITION. The exchange engine: characters and attempts (R64 to R68), guards and retries (R69 to R73), the end of an
exchange and the delivery of its outcome (R74 to R78). -/

namespace Sys2Proof.Machine

/-! ## Statistics and timers -/

/-- The line statistics changed by a function. -/
def State.countLine (s : State) (f : LineStats → LineStats) : State :=
  { s with line := { s.line with stats := f s.line.stats } }

/-- The receiver's sampling state changed. -/
def State.setLineRx (s : State) (rx : LineRx) : State := { s with line := { s.line with rx := rx } }

/-- GUARD is entered: quiet timer for the guard's length and jam timer for 64 CT, the other timers stopped (R68, R70). -/
def Engine.enterGuard (g : Engine) (kind : GuardKind) : Engine :=
  { g with state := .guard kind, replyTimer := none, gapTimer := none, quietTimer := some kind.length,
           jamTimer := some Config.jamLimitCT }

/-- The record of a classified attempt (R68, items 1 and 3). -/
def ExchangeRecord.classified (r : ExchangeRecord) (o : AttemptOutcome) : ExchangeRecord :=
  { r with lastOutcome := some o
           failedAttempts := if o.isFailedAttempt then r.failedAttempts + 1 else r.failedAttempts }

/-- An attempt is classified (R68). -/
def State.classifyAttempt (s : State) (o : AttemptOutcome) : State :=
  let s1 := s.countLine (fun st => st.countOutcome o)
  let g : Engine := { s1.engine with record := s1.engine.record.map (fun r => r.classified o) }
  { s1 with engine := g.enterGuard o.guardKind }

/-! ## Judging a reply (R66, R67) -/

/-- Whether the length of an ACCEPT reply suits the function (R50, R67 test 6). `absent` stands for the answer where the
station's profile is gone (log entry 9). -/
def lengthSuits (f : LineFunction) (profile : Option Profile) (absent : Bool) (n : Nat) : Bool :=
  match f with
  | .exchange | .sample =>
    match profile with
    | some p => n == p.inLen
    | none => absent
  | .probe => n == 4
  | .paramRead => decide (1 ≤ n ∧ n ≤ 16)
  | .paramWrite => n == 0
  | .hold | .release => false

/-- The outcome of a complete reply frame, given whether its length suits the function (R67). -/
def ExchangeRecord.judge (r : ExchangeRecord) (suits : Bool) : AttemptOutcome :=
  let values := r.reply.map LineChar.value
  let address := r.replyByte 0
  if crc8 values.dropLast ≠ values.getLastD 0 then .broken
  else if address.getLsbD 7 = false ∨ address.toNat % 64 ≠ r.station then .wrongStation
  else
    match r.replyStatus with
    | none => .broken
    | some status =>
      if address.getLsbD 6 ≠ r.toggle then .desync
      else
        match status with
        | .refuse => .refused
        | .notReady => .notReady
        | .accept => if suits then .good else .broken

/-- Whether a complete reply's test 6 finds no profile to read (log entry 9). -/
def State.readsAbsentProfile (s : State) (r : ExchangeRecord) : Bool :=
  (r.func == .exchange || r.func == .sample) && (s.entry r.station).profile.isNone

/-- A complete reply is classified (R67). -/
def State.classifyReply (s : State) (r : ExchangeRecord) : State :=
  let suits := lengthSuits r.func (s.entry r.station).profile (Config.absentProfileSuits s.freeDraws)
    (r.replyByte 2).toNat
  let s1 := if s.readsAbsentProfile r then { s with freeDraws := s.freeDraws + 1 } else s
  s1.classifyAttempt (r.judge suits)

/-- A character delivered in RECEIVING that makes the frame unusable at once (R66): broken, a mark bit in the wrong place,
or a length over 32. `i` is its place in the reply, from 0. -/
def RxChar.breaksReply (c : RxChar) (i : Nat) : Bool :=
  c.broken || (if i = 0 then !c.mark else c.mark) || (i == 2 && decide (32 < c.value.toNat))

/-- The reply is complete: its length character is there, and the check character after its data (R66). -/
def ExchangeRecord.replyComplete (r : ExchangeRecord) : Bool :=
  decide (3 ≤ r.reply.length) && r.reply.length == (r.replyByte 2).toNat + 4

/-- The record with a character appended to its reply (R66). -/
def ExchangeRecord.append (r : ExchangeRecord) (c : RxChar) : ExchangeRecord :=
  { r with reply := r.reply ++ [⟨c.value, c.mark⟩] }

/-- A character delivered in RECEIVING (R66). -/
def State.receiveChar (s : State) (c : RxChar) : State :=
  match s.engine.record with
  | none => s
  | some r =>
    let r1 := r.append c
    let s1 := { s with engine := { s.engine with record := some r1, gapTimer := none } }
    if c.breaksReply r.reply.length then s1.classifyAttempt .broken
    else if r1.replyComplete then s1.classifyReply r1
    else { s1 with engine := { s1.engine with gapTimer := some Config.gapLimitCT } }

/-- The statistic of a character that is part of no awaited reply, by the guard in force: late in a quiet guard, stray in
the others (R59, R70, R73). -/
def LineStats.countUnawaited (st : LineStats) : GuardKind → LineStats
  | .quiet => { st with late := satInc st.late }
  | .turnaround | .broadcast => { st with stray := satInc st.stray }

/-- A finished character handed to the engine, in each of its states (R63, R65, R66, R70, R73). In SENDING and RELEASED
the receiver is off and nothing is handed over. -/
def State.deliverChar (s : State) (c : RxChar) : State :=
  let s1 := s.countLine (fun st => st.countClass c)
  match s1.engine.state with
  | .idle => s1.countLine (fun st => { st with stray := satInc st.stray })
  | .awaiting => s1.classifyAttempt .broken
  | .receiving => s1.receiveChar c
  | .guard kind =>
    let s2 := s1.countLine (fun st => st.countUnawaited kind)
    { s2 with engine := { s2.engine with quietTimer := some kind.length } }
  | .sending | .released => s1

/-- A start detected event at the engine, in each of its states (R63, R65, R66, R70). -/
def Engine.startDetected (g : Engine) : Engine :=
  match g.state with
  | .awaiting =>
    { g with state := .receiving, replyTimer := none, record := g.record.map (fun r => { r with reply := [] }) }
  | .receiving => { g with gapTimer := none }
  | .guard _ => { g with quietTimer := none }
  | .idle | .sending | .released => g

/-! ## The end of an exchange (R74 to R78) -/

/-- The ticket outcome of an exchange outcome (R76). -/
def AttemptOutcome.ticketOutcome : AttemptOutcome → TicketOutcome
  | .good => .completed
  | .refused => .refused
  | .notReady => .notReady
  | .noReply => .noReply
  | .broken => .broken
  | .wrongStation => .wrongStation
  | .desync => .desync

/-- The result a ticket takes from its exchange (R76, R112). -/
def ExchangeRecord.ticketResult (r : ExchangeRecord) (o : AttemptOutcome) : TicketResult :=
  { outcome := o.ticketOutcome
    status :=
      match o with
      | .good => some .accept
      | .refused => some .refuse
      | .notReady => some .notReady
      | .desync => r.replyStatus
      | .noReply | .broken | .wrongStation => none
    data := if o = .good then r.replyData else []
    attempts := r.attempt }

/-- The outcome record of an exchange (R4, R74). -/
def ExchangeRecord.outcomeRecord (r : ExchangeRecord) (o : AttemptOutcome) : OutcomeRecord :=
  { func := r.func, outcome := o, failedAttempts := r.failedAttempts, identity := identityOf r.replyData }

/-- An outcome given to the scheduler that counts as failed in the summary (R95). -/
def countsAsFailed (origin : Origin) (o : AttemptOutcome) : Bool :=
  match origin with
  | .cyclic => o.isFailure
  | .discovery => o != .good
  | .ticket _ | .resync | .broadcast => false

/-- The scheduler takes an outcome (R77, R95, R96): nothing is counted for an abandoned cycle's exchange. -/
def Scheduler.takeOutcome (c : Scheduler) (origin : Origin) (o : AttemptOutcome) : Scheduler :=
  if countsAsFailed origin o ∧ c.slotAbandoned = false then
    { c with summary := { c.summary with failed := satInc8 c.summary.failed } }
  else c

/-- The end of the slot in flight at the scheduler: both markers are cleared, and a standing AFTER_SLOT request is carried
out, placing the summary with its abandoned flag set (R87, R97; log entries 10 and 11). -/
def Scheduler.slotEnded (c : Scheduler) : Scheduler × List TaggedRequest :=
  if c.slotInFlight then
    let c1 := { c with slotInFlight := false, slotAbandoned := false }
    if c.state = .active ∧ c.stopRequest = .afterSlot then
      let c2 := { c1.stop with summary := { c1.summary with abandoned := true } }
      (c2, [(.scheduler, .cycleDone c2.summary)])
    else (c1, [])
  else (c, [])

/-- The scheduler at the end of any exchange, once its outcome has been counted (R87). -/
def State.slotEnded (s : State) : State × List TaggedRequest :=
  let e := s.sched.slotEnded
  ({ s with sched := e.1 }, e.2)

/-- The ticket table at the end of an exchange taken for a ticket (R112, R113). -/
def State.ticketTakes (s : State) (id : Byte) (res : TicketResult) : State × List TaggedRequest :=
  let c := s.tickets.complete id res
  ({ s with tickets := c.1 }, c.2.map (fun r => (.ticketTable, r)))

/-- The deliveries of an exchange with a station that ends without the discard flag, to each block it concerns (R74). The
requests for reports are collected block by block. -/
def State.deliverOutcome (s : State) (r : ExchangeRecord) (o : AttemptOutcome) : State × List TaggedRequest :=
  let table := s.tableTakes r.station (r.outcomeRecord o)
  let image := table.1.imageTakes r.station r.func o r.replyData
  match r.origin with
  | .resync | .broadcast => table
  | .cyclic => ({ image.1 with sched := image.1.sched.takeOutcome r.origin o }, table.2 ++ image.2)
  | .discovery => ({ table.1 with sched := table.1.sched.takeOutcome r.origin o }, table.2)
  | .ticket id =>
    let ticket := image.1.ticketTakes id (r.ticketResult o)
    (ticket.1, table.2 ++ image.2 ++ ticket.2)

/-- The deliveries of an exchange whose discard flag is set: its ticket alone is told, with WITHDRAWN (R78, R113). -/
def State.deliverDiscarded (s : State) (r : ExchangeRecord) : State × List TaggedRequest :=
  match r.origin with
  | .ticket id => s.ticketTakes id (.bare .withdrawn r.attempt)
  | .cyclic | .discovery | .resync | .broadcast => (s, [])

/-- The deliveries at the end of an exchange or broadcast (R74, R78). -/
def State.deliverEnd (s : State) (r : ExchangeRecord) (o : AttemptOutcome) : State × List TaggedRequest :=
  if r.origin = .broadcast then (s, [])
  else if r.discard then s.deliverDiscarded r
  else s.deliverOutcome r o

/-- An exchange or broadcast ends with an outcome: deliveries, the end of the slot in flight (R87), and the requests for
reports, which the caller has placed. -/
def State.concludeExchange (s : State) (r : ExchangeRecord) (o : AttemptOutcome) : State × List TaggedRequest :=
  let d := s.deliverEnd r o
  let e := d.1.slotEnded
  (e.1, d.2 ++ e.2)

/-- The engine enters IDLE with no record and no timer running (R63, R71). -/
def State.becomeIdle (s : State) : State := { s with engine := .empty .idle }

/-- A guard ends with the end of its exchange, before the arbiter's choice: deliveries, reports, and IDLE (R71). -/
def State.endExchange (s : State) (r : ExchangeRecord) (o : AttemptOutcome) (order : List ReportSource) : State :=
  let e := s.concludeExchange r o
  (e.1.placeAll (interleave order e.2)).becomeIdle

/-- A further attempt is made (R69). -/
def ExchangeRecord.mayRetry (r : ExchangeRecord) : Bool :=
  (r.lastOutcome.any AttemptOutcome.allowsRetry) && decide (r.attempt < r.attemptLimit) && !r.discard && !r.noRetry

/-- The quiet timer expires in a guard, before any choice of the arbiter's (R71, R73). With no record it is the jam wait that
ends. -/
def State.guardEnds (s : State) (order : List ReportSource) : State :=
  match s.engine.record with
  | none => s.becomeIdle
  | some r =>
    if s.engine.state = .guard .quiet ∧ r.mayRetry then s.startAttempt { r with attempt := r.attempt + 1 }
    else s.endExchange r (r.lastOutcome.getD .broken) order

/-- The record of an exchange that the jam limit ends: its last attempt counts as failed (R72, item 3). -/
def ExchangeRecord.jammed (r : ExchangeRecord) : ExchangeRecord :=
  if r.lastOutcome.any (fun o => !o.isFailedAttempt) then { r with failedAttempts := r.failedAttempts + 1 } else r

/-- The jam timer expires in a guard: the jam is counted and reported, the exchange ends BROKEN, and the engine stays in
GUARD with no record (R72, R73). -/
def State.lineJams (s : State) (order : List ReportSource) : State :=
  let s1 := s.countLine (fun st => { st with jams := satInc st.jams })
  match s1.engine.record with
  | none => { s1 with engine := { s1.engine with jamTimer := none } }
  | some r =>
    let e := s1.concludeExchange r.jammed .broken
    let s2 := e.1.placeAll (interleave order ((.engine, .lineFault r.station) :: e.2))
    { s2 with engine := { s2.engine with record := none, jamTimer := none } }

end Sys2Proof.Machine
end

