-- ==== Sys2Proof/Machine/Reset.lean ====
section
/-! DEFINITION. Pin reset and the two restart levels, for every block (R21, R22, R39 to R41, R47, R58, R60, R84, R105,
R119, R132, R146 to R148, R159 to R161). -/

namespace Sys2Proof.Machine

/-- After a reset the handover state follows LREQ: with LREQ asserted the line is lent at once, with no report; otherwise
the engine is IDLE and the arbiter makes its choice (R84, R105, R161). -/
def State.followLreq (s : State) : State := if s.lreq then s.lendLine else s.arbiterChoice

/-- The pin-reset values of every block at a host link rate. The queue of coming events, the level of LREQ and the count of
free values read are not part of any block and stay. -/
def State.initialised (s : State) (strap : BitVec 2) : State :=
  { State.reset with pending := s.pending, lreq := s.lreq, freeDraws := s.freeDraws, host := .initial strap }

/-- The host link after a restart: as after pin reset, with the rate kept (R147). A wait for a high HRXD goes on, since no
rule ends it but the line's level (R133; log entry 27). -/
def HostLink.restarted (h : HostLink) : HostLink := { HostLink.initial h.strap with waitHigh := h.waitHigh }

/-- The strap value of HRATE1 and HRATE0 (R133, R164). -/
def strapValue (hrate1 hrate0 : Bool) : BitVec 2 := BitVec.ofNat 2 (2 * hrate1.toNat + hrate0.toNat)

/-- Pin reset (R148 and the reset rules of every chapter). -/
def State.pinReset (s : State) (hrate1 hrate0 : Bool) : State := (s.initialised (strapValue hrate1 hrate0)).followLreq

/-- A COLD restart taking effect: every block as at pin reset, the host link rate kept (R21, R40, R147). -/
def State.coldRestart (s : State) : State :=
  { (s.initialised s.host.strap).followLreq with host := s.host.restarted }

/-- An entry at a WARM restart: the profile is kept and everything else starts again (R22). -/
def StationEntry.warm (e : StationEntry) : StationEntry :=
  match e.profile with
  | none => .unused
  | some p => { StationEntry.unused with state := .absent, profile := some p }

/-- The areas at a WARM restart: the allocation is kept, and bytes, states and generations start again (R41). -/
def Areas.warm (ar : Areas) : Areas :=
  { input := { bytes := List.replicate ar.input.bytes.length 0, state := .none, gen := 0 }
    output := { bytes := List.replicate ar.output.bytes.length 0, state := .unset, gen := 0 } }

/-- The scheduler at a WARM restart: list and settings kept, everything else as after pin reset (R105). The start mark,
which no rule names here, is kept (log entry 6); the summary's starting values are those of R95, with the length of the
list in force (log entry 20). -/
def Scheduler.warm (c : Scheduler) : Scheduler :=
  { Scheduler.initial with
    cycleList := c.cycleList, mode := c.mode, period := c.period, demandShare := c.demandShare,
    probeBudget := c.probeBudget, startMark := c.startMark,
    summary := .start 0 c.cycleList.length }

/-- The supervision unit at a WARM restart (R160). -/
def Supervision.warm (u : Supervision) : Supervision :=
  { Supervision.initial with
    holdTime := u.holdTime, holdTimer := timerFor u.holdTime, handoverLimit := u.handoverLimit }

/-- A WARM restart taking effect (R22, R41, R58, R60, R84, R105, R119, R132, R147, R160, R161). -/
def State.warmRestart (s : State) : State :=
  State.followLreq
    { s with
      line := { s.line with rx := .turnedOn, stats := .zero }
      engine := .empty .idle
      arbiter := { s.arbiter with demandAllowance := 0 }
      sched := s.sched.warm
      stations := s.stations.map StationEntry.warm
      image := s.image.map (fun ar => ar.map Areas.warm)
      tickets := { s.tickets with queue := [] }
      reports := .initial
      host := s.host.restarted
      sup := s.sup.warm }

/-- A restart taking effect at a level (R146). -/
def State.takeRestart (s : State) : RestartLevel → State
  | .warm => s.warmRestart
  | .cold => s.coldRestart

end Sys2Proof.Machine
end

