-- ==== Sys2Proof/Machine/Commands.lean ====
section
/-! DEFINITION. What every host command shares: the taking of a message by the command processor (R138), the placement of
its response (R139), and the response bodies (R164). -/

namespace Sys2Proof.Machine

/-- What an owning block answers: a result and a response body (R139). -/
structure Reply where
  result : Result
  body   : List Byte
deriving DecidableEq, Repr

/-- OK with a body. -/
def Reply.ok (body : List Byte) : Reply := { result := .ok, body := body }

/-- A refusal with no body (R164). -/
def Reply.refuse (r : Result) : Reply := { result := r, body := [] }

/-- The response to a message: TYPE plus 0x80, TAG, result code, dropped count, body (R139). -/
def responseTo (m : Message) (dropped : Byte) (r : Reply) : Message :=
  { type := m.type + 0x80, tag := m.tag, payload := r.result.code :: dropped :: r.body }

/-- A response is placed in the response buffer, the dropped count it carries is set to 0, and the processor is idle (R139). -/
def State.placeResponse (s : State) (m : Message) (r : Reply) : State :=
  { s with host := { s.host with
      processor := .idle
      response := some (responseTo m s.host.dropped r)
      dropped := 0 } }

/-- The message at the head is taken: it leaves the inbound buffer, and the processor decides it (R138). -/
def State.beginCommand (s : State) (m : Message) : State :=
  { s with host := { s.host with inbound := s.host.inbound.tail, processor := .deciding m [] } }

/-- The taking of the message at the head of the inbound buffer, of a TYPE that `mine` accepts (R138). `parse` reads the
payload, and a payload it does not read is answered BAD_LENGTH; otherwise `decide` is the owning block's event, with its
answer. The response is placed at the end (R139). -/
def takeHead {α : Type} (mine : Byte → Bool) (parse : List Byte → Option α) (decide : α → State → State × Reply)
    (s : State) : Host.Outcome State Fault Refusal :=
  match s.host.inbound with
  | [] => .fault .noMessageWaiting
  | m :: _ =>
    if !mine m.type then .fault .otherMessageType
    else if s.host.processor ≠ .idle then .fault .processorDeciding
    else if !s.processorFree then .fault .responseBufferHeld
    else
      match parse m.payload with
      | none => .next ((s.beginCommand m).placeResponse m (.refuse .badLength))
      | some fields =>
        let d := decide fields (s.beginCommand m)
        .next (d.1.placeResponse m d.2)

/-- The taking of a message by the command processor (R138). A report that is due is taken before it (R141). -/
def takeCommand {α : Type} (mine : Byte → Bool) (parse : List Byte → Option α) (decide : α → State → State × Reply)
    (s : State) : Host.Outcome State Fault Refusal :=
  takeHead mine parse decide s.takeDueReport

/-- The twelve line statistics in the order of R59. -/
def LineStats.bytes (st : LineStats) : List Byte :=
  [st.framesSent, st.goodReplies, st.noReply, st.broken, st.wrongStation, st.desync, st.late, st.stray,
    st.noiseMarked, st.framingErrors, st.falseStarts, st.jams].flatMap le16

/-- The nine link statistics in the order of R143. -/
def LinkStats.bytes (st : LinkStats) : List Byte :=
  [st.goodMessages, st.huntDiscards, st.lengthErrors, st.framingErrors, st.gapTimeouts, st.crcErrors, st.drops,
    st.responsesSent, st.reportsSent].flatMap le16

/-- The profile fields of a STATION_QUERY response, with the presence indicator; absent fields are 0 (R162, R164). -/
def profileBytes : Option Profile → List Byte
  | some p => [1] ++ le16 p.kind ++ [byte p.inLen, byte p.outLen, byte p.failLimit, byte p.divisor, p.notify.code,
      flag p.probeEnable]
  | none => List.replicate 9 0

/-- The identity fields of a STATION_QUERY response, with the presence indicator; absent fields are 0 (R162, R164). -/
def identityBytes : Option Identity → List Byte
  | some i => [1] ++ le16 i.kind ++ [i.inLen, i.outLen]
  | none => List.replicate 5 0

/-- The body of a STATION_QUERY response (R20, R164). -/
def StationEntry.bytes (e : StationEntry) (a : Nat) : List Byte :=
  [byte a, e.state.code] ++ profileBytes e.profile ++ [flag e.toggle, byte e.failRun] ++ identityBytes e.identity ++
    [e.counters.good, e.counters.failedAttempts, e.counters.refusals, e.counters.desyncs].flatMap le16

end Sys2Proof.Machine
end

