-- ==== Sys2Proof/Machine/CycleCommands.lean ====
section
/-! DEFINITION. The commands of the cycle scheduler: CYCLE_SET, CYCLE_START, CYCLE_STOP, CYCLE_QUERY (R86, R88, R89, R97 to
R99). -/

namespace Sys2Proof.Machine

/-- CYCLE_SET at the scheduler (R86). -/
def State.cycleSet (s : State) (slots : List Nat) : State × Reply :=
  if Config.cycleListCapacity < slots.length ∨ slots.any (fun a => !validAddress a) then (s, .refuse .range)
  else if s.sched.state = .stopped then
    ({ s with sched := { s.sched with cycleList := slots, pendingList := none } }, .ok [byte slots.length, 0])
  else ({ s with sched := { s.sched with pendingList := some slots } }, .ok [byte slots.length, 1])

/-- CYCLE_SET (R86). -/
def execCycleSet (s : State) : Host.Outcome State Fault Refusal :=
  takeCommand (· == typeCycleSet) parseCycleSet (fun f s => s.cycleSet f) s

/-- The numeric fields of CYCLE_START are in range (R88, item 2). -/
def StartFields.inRange (f : StartFields) : Bool :=
  decide (f.period ≤ Config.periodLimit ∧ 1 ≤ f.demandShare ∧ f.demandShare ≤ 4 ∧ f.probeBudget ≤ 4)

/-- The scheduler after an accepted CYCLE_START: pending list installed, settings taken, cycle 0 begun (R88). -/
def Scheduler.startCycle (c : Scheduler) (mode : CycleMode) (f : StartFields) : Scheduler :=
  Scheduler.beginCycle
    { c.install with
      mode := mode, period := f.period, demandShare := f.demandShare, probeBudget := f.probeBudget,
      stopRequest := .none, overruns := 0 } 0

/-- The cycle in progress abandoned: its summary placed with its abandoned flag set, and an exchange in flight that it
handed out marked (R89, R96). From RESTING no cycle is in progress and no summary is placed. -/
def State.abandonCycle (s : State) : State :=
  let s1 :=
    if s.sched.state = .active then s.place (.cycleDone { s.sched.summary with abandoned := true }) else s
  if s.sched.state ≠ .stopped ∧ s.sched.slotInFlight then
    { s1 with sched := { s1.sched with slotAbandoned := true } }
  else s1

/-- The effects of an accepted CYCLE_START, before the arbiter's choice (R88, R89). -/
def State.beginCycling (s : State) (mode : CycleMode) (f : StartFields) : State :=
  let s1 := s.abandonCycle
  { s1 with
    sched := s1.sched.startCycle mode f
    arbiter := { s1.arbiter with demandAllowance := f.demandShare } }

/-- CYCLE_START at the scheduler (R88, R89). -/
def State.cycleStart (s : State) (f : StartFields) : State × Reply :=
  match decodeMode f.mode with
  | none => (s, .refuse .badField)
  | some mode =>
    if !f.inRange then (s, .refuse .range)
    else if s.sched.pendingList.getD s.sched.cycleList = [] then (s, .refuse .wrongState)
    else
      let s1 := s.beginCycling mode f
      (s1.arbiterChoice, .ok [byte s1.sched.cycleList.length, flag (s.sched.state == .active)])

/-- CYCLE_START (R88, R89). -/
def execCycleStart (s : State) : Host.Outcome State Fault Refusal :=
  takeCommand (· == typeCycleStart) parseStart (fun f s => s.cycleStart f) s

/-- CYCLE_STOP AFTER_SLOT taken in ACTIVE or RESTING (R97). -/
def State.stopAfterSlot (s : State) : State :=
  match s.sched.state with
  | .stopped => s
  | .resting => { s with sched := s.sched.stop }
  | .active =>
    if s.sched.slotInFlight then { s with sched := { s.sched with stopRequest := .afterSlot } }
    else
      let summary := { s.sched.summary with abandoned := true }
      let s1 := s.place (.cycleDone summary)
      { s1 with sched := { s1.sched.stop with summary := summary } }

/-- CYCLE_STOP AFTER_CYCLE taken in ACTIVE or RESTING (R98). -/
def State.stopAfterCycle (s : State) : State :=
  match s.sched.state with
  | .stopped => s
  | .resting => { s with sched := s.sched.stop }
  | .active =>
    if s.sched.stopRequest = .afterSlot then s
    else { s with sched := { s.sched with stopRequest := .afterCycle } }

/-- The arbiter chooses when the scheduler has left ACTIVE (R100). -/
def State.choiceAfterStop (s : State) (wasActive : Bool) : State :=
  if wasActive && s.sched.state == .stopped then s.arbiterChoice else s

/-- CYCLE_STOP at the scheduler (R97, R98). -/
def State.cycleStop (s : State) (when_ : Byte) : State × Reply :=
  match decodeWhen when_ with
  | none => (s, .refuse .badField)
  | some w =>
    if s.sched.state = .stopped then (s, .refuse .wrongState)
    else
      let s1 := if w = .afterSlot then s.stopAfterSlot else s.stopAfterCycle
      (s1.choiceAfterStop (s.sched.state == .active), .ok [flag (s1.sched.state == .stopped)])

/-- CYCLE_STOP (R97, R98). -/
def execCycleStop (s : State) : Host.Outcome State Fault Refusal :=
  takeCommand (· == typeCycleStop) parseOne (fun f s => s.cycleStop f) s

/-- The body of the CYCLE_QUERY response with a list's slots (R99, R164). -/
def State.cycleBody (s : State) (slots : List Nat) : List Byte :=
  [s.sched.state.code, s.sched.mode.code] ++ le16 (BitVec.ofNat 16 s.sched.period) ++
    [byte s.sched.demandShare, byte s.sched.probeBudget, s.sched.stopRequest.code] ++ le16 s.sched.cycleNumber ++
    [s.sched.phase.code, byte s.sched.slotCursor, byte s.sched.probesIssued, byte s.arbiter.demandAllowance,
     byte s.arbiter.probeCursor] ++ le16 s.sched.overruns ++ s.sched.summary.bytes ++
    [flag s.sched.pendingList.isSome, byte slots.length] ++ slots.map byte

/-- CYCLE_QUERY at the scheduler: it changes nothing (R99). -/
def State.cycleQuery (s : State) (selector : Byte) : State × Reply :=
  match decodeFlag selector with
  | none => (s, .refuse .badField)
  | some pending => (s, .ok (s.cycleBody (if pending then s.sched.pendingList.getD [] else s.sched.cycleList)))

/-- CYCLE_QUERY (R99). -/
def execCycleQuery (s : State) : Host.Outcome State Fault Refusal :=
  takeCommand (· == typeCycleQuery) parseOne (fun f s => s.cycleQuery f) s

end Sys2Proof.Machine
end

