-- ==== Sys2Proof/Machine/HostLinkEvents.lean ====
section
/-! DEFINITION. The events of the host link: bytes and gaps on HRXD (R135 to R137), the transmitter (R131, R141, R142), the
restart taking effect (R146) and pin reset (R148). -/

namespace Sys2Proof.Machine

/-- The link statistics changed by a function. -/
def State.countLink (s : State) (f : LinkStats → LinkStats) : State :=
  { s with host := { s.host with stats := f s.host.stats } }

/-- The receiver's state and its gap timer changed. -/
def State.setHostRx (s : State) (rx : HostRx) (gap : Option Nat) : State :=
  { s with host := { s.host with rx := rx, gapTimer := gap } }

/-- The receiver goes on in a message: the gap timer runs from the byte's stop bit (R135). -/
def State.hostRxOn (s : State) (rx : HostRx) : State := s.setHostRx rx (some Config.hostGapLimitMs)

/-- The receiver returns to HUNT; the gap timer does not run there (R135, R136). -/
def State.hostRxHunt (s : State) : State := s.setHostRx .hunt none

/-- The hold timer is restarted if it runs (R137, R150). -/
def State.restartHoldTimer (s : State) : State :=
  { s with sup := { s.sup with holdTimer := s.sup.holdTimer.map (fun _ => s.sup.holdTime) } }

/-- A CRC-good message: it restarts the hold timer, counts, and is placed in the inbound buffer or dropped (R137). -/
def State.acceptMessage (s : State) (m : Message) : State :=
  let s1 := s.restartHoldTimer.countLink (fun st => { st with goodMessages := satInc st.goodMessages })
  if s1.host.inbound.length < Config.inboundCapacity then
    { s1 with host := { s1.host with inbound := s1.host.inbound ++ [m] } }
  else
    { s1 with host := { s1.host with
        dropped := satInc8 s1.host.dropped
        stats := { s1.host.stats with drops := satInc s1.host.stats.drops } } }

/-- The message in TYPE, TAG and payload bytes. -/
def messageOf : List Byte → Message
  | type :: tag :: payload => { type := type, tag := tag, payload := payload }
  | [type] => { type := type, tag := 0, payload := [] }
  | [] => { type := 0, tag := 0, payload := [] }

/-- The second CRC byte has come: the message is checked (R134, R136, R137). -/
def State.checkMessage (s : State) (len : Byte) (got : List Byte) (lo hi : Byte) : State :=
  if half lo hi = crc16 (len :: got) then s.hostRxHunt.acceptMessage (messageOf got)
  else s.hostRxHunt.countLink (fun st => { st with crcErrors := satInc st.crcErrors })

/-- A byte without framing error moves the receiver (R135, R136). -/
def State.takeHostByte (s : State) (b : Byte) : State :=
  match s.host.rx with
  | .hunt =>
    if b = syncByte then s.hostRxOn .length
    else s.hostRxHunt.countLink (fun st => { st with huntDiscards := satInc st.huntDiscards })
  | .length =>
    if 2 ≤ b.toNat ∧ b.toNat ≤ 98 then s.hostRxOn (.body b [])
    else s.hostRxHunt.countLink (fun st => { st with lengthErrors := satInc st.lengthErrors })
  | .body len got =>
    if got.length + 1 < len.toNat then s.hostRxOn (.body len (got ++ [b]))
    else s.hostRxOn (.crc len (got ++ [b]) none)
  | .crc len got none => s.hostRxOn (.crc len got (some b))
  | .crc len got (some lo) => s.checkMessage len got lo b

/-- The wait for a high HRXD set or ended (R133). -/
def State.setWaitHigh (s : State) (w : Bool) : State := { s with host := { s.host with waitHigh := w } }

/-- A byte on HRXD. One whose stop bit is high was begun on a line that had been high, so no wait for that goes on. One whose stop
bit is low has a framing error, discards a message in assembly, and leaves the receiver waiting for a high HRXD; during that
wait a line still low is no byte, and nothing happens (R133, R135, R136; log entry 27). -/
def State.hostByte (s : State) (b : Byte) (stopBit : Bool) : State :=
  if stopBit then (s.setWaitHigh false).takeHostByte b
  else if s.host.waitHigh then s
  else (s.hostRxHunt.countLink (fun st => { st with framingErrors := satInc st.framingErrors })).setWaitHigh true

/-- HOST_BYTE_RECEIVED (R133, R135 to R137): at any time out of pin reset. -/
def execHostByteReceived (b : Byte) (stopBit : Bool) (s : State) : Host.Outcome State Fault Refusal :=
  .next (s.takeDueReport.hostByte b stopBit)

/-- The start bit of a byte stops the gap timer; HRXD was high before it, which ends the wait for it (R133, R135). -/
def State.hostStartBit (s : State) : State := { s with host := { s.host with gapTimer := none, waitHigh := false } }

/-- HRXD_START_BIT (R133, R135). -/
def execHrxdStartBit (s : State) : Host.Outcome State Fault Refusal := .next s.takeDueReport.hostStartBit

/-- The gap timer expires: the message in assembly is discarded and counted (R136). -/
def State.hostGapExpires (s : State) : Host.Outcome State Fault Refusal :=
  guarded s.host.gapTimer.isSome (.timerStopped .hostGap)
    (s.hostRxHunt.countLink (fun st => { st with gapTimeouts := satInc st.gapTimeouts }))

/-- HOST_GAP_TIMEOUT (R136). -/
def execHostGapTimeout (s : State) : Host.Outcome State Fault Refusal := s.takeDueReport.hostGapExpires

/-- The free transmitter takes the waiting response (R141). -/
def State.takeResponse (s : State) : Host.Outcome State Fault Refusal :=
  if s.host.tx ≠ .free then .fault .transmitterBusy
  else
    match s.host.response with
    | none => .fault .noResponseWaiting
    | some m => .next { s with host := { s.host with tx := .sendingResponse m.frame } }

/-- RESPONSE_TAKEN (R141). -/
def execResponseTaken (s : State) : Host.Outcome State Fault Refusal := s.takeDueReport.takeResponse

/-- REPORT_TAKEN: the free transmitter, with no response waiting and no command being decided, takes the report offered (R131,
R141). -/
def execReportTaken (s : State) : Host.Outcome State Fault Refusal :=
  if s.host.tx ≠ .free then .fault .transmitterBusy
  else
    match s.dueReport with
    | none => .fault .noReportOffered
    | some e => .next (s.takeReport e)

/-- The end of a message's last stop bit: the transmitter is free, the message counts, and a response leaves its buffer
(R140, R142). -/
def State.transmitEnds (s : State) : State :=
  match s.host.tx with
  | .free => s
  | .sendingResponse _ =>
    { s with host := { s.host with
        tx := .free
        response := none
        stats := { s.host.stats with responsesSent := satInc s.host.stats.responsesSent } } }
  | .sendingReport _ =>
    { s with host := { s.host with
        tx := .free
        stats := { s.host.stats with reportsSent := satInc s.host.stats.reportsSent } } }

/-- The end of a message, where one is being sent (R142). -/
def State.endTransmission (s : State) : Host.Outcome State Fault Refusal :=
  guarded (s.host.tx != .free) .transmitterFree s.transmitEnds

/-- TRANSMIT_END (R142). -/
def execTransmitEnd (s : State) : Host.Outcome State Fault Refusal := s.takeDueReport.endTransmission

/-- The transmitter is sending a response, or has sent it and the buffer is empty (R146; log entry 12). -/
def HostLink.responseEnding (h : HostLink) : Bool :=
  match h.tx with
  | .sendingResponse _ => true
  | .free => h.response.isNone
  | .sendingReport _ => false

/-- The restart takes effect. A message in assembly is discarded, except one whose second CRC byte comes together with the
restart: the restart being first, that message is received in the new state (R147; log entry 25). -/
def State.restartWith (s : State) (level : RestartLevel) : Option Byte → Host.Outcome State Fault Refusal
  | none => .next (s.takeRestart level)
  | some b =>
    match s.host.rx with
    | .crc len got (some lo) => .next ((s.takeRestart level).checkMessage len got lo b)
    | .hunt | .length | .body _ _ | .crc _ _ none => .fault .noMessageEnding

/-- RESTART_TAKES_EFFECT: at the end of the RESTART response's last byte every block takes its restart values (R146,
R147). -/
def execRestartTakesEffect (crcByte : Option Byte) (s : State) : Host.Outcome State Fault Refusal :=
  match s.host.restart with
  | none => .fault .noRestartDue
  | some level => if s.host.responseEnding then s.restartWith level crcByte else .fault .noRestartDue

/-- PIN_RESET (R148). -/
def execPinReset (hrate1 hrate0 : Bool) (s : State) : Host.Outcome State Fault Refusal := .next (s.pinReset hrate1 hrate0)

end Sys2Proof.Machine
end

