-- ==== Sys2Proof/Machine/ImageCommands.lean ====
section
/-! DEFINITION. The commands of the process image: IMAGE_WRITE and IMAGE_READ (R34 to R38). -/

namespace Sys2Proof.Machine

/-- The result with which an item of IMAGE_WRITE fails, if it does (R34). -/
def State.itemFault (s : State) (w : WriteItem) : Option Result :=
  if !validAddress w.address then some .range
  else
    match (s.entry w.address).profile with
    | none => some .noStation
    | some p => if p.outLen < w.offset + w.data.length then some .range else none

/-- Bytes written over others from an offset onward (R35). -/
def overlay (bytes : List Byte) (offset : Nat) (data : List Byte) : List Byte :=
  bytes.take offset ++ data ++ bytes.drop (offset + data.length)

/-- One item's bytes copied into its station's output area (R35). -/
def State.writeItem (s : State) (w : WriteItem) : State :=
  s.setAreas w.address ((s.areas w.address).map (fun ar =>
    { ar with output := { ar.output with bytes := overlay ar.output.bytes w.offset w.data } }))

/-- An area that an IMAGE_WRITE has touched: out_gen one up, and DIRTY (R35). -/
def OutputArea.touched (o : OutputArea) : OutputArea := { o with gen := o.gen + 1, state := .dirty }

/-- A touched station's output area after the write (R35). -/
def State.touch (s : State) (a : Nat) : State :=
  s.setAreas a ((s.areas a).map (fun ar => { ar with output := ar.output.touched }))

/-- All items applied in message order, and then every touched area once (R35). -/
def State.applyItems (s : State) (items : List WriteItem) : State :=
  (items.map WriteItem.address).eraseDups.foldl State.touch (items.foldl State.writeItem s)

/-- One station of the IMAGE_WRITE response: address and out_gen after the write (R35, R164). -/
def State.outGenBytes (s : State) (a : Nat) : List Byte := [byte a] ++ le16 (s.areasOrEmpty a).output.gen

/-- IMAGE_WRITE at the image: every item is checked before any is applied (R34, R35). -/
def State.imageWrite (s : State) (items : List WriteItem) : State × Reply :=
  match items.findSome? s.itemFault with
  | some r => (s, .refuse r)
  | none =>
    let s1 := s.applyItems items
    (s1, .ok (items.flatMap (fun w => s1.outGenBytes w.address)))

/-- IMAGE_WRITE (R34 to R36). -/
def execImageWrite (s : State) : Host.Outcome State Fault Refusal :=
  takeCommand (· == typeImageWrite) parseImageWrite (fun f s => s.imageWrite f) s

/-- The result with which an address of IMAGE_READ fails, if it does (R37). -/
def State.readFault (s : State) (a : Nat) : Option Result :=
  if !validAddress a then some .range else if !s.isDefined a then some .noStation else none

/-- One station of the IMAGE_READ response (R37, R164). -/
def State.readBytes (s : State) (a : Nat) : List Byte :=
  let ar := s.areasOrEmpty a
  ar.input.bytesFor a ++ [ar.output.state.code] ++ le16 ar.output.gen

/-- IMAGE_READ at the image: it changes nothing (R37, R38). -/
def State.imageRead (s : State) (addrs : List Nat) : State × Reply :=
  match addrs.findSome? s.readFault with
  | some r => (s, .refuse r)
  | none => (s, .ok (addrs.flatMap s.readBytes))

/-- IMAGE_READ (R37, R38). -/
def execImageRead (s : State) : Host.Outcome State Fault Refusal :=
  takeCommand (· == typeImageRead) parseImageRead (fun f s => s.imageRead f) s

end Sys2Proof.Machine
end

