-- ==== Sys2Proof/Machine/LineEvents.lean ====
section
/-! DEFINITION. The events of the station line and of the engine's timers (R44 to R46, R64 to R66, R71, R72), and of the
period timer (R94). -/

namespace Sys2Proof.Machine

/-- The receiver can see a falling edge: it is on and no character is in reception (R44, R45). -/
def LineRx.seesEdge : LineRx → Bool
  | .off | .receiving _ => false
  | .turnedOn | .seeking | .waitHigh => true

/-- A start bit whose majority is 0 begins a character and is handed to the engine; otherwise it is a false start (R45). -/
def State.startBit (s : State) (start : BitSamples) : State :=
  if start.majority then
    (s.setLineRx .seeking).countLine (fun st => { st with falseStarts := satInc st.falseStarts })
  else
    let s1 := s.setLineRx (.receiving s.line.rateIndex)
    { s1 with engine := s1.engine.startDetected }

/-- START_DETECTED (R45). While the receiver is off nothing on the line is received or counted, and an edge within a character
is no start of one, so nothing happens then (R44, R45). -/
def execStartDetected (start : BitSamples) (s : State) : Host.Outcome State Fault Refusal :=
  let t := s.takeDueReport
  .next (if t.line.rx.seesEdge then t.startBit start else t)

/-- The receiver after a finished character: it seeks a falling edge, after a broken one only once the line is high
(R46). -/
def LineRx.afterChar (c : RxChar) : LineRx := if c.broken then .waitHigh else .seeking

/-- The character in reception is finished, classified and handed to the engine (R45, R46). A character of a receiver that is off
has been abandoned, and is neither delivered nor counted (R44). -/
def State.finishChar (s : State) (samples : CharSamples) : Host.Outcome State Fault Refusal :=
  match s.line.rx with
  | .receiving _ => .next ((s.setLineRx (.afterChar (classify samples))).deliverChar (classify samples))
  | .off => .next s
  | .turnedOn | .seeking | .waitHigh => .fault .noCharacterInReception

/-- CHARACTER_DELIVERED (R45, R46). -/
def execCharacterDelivered (samples : CharSamples) (s : State) : Host.Outcome State Fault Refusal :=
  s.takeDueReport.finishChar samples

/-- A full CT of low line with no falling edge, after the receiver was turned on or after a broken character (R44, R46). A
receiver that is off delivers nothing (R44). -/
def State.lowLine (s : State) : Host.Outcome State Fault Refusal :=
  match s.line.rx with
  | .turnedOn | .waitHigh => .next ((s.setLineRx .waitHigh).deliverChar lowLineChar)
  | .off => .next s
  | .seeking | .receiving _ => .fault .lineNotFoundLow

/-- LOW_LINE_BROKEN_CHARACTER (R44, R46). -/
def execLowLineBrokenCharacter (s : State) : Host.Outcome State Fault Refusal := s.takeDueReport.lowLine

/-- The last stop bit of a frame ends: LDE is negated, the frame counts, the receiver is on, and the engine waits for the
reply, or for quiet after a broadcast (R44, R64, R70). -/
def State.frameEnds (s : State) (r : ExchangeRecord) : State :=
  let s1 := (s.setLineRx .turnedOn).countLine (fun st => { st with framesSent := satInc st.framesSent })
  if r.origin = .broadcast then { s1 with engine := s1.engine.enterGuard .broadcast }
  else { s1 with engine := { s1.engine with state := .awaiting, replyTimer := some s1.line.replyTimeout } }

/-- The end of the frame in progress (R64). -/
def State.endFrame (s : State) : Host.Outcome State Fault Refusal :=
  match s.engine.state, s.engine.record with
  | .sending, some r => .next (s.frameEnds r)
  | _, _ => .fault .noFrameInProgress

/-- FRAME_SENT (R64). -/
def execFrameSent (s : State) : Host.Outcome State Fault Refusal := s.takeDueReport.endFrame

/-- The reply timeout expires: the attempt is NO_REPLY (R65). -/
def State.replyTimeoutExpires (s : State) : Host.Outcome State Fault Refusal :=
  guarded (s.engine.state == .awaiting && s.engine.replyTimer.isSome) (.timerStopped .replyTimeout)
    (s.classifyAttempt .noReply)

/-- REPLY_TIMEOUT_EXPIRY (R65). -/
def execReplyTimeoutExpiry (s : State) : Host.Outcome State Fault Refusal := s.takeDueReport.replyTimeoutExpires

/-- The gap timer expires: the attempt is BROKEN (R52, R66). -/
def State.gapExpires (s : State) : Host.Outcome State Fault Refusal :=
  guarded (s.engine.state == .receiving && s.engine.gapTimer.isSome) (.timerStopped .gap) (s.classifyAttempt .broken)

/-- GAP_TIMER_EXPIRY (R52, R66). -/
def execGapTimerExpiry (s : State) : Host.Outcome State Fault Refusal := s.takeDueReport.gapExpires

/-- The engine is in GUARD (section 4.2). -/
def EngineState.isGuard : EngineState → Bool
  | .guard _ => true
  | .idle | .sending | .awaiting | .receiving | .released => false

/-- The jam timer expires (R72). -/
def State.jamExpires (s : State) (order : List ReportSource) : Host.Outcome State Fault Refusal :=
  guarded (s.engine.state.isGuard && s.engine.jamTimer.isSome) (.timerStopped .jam) (s.lineJams order)

/-- JAM_TIMER_EXPIRY (R72). -/
def execJamTimerExpiry (order : List ReportSource) (s : State) : Host.Outcome State Fault Refusal :=
  s.takeDueReport.jamExpires order

/-- A period expiry in ACTIVE: the cycle has overrun, and the timer runs again (R94). -/
def Scheduler.overrun (c : Scheduler) : Scheduler :=
  Scheduler.startPeriod { c with overruns := satInc c.overruns, summary := { c.summary with overrun := true } }

/-- The period timer expires, in each scheduler state (R94). -/
def State.periodExpires (s : State) : State :=
  match s.sched.state with
  | .stopped => { s with sched := { s.sched with periodTimer := none } }
  | .active => { s with sched := s.sched.overrun }
  | .resting =>
    let s1 := { s with sched := s.sched.nextCycle }
    if s1.sched.state = .active then s1.arbiterChoice else s1

/-- The period timer's expiry, where it runs (R94). -/
def State.periodExpiry (s : State) : Host.Outcome State Fault Refusal :=
  guarded s.sched.periodTimer.isSome (.timerStopped .period) s.periodExpires

/-- PERIOD_TIMER_EXPIRY (R94). -/
def execPeriodTimerExpiry (s : State) : Host.Outcome State Fault Refusal := s.takeDueReport.periodExpiry

end Sys2Proof.Machine
end

