-- ==== Sys2Proof/Machine/PartCommands.lean ====
section
/-! DEFINITION. The commands of the host link and of the line port: HELLO and STATUS, read block by block, LINE_SETUP, RESTART,
and the taking of a message of no command TYPE (R57, R138, R144 to R146). -/

namespace Sys2Proof.Machine

/-! ## HELLO and STATUS: one event for each block they read -/

/-- The two commands whose rule reads several blocks, STATUS with its clear flag (R144, R145). -/
inductive ReadKind where
  | hello
  | status (clear : Bool)
deriving DecidableEq, Repr

/-- What a message reads, if it is one that is decided by reading several blocks (R138). -/
def Message.readKind (m : Message) : Option ReadKind :=
  if m.type = typeHello then (parseEmpty m.payload).map (fun _ => .hello)
  else if m.type = typeStatus then ((parseOne m.payload).bind decodeFlag).map .status
  else none

/-- The blocks read, in the order of the response body (R144, R145, R164). -/
def ReadKind.blocks : ReadKind → List ReadBlock
  | .hello => [.hostLink, .scheduler, .supervision, .ticketTable, .reportUnit, .image]
  | .status _ => [.linePort, .hostLink, .supervision, .scheduler, .reportUnit]

/-- What a body holds that is read at no block: the identity and the capacities of HELLO (R144, R164). -/
def ReadKind.fixedBytes : ReadKind → List Byte
  | .hello =>
    le16 Config.vendorCode ++ le16 Config.partCode ++
      [Config.revision, byte Config.stationCapacity, byte Config.cycleListCapacity, byte Config.ticketCapacity,
       byte Config.reportCapacity] ++ le16 (BitVec.ofNat 16 Config.imageStoreSize)
  | .status _ => []

/-- What is read at a block (R144, R145). R23 says that the free byte count is reported by the responses to define and remove
alone, while R144 and R164 put it into HELLO: the model follows R144 and R164 (DEDUCED, log entry 30). -/
def State.blockBytes (s : State) (k : ReadKind) : ReadBlock → List Byte
  | .linePort => s.line.stats.bytes
  | .hostLink => if k = .hello then [s.host.strap.setWidth 8] else s.host.stats.bytes
  | .supervision => [s.sup.hold.code, s.sup.handover.code]
  | .scheduler => [s.sched.state.code]
  | .reportUnit => [byte s.reports.credit]
  | .ticketTable => [byte s.tickets.queue.length]
  | .image => le16 (BitVec.ofNat 16 s.freeBytes)

/-- A clearing STATUS sets the statistics of a block to 0 in the event of their reading (R60, R145). -/
def State.clearRead (s : State) (k : ReadKind) (b : ReadBlock) : State :=
  if k = .status true ∧ b = .linePort then { s with line := { s.line with stats := .zero } }
  else if k = .status true ∧ b = .hostLink then { s with host := { s.host with stats := .zero } }
  else s

/-- What the command being decided has read so far. -/
def Processor.reads : Processor → List (ReadBlock × List Byte)
  | .idle => []
  | .deciding _ reads => reads

/-- A reading added to those of the command being decided. -/
def Processor.note (p : Processor) (b : ReadBlock) (bytes : List Byte) : Processor :=
  match p with
  | .idle => .idle
  | .deciding m reads => .deciding m (reads ++ [(b, bytes)])

/-- One block is read (R138). -/
def State.readOne (k : ReadKind) (s : State) (b : ReadBlock) : State :=
  let t := s.clearRead k b
  { t with host := { t.host with processor := t.host.processor.note b (s.blockBytes k b) } }

/-- The blocks still to be read. -/
def ReadKind.left (k : ReadKind) (reads : List (ReadBlock × List Byte)) : List ReadBlock :=
  k.blocks.filter (fun b => !(reads.map Prod.fst).contains b)

/-- The response body, of the readings made (R164). -/
def ReadKind.body (k : ReadKind) (reads : List (ReadBlock × List Byte)) : List Byte :=
  k.fixedBytes ++ k.blocks.flatMap (fun b => (reads.lookup b).getD [])

/-- The blocks still to be read are read with no event between (R138). -/
def State.readRest (s : State) (k : ReadKind) : State × Reply :=
  let t := (k.left s.host.processor.reads).foldl (State.readOne k) s
  (t, .ok (k.body t.host.processor.reads))

/-- The rest of the reading, and the response, of a HELLO or STATUS that is being decided; none where none of the TYPE given
is. -/
def State.finishReading (s : State) (type : Byte) : Option State :=
  match s.host.processor with
  | .idle => none
  | .deciding m _ =>
    if m.type = type then
      m.readKind.map (fun k =>
        let d := s.readRest k
        d.1.placeResponse m d.2)
    else none

/-- HELLO: answered OK in every state, and changes nothing (R144). The row takes the message and reads every block, or reads
those left where the message has been taken already (log entry 17). -/
def execHello (s : State) : Host.Outcome State Fault Refusal :=
  match s.finishReading typeHello with
  | some t => .next t
  | none => takeCommand (· == typeHello) parseEmpty (fun _ s => s.readRest .hello) s

/-- STATUS at the host link (R145). -/
def State.status (s : State) (clear : Byte) : State × Reply :=
  match decodeFlag clear with
  | none => (s, .refuse .badField)
  | some c => s.readRest (.status c)

/-- STATUS (R145). The row takes the message and reads every block, or reads those left where the message has been taken
already (log entry 17). -/
def execStatus (s : State) : Host.Outcome State Fault Refusal :=
  match s.finishReading typeStatus with
  | some t => .next t
  | none => takeCommand (· == typeStatus) parseOne (fun f s => s.status f) s

/-- The idle processor takes a HELLO or STATUS that waits at the head, to decide it block by block (R138). -/
def State.beginReading (s : State) : State :=
  match s.host.inbound with
  | [] => s
  | m :: _ => if s.processorFree && m.readKind.isSome then s.beginCommand m else s

/-- The next event of a HELLO or STATUS being decided: one of the blocks left is read, or, with none left, the response is placed
(R138, R139). Which block is a free value (log entry 17). -/
def State.readNext (s : State) (m : Message) (k : ReadKind) : State :=
  let left := k.left s.host.processor.reads
  match left[Config.readChoice s.freeDraws % left.length]? with
  | some b => { s.readOne k b with freeDraws := s.freeDraws + 1 }
  | none => s.placeResponse m (.ok (k.body s.host.processor.reads))

/-- What the command processor does of itself between the rows (R138; log entry 17). -/
def State.processorTurn (s : State) : State :=
  match s.host.processor with
  | .idle => s.beginReading
  | .deciding m _ =>
    match m.readKind with
    | some k => s.readNext m k
    | none => s

/-- What the block does of itself where no row is given: a report that is due is taken (R141), and the command processor goes on
with a HELLO or STATUS, one event at a time (R138; log entries 4, 13 and 17). -/
def State.tick (s : State) : State := s.takeDueReport.processorTurn

/-! ## LINE_SETUP, RESTART, and messages of no command TYPE -/

/-- The engine states in which LINE_SETUP is refused: an exchange or broadcast in any of its phases, the guard included
(R57, item 2). -/
def EngineState.inExchange : EngineState → Bool
  | .sending | .awaiting | .receiving | .guard _ => true
  | .idle | .released => false

/-- LINE_SETUP at the line port (R57). -/
def State.lineSetup (s : State) (rate timeout retries : Nat) : State × Reply :=
  if 7 < rate ∨ timeout < 2 ∨ 250 < timeout ∨ 3 < retries then (s, .refuse .range)
  else if s.sched.state ≠ .stopped ∨ s.engine.state.inExchange then (s, .refuse .wrongState)
  else
    ({ s with line := { s.line with rateIndex := rate, replyTimeout := timeout, retryCount := retries } },
     .ok [byte rate, byte timeout, byte retries])

/-- LINE_SETUP (R57). -/
def execLineSetup (s : State) : Host.Outcome State Fault Refusal :=
  takeCommand (· == typeLineSetup) parseLineSetup (fun f s => s.lineSetup f.1 f.2.1 f.2.2) s

/-- RESTART at the host link: the level and the count of live tickets are answered, and the restart is arranged for the end
of the response (R119, R146). -/
def State.arrangeRestart (s : State) (level : Byte) : State × Reply :=
  match decodeLevel level with
  | none => (s, .refuse .badField)
  | some l =>
    ({ s with host := { s.host with restart := some l } }, .ok [l.code, byte s.tickets.queue.length])

/-- RESTART (R146). -/
def execRestart (s : State) : Host.Outcome State Fault Refusal :=
  takeCommand (· == typeRestart) parseOne (fun f s => s.arrangeRestart f) s

/-- The taking of a message whose TYPE is no command TYPE, whatever its payload (R138, step 1). -/
def execBadType (s : State) : Host.Outcome State Fault Refusal :=
  takeCommand (fun t => !commandTypes.contains t) some (fun _ s => (s, .refuse .badType)) s

end Sys2Proof.Machine
end

