-- ==== Sys2Proof/Machine/StationCommands.lean ====
section
/-! DEFINITION. The commands of the station table: STATION_DEFINE, STATION_REMOVE, STATION_QUERY (R15 to R20). -/

namespace Sys2Proof.Machine

/-- The profile a STATION_DEFINE gives, once its encodings are read; a fail_limit of 0 selects 3 (R15, R16). -/
def DefineFields.profile (f : DefineFields) (notify : Notify) (probeEnable : Bool) : Profile :=
  { kind := f.kind, inLen := f.inLen, outLen := f.outLen, failLimit := if f.failLimit = 0 then 3 else f.failLimit,
    divisor := f.divisor, notify := notify, probeEnable := probeEnable }

/-- The numeric fields of a STATION_DEFINE are in range (R15, check 3). -/
def DefineFields.inRange (f : DefineFields) : Bool :=
  decide (f.inLen ≤ 32 ∧ f.outLen ≤ 32 ∧ 1 ≤ f.divisor ∧ f.divisor ≤ 16 ∧ f.failLimit ≤ 15)

/-- The checks of a STATION_DEFINE in their order: the profile if all pass, else the result of the first that fails
(R15). -/
def State.checkDefine (s : State) (f : DefineFields) : Except Result Profile :=
  if !validAddress f.address then .error .range
  else
    match decodeNotify f.notify, decodeFlag f.probeEnable with
    | some n, some pe =>
      if !f.inRange then .error .range
      else if Config.imageStoreSize < s.allocatedExcept f.address + (f.inLen + f.outLen) then .error .noSpace
      else .ok (f.profile n pe)
    | _, _ => .error .badField

/-- The discard flag of the exchange in flight, set by a define or remove of its station (R79). -/
def State.discardExchange (s : State) (a : Nat) : State :=
  { s with engine := { s.engine with
      record := s.engine.record.map (fun r => if r.station = a then { r with discard := true } else r) } }

/-- The unsent INPUT_CHANGE and STATION_STATE entries of a station dropped (R129). -/
def State.dropNotices (s : State) (a : Nat) : State := { s with reports := s.reports.dropStation a }

/-- An entry right after its definition (R16). -/
def StationEntry.defined (p : Profile) : StationEntry := { StationEntry.unused with state := .absent, profile := some p }

/-- The effects of an accepted STATION_DEFINE (R16, R17, R24, R79, R129). -/
def State.define (s : State) (a : Nat) (p : Profile) : State :=
  let s1 := ((s.setEntry a (.defined p)).setAreas a (some p.freshAreas)).discardExchange a
  if s.isDefined a then s1.dropNotices a else s1

/-- The body of the STATION_DEFINE and STATION_REMOVE responses (R16, R18, R164). -/
def State.freeBody (s : State) (a : Nat) : List Byte := [byte a] ++ le16 (BitVec.ofNat 16 s.freeBytes)

/-- STATION_DEFINE at the station table (R15, R16). -/
def State.stationDefine (s : State) (f : DefineFields) : State × Reply :=
  match s.checkDefine f with
  | .error r => (s, .refuse r)
  | .ok p => let s1 := s.define f.address p; (s1, .ok (s1.freeBody f.address))

/-- STATION_DEFINE (R15 to R17). -/
def execStationDefine (s : State) : Host.Outcome State Fault Refusal :=
  takeCommand (· == typeStationDefine) parseDefine (fun f s => s.stationDefine f) s

/-- The ids of the QUEUED tickets of a station, in queue order (R19). -/
def TicketTable.queuedOf (t : TicketTable) (a : Nat) : List Byte :=
  (t.queue.filter (fun u => u.station == a && u.isQueued)).map Ticket.id

/-- Every QUEUED ticket of a station completes with WITHDRAWN, in queue order (R19, R113). -/
def State.withdrawTickets (s : State) (a : Nat) : State :=
  (s.tickets.queuedOf a).foldl (fun s id => s.completeTicket id (.bare .withdrawn 0)) s

/-- The effects of an accepted STATION_REMOVE (R18, R19, R25, R79, R129). -/
def State.remove (s : State) (a : Nat) : State :=
  ((((s.setEntry a .unused).setAreas a none).discardExchange a).dropNotices a).withdrawTickets a

/-- STATION_REMOVE at the station table (R18). -/
def State.stationRemove (s : State) (a : Nat) : State × Reply :=
  if !validAddress a then (s, .refuse .range)
  else if !s.isDefined a then (s, .refuse .noStation)
  else let s1 := s.remove a; (s1, .ok (s1.freeBody a))

/-- STATION_REMOVE (R18, R19). -/
def execStationRemove (s : State) : Host.Outcome State Fault Refusal :=
  takeCommand (· == typeStationRemove) parseOne (fun f s => s.stationRemove f.toNat) s

/-- The four counters of an entry set to 0 (R20). -/
def State.clearCounters (s : State) (a : Nat) : State :=
  s.setEntry a { s.entry a with counters := .zero }

/-- STATION_QUERY at the station table: the clear flag is checked ahead of the address (R20, R162). -/
def State.stationQuery (s : State) (a : Nat) (clear : Byte) : State × Reply :=
  match decodeFlag clear with
  | none => (s, .refuse .badField)
  | some c =>
    if !validAddress a then (s, .refuse .range)
    else (if c then s.clearCounters a else s, .ok ((s.entry a).bytes a))

/-- STATION_QUERY (R20). -/
def execStationQuery (s : State) : Host.Outcome State Fault Refusal :=
  takeCommand (· == typeStationQuery) parseStationQuery (fun f s => s.stationQuery f.1 f.2) s

end Sys2Proof.Machine
end

