-- ==== Sys2Proof/Machine/SupervisionCommands.lean ====
section
/-! DEFINITION. The supervision unit: HOLD_SETUP and RESUME (R149, R154), and the events of the hold timer, LREQ and the
handover limit (R151, R155 to R158). -/

namespace Sys2Proof.Machine

/-- HOLD_SETUP at the supervision unit (R149). -/
def State.holdSetup (s : State) (holdTime limit : Nat) : State × Reply :=
  if (0 < holdTime ∧ holdTime < Config.holdTimeLow) ∨ Config.holdTimeHigh < holdTime ∨ 255 < limit then
    (s, .refuse .range)
  else
    ({ s with sup := { s.sup with
        holdTime := holdTime
        handoverLimit := limit
        holdTimer := if s.isHeld then none else timerFor holdTime } },
     .ok (le16 (BitVec.ofNat 16 holdTime) ++ [byte limit, s.sup.hold.code]))

/-- HOLD_SETUP (R149). -/
def execHoldSetup (s : State) : Host.Outcome State Fault Refusal :=
  takeCommand (· == typeHoldSetup) parseHoldSetup (fun f s => s.holdSetup f.1 f.2) s

/-- The effects of an accepted RESUME, before the arbiter's choice (R154). -/
def State.endHold (s : State) : State :=
  State.place
    { s with sup := { s.sup with
        hold := .notHeld
        claim := .release
        holdTimer := timerFor s.sup.holdTime } }
    (.supervision .other)

/-- RESUME at the supervision unit (R154). -/
def State.resume (s : State) : State × Reply :=
  if s.isHeld then (s.endHold.arbiterChoice, .ok [HoldState.notHeld.code]) else (s, .refuse .wrongState)

/-- RESUME (R154). -/
def execResume (s : State) : Host.Outcome State Fault Refusal :=
  takeCommand (· == typeResume) parseEmpty (fun _ s => s.resume) s

/-- The no-retry flag of the exchange in flight, set by entry into hold (R80). -/
def State.forbidRetry (s : State) : State :=
  { s with engine := { s.engine with
      record := s.engine.record.map (fun r => if r.func.heldForbidden then { r with noRetry := true } else r) } }

/-- Entry into hold, before the arbiter's choice (R151). -/
def State.enterHold (s : State) : State :=
  State.place
    (State.forbidRetry { s with sup := { s.sup with hold := .held, holdTimer := none, claim := .hold } })
    (.supervision .holdEntered)

/-- The hold timer expires: hold is entered, and the arbiter makes a choice (R151, R152). -/
def State.holdExpires (s : State) : Host.Outcome State Fault Refusal :=
  guarded s.sup.holdTimer.isSome (.timerStopped .hold) s.enterHold.choose

/-- HOLD_TIMER_EXPIRY (R151). -/
def execHoldTimerExpiry (s : State) : Host.Outcome State Fault Refusal := s.takeDueReport.holdExpires

/-- LREQ asserted: a request stands, and the arbiter makes a choice (R155). -/
def State.assertLreq (s : State) : State :=
  let sup := if s.sup.handover = .none then { s.sup with handover := .requested } else s.sup
  { s with lreq := true, sup := sup }.arbiterChoice

/-- LREQ's assertion, where it was negated (R155). -/
def State.lreqRises (s : State) : Host.Outcome State Fault Refusal := guarded (!s.lreq) .lreqUnchanged s.assertLreq

/-- LREQ_ASSERTED (R155). -/
def execLreqAsserted (s : State) : Host.Outcome State Fault Refusal := s.takeDueReport.lreqRises

/-- The line returns from handover, before the arbiter's choice (R10, R82, R158). -/
def State.returnLine (s : State) (order : List ReportSource) : State :=
  let s1 := { s with
    lreq := false
    engine := .empty .idle
    line := { s.line with rx := .turnedOn }
    sup := { s.sup with handover := .none, limitTimer := none } }
  let returned := s1.tableLineReturned
  returned.1.placeAll (interleave order (returned.2 ++ [(.supervision, .supervision .other)]))

/-- LREQ negated, in each handover state, before the arbiter's choice (R155, R158). -/
def State.negateLreq (s : State) (order : List ReportSource) : State :=
  match s.sup.handover with
  | .none => { s with lreq := false }
  | .requested => { s with lreq := false, sup := { s.sup with handover := .none } }
  | .granted => s.returnLine order

/-- The handover limit expires: the report is asked for, and the line stays lent (R157). -/
def State.limitExpires (s : State) : State :=
  State.place { s with sup := { s.sup with limitTimer := none } } (.supervision .limitExpired)

/-- The handover limit's expiry, where it runs (R157). -/
def State.limitExpiry (s : State) : Host.Outcome State Fault Refusal :=
  guarded (s.sup.limitTimer.isSome && s.sup.handover == .granted) (.timerStopped .handoverLimit) s.limitExpires

/-- LIMIT_TIMER_EXPIRY (R157). -/
def execLimitTimerExpiry (s : State) : Host.Outcome State Fault Refusal := s.takeDueReport.limitExpiry

end Sys2Proof.Machine
end

