-- ==== Sys2Proof/Machine/TicketCommands.lean ====
section
/-! DEFINITION. The commands of the ticket table: SUBMIT, CANCEL, TICKET_QUERY (R107 to R109, R117, R118), and CREDIT of the
report unit (R130). -/

namespace Sys2Proof.Machine

/-- No live ticket holds an id (R107). -/
def TicketTable.isFree (t : TicketTable) (id : Byte) : Bool := (t.find id).isNone

/-- The first free id among `n` ids from one on, wrapping from 255 to 0 (R107). -/
def TicketTable.firstFree (t : TicketTable) : Nat → Byte → Byte
  | 0, id => id
  | n + 1, id => if t.isFree id then id else t.firstFree n (id + 1)

/-- The id the next accepted SUBMIT gives: found within the first 16 tried (R107). -/
def TicketTable.nextId (t : TicketTable) : Byte := t.firstFree 15 t.idCounter

/-- The place directly behind the last ticket of a list that satisfies a condition; the head if none does. -/
def behindLast (p : Ticket → Bool) : List Ticket → Nat
  | [] => 0
  | t :: rest => if behindLast p rest = 0 then (if p t then 1 else 0) else behindLast p rest + 1

/-- A new ticket's position in queue order (R109). The later of the last waiting URGENT ticket and the last waiting ticket
of the station is the last ticket that is one or the other. -/
def TicketTable.positionFor (t : TicketTable) (priority : Priority) (station : Nat) : Nat :=
  match priority with
  | .normal => t.queue.length
  | .urgent => behindLast (fun u => u.isWaiting && (u.priority == .urgent || u.station == station)) t.queue

/-- A ticket placed at a position (R109). -/
def TicketTable.insertAt (t : TicketTable) (n : Nat) (u : Ticket) : TicketTable :=
  { t with queue := t.queue.take n ++ u :: t.queue.drop n }

/-- The checks of SUBMIT in their order (R108). -/
def State.checkSubmit (s : State) (f : SubmitFields) : Except Result (TicketFunction × Priority) :=
  match decodeTicketFunction f.func, decodePriority f.priority with
  | some fn, some pr =>
    if !validAddress f.address then .error .range
    else if !s.isDefined f.address then .error .noStation
    else if !fn.suits f.data.length then .error .badField
    else if Config.ticketCapacity ≤ s.tickets.queue.length then .error .queueFull
    else .ok (fn, pr)
  | _, _ => .error .badField

/-- The ticket an accepted SUBMIT places (R108). -/
def State.newTicket (s : State) (f : SubmitFields) (fn : TicketFunction) (pr : Priority) : Ticket :=
  { id := s.tickets.nextId, station := f.address, func := fn, data := f.data, priority := pr, hostTag := f.hostTag,
    state := .queued }

/-- The ticket table after an accepted SUBMIT (R107 to R109). -/
def State.placeTicket (s : State) (t : Ticket) : State :=
  { s with tickets := { (s.tickets.insertAt (s.tickets.positionFor t.priority t.station) t) with idCounter := t.id + 1 } }

/-- SUBMIT at the ticket table (R108). -/
def State.submit (s : State) (f : SubmitFields) : State × Reply :=
  match s.checkSubmit f with
  | .error r => (s, .refuse r)
  | .ok (fn, pr) =>
    let t := s.newTicket f fn pr
    ((s.placeTicket t).arbiterChoice, .ok [t.id, byte (s.tickets.positionFor pr f.address)])

/-- SUBMIT (R107 to R109). -/
def execSubmit (s : State) : Host.Outcome State Fault Refusal :=
  takeCommand (· == typeSubmit) parseSubmit (fun f s => s.submit f) s

/-- The ids of the QUEUED tickets that are blocked now (R110). -/
def State.blockedTickets (s : State) : List Byte := blockedIds s.isHeld [] s.tickets.queue

/-- The arbiter chooses if a QUEUED ticket that was blocked is blocked no more (R100, R110). -/
def State.choiceIfUnblocked (s : State) (blockedBefore : List Byte) : State :=
  if blockedBefore.any (fun id => (s.tickets.find id).any Ticket.isQueued && !s.blockedTickets.contains id) then
    s.arbiterChoice
  else s

/-- CANCEL at the ticket table (R117). -/
def State.cancel (s : State) (id : Byte) : State × Reply :=
  match s.tickets.find id with
  | none => (s, { result := .noTicket, body := [id] })
  | some t =>
    match t.state with
    | .queued =>
      ((s.completeTicket id (.bare .cancelled 0)).choiceIfUnblocked s.blockedTickets, .ok [id, 2])
    | .onLine => (s, { result := .tooLate, body := [id, 1] })
    | .done _ => (s, { result := .alreadyDone, body := [id, 2] })

/-- CANCEL (R117). -/
def execCancel (s : State) : Host.Outcome State Fault Refusal :=
  takeCommand (· == typeCancel) parseOne (fun f s => s.cancel f) s

/-- Outcome, status and attempts of a TICKET_QUERY response, by the ticket's state (R118, R164). -/
def TicketState.resultBytes : TicketState → List Byte
  | .queued | .onLine => [0xFF, 0xFF, 0]
  | .done r => [r.outcome.code, statusByte r.status, byte r.attempts]

/-- The body of the TICKET_QUERY response (R118, R164). -/
def State.ticketBody (s : State) (t : Ticket) : List Byte :=
  [t.id, byte t.station, t.func.onLine.code, t.priority.code] ++ le16 t.hostTag ++
    [t.state.code, byte (s.tickets.queue.findIdx (fun u => u.id == t.id)), byte s.tickets.queue.length,
     flag (t.isQueued && s.blockedTickets.contains t.id)] ++ t.state.resultBytes

/-- TICKET_QUERY at the ticket table: it changes nothing (R118). -/
def State.ticketQuery (s : State) (id : Byte) : State × Reply :=
  match s.tickets.find id with
  | none => (s, .refuse .noTicket)
  | some t => (s, .ok (s.ticketBody t))

/-- TICKET_QUERY (R118). -/
def execTicketQuery (s : State) : Host.Outcome State Fault Refusal :=
  takeCommand (· == typeTicketQuery) parseOne (fun f s => s.ticketQuery f) s

/-- CREDIT at the report unit (R130). -/
def State.addCredit (s : State) (n : Nat) : State × Reply :=
  if n < 1 ∨ 32 < n then (s, .refuse .range)
  else
    let credit := min (s.reports.credit + n) Config.creditLimit
    ({ s with reports := { s.reports with credit := credit } }, .ok [byte credit])

/-- CREDIT (R130). -/
def execCredit (s : State) : Host.Outcome State Fault Refusal :=
  takeCommand (· == typeCredit) parseOne (fun f s => s.addCredit f.toNat) s

end Sys2Proof.Machine
end

