-- ==== Sys2Proof/Machine/BeforeChoice.lean ====
section
/-! DEFINITION. The two rows after which the engine is IDLE with the arbiter's choice still to come, and the event that may fall
before that choice: QUIET_TIMER_EXPIRY (R71, R73) and LREQ_NEGATED (R155, R158). -/

namespace Sys2Proof.Machine

/-- The nineteen commands by their TYPE (R163), each with its meaning. -/
def commandMeanings : List (Byte × (State → Host.Outcome State Fault Refusal)) :=
  [(typeHello, execHello), (typeLineSetup, execLineSetup), (typeStatus, execStatus), (typeStationDefine, execStationDefine),
   (typeStationRemove, execStationRemove), (typeStationQuery, execStationQuery), (typeCycleSet, execCycleSet),
   (typeCycleStart, execCycleStart), (typeCycleStop, execCycleStop), (typeCycleQuery, execCycleQuery),
   (typeImageWrite, execImageWrite), (typeImageRead, execImageRead), (typeSubmit, execSubmit), (typeCancel, execCancel),
   (typeTicketQuery, execTicketQuery), (typeCredit, execCredit), (typeHoldSetup, execHoldSetup), (typeResume, execResume),
   (typeRestart, execRestart)]

/-- The message that the command processor is deciding, or, while it is idle, the one at the head of the inbound buffer
(R138). -/
def State.commandInHand (s : State) : Option Message :=
  match s.host.processor with
  | .idle => s.host.inbound.head?
  | .deciding m _ => some m

/-- The command processor takes the message at the head of the inbound buffer, whichever command it is, or ends the one it is
deciding (R138). -/
def State.takeMessage (s : State) : Host.Outcome State Fault Refusal :=
  match s.commandInHand with
  | none => .fault .noMessageWaiting
  | some m =>
    match commandMeanings.find? (fun row => row.1 == m.type) with
    | some row => row.2 s
    | none => execBadType s

/-- The event that falls before a choice (log entry 26). -/
def State.beforeChoice (s : State) : BeforeChoice → Host.Outcome State Fault Refusal
  | .nothing => .next s
  | .lreqAsserted => execLreqAsserted s
  | .holdTimerExpiry => execHoldTimerExpiry s
  | .command => s.takeMessage

/-- The arbiter's choice made in the next state, if there is one. -/
def thenChoose : Host.Outcome State Fault Refusal → Host.Outcome State Fault Refusal
  | .next t => .next t.choose
  | .fault f => .fault f
  | .refused r => .refused r

/-- The end of a guard, and the arbiter's choice where it leaves the engine IDLE, with the event that falls before it (R71,
R73, R100, R117). No choice follows a retry. -/
def State.quietExpires (s : State) (order : IdleOrder) : Host.Outcome State Fault Refusal :=
  let s1 := s.guardEnds order.reports
  if s1.engine.state = .idle then thenChoose (s1.beforeChoice order.before)
  else if order.before = .nothing then .next s1
  else .fault .noChoiceFollows

/-- The quiet timer's expiry, where it runs in a guard (R71, R73). -/
def State.quietExpiry (s : State) (order : IdleOrder) : Host.Outcome State Fault Refusal :=
  if s.engine.state.isGuard && s.engine.quietTimer.isSome then s.quietExpires order else .fault (.timerStopped .quiet)

/-- QUIET_TIMER_EXPIRY (R71, R73). -/
def execQuietTimerExpiry (order : IdleOrder) (s : State) : Host.Outcome State Fault Refusal :=
  s.takeDueReport.quietExpiry order

/-- LREQ negated; where the line returns, the arbiter's choice follows, with the event that falls before it (R155, R158). -/
def State.releaseLreq (s : State) (order : IdleOrder) : Host.Outcome State Fault Refusal :=
  let o := (s.negateLreq order.reports).beforeChoice order.before
  if s.sup.handover = .granted then thenChoose o else o

/-- LREQ's negation, where it was asserted (R155, R158). -/
def State.lreqFalls (s : State) (order : IdleOrder) : Host.Outcome State Fault Refusal :=
  if s.lreq then s.releaseLreq order else .fault .lreqUnchanged

/-- LREQ_NEGATED (R155, R158). -/
def execLreqNegated (order : IdleOrder) (s : State) : Host.Outcome State Fault Refusal :=
  s.takeDueReport.lreqFalls order

end Sys2Proof.Machine
end

