-- ==== Sys2Proof/Machine/Dispatch.lean ====
section
/-! DEFINITION. The meaning of every command: one arm for each row of spec/opcode_table.json. -/

namespace Sys2Proof.Machine

def exec (i : Instr) (s : State) : Host.Outcome State Fault Refusal :=
  match i with
  | .hello => Sys2Proof.Machine.execHello s
  | .lineSetup => Sys2Proof.Machine.execLineSetup s
  | .status => Sys2Proof.Machine.execStatus s
  | .stationDefine => Sys2Proof.Machine.execStationDefine s
  | .stationRemove => Sys2Proof.Machine.execStationRemove s
  | .stationQuery => Sys2Proof.Machine.execStationQuery s
  | .cycleSet => Sys2Proof.Machine.execCycleSet s
  | .cycleStart => Sys2Proof.Machine.execCycleStart s
  | .cycleStop => Sys2Proof.Machine.execCycleStop s
  | .cycleQuery => Sys2Proof.Machine.execCycleQuery s
  | .imageWrite => Sys2Proof.Machine.execImageWrite s
  | .imageRead => Sys2Proof.Machine.execImageRead s
  | .submit => Sys2Proof.Machine.execSubmit s
  | .cancel => Sys2Proof.Machine.execCancel s
  | .ticketQuery => Sys2Proof.Machine.execTicketQuery s
  | .credit => Sys2Proof.Machine.execCredit s
  | .holdSetup => Sys2Proof.Machine.execHoldSetup s
  | .resume => Sys2Proof.Machine.execResume s
  | .restart => Sys2Proof.Machine.execRestart s
  | .badType => Sys2Proof.Machine.execBadType s
  | .hostByteReceived value stopBit => Sys2Proof.Machine.execHostByteReceived value stopBit s
  | .hostGapTimeout => Sys2Proof.Machine.execHostGapTimeout s
  | .responseTaken => Sys2Proof.Machine.execResponseTaken s
  | .reportTaken => Sys2Proof.Machine.execReportTaken s
  | .transmitEnd => Sys2Proof.Machine.execTransmitEnd s
  | .restartTakesEffect crcByte => Sys2Proof.Machine.execRestartTakesEffect crcByte s
  | .pinReset hrate1 hrate0 => Sys2Proof.Machine.execPinReset hrate1 hrate0 s
  | .startDetected start => Sys2Proof.Machine.execStartDetected start s
  | .characterDelivered samples => Sys2Proof.Machine.execCharacterDelivered samples s
  | .lowLineBrokenCharacter => Sys2Proof.Machine.execLowLineBrokenCharacter s
  | .frameSent => Sys2Proof.Machine.execFrameSent s
  | .replyTimeoutExpiry => Sys2Proof.Machine.execReplyTimeoutExpiry s
  | .gapTimerExpiry => Sys2Proof.Machine.execGapTimerExpiry s
  | .quietTimerExpiry order => Sys2Proof.Machine.execQuietTimerExpiry order s
  | .jamTimerExpiry order => Sys2Proof.Machine.execJamTimerExpiry order s
  | .periodTimerExpiry => Sys2Proof.Machine.execPeriodTimerExpiry s
  | .holdTimerExpiry => Sys2Proof.Machine.execHoldTimerExpiry s
  | .lreqAsserted => Sys2Proof.Machine.execLreqAsserted s
  | .lreqNegated order => Sys2Proof.Machine.execLreqNegated order s
  | .limitTimerExpiry => Sys2Proof.Machine.execLimitTimerExpiry s
  | .hrxdStartBit => Sys2Proof.Machine.execHrxdStartBit s

end Sys2Proof.Machine
end

