-- ==== Sys2Proof/Machine/ConformingStation.lean ====
section
/-! DEFINITION. What a conforming station does with the frames it hears (R53 to R56): an agent outside the part, given
beside it and not part of State (DESIGN CHOICE, log entry 16). -/

namespace Sys2Proof.Machine

/-- A station's memory of its last executed request (R54). -/
structure StationMemory where
  toggle : Bool
  func   : Byte
  reply  : List LineChar
deriving DecidableEq, Repr

/-- A conforming station: its address and kind, its current inputs and its safe outputs, whose numbers are its in_len and
out_len, its memory, its hold, and the outputs it applies. -/
structure ConformingStation where
  address : Nat
  kind    : Half
  inputs  : List Byte
  safe    : List Byte
  memory  : Option StationMemory
  held    : Bool
  outputs : List Byte
deriving DecidableEq, Repr

/-- The station's in_len: the number of its inputs. -/
def ConformingStation.inLen (st : ConformingStation) : Nat := st.inputs.length

/-- The station's out_len: the number of its outputs. -/
def ConformingStation.outLen (st : ConformingStation) : Nat := st.safe.length

/-- The value of a parameter, 1..16 bytes (R50). -/
structure ParamValue where
  first : Byte
  rest  : List Byte
deriving DecidableEq, Repr

/-- The bytes of a parameter's value: at most 16 are sent (R50). -/
def ParamValue.bytes (v : ParamValue) : List Byte := v.first :: v.rest.take 15

/-- What the manual leaves to the station: whether it accepts a request that suits it, and the value of the parameter a
PARAM_READ names. -/
structure StationAnswer where
  status : ReplyStatus
  value  : ParamValue
deriving DecidableEq, Repr

/-- A station that has just powered up or reset holds no memory and is not held (R53). R53 says nothing of its outputs; the
model gives it its safe outputs (DESIGN CHOICE, log entry 28). -/
def ConformingStation.powerUp (st : ConformingStation) : ConformingStation :=
  { st with memory := none, held := false, outputs := st.safe }

/-- The station's inputs change, by its own working; their number is fixed. -/
def ConformingStation.sense (st : ConformingStation) (inputs : List Byte) : ConformingStation :=
  if inputs.length = st.inLen then { st with inputs := inputs } else st

/-- The address character of a reply: station, echo of T, reply direction (R49). -/
def replyAddress (station : Nat) (toggle : Bool) : Byte := byte (station + 64 * toggle.toNat + 128)

/-- A reply frame (R49). -/
def replyFrame (station : Nat) (toggle : Bool) (status : ReplyStatus) (data : List Byte) : List LineChar :=
  frameOfBytes ([replyAddress station toggle, status.code, byte data.length] ++ data)

/-- A request as a station reads it from a frame. -/
structure HeardRequest where
  address : Byte
  func    : Byte
  data    : List Byte
deriving DecidableEq, Repr

/-- The frame a station takes: mark bits in their places, the length that of the data, and the check matching (R48,
R53). -/
def hearFrame (chars : List LineChar) : Option HeardRequest :=
  match chars with
  | a :: f :: n :: rest =>
    let values := chars.map LineChar.value
    if a.mark && (f :: n :: rest).all (fun c => !c.mark) && rest.length == n.value.toNat + 1 &&
        crc8 values.dropLast == values.getLastD 0 then
      some { address := a.value, func := f.value, data := rest.dropLast.map LineChar.value }
    else none
  | _ => none

/-- The data length suits the function and the station (R50, R53). Which of the five functions a station supports, R53 leaves to
the station: the model takes every code outside them as unsupported and each of them as supported, and a station that does not
support one of them is one whose own answer to it is REFUSE (DESIGN CHOICE, log entry 28). -/
def ConformingStation.suits (st : ConformingStation) (func : Byte) (data : List Byte) : Bool :=
  if func = LineFunction.exchange.code then data.length == st.outLen
  else if func = LineFunction.sample.code ∨ func = LineFunction.probe.code then data.length == 0
  else if func = LineFunction.paramRead.code then data.length == 1
  else if func = LineFunction.paramWrite.code then decide (2 ≤ data.length ∧ data.length ≤ 17)
  else false

/-- The status with which a station answers a request it executes: REFUSE where the request does not suit it (R53), also while
held (DEDUCED, log entry 28), ACCEPT to a suitable EXCHANGE while held (R56), and its own answer otherwise. So a held station is
taken to support EXCHANGE, and its own answer, REFUSE as unsupported among them, is not asked for (DESIGN CHOICE, log entry
28). -/
def ConformingStation.statusFor (st : ConformingStation) (func : Byte) (data : List Byte) (answer : StationAnswer) :
    ReplyStatus :=
  if !st.suits func data then .refuse
  else if st.held ∧ func = LineFunction.exchange.code then .accept
  else answer.status

/-- The data of an ACCEPT reply: the current inputs, the identity, the parameter's value, or none (R50, R55, R56). -/
def ConformingStation.acceptData (st : ConformingStation) (func : Byte) (answer : StationAnswer) : List Byte :=
  if func = LineFunction.exchange.code ∨ func = LineFunction.sample.code then st.inputs
  else if func = LineFunction.probe.code then le16 st.kind ++ [byte st.inLen, byte st.outLen]
  else if func = LineFunction.paramRead.code then answer.value.bytes
  else []

/-- The reply to an executed request; REFUSE and NOT_READY carry no data (R49). -/
def ConformingStation.replyTo (st : ConformingStation) (toggle : Bool) (func : Byte) (data : List Byte)
    (answer : StationAnswer) : List LineChar :=
  let status := st.statusFor func data answer
  replyFrame st.address toggle status (if status = .accept then st.acceptData func answer else [])

/-- A request is executed and its reply recorded (R54). A PROBE takes the station out of hold (R55); an accepted EXCHANGE
applies its outputs unless the station is held (R56). -/
def ConformingStation.execute (st : ConformingStation) (toggle : Bool) (func : Byte) (data : List Byte)
    (answer : StationAnswer) : ConformingStation × List LineChar :=
  let reply := st.replyTo toggle func data answer
  let applies := func = LineFunction.exchange.code ∧ st.held = false ∧ st.statusFor func data answer = .accept
  ({ st with
      memory := some { toggle := toggle, func := func, reply := reply }
      held := if func = LineFunction.probe.code then false else st.held
      outputs := if applies then data else st.outputs }, reply)

/-- A request for itself: replayed from memory if its T and function are those of the memory and the function is not
PROBE, and executed otherwise (R54, R55). -/
def ConformingStation.answerRequest (st : ConformingStation) (toggle : Bool) (func : Byte) (data : List Byte)
    (answer : StationAnswer) : ConformingStation × List LineChar :=
  match st.memory with
  | some m =>
    if m.toggle = toggle ∧ m.func = func ∧ func ≠ LineFunction.probe.code then (st, m.reply)
    else st.execute toggle func data answer
  | none => st.execute toggle func data answer

/-- A broadcast: HOLD takes the station into hold with its safe outputs, unless it is held already, and RELEASE out of it;
neither touches the memory (R56). The manual does not say what a station does with a frame to address 0 that has another
function, or with a HOLD or RELEASE that carries data; the model ignores the first, and takes the second as the HOLD or RELEASE
it is (DESIGN CHOICE, log entry 28). -/
def ConformingStation.takeBroadcast (st : ConformingStation) (func : Byte) : ConformingStation :=
  if func = LineFunction.hold.code then
    if st.held then st else { st with held := true, outputs := st.safe }
  else if func = LineFunction.release.code then { st with held := false }
  else st

/-- What a station does with a frame and what it sends in reply (R53). `intact` says that no character was broken and no
gap exceeded 2 CT. -/
def ConformingStation.hear (st : ConformingStation) (chars : List LineChar) (intact : Bool) (answer : StationAnswer) :
    ConformingStation × Option (List LineChar) :=
  match hearFrame chars with
  | none => (st, none)
  | some q =>
    if !intact || q.address.getLsbD 7 then (st, none)
    else if q.address.toNat % 64 = 0 then (st.takeBroadcast q.func, none)
    else if q.address.toNat % 64 = st.address then
      let a := st.answerRequest (q.address.getLsbD 6) q.func q.data answer
      (a.1, some a.2)
    else (st, none)

end Sys2Proof.Machine
end

