-- ==== Sys2Proof/Safety.lean ====
section
/-! DEFINITION. The laws of the part: what the manual says holds at every moment, as predicates of a state. -/

namespace Sys2Proof.Machine

/-! ## Report unit and ticket table -/

/-- The credit counter never exceeds 32 (R130). -/
def CreditLaw (s : State) : Prop := s.reports.credit ≤ Config.creditLimit

/-- Two notice entries of the same kind for the same thing (R121). -/
def ReportEntry.sameThing : ReportEntry → ReportEntry → Bool
  | .inputChange a, .inputChange b => a == b
  | .stationState a _ _, .stationState b _ _ => a == b
  | .cycleDone _ _, .cycleDone _ _ => true
  | .lineFault _ _, .lineFault _ _ => true
  | .supervision _ _ _, .supervision _ _ _ => true
  | _, _ => false

/-- At most 16 notice entries, and at most one for each thing a notice can concern (R120, R121). -/
def ReportLaw (s : State) : Prop :=
  s.reports.notices ≤ Config.noticePlaces ∧ s.reports.queue.Pairwise (fun e f => e.sameThing f = false)

/-- The contents of the DEMAND_DONE entries of a report queue, in queue order. -/
def completions (q : List ReportEntry) : List DemandDone :=
  q.filterMap (fun e =>
    match e with
    | .demandDone d => some d
    | .inputChange _ | .stationState _ _ _ | .cycleDone _ _ | .lineFault _ _ | .supervision _ _ _ => none)

/-- The reports that the DONE tickets of a queue ask for (R114). -/
def doneReports (q : List Ticket) : List DemandDone :=
  q.filterMap (fun t =>
    match t.state with
    | .done res => some (t.report res)
    | .queued | .onLine => none)

/-- At most 16 live tickets, their ids pairwise distinct (R106), and the DEMAND_DONE entries are exactly those of the DONE
tickets, one for each (R114, R125). -/
def TicketLaw (s : State) : Prop :=
  s.tickets.queue.length ≤ Config.ticketCapacity ∧ (s.tickets.queue.map Ticket.id).Nodup ∧
    (completions s.reports.queue).Perm (doneReports s.tickets.queue)

/-! ## Engine, receiver and handover -/

/-- The table of engine states (section 4.2, R61): which of record and timers are there in each, and that an attempt is
made only after none or one whose outcome allows a retry (R69). -/
def EngineLaw (g : Engine) : Prop :=
  match g.state with
  | .idle | .released => g = .empty g.state
  | .sending =>
    (∃ r, g.record = some r ∧ r.lastOutcome.all AttemptOutcome.allowsRetry) ∧
      g.replyTimer = none ∧ g.gapTimer = none ∧ g.quietTimer = none ∧ g.jamTimer = none
  | .awaiting =>
    (∃ r, g.record = some r ∧ r.lastOutcome.all AttemptOutcome.allowsRetry) ∧
      g.replyTimer.isSome ∧ g.gapTimer = none ∧ g.quietTimer = none ∧ g.jamTimer = none
  | .receiving =>
    (∃ r, g.record = some r ∧ r.lastOutcome.all AttemptOutcome.allowsRetry) ∧
      g.replyTimer = none ∧ g.quietTimer = none ∧ g.jamTimer = none
  | .guard _ => g.replyTimer = none ∧ g.gapTimer = none ∧ (g.record = none → g.jamTimer = none)

/-- The engine keeps its table; the receiver is off exactly in SENDING and RELEASED (R44); the engine is RELEASED exactly
while the line is granted (R82, R156, R158); and a handover state other than NONE stands exactly while LREQ is asserted
(R155, R158). -/
def LineLaw (s : State) : Prop :=
  EngineLaw s.engine ∧
    (s.line.rx = .off ↔ s.engine.state = .sending ∨ s.engine.state = .released) ∧
    (s.engine.state = .released ↔ s.sup.handover = .granted) ∧
    (s.lreq = true ↔ s.sup.handover ≠ .none)

/-! ## The exchange record -/

/-- What a record's origin fixes of it (R61, R90 to R92, R103, R104, R106); a broadcast is never classified (R64). -/
def ExchangeRecord.ShapeLaw (r : ExchangeRecord) : Prop :=
  match r.origin with
  | .broadcast =>
    (r.func = .hold ∨ r.func = .release) ∧ r.station = 0 ∧ r.toggle = false ∧ r.data = [] ∧ r.attemptLimit = 1 ∧
      r.lastOutcome = none
  | .cyclic => r.func = .exchange ∨ r.func = .sample
  | .discovery | .resync => r.func = .probe
  | .ticket _ => r.func = .sample ∨ r.func = .probe ∨ r.func = .paramRead ∨ r.func = .paramWrite

/-- The counts of attempts: the attempt in progress or last made lies within the limit, every attempt before it failed,
and it is counted once it is classified and has failed (R61, R68, R69); no broadcast waits for a reply (R64). -/
def ExchangeRecord.AttemptLaw (r : ExchangeRecord) (st : EngineState) : Prop :=
  1 ≤ r.attempt ∧ r.attempt ≤ r.attemptLimit ∧ r.attemptLimit ≤ 4 ∧
    match st with
    | .guard _ => r.attempt = r.failedAttempts + if r.lastOutcome.any AttemptOutcome.isFailedAttempt then 0 else 1
    | .sending => r.attempt = r.failedAttempts + 1
    | .awaiting | .receiving => r.attempt = r.failedAttempts + 1 ∧ r.origin ≠ .broadcast
    | .idle | .released => True

/-- A reply holds at most 36 characters, and one in assembly is short of its own length (R61, R66). -/
def ExchangeRecord.AssemblyLaw (r : ExchangeRecord) (st : EngineState) : Prop :=
  r.reply.length ≤ 36 ∧
    (st = .receiving → 3 ≤ r.reply.length → (r.replyByte 2).toNat ≤ 32 ∧ r.reply.length < (r.replyByte 2).toNat + 4)

/-- The record in flight keeps its laws, and the line settings their ranges (R57, R61). -/
def RecordLaw (s : State) : Prop :=
  (s.line.rateIndex ≤ 7 ∧ 2 ≤ s.line.replyTimeout ∧ s.line.replyTimeout ≤ 250 ∧ s.line.retryCount ≤ 3) ∧
    ∀ r, s.engine.record = some r → r.ShapeLaw ∧ r.AttemptLaw s.engine.state ∧ r.AssemblyLaw s.engine.state

/-! ## Station table -/

/-- The ranges of a profile (R2). -/
def Profile.inRange (p : Profile) : Prop :=
  p.inLen ≤ 32 ∧ p.outLen ≤ 32 ∧ 1 ≤ p.failLimit ∧ p.failLimit ≤ 15 ∧ 1 ≤ p.divisor ∧ p.divisor ≤ 16

/-- The law of one entry (R1, R14): an UNUSED entry is empty; a defined one has a profile in range, fail_run at fail_limit
exactly in OFFLINE and below it in the other states, 0 in ABSENT and ONLINE (R10). -/
def StationEntry.Law (e : StationEntry) : Prop :=
  match e.profile with
  | none => e = .unused
  | some p =>
    p.inRange ∧ e.state ≠ .unused ∧ e.failRun ≤ p.failLimit ∧ (e.failRun = p.failLimit ↔ e.state = .offline) ∧
      (e.state = .absent ∨ e.state = .online → e.failRun = 0)

/-- A record that a define or remove has not discarded, of a data function, finds its station ONLINE (R5, R90). -/
def ExchangeRecord.DataLaw (r : ExchangeRecord) (s : State) : Prop :=
  r.discard = false → r.func.isData = true → (s.entry r.station).state = .online

/-- Every entry keeps its law, and the exchange in flight finds its station in service (R14, R90). -/
def StationLaw (s : State) : Prop :=
  (∀ a, (s.entry a).Law) ∧ (∀ r, s.engine.record = some r → r.DataLaw s)

/-! ## Process image -/

/-- The areas of one address against its entry: areas exist exactly with a profile (R23), with its lengths (R23, R26,
R30); FRESH inputs belong to an ONLINE station (R29); and SENDING outputs stand only where `sending` allows them. -/
def AreasLaw (e : StationEntry) (ar : Option Areas) (sending : Prop) : Prop :=
  match e.profile, ar with
  | none, none => True
  | some p, some ar =>
    ar.input.bytes.length = p.inLen ∧ ar.output.bytes.length = p.outLen ∧
      (ar.input.state = .fresh → e.state = .online) ∧ (ar.output.state = .sending → sending)
  | none, some _ | some _, none => False

/-- An EXCHANGE with a station is in flight, and no define or remove has discarded it (R31, R79). -/
def State.exchangeInFlight (s : State) (a : Nat) : Prop :=
  ∃ r, s.engine.record = some r ∧ r.station = a ∧ r.func = .exchange ∧ r.discard = false

/-- The data of a GOOD reply to an EXCHANGE or SAMPLE number in_len (R27, R67). -/
def ExchangeRecord.ReplyLaw (r : ExchangeRecord) (s : State) : Prop :=
  r.discard = false → r.lastOutcome = some .good → (r.func = .exchange ∨ r.func = .sample) →
    ∀ p, (s.entry r.station).profile = some p → r.replyData.length = p.inLen

/-- The image fits the station table and the store, outputs are SENDING only while their EXCHANGE is in flight, and the reply
in flight fits the image (R23, R26, R29, R31 to R33). -/
def ImageLaw (s : State) : Prop :=
  (∀ a, AreasLaw (s.entry a) (s.areas a) (s.exchangeInFlight a)) ∧ s.allocated ≤ Config.imageStoreSize ∧ (∀ r, s.engine.record = some r → r.ReplyLaw s)

/-! ## Hold -/

/-- While the part is held, an EXCHANGE or PARAM_WRITE in flight makes no further attempt (R80, R153). -/
def HoldLaw (s : State) : Prop :=
  s.isHeld = true → ∀ r, s.engine.record = some r → r.func.heldForbidden = true → r.noRetry = true

/-- The ranges and timers of the supervision unit: the hold timer runs, for the hold time, exactly while that is non-zero
and the part is not held (R149, R150), and the limit timer only while the line is granted (R156 to R158). -/
def SupervisionLaw (s : State) : Prop :=
  (s.sup.holdTime = 0 ∨ (Config.holdTimeLow ≤ s.sup.holdTime ∧ s.sup.holdTime ≤ Config.holdTimeHigh)) ∧
    s.sup.handoverLimit ≤ 255 ∧
    s.sup.holdTimer = (if s.isHeld ∨ s.sup.holdTime = 0 then none else some s.sup.holdTime) ∧
    (s.sup.limitTimer.isSome = true → s.sup.handover = .granted)

/-! ## Cycle scheduler and arbiter -/

/-- The ranges of the scheduler's and the arbiter's state (tables at the head of spec/05, R85, R92). -/
def CycleRanges (s : State) : Prop :=
  s.sched.cycleList.length ≤ Config.cycleListCapacity ∧ (∀ a ∈ s.sched.cycleList, validAddress a = true) ∧
    (∀ l, s.sched.pendingList = some l → l.length ≤ Config.cycleListCapacity ∧ ∀ a ∈ l, validAddress a = true) ∧
    s.sched.slotCursor ≤ Config.cycleListCapacity ∧ s.sched.period ≤ Config.periodLimit ∧
    (1 ≤ s.sched.demandShare ∧ s.sched.demandShare ≤ 4) ∧ s.sched.probeBudget ≤ 4 ∧
    s.sched.probesIssued ≤ s.sched.probeBudget ∧ s.arbiter.demandAllowance ≤ 4 ∧
    validAddress s.arbiter.probeCursor = true ∧ validAddress s.sched.startMark = true

/-- What goes with the scheduler's state: the period timer is stopped in STOPPED and runs in RESTING (R93, R94), a stop
request stands in ACTIVE alone, and AFTER_SLOT only while a slot is in flight (R97, R98); a slot in flight is an exchange
in the engine, and only a slot in flight can be abandoned (R87, R89). -/
def CycleConsistent (s : State) : Prop :=
  (s.sched.state = .stopped → s.sched.periodTimer = none) ∧ (s.sched.state = .resting → s.sched.periodTimer.isSome = true) ∧
    (s.sched.stopRequest ≠ .none → s.sched.state = .active) ∧
    (s.sched.stopRequest = .afterSlot → s.sched.slotInFlight = true) ∧
    (s.sched.slotInFlight = true → s.engine.record.isSome = true) ∧
    (s.sched.slotAbandoned = true → s.sched.slotInFlight = true)

/-- The law of the scheduler and the arbiter. -/
def CycleLaw (s : State) : Prop := CycleRanges s ∧ CycleConsistent s

/-! ## Host link -/

/-- The receiver's gap timer does not run in HUNT (R135), the inbound buffer holds at most 2 messages (R137), a message in
assembly has a LEN of 2..98 and no more bytes than it (R134, R135), and a response being sent stands in the response
buffer (R140); a receiver that waits for a high HRXD is in HUNT (R133, R136); and while a command is being decided the
response buffer is empty and no restart is arranged (R138, R140, R146). -/
def HostLaw (s : State) : Prop :=
  s.host.inbound.length ≤ Config.inboundCapacity ∧ (s.host.waitHigh = true → s.host.rx = .hunt) ∧
    (match s.host.rx with
      | .hunt => s.host.gapTimer = none
      | .length => True
      | .body len got => 2 ≤ len.toNat ∧ len.toNat ≤ 98 ∧ got.length < len.toNat
      | .crc len got _ => 2 ≤ len.toNat ∧ len.toNat ≤ 98 ∧ got.length = len.toNat) ∧
    (match s.host.tx with
      | .sendingResponse _ => s.host.response.isSome
      | .free | .sendingReport _ => True) ∧
    (s.host.processor ≠ .idle → s.host.response = none ∧ s.host.restart = none)

end Sys2Proof.Machine
end

