-- ==== Sys2Proof/Certificates/Slice0/Obligations.lean ====
section
/-! DEFINITION. The statements about the model, for the provers. -/

namespace Sys2Proof.Machine

/-! ## Words the statements share -/

/-- A report is due: the free transmitter, with no response waiting, no command being decided and no restart due, finds a report
offer that stands, with credit and an entry in the queue (R130, R131, R141, R146). -/
def State.standsReport (s : State) : Prop :=
  s.host.tx = .free ∧ s.host.processor = .idle ∧ s.host.response = none ∧ s.host.restart = none ∧ 0 < s.reports.credit ∧
    s.reports.queue ≠ []

/-- The idle command processor can take the message `m`, of the TYPE given, with `rest` waiting behind it, and no report is due
that the free transmitter takes first (R138, R140, R141, R146). What holds where one is due is said once, by the statement on
REPORT_TAKEN. -/
def State.offers (s : State) (m : Message) (rest : List Message) (type : Byte) : Prop :=
  s.host.inbound = m :: rest ∧ m.type = type ∧ s.host.processor = .idle ∧ s.host.response = none ∧ s.host.restart = none ∧
    ¬s.standsReport

/-- The state with the message `m` taken and being decided, `rest` still waiting (R138). -/
def State.taking (s : State) (m : Message) (rest : List Message) : State :=
  { s with host := { s.host with inbound := rest, processor := .deciding m [] } }

/-- The state `t` with the message `m` taken and answered, `rest` still waiting, and everything else of the host link as
in `t` (R138, R139). -/
def State.answered (t : State) (m : Message) (rest : List Message) (result : Result) (body : List Byte) : State :=
  { t with host := { t.host with
      inbound := rest
      processor := .idle
      response := some { type := m.type + 0x80, tag := m.tag, payload := result.code :: t.host.dropped :: body }
      dropped := 0 } }

/-- A HELLO with no payload, or a STATUS whose payload is an assigned clear flag: decided by reading several blocks (R138, R144,
R145). -/
def Message.readsBlocks (m : Message) : Prop :=
  (m.type = 0x01 ∧ m.payload = []) ∨ (m.type = 0x03 ∧ (m.payload = [0] ∨ m.payload = [1]))

/-- What HELLO or STATUS reads at each block, in the order of the body: STATUS the twelve line and nine link statistics in the
order of R59 and R143 (R144, R145, R164). -/
def State.readings (s : State) (m : Message) : List (ReadBlock × List Byte) :=
  if m.type = 0x01 then
    [(.hostLink, [s.host.strap.setWidth 8]), (.scheduler, [s.sched.state.code]),
     (.supervision, [s.sup.hold.code, s.sup.handover.code]), (.ticketTable, [byte s.tickets.queue.length]),
     (.reportUnit, [byte s.reports.credit]), (.image, le16 (BitVec.ofNat 16 (2048 - s.allocated)))]
  else
    [(.linePort, le16 s.line.stats.framesSent ++ le16 s.line.stats.goodReplies ++ le16 s.line.stats.noReply ++
       le16 s.line.stats.broken ++ le16 s.line.stats.wrongStation ++ le16 s.line.stats.desync ++ le16 s.line.stats.late ++
       le16 s.line.stats.stray ++ le16 s.line.stats.noiseMarked ++ le16 s.line.stats.framingErrors ++
       le16 s.line.stats.falseStarts ++ le16 s.line.stats.jams),
     (.hostLink, le16 s.host.stats.goodMessages ++ le16 s.host.stats.huntDiscards ++ le16 s.host.stats.lengthErrors ++
       le16 s.host.stats.framingErrors ++ le16 s.host.stats.gapTimeouts ++ le16 s.host.stats.crcErrors ++
       le16 s.host.stats.drops ++ le16 s.host.stats.responsesSent ++ le16 s.host.stats.reportsSent),
     (.supervision, [s.sup.hold.code, s.sup.handover.code]), (.scheduler, [s.sched.state.code]),
     (.reportUnit, [byte s.reports.credit])]

/-- The body that answers HELLO or STATUS where each block's bytes are those in `reads`, or, of a block not read yet, those it
holds now: behind vendor, part, revision and the five capacities in HELLO (R138, R144, R145, R164). -/
def State.readBody (s : State) (m : Message) (reads : List (ReadBlock × List Byte)) : List Byte :=
  (if m.type = 0x01 then [0x3C, 0x0F, 0x16, 0x03, 2, 63, 64, 16, 32, 0x00, 0x08] else []) ++
    (s.readings m).flatMap (fun x => (reads.lookup x.1).getD x.2)

/-- The state once the blocks given, which `reads` does not hold yet, have been read for `m`: a clearing STATUS sets the
statistics of the line port and of the host link to 0 as it reads them (R60, R145). -/
def State.clearedBy (s : State) (m : Message) (blocks : List ReadBlock) (reads : List (ReadBlock × List Byte)) : State :=
  { s with
    line := { s.line with
      stats := if m.type = 0x03 ∧ m.payload = [1] ∧ .linePort ∈ blocks ∧ .linePort ∉ reads.map Prod.fst then .zero
               else s.line.stats }
    host := { s.host with
      stats := if m.type = 0x03 ∧ m.payload = [1] ∧ .hostLink ∈ blocks ∧ .hostLink ∉ reads.map Prod.fst then .zero
               else s.host.stats } }

/-- A restart of the level given is arranged and its response is at its end (R146), or has just ended as an event of its
own (log entry 12). -/
def State.restartDue (s : State) (level : RestartLevel) : Prop :=
  s.host.restart = some level ∧ ((∃ f, s.host.tx = .sendingResponse f) ∨ (s.host.tx = .free ∧ s.host.response = none))

/-- The nineteen commands with their TYPE codes (R163). -/
def commandRows : List (Byte × Instr) :=
  [(0x01, .hello), (0x02, .lineSetup), (0x03, .status), (0x10, .stationDefine), (0x11, .stationRemove),
   (0x12, .stationQuery), (0x20, .cycleSet), (0x21, .cycleStart), (0x22, .cycleStop), (0x23, .cycleQuery),
   (0x30, .imageWrite), (0x31, .imageRead), (0x40, .submit), (0x41, .cancel), (0x42, .ticketQuery), (0x50, .credit),
   (0x60, .holdSetup), (0x61, .resume), (0x70, .restart)]

/-- The rest of an IMAGE_WRITE payload holds `k` items of 1..32 data bytes and ends with the last (R163). -/
def itemsFit : Nat → List Byte → Bool
  | 0, p => p.isEmpty
  | k + 1, _ :: _ :: m :: p =>
    decide (1 ≤ m.toNat ∧ m.toNat ≤ 32 ∧ m.toNat ≤ p.length) && itemsFit k (p.drop m.toNat)
  | _ + 1, _ => false

/-- A payload has a length that R163 accepts for a command TYPE, and counts and lengths that agree with it. -/
def payloadFits (type : Byte) (p : List Byte) : Bool :=
  if type = 0x01 ∨ type = 0x61 then p.length == 0
  else if type = 0x02 ∨ type = 0x60 then p.length == 3
  else if type = 0x10 then p.length == 9
  else if type = 0x12 then p.length == 2
  else if type = 0x20 then p.length == 1 + (p.headD 0).toNat
  else if type = 0x21 then p.length == 5
  else if type = 0x30 then decide (1 ≤ (p.headD 0).toNat ∧ (p.headD 0).toNat ≤ 4) && itemsFit (p.headD 0).toNat (p.drop 1)
  else if type = 0x31 then
    ((p.headD 0).toNat == 1 || (p.headD 0).toNat == 2) && p.length == 1 + (p.headD 0).toNat
  else if type = 0x40 then decide (6 ≤ p.length) && p.length == 6 + ((p[5]?).getD 0).toNat
  else p.length == 1

/-- Runs commands one after the other, stopping at the first that stops. -/
def runCommands : List Instr → State → Host.Outcome State Fault Refusal
  | [], s => .next s
  | c :: cs, s =>
    match exec c s with
    | .next t => runCommands cs t
    | .fault f => .fault f
    | .refused r => .refused r

/-- The bytes of a frame as the events that receive them: a start bit, and the byte with its stop bit high, for each. -/
def receptionOf (bytes : List Byte) : List Instr := bytes.flatMap (fun b => [.hrxdStartBit, .hostByteReceived b true])

/-- An entry of the report queue that the define or remove of a station lets stay: any but its INPUT_CHANGE and its
STATION_STATE (R129). -/
def ReportEntry.staysWithout (a : Nat) : ReportEntry → Bool
  | .inputChange b => b != a
  | .stationState b _ _ => b != a
  | .demandDone _ | .cycleDone _ _ | .lineFault _ _ | .supervision _ _ _ => true

/-- The entry that a request makes where it merges with none: INPUT_CHANGE its station, STATION_STATE the state before with count 1,
DEMAND_DONE its contents, CYCLE_DONE the summary with merged 1, LINE_FAULT one jam with the station, SUPERVISION one hold entry for
hold entered, one grant for a grant, the long-handover flag for the limit's expiry, and none of them otherwise (R123 to R128). -/
def ReportRequest.makes : ReportRequest → ReportEntry → Prop
  | .inputChange a, e => e = .inputChange a
  | .stationState a before, e => e = .stationState a before 1
  | .demandDone d, e => e = .demandDone d
  | .cycleDone c, e => e = .cycleDone c 1
  | .lineFault a, e => e = .lineFault 1 a
  | .supervision .holdEntered, e => e = .supervision 1 0 false
  | .supervision .handoverGranted, e => e = .supervision 0 1 false
  | .supervision .limitExpired, e => e = .supervision 0 0 true
  | .supervision .other, e => e = .supervision 0 0 false

/-- The TYPE and body of a report, by its kind (R123 to R128, R131, R165). -/
def reportLayout (s : State) : ReportEntry → Byte × List Byte
  | .inputChange a =>
    (0xE0, [byte a, byte (s.areasOrEmpty a).input.bytes.length] ++ (s.areasOrEmpty a).input.bytes ++
      [(s.areasOrEmpty a).input.state.code] ++ le16 (s.areasOrEmpty a).input.gen)
  | .stationState a before count => (0xE1, [byte a, before.code, (s.entry a).state.code, count])
  | .demandDone d =>
    (0xE2, [d.id] ++ le16 d.hostTag ++ [d.outcome.code, statusByte d.status, byte d.attempts, byte d.data.length] ++ d.data)
  | .cycleDone c merged =>
    (0xE3, le16 c.cycleNumber ++ [c.slotsInList, c.exchanged, c.probed, c.skipped, c.failed,
      byte (c.overrun.toNat + 2 * c.abandoned.toNat), merged])
  | .lineFault jams station => (0xE4, [jams, byte station])
  | .supervision entries grants long =>
    (0xE5, [s.sup.hold.code, s.sup.handover.code, entries, grants, byte long.toNat])

/-- The counters `d` are the counters `c` with counts added, each stopping at 65535 (R3). -/
def Counters.countedFrom (d c : Counters) (good failed refusals desyncs : Nat) : Prop :=
  d.good.toNat = min (c.good.toNat + good) 65535 ∧ d.failedAttempts.toNat = min (c.failedAttempts.toNat + failed) 65535 ∧
    d.refusals.toNat = min (c.refusals.toNat + refusals) 65535 ∧ d.desyncs.toNat = min (c.desyncs.toNat + desyncs) 65535

/-- An item of IMAGE_WRITE (address, offset, bytes) that passes the checks of R34. -/
def State.takesItem (s : State) (i : Byte × Byte × List Byte) : Prop :=
  1 ≤ i.1.toNat ∧ i.1.toNat ≤ 63 ∧
    ∃ p, (s.entry i.1.toNat).profile = some p ∧ i.2.1.toNat + i.2.2.length ≤ p.outLen

/-- The exchange `r`, not a broadcast, is in its last guard with the outcome `o`, and the guard's end will end it: no further
attempt is to be made (R69, R71). -/
def State.lastGuardOf (s : State) (r : ExchangeRecord) (o : AttemptOutcome) : Prop :=
  s.engine.state = .guard o.guardKind ∧ s.engine.quietTimer.isSome = true ∧ s.engine.record = some r ∧
    r.lastOutcome = some o ∧ r.origin ≠ .broadcast ∧
    (o = .noReply ∨ o = .broken ∨ o = .wrongStation →
      r.attempt = r.attemptLimit ∨ r.discard = true ∨ r.noRetry = true)

/-- The outcome `out` is the arbiter's choice made in the state `t`, a report that is due there having been taken first (R100,
R141). -/
def State.chosenAt (t : State) (out : Host.Outcome State Fault Refusal) : Prop :=
  (¬t.standsReport → out = .next t.arbiterChoice) ∧
    ∀ v, t.standsReport → exec .reportTaken t = .next v → out = .next v.arbiterChoice

/-- The outcome `out` is that of a row which leaves the engine IDLE in the state `u`: the arbiter's choice made there, or, where
`before` names an event that falls before the choice, made after that event (R100, R117, R158; log entry 26). A command that
falls there is the taking of the message at the head, or the end of the one being decided. -/
def State.choiceFollows (u : State) (before : BeforeChoice) (out : Host.Outcome State Fault Refusal) : Prop :=
  (before = .nothing → u.chosenAt out) ∧
    (∀ t, before = .lreqAsserted → exec .lreqAsserted u = .next t → t.chosenAt out) ∧
    (∀ t, before = .holdTimerExpiry → exec .holdTimerExpiry u = .next t → t.chosenAt out) ∧
    (∀ (t : State) (m : Message) (rest : List Message) (c : Instr), before = .command → u.host.processor = .idle →
      u.host.inbound = m :: rest → (m.type, c) ∈ commandRows ∨ (c = .badType ∧ ∀ row ∈ commandRows, m.type ≠ row.1) →
      exec c u = .next t → t.chosenAt out) ∧
    ∀ (t : State) (m : Message) (reads : List (ReadBlock × List Byte)) (c : Instr), before = .command →
      u.host.processor = .deciding m reads → (m.type, c) ∈ commandRows → exec c u = .next t → t.chosenAt out

/-- QUIET_TIMER_EXPIRY ends an exchange in the state `u`: that is `s`, a report that was due there taken first, but for the four
blocks to which an exchange's end is delivered; reports are asked for, the engine becomes IDLE with no record, and the arbiter's
choice follows, with the event that falls before it, if one does (R71, R74, R100, R117, R141, R158; log entries 18 and 26). -/
def State.endsIn (s u : State) (order : IdleOrder) : Prop :=
  ∃ (v : State) (requests : List ReportRequest),
    (¬s.standsReport → v = s) ∧ (s.standsReport → exec .reportTaken s = .next v) ∧
    u = { v with stations := u.stations, image := u.image, tickets := u.tickets, sched := u.sched } ∧
    State.choiceFollows { requests.foldl State.place u with engine := .empty .idle } order.before
      (exec (.quietTimerExpiry order) s)

/-- The majority of three samples (R45). -/
def samplesRead (b : BitSamples) (level : Bool) : Prop :=
  (level = true ↔ 2 ≤ b.first.toNat + b.second.toNat + b.third.toNat)

/-- The line receiver can see a falling edge: it is on, with no character in reception (R44, R45). -/
def State.seesEdges (s : State) : Prop := s.line.rx ≠ .off ∧ ∀ n, s.line.rx ≠ .receiving n

/-- The event `i` hands the engine the finished character `c`: one received bit by bit, or one read from a low line (R44 to
R46). -/
def State.hears (s : State) (i : Instr) (c : RxChar) : Prop :=
  (∃ x n, i = .characterDelivered x ∧ s.line.rx = .receiving n ∧ c = classify x) ∨
    (i = .lowLineBrokenCharacter ∧ (s.line.rx = .turnedOn ∨ s.line.rx = .waitHigh) ∧
      c = { value := 0, mark := false, broken := true, noisy := false })

/-- The state once the line port has counted a finished character by its class and looks for the next (R46). -/
def State.withHeard (s : State) (c : RxChar) : State :=
  { s with line := { s.line with
      rx := if c.broken then .waitHigh else .seeking
      stats := { s.line.stats with
        noiseMarked := if c.noisy then satInc s.line.stats.noiseMarked else s.line.stats.noiseMarked
        framingErrors := if c.broken then satInc s.line.stats.framingErrors else s.line.stats.framingErrors } } }

/-- The state after an attempt of `r` is classified `o`: the outcome's statistic counted, the record told, and the guard the
outcome calls for begun (R68, R70). -/
def State.afterAttempt (s : State) (r : ExchangeRecord) (o : AttemptOutcome) : State :=
  { s with
    line := { s.line with
      stats :=
        match o with
        | .good => { s.line.stats with goodReplies := satInc s.line.stats.goodReplies }
        | .noReply => { s.line.stats with noReply := satInc s.line.stats.noReply }
        | .broken => { s.line.stats with broken := satInc s.line.stats.broken }
        | .wrongStation => { s.line.stats with wrongStation := satInc s.line.stats.wrongStation }
        | .desync => { s.line.stats with desync := satInc s.line.stats.desync }
        | .refused | .notReady => s.line.stats }
    engine :=
      { state := if o = .good ∨ o = .refused ∨ o = .notReady then .guard .turnaround else .guard .quiet
        record := some { r with
          lastOutcome := some o
          failedAttempts := r.failedAttempts + if o = .noReply ∨ o = .broken ∨ o = .wrongStation then 1 else 0 }
        replyTimer := none
        gapTimer := none
        quietTimer := some (if o = .good ∨ o = .refused ∨ o = .notReady then 1 else 3)
        jamTimer := some 64 } }

/-- A character that makes the reply in assembly unusable at once (R66). -/
def ExchangeRecord.spoiledBy (r : ExchangeRecord) (c : RxChar) : Prop :=
  c.broken = true ∨ (r.reply = [] ∧ c.mark = false) ∨ (r.reply ≠ [] ∧ c.mark = true) ∨
    (r.reply.length = 2 ∧ 32 < c.value.toNat)

/-- The end of the exchange with the outcome `o` counts as failed in the summary of the cycle in progress (R77, R95, R96). -/
def State.countsFailure (s : State) (r : ExchangeRecord) (o : AttemptOutcome) : Prop :=
  r.discard = false ∧ s.sched.slotAbandoned = false ∧
    ((r.origin = .cyclic ∧ (o = .noReply ∨ o = .broken ∨ o = .wrongStation ∨ o = .desync)) ∨
      (r.origin = .discovery ∧ o ≠ .good))

/-- The exchange `r`, ending with `o`, delivers inputs that call for an INPUT_CHANGE report: under EVERY always, under ON_CHANGE
where the bytes differ or the inputs were NONE or STALE (R27, R28). -/
def State.deliveryAsks (s : State) (r : ExchangeRecord) (o : AttemptOutcome) : Prop :=
  r.discard = false ∧ (r.func = .exchange ∨ r.func = .sample) ∧ o = .good ∧
    ∃ p ar, (s.entry r.station).profile = some p ∧ s.areas r.station = some ar ∧
      (p.notify = .every ∨
        (p.notify = .onChange ∧
          (r.replyData ≠ ar.input.bytes ∨ ar.input.state = .none ∨ ar.input.state = .stale)))

/-- The end of the exchange `r` with `o` at the ticket table, which asks for the reports `asked`: the ticket it was taken for
becomes DONE with the outcome, the status of an answered exchange, the data of a GOOD one and the attempts used, or with
WITHDRAWN if the exchange was discarded; no other ticket changes (R76, R78, R112 to R114). -/
def State.ticketEnds (s u : State) (r : ExchangeRecord) (o : AttemptOutcome) (asked : List ReportRequest) : Prop :=
  ((∀ id, r.origin ≠ .ticket id) → u.tickets = s.tickets ∧ asked = []) ∧
    ∀ id tk, r.origin = .ticket id → tk ∈ s.tickets.queue → tk.id = id → tk.state = .onLine →
      ∃ res : TicketResult,
        u.tickets = { s.tickets with queue := s.tickets.queue.map (fun x =>
          if x.id = id then { x with state := .done res } else x) } ∧
        asked = [.demandDone { id := id, hostTag := tk.hostTag, outcome := res.outcome, status := res.status,
                               attempts := res.attempts, data := res.data }] ∧
        res.attempts = r.attempt ∧
        (r.discard = true → res.outcome = .withdrawn ∧ res.status = none ∧ res.data = []) ∧
        (r.discard = false →
          res.data = (if o = .good then r.replyData else []) ∧
          (o = .good → res.outcome = .completed ∧ res.status = some .accept) ∧
          (o = .refused → res.outcome = .refused ∧ res.status = some .refuse) ∧
          (o = .notReady → res.outcome = .notReady ∧ res.status = some .notReady) ∧
          (o = .desync → res.outcome = .desync ∧ res.status = r.replyStatus) ∧
          (o = .noReply → res.outcome = .noReply ∧ res.status = none) ∧
          (o = .broken → res.outcome = .broken ∧ res.status = none) ∧
          (o = .wrongStation → res.outcome = .wrongStation ∧ res.status = none))

/-- The end of the exchange `r` with `o` at the scheduler, which asks for the reports `asked`: a failure counts in the summary
if the cycle was not abandoned, the markers of the slot in flight are cleared, and a standing AFTER_SLOT request stops the
scheduler, its summary reported (R77, R87, R95 to R97; log entries 10 and 11). -/
def State.slotEnds (s u : State) (r : ExchangeRecord) (o : AttemptOutcome) (asked : List ReportRequest) : Prop :=
  ∃ failed : Byte, (s.countsFailure r o → failed = satInc8 s.sched.summary.failed) ∧
    (¬s.countsFailure r o → failed = s.sched.summary.failed) ∧
    (s.sched.slotInFlight = false →
      u.sched = { s.sched with summary := { s.sched.summary with failed := failed } } ∧ asked = []) ∧
    (s.sched.slotInFlight = true → ¬(s.sched.state = .active ∧ s.sched.stopRequest = .afterSlot) →
      u.sched = { s.sched with
        slotInFlight := false, slotAbandoned := false
        summary := { s.sched.summary with failed := failed } } ∧ asked = []) ∧
    (s.sched.slotInFlight = true → s.sched.state = .active → s.sched.stopRequest = .afterSlot →
      u.sched = { s.sched with
        slotInFlight := false, slotAbandoned := false, state := .stopped, periodTimer := none, stopRequest := .none
        summary := { s.sched.summary with failed := failed, abandoned := true } } ∧
      asked = [.cycleDone { s.sched.summary with failed := failed, abandoned := true }])

/-- The reports the station table asks for at a change of one entry: STATION_STATE, from the state before, if the state changed
(R11, R124). -/
def State.tableAsks (s u : State) (a : Nat) (asked : List ReportRequest) : Prop :=
  ((s.entry a).state ≠ (u.entry a).state → asked = [.stationState a (s.entry a).state]) ∧
    ((s.entry a).state = (u.entry a).state → asked = [])

/-- Samples that agree on the bits of a line character. -/
def cleanSamples (c : LineChar) : CharSamples :=
  { value := Vector.ofFn (fun k : Fin 8 => ⟨c.value.getLsbD k, c.value.getLsbD k, c.value.getLsbD k⟩)
    mark := ⟨c.mark, c.mark, c.mark⟩
    stop := ⟨true, true, true⟩ }

/-- Characters on the line as the events that receive them: a start bit and the ten bits that follow, for each. -/
def lineReceptionOf (chars : List LineChar) : List Instr :=
  chars.flatMap (fun c => [.startDetected ⟨false, false, false⟩, .characterDelivered (cleanSamples c)])

/-- The length R50 gives an ACCEPT reply of a function whose station has the profile `p`. -/
def replyLengthFits (f : LineFunction) (p : Profile) (n : Nat) : Prop :=
  match f with
  | .exchange | .sample => n = p.inLen
  | .probe => n = 4
  | .paramRead => 1 ≤ n ∧ n ≤ 16
  | .paramWrite => n = 0
  | .hold | .release => False

/-- The line is free for the arbiter's tickets and slots: the engine IDLE, no handover asked for and no broadcast claimed
(R100, items 1 and 2). -/
def State.lineFree (s : State) : Prop :=
  s.engine.state = .idle ∧ s.sup.handover ≠ .requested ∧ s.sup.claim = .none

/-- No ticket is to be taken now: none is eligible, or the allowance of an ACTIVE cycle is spent (R100, item 3). -/
def State.noTicketNow (s : State) : Prop :=
  s.eligibleTicket = none ∨ (s.sched.state = .active ∧ s.arbiter.demandAllowance = 0)

/-- The state once the engine has been handed an exchange and sends its first attempt (R62). -/
def State.sendingFirst (s : State) (station : Nat) (f : LineFunction) (origin : Origin) (data : List Byte) : State :=
  { s with
    line := { s.line with rx := .off }
    engine :=
      { state := .sending
        record := some { station := station, func := f, origin := origin, toggle := (s.entry station).toggle, data := data,
                         attempt := 1, attemptLimit := 1 + s.line.retryCount, failedAttempts := 0, lastOutcome := none,
                         reply := [], discard := false, noRetry := false }
        replyTimer := none, gapTimer := none, quietTimer := none, jamTimer := none } }

/-- A ticket that the tickets ahead of it, and hold, let be taken (R110). -/
def State.freeToTake (s : State) (ahead : List Ticket) (t : Ticket) : Prop :=
  t.state = .queued ∧ (∀ u ∈ ahead, u.station = t.station → u.state ≠ .queued ∧ u.state ≠ .onLine) ∧
    (t.func = .paramWrite → s.sup.hold = .notHeld)

/-- A station that a discovery probe may go to (R92). -/
def State.isDiscoverable (s : State) (a : Nat) : Prop :=
  ((s.entry a).state = .absent ∨ (s.entry a).state = .offline) ∧ ∃ p, (s.entry a).profile = some p ∧ p.probeEnable = true

/-- How many addresses the search of the discovery phase looks at: 63 in the first, and then those after the probe cursor up to
the start mark (R92). -/
def State.searchReach (s : State) : Nat :=
  if s.sched.probesIssued = 0 then 63 else (s.sched.startMark + 63 - s.arbiter.probeCursor) % 63

/-- The address `k` places after the probe cursor, in rising order and wrapping from 63 to 1 (R92). -/
def State.searched (s : State) (k : Nat) : Nat := (s.arbiter.probeCursor - 1 + k) % 63 + 1

/-- The discovery phase is over: its budget is spent, or the search finds no candidate (R92). -/
def State.discoveryOver (s : State) : Prop :=
  s.sched.probesIssued = s.sched.probeBudget ∨ ∀ k, 1 ≤ k → k ≤ s.searchReach → ¬s.isDiscoverable (s.searched k)

/-- The scheduler asked for work in the discovery phase of a cycle that no AFTER_SLOT request stops (R87, R97). -/
def State.asksDiscovery (s : State) : Prop :=
  s.lineFree ∧ s.noTicketNow ∧ s.sched.state = .active ∧ s.sched.stopRequest ≠ .afterSlot ∧ s.sched.phase = .discovery

/-- The scheduler `c` with a cycle begun on the list given: phase SLOTS, cursor 0, no probe issued, summary reset and period
timer restarted (R88, R93). -/
def Scheduler.withCycle (c : Scheduler) (list : List Nat) (number : Half) : Scheduler :=
  { c with
    cycleList := list, pendingList := none, state := .active, cycleNumber := number, phase := .slots, slotCursor := 0
    probesIssued := 0
    periodTimer := if c.period = 0 then none else some c.period
    summary := { cycleNumber := number, slotsInList := byte list.length, exchanged := 0, probed := 0, skipped := 0,
                 failed := 0, overrun := false, abandoned := false } }

/-- The scheduler `c` after a cycle start that is due: the next cycle begun with any pending list installed, or STOPPED at an
empty list (R93). -/
def Scheduler.withNextCycle (c : Scheduler) : Scheduler :=
  if c.pendingList.getD c.cycleList = [] then
    { c with cycleList := [], pendingList := none, state := .stopped, periodTimer := none, stopRequest := .none }
  else c.withCycle (c.pendingList.getD c.cycleList) (c.cycleNumber + 1)

/-- A ticket that was QUEUED and blocked in `s` is QUEUED and blocked no more in `u` (R100, R110). -/
def State.unblocks (s u : State) : Prop :=
  ∃ x before after before' after', s.tickets.queue = before ++ x :: after ∧ u.tickets.queue = before' ++ x :: after' ∧
    x.state = .queued ∧ ¬s.freeToTake before x ∧ u.freeToTake before' x

end Sys2Proof.Machine

open Sys2Proof Sys2Proof.Machine

/-! ## Steps, and the host link (spec/08_host_link.md) -/

/-- A step executes the command at the front of the queue on the state with the queue's rest. On an empty queue the block does what
it does of itself, which the statement on HELLO and STATUS spells out (the model's choice, log entry 4). -/
def Obligations.StepExecutesTheFrontCommand : Prop :=
  (∀ (c : Instr) (s : State) (rest : List Instr), step { s with pending := c :: rest } = exec c { s with pending := rest }) ∧
    ∀ s : State, s.pending = [] → step s = .next s.tick

/-- A message whose TYPE is none of the nineteen is answered BAD_TYPE whatever its payload; a command whose payload R163 does not
accept for its TYPE is answered BAD_LENGTH; and neither changes anything else (R138, steps 1 and 2). -/
def Obligations.UnreadableMessagesAreRefused : Prop :=
  ∀ (s : State) (m : Message) (rest : List Message),
    (s.offers m rest m.type → (∀ row ∈ commandRows, m.type ≠ row.1) →
      exec .badType s = .next (s.answered m rest .badType [])) ∧
    ∀ row ∈ commandRows, s.offers m rest row.1 → payloadFits row.1 m.payload = false →
      exec row.2 s = .next (s.answered m rest .badLength [])

/-- Every command that the processor can take is taken off the inbound buffer and answered with exactly one response, which
holds the TYPE plus 0x80, the TAG, a result code of the twelve and the dropped count (R138, R139); and none is taken while
the response buffer holds a response (R140), or while a command of another TYPE is being decided (R138). -/
def Obligations.TakenCommandIsAnsweredOnce : Prop :=
  ∀ (s : State) (m : Message) (rest : List Message) (row : Byte × Instr), row ∈ commandRows →
    (s.offers m rest row.1 →
      ∃ t result body, exec row.2 s = .next t ∧ t.host.inbound = rest ∧ t.host.dropped = 0 ∧
        t.host.response =
          some { type := m.type + 0x80, tag := m.tag, payload := Result.code result :: s.host.dropped :: body } ∧
        t.host.tx = s.host.tx ∧ t.host.rx = s.host.rx) ∧
    (s.host.processor = .idle → s.host.response ≠ none → ∀ t, exec row.2 s ≠ .next t) ∧
    (∀ m' reads, s.host.processor = .deciding m' reads → m'.type ≠ row.1 → ∀ t, exec row.2 s ≠ .next t)

/-- A byte moves the receiver as the table of R135 gives, and discards count as R136 gives: a framing error in any state, a
byte that is no SYNC in HUNT, a LEN outside 2..98, a CRC that does not match. A start bit stops the gap timer, and its expiry
discards the message in assembly and counts it. After a framing error the receiver waits for a high HRXD, and a line still low
gives no further framing error (R133); that the wait ends with the next start bit, or with a byte whose stop bit is high, is the
model's reading (log entry 27). A message whose CRC matches is the subject of the next statement. -/
def Obligations.ReceiverMovesAndDiscards : Prop :=
  ∀ (s : State) (b : Byte), ¬s.standsReport →
    (s.host.waitHigh = true → exec (.hostByteReceived b false) s = .next s) ∧
    (s.host.waitHigh = false → exec (.hostByteReceived b false) s = .next { s with host := { s.host with
        rx := .hunt
        waitHigh := true
        gapTimer := none
        stats := { s.host.stats with framingErrors := satInc s.host.stats.framingErrors } } }) ∧
    (s.host.rx = .hunt → exec (.hostByteReceived b true) s = .next
      (if b = 0x5A then { s with host := { s.host with rx := .length, gapTimer := some 5, waitHigh := false } }
       else { s with host := { s.host with
         gapTimer := none
         waitHigh := false
         stats := { s.host.stats with huntDiscards := satInc s.host.stats.huntDiscards } } })) ∧
    (s.host.rx = .length → exec (.hostByteReceived b true) s = .next
      (if 2 ≤ b.toNat ∧ b.toNat ≤ 98 then { s with host := { s.host with
         rx := .body b []
         gapTimer := some 5
         waitHigh := false } }
       else { s with host := { s.host with
         rx := .hunt
         gapTimer := none
         waitHigh := false
         stats := { s.host.stats with lengthErrors := satInc s.host.stats.lengthErrors } } })) ∧
    (∀ len got, s.host.rx = .body len got → exec (.hostByteReceived b true) s = .next
      { s with host := { s.host with
          rx := if got.length + 1 < len.toNat then .body len (got ++ [b]) else .crc len (got ++ [b]) none
          gapTimer := some 5
          waitHigh := false } }) ∧
    (∀ len got, s.host.rx = .crc len got none → exec (.hostByteReceived b true) s = .next
      { s with host := { s.host with rx := .crc len got (some b), gapTimer := some 5, waitHigh := false } }) ∧
    (∀ len got lo, s.host.rx = .crc len got (some lo) → [lo, b] ≠ le16 (crc16 (len :: got)) →
      exec (.hostByteReceived b true) s = .next { s with host := { s.host with
        rx := .hunt
        gapTimer := none
        waitHigh := false
        stats := { s.host.stats with crcErrors := satInc s.host.stats.crcErrors } } }) ∧
    exec .hrxdStartBit s = .next { s with host := { s.host with gapTimer := none, waitHigh := false } } ∧
    (s.host.gapTimer.isSome = true → exec .hostGapTimeout s = .next { s with host := { s.host with
      rx := .hunt
      gapTimer := none
      stats := { s.host.stats with gapTimeouts := satInc s.host.stats.gapTimeouts } } })

/-- The frame of any message of at most 96 payload bytes, sent to a part that is in HUNT, is received whole and unaltered: it
restarts the hold timer if that runs, counts under good messages, and is placed at the tail of the inbound buffer, or is
dropped and counted where the buffer holds 2 messages (R134, R135, R137). -/
def Obligations.FrameOfAnyMessageIsReceived : Prop :=
  ∀ (s : State) (m : Message), ¬s.standsReport → s.host.rx = .hunt → m.payload.length ≤ 96 →
    runCommands (receptionOf m.frame) s = .next
      { s with
        sup := { s.sup with holdTimer := s.sup.holdTimer.map (fun _ => s.sup.holdTime) }
        host := { s.host with
          gapTimer := none
          waitHigh := false
          inbound := if s.host.inbound.length < 2 then s.host.inbound ++ [m] else s.host.inbound
          dropped := if s.host.inbound.length < 2 then s.host.dropped else satInc8 s.host.dropped
          stats := { s.host.stats with
            goodMessages := satInc s.host.stats.goodMessages
            drops := if s.host.inbound.length < 2 then s.host.stats.drops else satInc s.host.stats.drops } } }

/-- The two checks give the values the manual writes out: the CRC-8 of the SAMPLE request of R51, byte by byte, the CRC-16 of
the nine digits of R134; the SUBMIT frame of section 10.6 begins as it is written there; every encoding of a field that R162
lists, every result code of R139 and every function code of R50 has the value its table gives; and a byte is read as a field's
value exactly if it is that value's encoding. The selector of CYCLE_QUERY and the summary flags are in its own statement. -/
def Obligations.ChecksGiveTheValuesWrittenOut : Prop :=
  crc8 [0x05] = 0x93 ∧ crc8 [0x05, 0x02] = 0x62 ∧ crc8 [0x05, 0x02, 0x00] = 0xCB ∧
    crc16 [0x31, 0x32, 0x33, 0x34, 0x35, 0x36, 0x37, 0x38, 0x39] = 0x29B1 ∧
    (Message.frame { type := 0x40, tag := 0x21, payload := [0x09, 0x05, 0x00, 0x02, 0x01, 0x03, 0x07, 0x34, 0x12] }).take 13 =
      [0x5A, 0x0B, 0x40, 0x21, 0x09, 0x05, 0x00, 0x02, 0x01, 0x03, 0x07, 0x34, 0x12] ∧
    [Health.unused, .absent, .online, .suspect, .offline, .mismatch].map Health.code = [0, 1, 2, 3, 4, 5] ∧
    [Notify.none, .onChange, .every].map Notify.code = [0, 1, 2] ∧
    [TicketFunction.sample, .probe, .paramRead, .paramWrite].map (fun f => f.onLine.code) = [2, 3, 4, 5] ∧
    [Priority.normal, .urgent].map Priority.code = [0, 1] ∧
    (TicketState.queued.code = 0 ∧ TicketState.onLine.code = 1 ∧ ∀ res, (TicketState.done res).code = 2) ∧
    [TicketOutcome.completed, .refused, .notReady, .noReply, .broken, .wrongStation, .desync, .stationDown, .withdrawn,
      .cancelled].map TicketOutcome.code = [0, 1, 2, 3, 4, 5, 6, 7, 8, 9] ∧
    [some ReplyStatus.accept, some .refuse, some .notReady, none].map statusByte = [0, 1, 2, 0xFF] ∧
    [SchedState.stopped, .active, .resting].map SchedState.code = [0, 1, 2] ∧
    [CycleMode.single, .continuous].map CycleMode.code = [0, 1] ∧
    [CyclePhase.slots, .discovery].map CyclePhase.code = [0, 1] ∧
    [StopRequest.none, .afterSlot, .afterCycle].map StopRequest.code = [0, 1, 2] ∧
    [InState.none, .fresh, .stale].map InState.code = [0, 1, 2] ∧
    [OutState.unset, .dirty, .sending, .clean].map OutState.code = [0, 1, 2, 3] ∧
    [HoldState.notHeld, .held].map HoldState.code = [0, 1] ∧
    [HandoverState.none, .requested, .granted].map HandoverState.code = [0, 1, 2] ∧
    [RestartLevel.warm, .cold].map RestartLevel.code = [0, 1] ∧
    [Result.ok, .badLength, .badType, .badField, .wrongState, .noStation, .noSpace, .queueFull, .noTicket, .tooLate,
      .alreadyDone, .range].map Result.code = [0, 1, 2, 3, 4, 5, 6, 7, 8, 9, 10, 11] ∧
    [LineFunction.exchange, .sample, .probe, .paramRead, .paramWrite, .hold, .release].map LineFunction.code =
      [1, 2, 3, 4, 5, 6, 7] ∧
    [false, true].map flag = [0, 1] ∧
    ∀ b : Byte,
      (∀ v, decodeNotify b = some v ↔ b = v.code) ∧ (∀ v, decodeFlag b = some v ↔ b = flag v) ∧
      (∀ v, decodeTicketFunction b = some v ↔ b = v.onLine.code) ∧ (∀ v, decodePriority b = some v ↔ b = v.code) ∧
      (∀ v, decodeStatus b = some v ↔ b = statusByte (some v)) ∧ (∀ v, decodeMode b = some v ↔ b = v.code) ∧
      (∀ v, decodeWhen b = some v ↔ (b = 0 ∧ v = .afterSlot) ∨ (b = 1 ∧ v = .afterCycle)) ∧
      ∀ v, decodeLevel b = some v ↔ b = v.code

/-- The free transmitter takes a waiting response, whose frame it sends; the response stays in its buffer until the end of
the last stop bit, when the buffer is emptied, the transmitter is free and the message counts as sent (R140 to R142). HTXD
carries the frame's bytes, each with its start bit, eight bits from bit 0 on and its stop bit, and is high while the transmitter
is free (R133). -/
def Obligations.ResponseStaysInItsBufferUntilSent : Prop :=
  ∀ s : State,
    (s.host.tx = .free → ∀ k, s.htxd k = true) ∧
    (∀ f, s.host.tx = .sendingResponse f ∨ s.host.tx = .sendingReport f → ∀ bits : List Bool,
      bits = f.flatMap (fun b => [false] ++ (List.range 8).map b.getLsbD ++ [true]) →
      ∀ k bit, bits[k]? = some bit → s.htxd k = bit) ∧
    (∀ m, s.host.tx = .free → s.host.response = some m →
      exec .responseTaken s = .next { s with host := { s.host with tx := .sendingResponse m.frame } }) ∧
    (∀ f, s.host.tx = .sendingResponse f → exec .transmitEnd s = .next { s with host := { s.host with
      tx := .free
      response := none
      stats := { s.host.stats with responsesSent := satInc s.host.stats.responsesSent } } }) ∧
    (∀ f, s.host.tx = .sendingReport f → exec .transmitEnd s = .next { s with host := { s.host with
      tx := .free
      stats := { s.host.stats with reportsSent := satInc s.host.stats.reportsSent } } })

/-- HELLO is answered OK in every state with vendor, part, revision, the five capacities, the strap value and the state
summary, and STATUS with the twelve line and nine link statistics and the four states; a set clear flag sets both sets of
statistics to 0, an unassigned one is refused, and nothing else changes (R59, R60, R143 to R145, R164). Each block is read in an
event of its own, at its own moment, and its statistics are cleared in that event (R138). In the model the command's row makes
every reading that is left, and a tick, which is what the block does of itself, takes the message or makes one reading, or places
the response once none is left; in which order is free (log entries 4 and 17). A report that is due is taken before either
(R141). That HELLO carries the free byte count, as R144 and R164 have it, is the model's reading (log entry 30). -/
def Obligations.HelloAndStatusAnswerWhatTheyRead : Prop :=
  ∀ (s : State) (m : Message) (rest : List Message),
    (s.offers m rest 0x01 → m.payload = [] →
      exec .hello s = .next (s.answered m rest .ok (s.readBody m []))) ∧
    (∀ clear, s.offers m rest 0x03 → m.payload = [clear] →
      (clear.toNat = 0 → exec .status s = .next (s.answered m rest .ok (s.readBody m []))) ∧
      (clear.toNat = 1 → exec .status s = .next (State.answered
        { s with line := { s.line with stats := .zero }, host := { s.host with stats := .zero } } m rest .ok
        (s.readBody m []))) ∧
      (2 ≤ clear.toNat → exec .status s = .next (s.answered m rest .badField []))) ∧
    (s.offers m rest m.type → m.readsBlocks → s.tick = s.taking m rest) ∧
    (∀ reads, s.host.processor = .deciding m reads → m.readsBlocks →
      exec (if m.type = 0x01 then .hello else .status) s = .next (State.answered
        (s.clearedBy m [.linePort, .hostLink] reads) m s.host.inbound .ok (s.readBody m reads)) ∧
      ((∀ x ∈ s.readings m, x.1 ∈ reads.map Prod.fst) →
        s.tick = s.answered m s.host.inbound .ok (s.readBody m reads)) ∧
      ((∃ x ∈ s.readings m, x.1 ∉ reads.map Prod.fst) → ∃ (x : ReadBlock × List Byte) (u : State),
        x ∈ s.readings m ∧ x.1 ∉ reads.map Prod.fst ∧ u = s.clearedBy m [x.1] reads ∧
        s.tick = { u with
          freeDraws := s.freeDraws + 1
          host := { u.host with processor := .deciding m (reads ++ [x]) } })) ∧
    (¬s.standsReport → s.host.processor = .idle → (∀ q qs, s.offers q qs q.type → ¬q.readsBlocks) → s.tick = s) ∧
    (∀ t, s.standsReport → exec .reportTaken s = .next t → s.tick = t.tick)

/-- The taking of a report sends the head of the queue with the report marker and the lost count first and the sequence number
as its TAG; it costs one credit, takes the next sequence number, sets the lost count to 0, and for a completion takes its
ticket out of the table; nothing else changes. It is taken only with credit, with no response waiting, no command being decided,
no restart arranged and the transmitter free. A report offer that stands is taken at once: every other row finds it taken, and
answers as it does after REPORT_TAKEN (R115, R123 to R128, R130, R131, R141, R146, R165). That the row REPORT_TAKEN may be left
to the next row is the model's choice (log entry 13). -/
def Obligations.ReportTakenIsTheHeadOfTheQueue : Prop :=
  (∀ s t : State, ¬s.standsReport → exec .reportTaken s ≠ .next t) ∧
  (∀ (s t : State) (c : Instr), s.standsReport → exec .reportTaken s = .next t → c ≠ .reportTaken → exec c s = exec c t) ∧
  ∀ (s : State) (e : ReportEntry) (q : List ReportEntry), s.standsReport → s.reports.queue = e :: q →
      exec .reportTaken s = .next { s with
        reports := { queue := q, credit := s.reports.credit - 1, lost := 0, sequence := s.reports.sequence + 1 }
        tickets := { s.tickets with queue := s.tickets.queue.filter (fun t =>
          match e with
          | .demandDone d => t.id != d.id
          | .inputChange _ | .stationState _ _ _ | .cycleDone _ _ | .lineFault _ _ | .supervision _ _ _ => true) }
        host := { s.host with tx := .sendingReport (Message.frame
          { type := (reportLayout s e).1, tag := s.reports.sequence,
            payload := 0xFE :: s.reports.lost :: (reportLayout s e).2 }) } }

/-- RESTART with an assigned level is answered OK with the level and the number of live tickets and only arranges the restart;
any other level is refused. The restart takes effect at the end of its response: at level COLD every block but the host link
rate is as at pin reset; the WARM values are the subject of another statement. A message whose second CRC byte comes together
with the restart, the restart first, is received in the new state (R146, R147). Of the model's making are the start mark's value
after COLD (log entry 6), the restart's coming with or after the response's end (log entry 12), the count under CRC errors
where that message's check fails (log entry 25), and that a wait for a high HRXD goes on (log entry 27). -/
def Obligations.RestartIsArrangedAndTakesEffect : Prop :=
  ∀ (s : State) (m : Message) (rest : List Message) (level : Byte),
    (s.offers m rest 0x70 → m.payload = [level] →
      (level.toNat = 0 → exec .restart s = .next (State.answered
        { s with host := { s.host with restart := some .warm } } m rest .ok [0, byte s.tickets.queue.length])) ∧
      (level.toNat = 1 → exec .restart s = .next (State.answered
        { s with host := { s.host with restart := some .cold } } m rest .ok [1, byte s.tickets.queue.length])) ∧
      (2 ≤ level.toNat → exec .restart s = .next (s.answered m rest .badField []))) ∧
    (s.restartDue .cold → s.lreq = false →
      exec (.restartTakesEffect none) s = .next { State.reset with
        pending := s.pending
        freeDraws := s.freeDraws
        host := { State.reset.host with strap := s.host.strap, waitHigh := s.host.waitHigh } }) ∧
    (s.restartDue .cold → s.lreq = true →
      exec (.restartTakesEffect none) s = .next { State.reset with
        pending := s.pending
        freeDraws := s.freeDraws
        lreq := true
        engine := .empty .released
        line := { State.reset.line with rx := .off }
        sup := { State.reset.sup with handover := .granted }
        host := { State.reset.host with strap := s.host.strap, waitHigh := s.host.waitHigh } }) ∧
    ∀ (lvl : RestartLevel) (m : Message) (len lo b : Byte) (t : State), s.restartDue lvl →
      s.host.rx = .crc len (m.type :: m.tag :: m.payload) (some lo) → exec (.restartTakesEffect none) s = .next t →
      ([lo, b] = le16 (crc16 (len :: m.type :: m.tag :: m.payload)) → exec (.restartTakesEffect (some b)) s = .next { t with
        sup := { t.sup with holdTimer := t.sup.holdTimer.map (fun _ => t.sup.holdTime) }
        host := { t.host with
          inbound := [m]
          stats := { t.host.stats with goodMessages := satInc t.host.stats.goodMessages } } }) ∧
      ([lo, b] ≠ le16 (crc16 (len :: m.type :: m.tag :: m.payload)) → exec (.restartTakesEffect (some b)) s = .next { t with
        host := { t.host with stats := { t.host.stats with crcErrors := satInc t.host.stats.crcErrors } } })

/-- Pin reset: every block takes its pin-reset value, the straps are sampled, with LREQ asserted the line is lent at once, with
no report, LDE is negated, and LTXD and HTXD are high at once (R21, R39, R42, R47, R58, R60, R84, R105, R119, R132, R142, R148,
R159, R161). The start mark's value is the model's choice (log entry 6), and so is the end of a wait for a high HRXD (log entry
27). -/
def Obligations.PinResetLeavesEveryBlockAtItsResetValue : Prop :=
  ∀ (s : State) (hrate1 hrate0 : Bool), ∃ t, exec (.pinReset hrate1 hrate0) s = .next t ∧
    (∀ a, t.entry a = .unused) ∧ (∀ a, t.areas a = none) ∧ t.allocated = 0 ∧
    t.line = { rateIndex := 3, replyTimeout := 10, retryCount := 1, stats := .zero,
               rx := if s.lreq then .off else .turnedOn } ∧
    t.engine = .empty (if s.lreq then .released else .idle) ∧
    t.arbiter = { demandAllowance := 0, probeCursor := 63 } ∧
    t.sched = { cycleList := [], pendingList := none, state := .stopped, mode := .single, period := 0, demandShare := 1,
                probeBudget := 0, cycleNumber := 0, phase := .slots, slotCursor := 0, startMark := t.sched.startMark,
                probesIssued := 0, periodTimer := none, stopRequest := .none, slotInFlight := false,
                slotAbandoned := false, summary := .start 0 0, overruns := 0 } ∧
    t.tickets = { queue := [], idCounter := 0 } ∧
    t.reports = { queue := [], credit := 0, lost := 0, sequence := 0 } ∧
    t.host = { rx := .hunt, waitHigh := false, gapTimer := none, inbound := [], dropped := 0, processor := .idle,
               response := none, tx := .free, restart := none, stats := .zero, strap := BitVec.ofNat 2 (2 * hrate1.toNat + hrate0.toNat) } ∧
    t.sup = { holdTime := 0, holdTimer := none, hold := .notHeld, claim := .none, handoverLimit := 0,
              handover := if s.lreq then .granted else .none, limitTimer := none } ∧
    t.lreq = s.lreq ∧ t.pending = s.pending ∧ t.lde = false ∧ ∀ k, t.ltxd k = true ∧ t.htxd k = true

/-- A WARM restart taking effect keeps profiles, allocations, the cycle list and its settings, the line settings, the probe
cursor, the ticket id counter, the hold time and the handover limit, and starts everything else again; with LREQ asserted the
line is lent at once (R22, R41, R58, R60, R84, R92, R105, R107, R119, R132, R147, R160, R161). The summary's number of slots
is the model's reading (log entry 20); of its making too are the start mark's being kept (log entry 6), the restart's coming
with or after the response's end (log entry 12), and that a wait for a high HRXD goes on (log entry 27). -/
def Obligations.WarmRestartKeepsWhatTheHostHasSet : Prop :=
  ∀ s : State, s.restartDue .warm →
    ∃ t, exec (.restartTakesEffect none) s = .next t ∧
      (∀ a, t.entry a = { StationEntry.unused with
        profile := (s.entry a).profile
        state := if (s.entry a).profile.isSome then .absent else .unused }) ∧
      (∀ a, t.areas a = (s.areas a).map (fun ar =>
        { input := { bytes := List.replicate ar.input.bytes.length 0, state := .none, gen := 0 }
          output := { bytes := List.replicate ar.output.bytes.length 0, state := .unset, gen := 0 } })) ∧
      t.line = { s.line with stats := .zero, rx := if s.lreq then .off else .turnedOn } ∧
      t.engine = .empty (if s.lreq then .released else .idle) ∧
      t.arbiter = { s.arbiter with demandAllowance := 0 } ∧
      t.sched = { s.sched with
        pendingList := none, state := .stopped, cycleNumber := 0, phase := .slots, slotCursor := 0, probesIssued := 0
        periodTimer := none, stopRequest := .none, slotInFlight := false, slotAbandoned := false
        summary := .start 0 s.sched.cycleList.length, overruns := 0 } ∧
      t.tickets = { s.tickets with queue := [] } ∧
      t.reports = { queue := [], credit := 0, lost := 0, sequence := 0 } ∧
      t.host = { State.reset.host with strap := s.host.strap, waitHigh := s.host.waitHigh } ∧
      t.sup = { s.sup with
        hold := .notHeld, claim := .none
        holdTimer := if s.sup.holdTime = 0 then none else some s.sup.holdTime
        handover := if s.lreq then .granted else .none
        limitTimer := if s.lreq = true ∧ s.sup.handoverLimit ≠ 0 then some s.sup.handoverLimit else none } ∧
      t.lreq = s.lreq ∧ t.pending = s.pending

/-- The host link keeps its law at every step: at most 2 messages wait, a message in assembly has a LEN of 2..98 and no
more bytes than it, the gap timer does not run in HUNT, where alone the receiver waits for a high HRXD, a response being
sent stands in its buffer, and while a command is being decided the buffer is empty and no restart is arranged (R133, R135 to
R138, R140, R146). -/
def Obligations.EveryStepKeepsTheHostLinkLaw : Prop :=
  ∀ s t : State, HostLaw s → step s = .next t → HostLaw t

/-! ## Station table (spec/01_station_table.md) -/

/-- STATION_DEFINE is checked in the order of R15: the address, the encodings, the lengths, divisor and fail limit, the image
budget; the first check that fails decides the result, and a refused define changes nothing. -/
def Obligations.StationDefineIsCheckedInOrder : Prop :=
  ∀ (s : State) (m : Message) (rest : List Message) (a k0 k1 il ol fl dv nt pe : Byte), s.offers m rest 0x10 →
    m.payload = [a, k0, k1, il, ol, fl, dv, nt, pe] →
    (a.toNat = 0 ∨ 63 < a.toNat → exec .stationDefine s = .next (s.answered m rest .range [])) ∧
    (1 ≤ a.toNat → a.toNat ≤ 63 → 2 < nt.toNat ∨ 1 < pe.toNat →
      exec .stationDefine s = .next (s.answered m rest .badField [])) ∧
    (1 ≤ a.toNat → a.toNat ≤ 63 → nt.toNat ≤ 2 → pe.toNat ≤ 1 →
      32 < il.toNat ∨ 32 < ol.toNat ∨ dv.toNat = 0 ∨ 16 < dv.toNat ∨ 15 < fl.toNat →
      exec .stationDefine s = .next (s.answered m rest .range [])) ∧
    (1 ≤ a.toNat → a.toNat ≤ 63 → nt.toNat ≤ 2 → pe.toNat ≤ 1 → il.toNat ≤ 32 → ol.toNat ≤ 32 → 1 ≤ dv.toNat →
      dv.toNat ≤ 16 → fl.toNat ≤ 15 → 2048 < s.allocatedExcept a.toNat + (il.toNat + ol.toNat) →
      exec .stationDefine s = .next (s.answered m rest .noSpace []))

/-- An accepted STATION_DEFINE makes the station ABSENT under the profile given (a fail limit of 0 selects 3), with toggle,
failure run, identity and counters started again and both areas new; it sets the discard flag of an exchange in flight for
the station, drops the station's unsent notices if it was defined already, and changes nothing else (R15, R16, R17, R24, R79,
R129). -/
def Obligations.StationDefineStartsTheStationAfresh : Prop :=
  ∀ (s : State) (m : Message) (rest : List Message) (a il ol fl dv : Byte) (kind : Half) (notify : Notify) (probe : Bool),
    s.offers m rest 0x10 → m.payload = [a] ++ le16 kind ++ [il, ol, fl, dv, notify.code, byte probe.toNat] →
    1 ≤ a.toNat → a.toNat ≤ 63 → il.toNat ≤ 32 → ol.toNat ≤ 32 → 1 ≤ dv.toNat → dv.toNat ≤ 16 → fl.toNat ≤ 15 →
    s.allocatedExcept a.toNat + (il.toNat + ol.toNat) ≤ 2048 →
      ∃ t : State, exec .stationDefine s =
          .next (t.answered m rest .ok ([a] ++ le16 (BitVec.ofNat 16 (2048 - (s.allocatedExcept a.toNat + (il.toNat + ol.toNat)))))) ∧
        t.entry a.toNat = { StationEntry.unused with
          state := .absent
          profile := some { kind := kind, inLen := il.toNat, outLen := ol.toNat,
                            failLimit := if fl.toNat = 0 then 3 else fl.toNat, divisor := dv.toNat, notify := notify,
                            probeEnable := probe } } ∧
        t.areas a.toNat = some
          { input := { bytes := List.replicate il.toNat 0, state := .none, gen := 0 }
            output := { bytes := List.replicate ol.toNat 0, state := .unset, gen := 0 } } ∧
        (∀ b, b ≠ a.toNat → t.entry b = s.entry b ∧ t.areas b = s.areas b) ∧
        t = { s with
          stations := t.stations
          image := t.image
          engine := { s.engine with
            record := s.engine.record.map (fun r => { r with discard := r.discard || r.station == a.toNat }) }
          reports := { s.reports with
            queue := if (s.entry a.toNat).state ≠ .unused then s.reports.queue.filter (ReportEntry.staysWithout a.toNat)
                     else s.reports.queue } }

/-- STATION_REMOVE is refused with RANGE or NO_STATION, or empties the entry and frees its areas: it sets the discard flag of
an exchange in flight for the station, drops the station's unsent notices, and completes its QUEUED tickets with WITHDRAWN,
their reports placed in queue order; it changes nothing else (R18, R19, R25, R79, R113, R114, R129). -/
def Obligations.StationRemoveReachesItsBlocks : Prop :=
  ∀ (s : State) (m : Message) (rest : List Message) (a : Byte), TicketLaw s → s.offers m rest 0x11 → m.payload = [a] →
    (a.toNat = 0 ∨ 63 < a.toNat → exec .stationRemove s = .next (s.answered m rest .range [])) ∧
    (1 ≤ a.toNat → a.toNat ≤ 63 → (s.entry a.toNat).state = .unused →
      exec .stationRemove s = .next (s.answered m rest .noStation [])) ∧
    (1 ≤ a.toNat → a.toNat ≤ 63 → (s.entry a.toNat).state ≠ .unused →
      ∃ t : State, exec .stationRemove s =
          .next (t.answered m rest .ok ([a] ++ le16 (BitVec.ofNat 16 (2048 - s.allocatedExcept a.toNat)))) ∧
        t.entry a.toNat = .unused ∧ t.areas a.toNat = none ∧
        (∀ b, b ≠ a.toNat → t.entry b = s.entry b ∧ t.areas b = s.areas b) ∧
        t = { s with
          stations := t.stations
          image := t.image
          engine := { s.engine with
            record := s.engine.record.map (fun r => { r with discard := r.discard || r.station == a.toNat }) }
          tickets := { s.tickets with
            queue := s.tickets.queue.map (fun u =>
              if u.station = a.toNat ∧ u.state = .queued then
                { u with state := .done { outcome := .withdrawn, status := none, data := [], attempts := 0 } }
              else u) }
          reports := { s.reports with
            queue := s.reports.queue.filter (ReportEntry.staysWithout a.toNat) ++
              (s.tickets.queue.filter (fun u => u.station == a.toNat && u.state == .queued)).map (fun u =>
                .demandDone { id := u.id, hostTag := u.hostTag, outcome := .withdrawn, status := none, attempts := 0,
                              data := [] }) } })

/-- STATION_QUERY is refused with BAD_FIELD ahead of RANGE, and otherwise answered OK with the 26 bytes of the entry as it
stands, for UNUSED addresses too, which show no profile, no identity and zeros; with the clear flag set the four counters are
set to 0, of an UNUSED address without effect, and nothing else changes (R20, R164). -/
def Obligations.StationQueryAnswersTheEntry : Prop :=
  ∀ (s : State) (m : Message) (rest : List Message) (a clear : Byte), s.offers m rest 0x12 → m.payload = [a, clear] →
    (1 < clear.toNat → exec .stationQuery s = .next (s.answered m rest .badField [])) ∧
    (clear.toNat ≤ 1 → a.toNat = 0 ∨ 63 < a.toNat → exec .stationQuery s = .next (s.answered m rest .range [])) ∧
    (clear.toNat ≤ 1 → 1 ≤ a.toNat → a.toNat ≤ 63 →
      exec .stationQuery s = .next (State.answered
        (if clear.toNat = 1 then s.setEntry a.toNat { s.entry a.toNat with counters := ⟨0, 0, 0, 0⟩ } else s) m rest .ok
        ([a, (s.entry a.toNat).state.code] ++
          (match (s.entry a.toNat).profile with
            | some p => [1] ++ le16 p.kind ++ [byte p.inLen, byte p.outLen, byte p.failLimit, byte p.divisor, p.notify.code,
                byte p.probeEnable.toNat]
            | none => [0, 0, 0, 0, 0, 0, 0, 0, 0]) ++
          [byte (s.entry a.toNat).toggle.toNat, byte (s.entry a.toNat).failRun] ++
          (match (s.entry a.toNat).identity with
            | some i => [1] ++ le16 i.kind ++ [i.inLen, i.outLen]
            | none => [0, 0, 0, 0, 0]) ++
          le16 (s.entry a.toNat).counters.good ++ le16 (s.entry a.toNat).counters.failedAttempts ++
          le16 (s.entry a.toNat).counters.refusals ++ le16 (s.entry a.toNat).counters.desyncs))) ∧
    (StationLaw s → clear.toNat ≤ 1 → 1 ≤ a.toNat → a.toNat ≤ 63 → (s.entry a.toNat).state = .unused →
      exec .stationQuery s = .next (s.answered m rest .ok ([a] ++ List.replicate 25 0)))

/-- The end of an exchange of a data function at the station table: GOOD, REFUSED and NOT_READY flip the toggle and set the
failure run to 0; any other outcome adds 1 to it and makes the station SUSPECT, or OFFLINE at its limit; the counters are
counted, and no other entry changes. The arbiter then makes its choice, and an event may fall before it, as section 11.5 shows;
it finds these entries (R3, R5, R6, R13, R14, R71, R117, R158). Which events the row's operand can name is the model's reading (log
entry 26), and so is the one step (log entry 18). -/
def Obligations.DataOutcomeAtTheStationTable : Prop :=
  ∀ (s : State) (r : ExchangeRecord) (o : AttemptOutcome) (order : IdleOrder) (p : Profile), s.lastGuardOf r o →
    r.discard = false → r.func = .exchange ∨ r.func = .sample ∨ r.func = .paramRead ∨ r.func = .paramWrite →
    (s.entry r.station).profile = some p →
      ∃ (u : State) (c : Counters), s.endsIn u order ∧
        (∀ b, b ≠ r.station → u.entry b = s.entry b) ∧
        Counters.countedFrom c (s.entry r.station).counters (if o = .good then 1 else 0) r.failedAttempts
          (if o = .refused ∨ o = .notReady then 1 else 0) (if o = .desync then 1 else 0) ∧
        (o = .good ∨ o = .refused ∨ o = .notReady →
          u.entry r.station = { s.entry r.station with
            failRun := 0, toggle := !(s.entry r.station).toggle, counters := c }) ∧
        (o = .noReply ∨ o = .broken ∨ o = .wrongStation ∨ o = .desync →
          u.entry r.station = { s.entry r.station with
            failRun := (s.entry r.station).failRun + 1
            state := if p.failLimit ≤ (s.entry r.station).failRun + 1 then .offline else .suspect
            counters := c })

/-- The end of a PROBE at the station table: GOOD sets the toggle and the failure run to 0, replaces the identity by the one
in the reply's four data bytes, and makes the station ONLINE or MISMATCH as it matches the profile or not; any other outcome
counts against a SUSPECT or ONLINE station and leaves an ABSENT, OFFLINE or MISMATCH one as it was. No other entry changes,
and the arbiter then makes its choice; an event that falls before it finds these entries (R3, R7, R8, R9, R71, R117, R158). Which
events the row's operand can name is the model's reading (log entry 26), and so is the one step (log entry 18). -/
def Obligations.ProbeOutcomeAtTheStationTable : Prop :=
  ∀ (s : State) (r : ExchangeRecord) (o : AttemptOutcome) (order : IdleOrder) (p : Profile), s.lastGuardOf r o →
    r.discard = false → r.func = .probe → (s.entry r.station).profile = some p →
      ∃ (u : State) (c : Counters), s.endsIn u order ∧
        (∀ b, b ≠ r.station → u.entry b = s.entry b) ∧
        Counters.countedFrom c (s.entry r.station).counters (if o = .good then 1 else 0) r.failedAttempts
          (if o = .refused ∨ o = .notReady then 1 else 0) (if o = .desync then 1 else 0) ∧
        (∀ kind inLen outLen, o = .good → r.replyData = le16 kind ++ [inLen, outLen] →
          u.entry r.station = { s.entry r.station with
            toggle := false, failRun := 0, counters := c
            identity := some { kind := kind, inLen := inLen, outLen := outLen }
            state := if (p.kind = 0 ∨ p.kind = kind) ∧ p.inLen = inLen.toNat ∧ p.outLen = outLen.toNat then .online
                     else .mismatch }) ∧
        (o ≠ .good → (s.entry r.station).state = .suspect ∨ (s.entry r.station).state = .online →
          u.entry r.station = { s.entry r.station with
            failRun := (s.entry r.station).failRun + 1
            state := if p.failLimit ≤ (s.entry r.station).failRun + 1 then .offline else .suspect
            counters := c }) ∧
        (o ≠ .good → (s.entry r.station).state ≠ .suspect → (s.entry r.station).state ≠ .online →
          u.entry r.station = { s.entry r.station with counters := c })

/-- Every entry keeps its law at every step: a profile in range exactly outside UNUSED, the failure run at its limit exactly in
OFFLINE, 0 in ABSENT and ONLINE; and a data function in flight, not discarded, finds its station ONLINE (R1, R2, R10, R14,
R90). The record in flight is taken to keep its own law, which another statement keeps. -/
def Obligations.EveryStepKeepsTheStationLaw : Prop :=
  ∀ s t : State, RecordLaw s → StationLaw s → step s = .next t → StationLaw t

/-! ## Process image (spec/02_process_image.md) -/

/-- IMAGE_WRITE checks every item, in message order, before it applies any, and the first item that fails decides the result;
it otherwise applies the items in order, each copying its bytes into its station's output area, makes every touched area
DIRTY with its generation one up, answers the generations, and changes nothing else (R34, R35, R36). -/
def Obligations.ImageWriteChecksAllThenApplies : Prop :=
  ∀ (s : State) (m : Message) (rest : List Message) (items : List (Byte × Byte × List Byte)), s.offers m rest 0x30 →
    1 ≤ items.length → items.length ≤ 4 →
    (∀ i ∈ items, 1 ≤ i.2.2.length ∧ i.2.2.length ≤ 32) →
    m.payload = byte items.length :: items.flatMap (fun i => [i.1, i.2.1, byte i.2.2.length] ++ i.2.2) →
    (∀ i before after, items = before ++ i :: after → (∀ j ∈ before, s.takesItem j) →
      (i.1.toNat = 0 ∨ 63 < i.1.toNat → exec .imageWrite s = .next (s.answered m rest .range [])) ∧
      (1 ≤ i.1.toNat → i.1.toNat ≤ 63 → (s.entry i.1.toNat).profile = none →
        exec .imageWrite s = .next (s.answered m rest .noStation [])) ∧
      (∀ p, 1 ≤ i.1.toNat → i.1.toNat ≤ 63 → (s.entry i.1.toNat).profile = some p →
        p.outLen < i.2.1.toNat + i.2.2.length → exec .imageWrite s = .next (s.answered m rest .range []))) ∧
    ((∀ i ∈ items, s.takesItem i) →
      ∃ t : State, exec .imageWrite s =
          .next (t.answered m rest .ok (items.flatMap (fun i => [i.1] ++
            le16 ((t.areas i.1.toNat).elim 0 (fun ar => ar.output.gen))))) ∧
        t = { s with image := t.image } ∧
        ∀ a, t.areas a = (s.areas a).map (fun ar =>
          if a ∈ items.map (fun i => i.1.toNat) then
            { ar with output := {
                state := .dirty
                gen := ar.output.gen + 1
                bytes := (items.filter (fun i => i.1.toNat == a)).foldl
                  (fun bs i => bs.take i.2.1.toNat ++ i.2.2 ++ bs.drop (i.2.1.toNat + i.2.2.length)) ar.output.bytes } }
          else ar))

/-- IMAGE_READ checks its addresses in message order, and answers for each, in message order, the input bytes, their state and
generation, and the output area's state and generation; a named address outside 1..63 refuses with RANGE and an UNUSED
station with NO_STATION, the first that fails deciding; and it changes nothing in any case (R37, R38, R164). -/
def Obligations.ImageReadAnswersTheAreas : Prop :=
  ∀ (s : State) (m : Message) (rest : List Message) (addrs : List Byte), s.offers m rest 0x31 →
    addrs.length = 1 ∨ addrs.length = 2 → m.payload = byte addrs.length :: addrs →
    (∀ a before after, addrs = before ++ a :: after →
      (∀ b ∈ before, 1 ≤ b.toNat ∧ b.toNat ≤ 63 ∧ (s.entry b.toNat).state ≠ .unused) →
      (a.toNat = 0 ∨ 63 < a.toNat → exec .imageRead s = .next (s.answered m rest .range [])) ∧
      (1 ≤ a.toNat → a.toNat ≤ 63 → (s.entry a.toNat).state = .unused →
        exec .imageRead s = .next (s.answered m rest .noStation []))) ∧
    (∀ areas : Byte → Areas,
      (∀ a ∈ addrs, 1 ≤ a.toNat ∧ a.toNat ≤ 63 ∧ (s.entry a.toNat).state ≠ .unused ∧ s.areas a.toNat = some (areas a)) →
      exec .imageRead s = .next (s.answered m rest .ok (addrs.flatMap (fun a =>
        [a, byte (areas a).input.bytes.length] ++ (areas a).input.bytes ++ [(areas a).input.state.code] ++
          le16 (areas a).input.gen ++ [(areas a).output.state.code] ++ le16 (areas a).output.gen))))

/-- The end of an exchange at the image: EXCHANGE and SAMPLE that end GOOD deliver the reply's data, FRESH, with the
generation one up; the inputs of a station that leaves ONLINE become STALE if they were FRESH; an EXCHANGE that ends turns a
SENDING area CLEAN if it ended GOOD and DIRTY otherwise; everything else, and every other station's areas, stay as they were,
up to the arbiter's choice that follows, and an event that falls before that choice finds these areas (R12, R27, R29, R32, R33,
R71, R117, R158). Which events the row's operand can name is the model's reading (log entry 26), and so is the one step (log entry
18). -/
def Obligations.ExchangeEndAtTheImage : Prop :=
  ∀ (s : State) (r : ExchangeRecord) (o : AttemptOutcome) (order : IdleOrder) (ar : Areas), s.lastGuardOf r o →
    r.discard = false → r.ShapeLaw → s.areas r.station = some ar →
      ∃ u : State, s.endsIn u order ∧
        (∀ b, b ≠ r.station → u.areas b = s.areas b) ∧
        u.areas r.station = some
          { input :=
              if (r.func = .exchange ∨ r.func = .sample) ∧ o = .good then
                { bytes := r.replyData, state := .fresh, gen := ar.input.gen + 1 }
              else if (s.entry r.station).state = .online ∧ (u.entry r.station).state ≠ .online ∧ ar.input.state = .fresh then
                { ar.input with state := .stale }
              else ar.input
            output :=
              if r.func = .exchange ∧ ar.output.state = .sending then
                { ar.output with state := if o = .good then .clean else .dirty }
              else ar.output }

/-- The image fits the station table and the store at every step: areas exist exactly for defined stations, with the profile's
lengths, 2048 bytes hold them all, FRESH inputs belong to an ONLINE station, outputs are SENDING only while their EXCHANGE is
in flight, and a GOOD reply's data number in_len (R23, R26, R27, R29, R31 to R33). The laws of the line, of the record and of
the station table, which other statements keep, are taken to hold. -/
def Obligations.EveryStepKeepsTheImageLaw : Prop :=
  ∀ s t : State, LineLaw s → RecordLaw s → StationLaw s → ImageLaw s → step s = .next t → ImageLaw t

/-! ## The station line (spec/03_the_station_line.md) -/

/-- A start bit whose majority is 1 is a false start, counted and not handed to the engine. One whose majority is 0 begins a
character at the rate in force and is a start detected event: AWAITING becomes RECEIVING with the reply emptied and the reply
timeout stopped, RECEIVING stops its gap timer, GUARD its quiet timer, and IDLE takes no notice. A receiver that is off, or has a
character in reception, takes no start bit, and nothing changes (R43 to R45, R63, R65, R66, R70). -/
def Obligations.StartBitReachesTheEngine : Prop :=
  ∀ (s : State) (start : BitSamples), ¬s.standsReport →
    (¬s.seesEdges → exec (.startDetected start) s = .next s) ∧
    (s.seesEdges → samplesRead start true → exec (.startDetected start) s = .next { s with line := { s.line with
      rx := .seeking
      stats := { s.line.stats with falseStarts := satInc s.line.stats.falseStarts } } }) ∧
    (s.seesEdges → samplesRead start false → ∃ e : Engine,
      exec (.startDetected start) s =
        .next { s with line := { s.line with rx := .receiving s.line.rateIndex }, engine := e } ∧
      (s.engine.state = .awaiting → e = { s.engine with
        state := .receiving
        replyTimer := none
        record := s.engine.record.map (fun r => { r with reply := [] }) }) ∧
      (s.engine.state = .receiving → e = { s.engine with gapTimer := none }) ∧
      (∀ k, s.engine.state = .guard k → e = { s.engine with quietTimer := none }) ∧
      (s.engine.state = .idle → e = s.engine))

/-- A finished character's value bits and mark are the majorities of their samples; it is broken exactly when the stop bit's
majority is 0, and noisy exactly when the samples of a data bit or of the stop bit disagree (R45, R46). That the mark bit is
one of those data bits is the model's reading (log entry 19). -/
def Obligations.SamplesDecideTheCharacter : Prop :=
  ∀ x : CharSamples,
    (∀ k : Fin 8, samplesRead x.value[k] ((classify x).value.getLsbD k)) ∧ samplesRead x.mark (classify x).mark ∧
    samplesRead x.stop (!(classify x).broken) ∧
    ((classify x).noisy = true ↔
      ∃ b : BitSamples, ((∃ k : Fin 8, x.value[k] = b) ∨ x.mark = b ∨ x.stop = b) ∧ ¬(b.first = b.second ∧ b.second = b.third))

/-- A finished character that no exchange awaits: stray in IDLE; in a guard, late after a failed attempt and stray otherwise,
the quiet timer starting again for the guard's length. In AWAITING, where only a low line can deliver one, it makes the
attempt BROKEN. Its class counts besides, and nothing else changes. While the receiver is off nothing is received and nothing
counted (R44, R46, R59, R63, R65, R70, R73). -/
def Obligations.CharacterOutsideAReplyIsCounted : Prop :=
  (∀ (s : State) (x : CharSamples), ¬s.standsReport → s.line.rx = .off →
    exec (.characterDelivered x) s = .next s ∧ exec .lowLineBrokenCharacter s = .next s) ∧
  ∀ (s : State) (i : Instr) (c : RxChar), ¬s.standsReport → s.hears i c →
    (s.engine.state = .idle → exec i s = .next { s.withHeard c with line := { (s.withHeard c).line with
      stats := { (s.withHeard c).line.stats with stray := satInc s.line.stats.stray } } }) ∧
    (s.engine.state = .guard .quiet → exec i s = .next { s.withHeard c with
      engine := { s.engine with quietTimer := some 3 }
      line := { (s.withHeard c).line with
        stats := { (s.withHeard c).line.stats with late := satInc s.line.stats.late } } }) ∧
    (s.engine.state = .guard .turnaround → exec i s = .next { s.withHeard c with
      engine := { s.engine with quietTimer := some 1 }
      line := { (s.withHeard c).line with
        stats := { (s.withHeard c).line.stats with stray := satInc s.line.stats.stray } } }) ∧
    (s.engine.state = .guard .broadcast → exec i s = .next { s.withHeard c with
      engine := { s.engine with quietTimer := some 4 }
      line := { (s.withHeard c).line with
        stats := { (s.withHeard c).line.stats with stray := satInc s.line.stats.stray } } }) ∧
    (∀ r, s.engine.state = .awaiting → s.engine.record = some r →
      exec i s = .next ((s.withHeard c).afterAttempt r .broken))

/-- LINE_SETUP is refused with RANGE outside the ranges of its values, with WRONG_STATE unless the scheduler is STOPPED and the
engine IDLE or RELEASED, and otherwise replaces the three settings and answers them; nothing else changes (R57). -/
def Obligations.LineSetupReplacesTheSettings : Prop :=
  ∀ (s : State) (m : Message) (rest : List Message) (rate timeout retries : Byte), s.offers m rest 0x02 →
    m.payload = [rate, timeout, retries] →
    (7 < rate.toNat ∨ timeout.toNat < 2 ∨ 250 < timeout.toNat ∨ 3 < retries.toNat →
      exec .lineSetup s = .next (s.answered m rest .range [])) ∧
    (rate.toNat ≤ 7 → 2 ≤ timeout.toNat → timeout.toNat ≤ 250 → retries.toNat ≤ 3 →
      (s.sched.state ≠ .stopped ∨ (s.engine.state ≠ .idle ∧ s.engine.state ≠ .released) →
        exec .lineSetup s = .next (s.answered m rest .wrongState [])) ∧
      (s.sched.state = .stopped → s.engine.state = .idle ∨ s.engine.state = .released →
        exec .lineSetup s = .next (State.answered
          { s with line := { s.line with
              rateIndex := rate.toNat
              replyTimeout := timeout.toNat
              retryCount := retries.toNat } } m rest .ok [rate, timeout, retries])))

/-- A conforming station, hearing whole the frame of a request for itself, answers from its memory when T and function are
those of its last executed request and the function is not PROBE, and changes nothing; otherwise it executes the request and
records T, function and reply. So the retry of a request other than PROBE is answered with the same reply and executed at
most once. An ACCEPT reply carries what R50 gives for the function: the current inputs, the kind with in_len and out_len, a
value of 1..16 bytes, or nothing; another carries nothing. PROBE takes the station out of hold, broadcasts put it into hold and
out and are not answered, and an EXCHANGE applies its outputs unless the station is held, when it is answered ACCEPT (R50, R53
to R56). Stations are not part of the state of the part (log entry 16); what R53 and R56 leave open is not stated (log entry
28). -/
def Obligations.ConformingStationExecutesARequestOnce : Prop :=
  ∀ (st : ConformingStation) (r : ExchangeRecord) (answer : StationAnswer), 1 ≤ st.address → st.address ≤ 63 →
    st.inputs.length ≤ 32 → st.safe.length ≤ 32 →
    r.station = st.address → r.data.length ≤ 32 → r.func ≠ .hold → r.func ≠ .release →
    (∀ mem, st.memory = some mem → mem.toggle = r.toggle → mem.func = r.func.code → r.func ≠ .probe →
      st.hear r.frame true answer = (st, some mem.reply)) ∧
    ((∀ mem, st.memory = some mem → mem.toggle ≠ r.toggle ∨ mem.func ≠ r.func.code ∨ r.func = .probe) →
      ∃ (status : ReplyStatus) (data outputs : List Byte),
        st.hear r.frame true answer = ({ st with
          memory := some { toggle := r.toggle, func := r.func.code,
                           reply := replyFrame st.address r.toggle status data }
          held := if r.func = .probe then false else st.held
          outputs := outputs }, some (replyFrame st.address r.toggle status data)) ∧
        (status ≠ .accept → data = []) ∧
        (status = .accept →
          (r.func = .exchange ∨ r.func = .sample → data = st.inputs) ∧
          (r.func = .probe → data = le16 st.kind ++ [byte st.inputs.length, byte st.safe.length]) ∧
          (r.func = .paramRead → 1 ≤ data.length ∧ data.length ≤ 16) ∧
          (r.func = .paramWrite → data = [])) ∧
        (r.func = .exchange → r.data.length ≠ st.safe.length → st.held = false → status = .refuse) ∧
        (r.func = .exchange → r.data.length = st.safe.length → st.held = true → status = .accept) ∧
        (r.func ≠ .exchange ∨ st.held = true ∨ status ≠ .accept → outputs = st.outputs) ∧
        (r.func = .exchange → st.held = false → status = .accept → outputs = r.data)) ∧
    (r.func ≠ .probe → ∀ again, (st.hear r.frame true answer).1.hear r.frame true again = st.hear r.frame true answer) ∧
    (∀ q : ExchangeRecord, q.station = 0 → q.toggle = false → q.data = [] →
      (q.func = .hold → st.held = false →
        st.hear q.frame true answer = ({ st with held := true, outputs := st.safe }, none)) ∧
      (q.func = .hold → st.held = true → st.hear q.frame true answer = (st, none)) ∧
      (q.func = .release → st.hear q.frame true answer = ({ st with held := false }, none))) ∧
    st.hear r.frame false answer = (st, none)

/-- A reply frame of the station asked, echoing its T, received whole while the engine awaits it, is classified by its status:
ACCEPT with the length of the function GOOD, REFUSE REFUSED, NOT_READY NOT_READY, whatever data it carries; and the record
keeps the reply (R49 to R51, R65 to R68). -/
def Obligations.ReplyOfTheStationIsClassifiedByItsStatus : Prop :=
  ∀ (s : State) (r : ExchangeRecord) (p : Profile) (status : ReplyStatus) (data : List Byte), ¬s.standsReport → s.seesEdges →
    s.engine.state = .awaiting → s.engine.record = some r → (s.entry r.station).profile = some p → data.length ≤ 32 →
    (status = .accept → replyLengthFits r.func p data.length) →
      runCommands (lineReceptionOf (replyFrame r.station r.toggle status data)) s =
        .next (State.afterAttempt { s with line := { s.line with rx := .seeking } }
          { r with reply := replyFrame r.station r.toggle status data }
          (match status with
            | .accept => .good
            | .refuse => .refused
            | .notReady => .notReady))

/-! ## Exchange engine (spec/04_exchange_engine.md) -/

/-- The line carries the frame of the record in SENDING alone: address and T, function, length, data and check character, the
first with the mark bit, each in eleven bits; and LTXD is high while LDE is negated. At its last stop bit the frame counts as
sent, LDE is negated, the receiver turns on, and the engine awaits the reply for the reply timeout, or after a broadcast waits 4
CT for quiet (R42, R44, R48, R64, R70). -/
def Obligations.FrameIsSentWhole : Prop :=
  ∀ s : State,
    (s.engine.state ≠ .sending → s.lde = false ∧ ∀ k, s.ltxd k = true) ∧
    (∀ r, s.engine.state = .sending → s.engine.record = some r →
      s.lde = true ∧
      s.frameOnLine = LineChar.mk (byte (r.station + 64 * r.toggle.toNat)) true ::
        ([r.func.code, byte r.data.length] ++ r.data ++
          [crc8 ([byte (r.station + 64 * r.toggle.toNat), r.func.code, byte r.data.length] ++ r.data)]).map
            (fun b => ⟨b, false⟩) ∧
      s.ltxdBits =
        s.frameOnLine.flatMap (fun c => [false] ++ (List.range 8).map c.value.getLsbD ++ [c.mark, true]) ∧
      s.ltxdBits.length = 11 * (r.data.length + 4) ∧
      (∀ k bit, s.ltxdBits[k]? = some bit → s.ltxd k = bit) ∧
      (¬s.standsReport → r.origin ≠ .broadcast → exec .frameSent s = .next { s with
        line := { s.line with
          rx := .turnedOn
          stats := { s.line.stats with framesSent := satInc s.line.stats.framesSent } }
        engine := { s.engine with state := .awaiting, replyTimer := some s.line.replyTimeout } }) ∧
      (¬s.standsReport → r.origin = .broadcast → exec .frameSent s = .next { s with
        line := { s.line with
          rx := .turnedOn
          stats := { s.line.stats with framesSent := satInc s.line.stats.framesSent } }
        engine := { state := .guard .broadcast, record := some r, replyTimer := none, gapTimer := none,
                    quietTimer := some 4, jamTimer := some 64 } }))

/-- A character delivered in RECEIVING is appended to the reply. It makes the attempt BROKEN at once if it is broken, has the
wrong mark bit for its place, or is a length over 32; otherwise, with the frame not yet complete, the gap timer starts for 2
CT (R66, R68). -/
def Obligations.ReplyCharacterIsJudgedAsItArrives : Prop :=
  ∀ (s : State) (i : Instr) (c : RxChar) (r : ExchangeRecord), ¬s.standsReport → s.hears i c →
    s.engine.state = .receiving → s.engine.record = some r →
    (r.spoiledBy c → exec i s = .next ((s.withHeard c).afterAttempt { r with reply := r.reply ++ [⟨c.value, c.mark⟩] } .broken)) ∧
    (¬r.spoiledBy c → r.reply.length < 3 ∨ (3 ≤ r.reply.length ∧ r.reply.length ≠ (r.replyByte 2).toNat + 3) →
      exec i s = .next { s.withHeard c with engine := { s.engine with
        record := some { r with reply := r.reply ++ [⟨c.value, c.mark⟩] }
        gapTimer := some 2 } })

/-- The check character of a reply completes it, and the frame is classified by the first test of R67 that it fails: the check,
the direction and station, the status character, the echo of T, the status, the length of the function; GOOD if none. Where
the station's profile is gone when the last test of an EXCHANGE or SAMPLE would read it, nothing is said of the choice between
GOOD and BROKEN (log entry 9) (R67, R68). -/
def Obligations.CompleteReplyIsClassifiedByItsFirstFailingTest : Prop :=
  ∀ (s : State) (i : Instr) (c : RxChar) (r : ExchangeRecord) (a st n : LineChar) (data : List LineChar),
    ¬s.standsReport → s.hears i c → s.engine.state = .receiving → s.engine.record = some r → r.reply = [a, st, n] ++ data →
    data.length = n.value.toNat → c.broken = false → c.mark = false →
      ∃ (o : AttemptOutcome) (draws : Nat), exec i s = .next (State.afterAttempt { s.withHeard c with freeDraws := draws }
          { r with reply := [a, st, n] ++ data ++ [⟨c.value, c.mark⟩] } o) ∧
        (c.value ≠ crc8 (([a, st, n] ++ data).map LineChar.value) → o = .broken) ∧
        (c.value = crc8 (([a, st, n] ++ data).map LineChar.value) →
          (a.value.getLsbD 7 = false ∨ a.value.toNat % 64 ≠ r.station → o = .wrongStation) ∧
          (a.value.getLsbD 7 = true → a.value.toNat % 64 = r.station →
            (2 < st.value.toNat → o = .broken) ∧
            (st.value.toNat ≤ 2 →
              (a.value.getLsbD 6 ≠ r.toggle → o = .desync) ∧
              (a.value.getLsbD 6 = r.toggle →
                (st.value.toNat = 1 → o = .refused) ∧ (st.value.toNat = 2 → o = .notReady) ∧
                (st.value.toNat = 0 →
                  (∀ p, (s.entry r.station).profile = some p ∨ (r.func ≠ .exchange ∧ r.func ≠ .sample) →
                    (replyLengthFits r.func p n.value.toNat → o = .good) ∧
                    (¬replyLengthFits r.func p n.value.toNat → o = .broken)) ∧
                  (o = .good ∨ o = .broken)))))) ∧
        draws = s.freeDraws +
          if (r.func = .exchange ∨ r.func = .sample) ∧ (s.entry r.station).profile = none then 1 else 0

/-- The timers of an exchange: the reply timeout's expiry in AWAITING makes the attempt NO_REPLY, and the gap timer's in
RECEIVING makes it BROKEN. A quiet guard that ends on a failed attempt below the limit, with neither flag set, sends the same
record again as the next attempt; and the end of a jam wait, or of a broadcast's guard, leaves the engine IDLE for the
arbiter's choice (R65, R66, R68, R69, R71, R73, R78). That an event may fall before that choice, and that none is named where a
retry leaves none to come, is by the row's operand (log entry 26). -/
def Obligations.TimersEndAttemptsAndGuards : Prop :=
  ∀ (s : State) (order : IdleOrder), ¬s.standsReport →
    (∀ r, s.engine.state = .awaiting → s.engine.record = some r → s.engine.replyTimer.isSome = true →
      exec .replyTimeoutExpiry s = .next (s.afterAttempt r .noReply)) ∧
    (∀ r, s.engine.state = .receiving → s.engine.record = some r → s.engine.gapTimer.isSome = true →
      exec .gapTimerExpiry s = .next (s.afterAttempt r .broken)) ∧
    (∀ r, s.engine.quietTimer.isSome = true → s.engine.state = .guard .quiet → s.engine.record = some r →
      r.lastOutcome = some .noReply ∨ r.lastOutcome = some .broken ∨ r.lastOutcome = some .wrongStation →
      r.attempt < r.attemptLimit → r.discard = false → r.noRetry = false →
        (order.before = .nothing → exec (.quietTimerExpiry order) s = .next { s with
          line := { s.line with rx := .off }
          engine := { state := .sending, record := some { r with attempt := r.attempt + 1 }, replyTimer := none,
                      gapTimer := none, quietTimer := none, jamTimer := none } }) ∧
        (order.before ≠ .nothing → ∀ t, exec (.quietTimerExpiry order) s ≠ .next t)) ∧
    (∀ k, s.engine.quietTimer.isSome = true → s.engine.state = .guard k → s.engine.record = none →
      State.choiceFollows { s with engine := .empty .idle } order.before (exec (.quietTimerExpiry order) s)) ∧
    (∀ r, s.engine.quietTimer.isSome = true → s.engine.state = .guard .broadcast → s.engine.record = some r → r.origin = .broadcast →
      s.sched.slotInFlight = false →
        State.choiceFollows { s with engine := .empty .idle } order.before (exec (.quietTimerExpiry order) s))

/-- The jam limit: the jam is counted and a LINE_FAULT asked for, the exchange ends BROKEN with its last attempt counted as
failed, and the engine stays in its guard with no record and no jam timer. The station's entry takes the failure, of a PROBE
only if SUSPECT or ONLINE, FRESH inputs that leave ONLINE become STALE, and SENDING outputs of the EXCHANGE DIRTY; none of this
where the exchange is discarded or a broadcast. The ticket and the scheduler are told as at any exchange's end. The requests
for reports are those of the engine, the table, the ticket and the scheduler, and no others; they are placed one after the other,
and nothing else changes (R4, R6, R9, R12, R29, R33, R72, R73, R76 to R78, R87, R95 to R97, R112, R121). What the scheduler keeps
rests on log entries 10 and 11, and that all comes in one step on log entry 18. -/
def Obligations.JamEndsTheExchangeBroken : Prop :=
  ∀ (s : State) (r : ExchangeRecord) (k : GuardKind) (order : List ReportSource), ¬s.standsReport → TicketLaw s →
    r.ShapeLaw → s.engine.state = .guard k → s.engine.jamTimer.isSome = true → s.engine.record = some r →
      ∃ (u : State) (c : Counters) (requests table ticket scheduler : List ReportRequest),
        exec (.jamTimerExpiry order) s = .next { requests.foldl State.place u with
          engine := { s.engine with record := none, jamTimer := none } } ∧
        u = { s with
          line := { s.line with stats := { s.line.stats with jams := satInc s.line.stats.jams } }
          stations := u.stations
          image := u.image
          tickets := u.tickets
          sched := u.sched } ∧
        requests.Perm (.lineFault r.station :: (table ++ ticket ++ scheduler)) ∧
        s.tableAsks u r.station table ∧ s.ticketEnds u r .broken ticket ∧ s.slotEnds u r .broken scheduler ∧
        (∀ b, b ≠ r.station → u.entry b = s.entry b ∧ u.areas b = s.areas b) ∧
        (r.discard = true ∨ r.origin = .broadcast →
          u.entry r.station = s.entry r.station ∧ u.areas r.station = s.areas r.station) ∧
        (∀ p, r.discard = false → r.origin ≠ .broadcast → (s.entry r.station).profile = some p →
          Counters.countedFrom c (s.entry r.station).counters 0
            (r.failedAttempts +
              if r.lastOutcome = some .good ∨ r.lastOutcome = some .refused ∨ r.lastOutcome = some .notReady ∨
                r.lastOutcome = some .desync then 1 else 0) 0 0 ∧
          (r.func ≠ .probe ∨ (s.entry r.station).state = .suspect ∨ (s.entry r.station).state = .online →
            u.entry r.station = { s.entry r.station with
              failRun := (s.entry r.station).failRun + 1
              state := if p.failLimit ≤ (s.entry r.station).failRun + 1 then .offline else .suspect
              counters := c }) ∧
          (r.func = .probe → (s.entry r.station).state ≠ .suspect → (s.entry r.station).state ≠ .online →
            u.entry r.station = { s.entry r.station with counters := c })) ∧
        (∀ ar, r.discard = false → r.origin ≠ .broadcast → s.areas r.station = some ar →
          u.areas r.station = some
            { input :=
                if (s.entry r.station).state = .online ∧ (u.entry r.station).state ≠ .online ∧ ar.input.state = .fresh then
                  { ar.input with state := .stale }
                else ar.input
              output :=
                if r.func = .exchange ∧ ar.output.state = .sending then { ar.output with state := .dirty }
                else ar.output })

/-- The end of an exchange at the ticket table, the scheduler and the report unit. Its ticket becomes DONE with the result, and
no other ticket changes; the markers of the slot in flight are cleared, a failure counts in the summary if the cycle was not
abandoned, and a standing AFTER_SLOT request stops the scheduler. The requests for reports are those of the table for a change
of state, of the image for a delivery that notify calls for, of the ticket and of the scheduler, and no others; all reach the
report unit, one after the other, in an order the rules leave open. A discarded exchange changes no entry and no area, and, but
for the engine, which is IDLE with no record, nothing else changes. The arbiter's choice follows, and an event may fall before it,
as a CANCEL that then finds its ticket QUEUED (R11, R17, R24, R25, R28, R74, R76 to R79, R87, R95 to R97, R112 to R114, R117,
R121). That the stored summary keeps its abandoned flag and that the request then becomes none are the model's readings (log
entries 10 and 11), and so are the one step (log entry 18) and which events the row's operand can name (log entry 26). -/
def Obligations.ExchangeEndAtTicketsAndScheduler : Prop :=
  ∀ (s : State) (r : ExchangeRecord) (o : AttemptOutcome) (order : IdleOrder), ¬s.standsReport → TicketLaw s →
    r.ShapeLaw → s.lastGuardOf r o →
    ∃ (u : State) (requests table image ticket scheduler : List ReportRequest),
      State.choiceFollows { requests.foldl State.place u with engine := .empty .idle } order.before
        (exec (.quietTimerExpiry order) s) ∧
      u = { s with stations := u.stations, image := u.image, tickets := u.tickets, sched := u.sched } ∧
      (r.discard = true → u.stations = s.stations ∧ u.image = s.image) ∧
      requests.Perm (table ++ image ++ ticket ++ scheduler) ∧
      s.tableAsks u r.station table ∧
      (s.deliveryAsks r o → image = [.inputChange r.station]) ∧ (¬s.deliveryAsks r o → image = []) ∧
      s.ticketEnds u r o ticket ∧ s.slotEnds u r o scheduler

/-- The engine keeps its table at every step: which of record and timers are there in each of its states; the receiver is off
exactly in SENDING and RELEASED; the engine is RELEASED exactly while the line is granted; a handover state other than NONE
stands exactly while LREQ is asserted. The record in flight keeps its laws too: what its origin fixes of it, attempts within
the limit and every attempt but the last failed, a reply of at most 36 characters; and the line settings stay in range (R44,
R57, R61, R68, R69, R82, R155, R156, R158). -/
def Obligations.EveryStepKeepsTheLawsOfLineAndRecord : Prop :=
  ∀ s t : State, step s = .next t → (LineLaw s → LineLaw t) ∧ (RecordLaw s → RecordLaw t)

/-! ## Poll cycles and the line arbiter (spec/05_poll_cycles_and_the_line_arbiter.md) -/

/-- CYCLE_SET with more than 64 slots, or with any address outside 1..63, is refused with RANGE and changes neither list. It
otherwise replaces the list at once in STOPPED, dropping any pending list, and becomes the pending list in ACTIVE and RESTING;
an empty list is accepted, and the station table is not looked at (R86). -/
def Obligations.CycleSetReplacesOneList : Prop :=
  ∀ (s : State) (m : Message) (rest : List Message) (addrs : List Byte), s.offers m rest 0x20 → addrs.length ≤ 95 →
    m.payload = byte addrs.length :: addrs →
    (64 < addrs.length ∨ (∃ a ∈ addrs, a.toNat = 0 ∨ 63 < a.toNat) →
      exec .cycleSet s = .next (s.answered m rest .range [])) ∧
    (addrs.length ≤ 64 → (∀ a ∈ addrs, 1 ≤ a.toNat ∧ a.toNat ≤ 63) →
      (s.sched.state = .stopped → exec .cycleSet s = .next (State.answered
        { s with sched := { s.sched with cycleList := addrs.map BitVec.toNat, pendingList := none } } m rest .ok
        [byte addrs.length, 0])) ∧
      (s.sched.state ≠ .stopped → exec .cycleSet s = .next (State.answered
        { s with sched := { s.sched with pendingList := some (addrs.map BitVec.toNat) } } m rest .ok
        [byte addrs.length, 1])))

/-- CYCLE_START is refused with BAD_FIELD, RANGE or WRONG_STATE in that order, the last for an empty list; it otherwise takes
the settings and begins cycle 0 on the pending list if there is one, sets the allowance, clears stop request and overrun
counter, and from ACTIVE first has the abandoned cycle's summary reported and marks its slot in flight. The arbiter then makes
its choice (R88, R89). -/
def Obligations.CycleStartBeginsCycleZero : Prop :=
  ∀ (s : State) (m : Message) (rest : List Message) (mode share budget : Byte) (period : Half), s.offers m rest 0x21 →
    m.payload = [mode] ++ le16 period ++ [share, budget] →
    (1 < mode.toNat → exec .cycleStart s = .next (s.answered m rest .badField [])) ∧
    (mode.toNat ≤ 1 → 60000 < period.toNat ∨ share.toNat = 0 ∨ 4 < share.toNat ∨ 4 < budget.toNat →
      exec .cycleStart s = .next (s.answered m rest .range [])) ∧
    (mode.toNat ≤ 1 → period.toNat ≤ 60000 → 1 ≤ share.toNat → share.toNat ≤ 4 → budget.toNat ≤ 4 →
      (s.sched.pendingList.getD s.sched.cycleList = [] →
        exec .cycleStart s = .next (s.answered m rest .wrongState [])) ∧
      (s.sched.pendingList.getD s.sched.cycleList ≠ [] → ∀ mode' : CycleMode, mode = mode'.code →
        exec .cycleStart s = .next (State.answered (State.arbiterChoice
          { s with
            host := { s.host with inbound := rest, processor := .deciding m [] }
            reports :=
              if s.sched.state = .active then s.reports.place (.cycleDone { s.sched.summary with abandoned := true })
              else s.reports
            arbiter := { s.arbiter with demandAllowance := share.toNat }
            sched := Scheduler.withCycle
              { s.sched with
                mode := mode', period := period.toNat, demandShare := share.toNat, probeBudget := budget.toNat
                stopRequest := .none, overruns := 0
                slotAbandoned := s.sched.slotAbandoned || (s.sched.state != .stopped && s.sched.slotInFlight) }
              (s.sched.pendingList.getD s.sched.cycleList) 0 }) m rest .ok
          [byte (s.sched.pendingList.getD s.sched.cycleList).length, if s.sched.state = .active then 1 else 0])))

/-- CYCLE_STOP is refused with BAD_FIELD or, in STOPPED, with WRONG_STATE. In RESTING either form stops at once. In ACTIVE,
AFTER_SLOT stands as a request while a slot is in flight and otherwise stops at once, the summary reported with its abandoned
flag set and the arbiter choosing; AFTER_CYCLE stands as a request, but leaves a standing AFTER_SLOT (R97, R98, R100). That the
stored summary keeps its abandoned flag, and that a stop leaves no request standing, are the model's readings (log entries 10
and 11). -/
def Obligations.CycleStopStopsOrStandsAsARequest : Prop :=
  ∀ (s : State) (m : Message) (rest : List Message) (w : Byte), s.offers m rest 0x22 → m.payload = [w] →
    (1 < w.toNat → exec .cycleStop s = .next (s.answered m rest .badField [])) ∧
    (w.toNat ≤ 1 → s.sched.state = .stopped → exec .cycleStop s = .next (s.answered m rest .wrongState [])) ∧
    (w.toNat ≤ 1 → s.sched.state = .resting → exec .cycleStop s = .next (State.answered
      { s with sched := { s.sched with state := .stopped, periodTimer := none, stopRequest := .none } } m rest .ok [1])) ∧
    (w.toNat = 0 → s.sched.state = .active →
      (s.sched.slotInFlight = true → exec .cycleStop s = .next (State.answered
        { s with sched := { s.sched with stopRequest := .afterSlot } } m rest .ok [0])) ∧
      (s.sched.slotInFlight = false → exec .cycleStop s = .next (State.answered (State.arbiterChoice
        { s with
          host := { s.host with inbound := rest, processor := .deciding m [] }
          reports := s.reports.place (.cycleDone { s.sched.summary with abandoned := true })
          sched := { s.sched with
            state := .stopped, periodTimer := none, stopRequest := .none
            summary := { s.sched.summary with abandoned := true } } }) m rest .ok [1]))) ∧
    (w.toNat = 1 → s.sched.state = .active → exec .cycleStop s = .next (State.answered
      { s with sched := { s.sched with
          stopRequest := if s.sched.stopRequest = .afterSlot then .afterSlot else .afterCycle } } m rest .ok [0]))

/-- CYCLE_QUERY with an unassigned selector is refused with BAD_FIELD; it is otherwise answered OK in every scheduler state with
the scheduler's and the arbiter's state and the slots of the list named, none where PENDING is named and absent; and it
changes nothing (R99, R164). -/
def Obligations.CycleQueryAnswersTheScheduler : Prop :=
  ∀ (s : State) (m : Message) (rest : List Message) (selector : Byte), s.offers m rest 0x23 → m.payload = [selector] →
    (1 < selector.toNat → exec .cycleQuery s = .next (s.answered m rest .badField [])) ∧
    (∀ slots, (selector.toNat = 0 ∧ slots = s.sched.cycleList) ∨ (selector.toNat = 1 ∧ slots = s.sched.pendingList.getD []) →
      exec .cycleQuery s = .next (s.answered m rest .ok
        ([s.sched.state.code, s.sched.mode.code] ++ le16 (BitVec.ofNat 16 s.sched.period) ++
          [byte s.sched.demandShare, byte s.sched.probeBudget, s.sched.stopRequest.code] ++ le16 s.sched.cycleNumber ++
          [s.sched.phase.code, byte s.sched.slotCursor, byte s.sched.probesIssued, byte s.arbiter.demandAllowance,
            byte s.arbiter.probeCursor] ++ le16 s.sched.overruns ++ le16 s.sched.summary.cycleNumber ++
          [s.sched.summary.slotsInList, s.sched.summary.exchanged, s.sched.summary.probed, s.sched.summary.skipped,
            s.sched.summary.failed, byte (s.sched.summary.overrun.toNat + 2 * s.sched.summary.abandoned.toNat),
            if s.sched.pendingList = none then 0 else 1, byte slots.length] ++ slots.map byte)))

/-- The period timer's expiry: in RESTING the next cycle starts, and the arbiter chooses; with an empty list in force the
scheduler stops instead. In ACTIVE the cycle has overrun: the counter and the summary's flag say so, and the timer runs again
(R93, R94). -/
def Obligations.PeriodExpiryStartsOrOverruns : Prop :=
  ∀ s : State, ¬s.standsReport → s.sched.periodTimer.isSome = true →
    (s.sched.state = .resting → s.sched.pendingList.getD s.sched.cycleList = [] →
      exec .periodTimerExpiry s = .next { s with sched := s.sched.withNextCycle }) ∧
    (s.sched.state = .resting → s.sched.pendingList.getD s.sched.cycleList ≠ [] →
      exec .periodTimerExpiry s = .next (State.arbiterChoice { s with sched := s.sched.withNextCycle })) ∧
    (s.sched.state = .active → exec .periodTimerExpiry s = .next { s with sched := { s.sched with
      overruns := satInc s.sched.overruns
      summary := { s.sched.summary with overrun := true }
      periodTimer := if s.sched.period = 0 then none else some s.sched.period } })

/-- The judgement of a slot: skipped outside ONLINE and SUSPECT and in a cycle whose number is no multiple of the divisor;
otherwise a resync PROBE for a SUSPECT station, and for an ONLINE one an EXCHANGE if it takes outputs, they have been written
and the part is not held, and a SAMPLE if not (R90, R91). -/
def Obligations.SlotIsJudgedAgainstItsStation : Prop :=
  ∀ (s : State) (a : Nat),
    ((s.entry a).state ≠ .online → (s.entry a).state ≠ .suspect → s.judgeSlot a = none) ∧
    ∀ p, (s.entry a).profile = some p →
      (s.sched.cycleNumber.toNat % p.divisor ≠ 0 → s.judgeSlot a = none) ∧
      (s.sched.cycleNumber.toNat % p.divisor = 0 →
        ((s.entry a).state = .suspect → s.judgeSlot a = some (.probe, .resync)) ∧
        (∀ ar, (s.entry a).state = .online → s.areas a = some ar →
          (0 < p.outLen ∧ ar.output.state ≠ .unset ∧ s.sup.hold = .notHeld → s.judgeSlot a = some (.exchange, .cyclic)) ∧
          (¬(0 < p.outLen ∧ ar.output.state ≠ .unset ∧ s.sup.hold = .notHeld) →
            s.judgeSlot a = some (.sample, .cyclic))))

/-- The arbiter chooses only while the engine is IDLE. A handover asked for is granted first: LGNT, engine RELEASED with its
receiver off, limit timer started, report asked for. A claimed broadcast goes next: the engine is handed HOLD or RELEASE to
address 0, with one attempt, and the claim is settled. With no claim, no ticket to take and no active cycle, nothing changes
(R61, R62, R82, R100, R104, R152, R156). -/
def Obligations.ArbiterTakesHandoverThenBroadcast : Prop :=
  ∀ s : State,
    (s.engine.state ≠ .idle → s.arbiterChoice = s) ∧
    (s.engine.state = .idle → s.sup.handover = .requested → s.arbiterChoice = State.place { s with
      engine := .empty .released
      line := { s.line with rx := .off }
      sup := { s.sup with
        handover := .granted
        limitTimer := if s.sup.handoverLimit = 0 then none else some s.sup.handoverLimit } }
      (.supervision .handoverGranted)) ∧
    (∀ f, s.engine.state = .idle → s.sup.handover ≠ .requested →
      (s.sup.claim = .hold ∧ f = .hold) ∨ (s.sup.claim = .release ∧ f = .release) →
      s.arbiterChoice = { s with
        sup := { s.sup with claim := .none }
        line := { s.line with rx := .off }
        engine :=
          { state := .sending
            record := some { station := 0, func := f, origin := .broadcast, toggle := false, data := [], attempt := 1,
                             attemptLimit := 1, failedAttempts := 0, lastOutcome := none, reply := [], discard := false,
                             noRetry := false }
            replyTimer := none, gapTimer := none, quietTimer := none, jamTimer := none } }) ∧
    (s.lineFree → s.eligibleTicket = none → s.sched.state ≠ .active → s.arbiterChoice = s)

/-- The eligible ticket is the first QUEUED one with no QUEUED or ON_LINE ticket of its station ahead of it, a PARAM_WRITE only
while the part is not held. The arbiter, the line free, puts a PROBE ticket and a data ticket of an ONLINE station on the line
and raises a resync PROBE for one of a SUSPECT station, each lowering the allowance of an ACTIVE cycle; the ticket of a station
out of service completes with STATION_DOWN, and the arbiter looks again (R100, R102, R103, R110, R111, R113). -/
def Obligations.ArbiterTakesTheEligibleTicket : Prop :=
  ∀ s : State, TicketLaw s →
    (∀ t, s.eligibleTicket = some t ↔
      ∃ ahead behind, s.tickets.queue = ahead ++ t :: behind ∧ s.freeToTake ahead t ∧
        ∀ before x after, ahead = before ++ x :: after → ¬s.freeToTake before x) ∧
    (∀ t allowance, s.lineFree → s.eligibleTicket = some t → (s.sched.state = .active → 0 < s.arbiter.demandAllowance) →
      allowance = (if s.sched.state = .active then s.arbiter.demandAllowance - 1 else s.arbiter.demandAllowance) →
      (t.func = .probe ∧ (s.entry t.station).state ≠ .unused ∨ (s.entry t.station).state = .online →
        s.arbiterChoice = State.sendingFirst { s with
          arbiter := { s.arbiter with demandAllowance := allowance }
          tickets := { s.tickets with
            queue := s.tickets.queue.map (fun u => if u.id = t.id then { u with state := .onLine } else u) } }
          t.station t.func.onLine (.ticket t.id) t.data) ∧
      (t.func ≠ .probe → (s.entry t.station).state = .suspect →
        s.arbiterChoice = State.sendingFirst { s with arbiter := { s.arbiter with demandAllowance := allowance } }
          t.station .probe .resync []) ∧
      (t.func ≠ .probe →
        (s.entry t.station).state = .absent ∨ (s.entry t.station).state = .offline ∨ (s.entry t.station).state = .mismatch →
        s.arbiterChoice = State.arbiterChoice (State.place { s with
          tickets := { s.tickets with
            queue := s.tickets.queue.map (fun u =>
              if u.id = t.id then
                { u with state := .done { outcome := .stationDown, status := none, data := [], attempts := 0 } }
              else u) } }
          (.demandDone
            { id := t.id, hostTag := t.hostTag, outcome := .stationDown, status := none, attempts := 0, data := [] }))))

/-- With no ticket to take, an ACTIVE cycle in phase SLOTS passes the slots at its cursor that yield nothing, counting each as
skipped, and takes the first that yields: the cursor goes behind it, the summary counts it, the slot is marked in flight, the
allowance returns to demand_share, and the engine sends the exchange. An EXCHANGE carries the output bytes captured as it
starts, and a DIRTY area becomes SENDING; no other area changes (R31, R62, R87, R90, R95, R100 to R102). That the phase stays SLOTS
where the slot taken is the list's last is the model's reading (log entry 29). -/
def Obligations.ArbiterTakesTheNextSlot : Prop :=
  ∀ (s : State) (passed : List Nat) (a : Nat) (later : List Nat) (f : LineFunction) (origin : Origin), s.lineFree →
    s.noTicketNow → s.sched.state = .active → s.sched.stopRequest ≠ .afterSlot → s.sched.phase = .slots →
    s.sched.cycleList.drop s.sched.slotCursor = passed ++ a :: later → (∀ b ∈ passed, s.judgeSlot b = none) →
    s.judgeSlot a = some (f, origin) →
      ∃ (skipped : Byte) (u : State), skipped.toNat = min (s.sched.summary.skipped.toNat + passed.length) 255 ∧
        u = { s with
          image := u.image
          arbiter := { s.arbiter with demandAllowance := s.sched.demandShare }
          sched := { s.sched with
            slotCursor := s.sched.slotCursor + passed.length + 1
            slotInFlight := true
            summary := { s.sched.summary with
              skipped := skipped
              exchanged := if f = .probe then s.sched.summary.exchanged else satInc8 s.sched.summary.exchanged
              probed := if f = .probe then satInc8 s.sched.summary.probed else s.sched.summary.probed } } } ∧
        (f ≠ .exchange → u.image = s.image ∧ s.arbiterChoice = u.sendingFirst a f origin []) ∧
        (∀ ar, f = .exchange → s.areas a = some ar →
          s.arbiterChoice = u.sendingFirst a f origin ar.output.bytes ∧
          u.areas a = some { ar with output := { ar.output with
            state := if ar.output.state = .dirty then .sending else ar.output.state } } ∧
          ∀ b, b ≠ a → u.areas b = s.areas b)

/-- In the discovery phase, with the budget not spent, the first station in the order of the search that is ABSENT or OFFLINE
with probe_enable yes is sent a PROBE: the probe cursor moves to it, the probe is counted, the slot is marked in flight and
the allowance returns to demand_share. Once the slots left at the cursor, none or more, all yield nothing, they are passed and
counted as skipped, and the phase is entered within the same question, its start mark taken from the probe cursor (R62, R87,
R90, R92, R95, R102). That it is entered there, and not already as the list's last slot is taken, is the model's reading (log entry
29). -/
def Obligations.ArbiterIssuesADiscoveryProbe : Prop :=
  ∀ s : State,
    (∀ k, s.asksDiscovery → s.sched.probesIssued ≠ s.sched.probeBudget → 1 ≤ k → k ≤ s.searchReach →
      s.isDiscoverable (s.searched k) → (∀ j, 1 ≤ j → j < k → ¬s.isDiscoverable (s.searched j)) →
      s.arbiterChoice = State.sendingFirst { s with
        arbiter := { demandAllowance := s.sched.demandShare, probeCursor := s.searched k }
        sched := { s.sched with
          probesIssued := s.sched.probesIssued + 1
          slotInFlight := true
          summary := { s.sched.summary with probed := satInc8 s.sched.summary.probed } } }
        (s.searched k) .probe .discovery []) ∧
    (s.lineFree → s.noTicketNow → s.sched.state = .active → s.sched.stopRequest ≠ .afterSlot → s.sched.phase = .slots →
      (∀ b ∈ s.sched.cycleList.drop s.sched.slotCursor, s.judgeSlot b = none) →
      ∃ skipped : Byte,
        skipped.toNat =
          min (s.sched.summary.skipped.toNat + (s.sched.cycleList.length - s.sched.slotCursor)) 255 ∧
        s.arbiterChoice = State.arbiterChoice { s with sched := { s.sched with
          slotCursor := s.sched.slotCursor + (s.sched.cycleList.length - s.sched.slotCursor)
          phase := .discovery
          startMark := s.arbiter.probeCursor
          summary := { s.sched.summary with skipped := skipped } } })

/-- A cycle whose discovery phase is over completes: its summary is reported, and a SINGLE cycle or one asked to stop
AFTER_CYCLE leaves the scheduler STOPPED; a CONTINUOUS one rests while its period timer runs and it has not overrun, rests 1 ms
after an empty pass, and otherwise starts the next cycle within the same choice. A cycle that leaves ACTIVE sends the choice
back to the tickets, the demand allowance no longer applying: it goes on as a choice made in that state (R92, R93, R100). The law
of the tickets, which another statement keeps, is taken to hold. -/
def Obligations.CycleCompletes : Prop :=
  ∀ s u : State, TicketLaw s → s.asksDiscovery → s.discoveryOver → u = s.place (.cycleDone s.sched.summary) →
    (s.sched.mode = .single ∨ s.sched.stopRequest = .afterCycle → s.arbiterChoice = State.arbiterChoice { u with
      sched := { s.sched with state := .stopped, periodTimer := none, stopRequest := .none } }) ∧
    (s.sched.mode = .continuous → s.sched.stopRequest ≠ .afterCycle →
      (s.sched.summary.overrun = false → s.sched.periodTimer.isSome = true →
        s.arbiterChoice = State.arbiterChoice { u with
          sched := { s.sched with state := .resting } }) ∧
      (s.sched.summary.overrun = true ∨ s.sched.periodTimer = none →
        (s.sched.summary.exchanged = 0 ∧ s.sched.summary.probed = 0 →
          s.arbiterChoice = State.arbiterChoice { u with
            sched := { s.sched with state := .resting, periodTimer := some 10 } }) ∧
        (¬(s.sched.summary.exchanged = 0 ∧ s.sched.summary.probed = 0) →
          s.arbiterChoice = State.arbiterChoice { u with sched := s.sched.withNextCycle })))

/-- The ranges of the scheduler's and the arbiter's state hold at every step, and what goes with the scheduler's state: the
period timer stopped in STOPPED and running in RESTING, a stop request in ACTIVE alone, a slot in flight only with an exchange
in the engine (R85, R87, R89, R92 to R94, R97, R98). That a stop request is none once the scheduler has stopped is the model's
reading (log entry 11). The law of the line, which another statement keeps, is taken to hold. -/
def Obligations.EveryStepKeepsTheCycleLaw : Prop :=
  ∀ s t : State, LineLaw s → CycleLaw s → step s = .next t → CycleLaw t

/-! ## Demand transactions (spec/06_demand_transactions.md) -/

/-- SUBMIT is checked in the order of R108. An accepted one gives the ticket the first id from the counter on that no live
ticket holds, and places it QUEUED: at the tail if NORMAL; if URGENT, directly behind the last waiting ticket that is URGENT
or of its station, or at the head. The arbiter then makes its choice (R106 to R109). -/
def Obligations.SubmitPlacesATicket : Prop :=
  ∀ (s : State) (m : Message) (rest : List Message) (a func priority : Byte) (hostTag : Half) (data : List Byte),
    s.offers m rest 0x40 → data.length ≤ 90 →
    m.payload = [a, func, priority] ++ le16 hostTag ++ [byte data.length] ++ data →
    (func.toNat < 2 ∨ 5 < func.toNat ∨ 1 < priority.toNat → exec .submit s = .next (s.answered m rest .badField [])) ∧
    ∀ (f : TicketFunction) (pr : Priority), func = f.onLine.code → priority = pr.code →
      (a.toNat = 0 ∨ 63 < a.toNat → exec .submit s = .next (s.answered m rest .range [])) ∧
      (1 ≤ a.toNat → a.toNat ≤ 63 →
        ((s.entry a.toNat).state = .unused → exec .submit s = .next (s.answered m rest .noStation [])) ∧
        ((s.entry a.toNat).state ≠ .unused → ∀ least most,
          (least, most) = (match f with
            | .sample | .probe => (0, 0)
            | .paramRead => (1, 1)
            | .paramWrite => (2, 17)) →
          (data.length < least ∨ most < data.length → exec .submit s = .next (s.answered m rest .badField [])) ∧
          (least ≤ data.length → data.length ≤ most →
            (16 ≤ s.tickets.queue.length → exec .submit s = .next (s.answered m rest .queueFull [])) ∧
            (s.tickets.queue.length < 16 → ∃ (id : Byte) (k place : Nat),
              exec .submit s = .next (State.answered (State.arbiterChoice { s with
                host := { s.host with inbound := rest, processor := .deciding m [] }
                tickets :=
                  { queue := s.tickets.queue.take place ++
                      { id := id, station := a.toNat, func := f, data := data, priority := pr, hostTag := hostTag,
                        state := .queued } :: s.tickets.queue.drop place
                    idCounter := id + 1 } }) m rest .ok [id, byte place]) ∧
              k < 16 ∧ id = s.tickets.idCounter + BitVec.ofNat 8 k ∧ (∀ t ∈ s.tickets.queue, t.id ≠ id) ∧
              (∀ j, j < k → ∃ t ∈ s.tickets.queue, t.id = s.tickets.idCounter + BitVec.ofNat 8 j) ∧
              (pr = .normal → place = s.tickets.queue.length) ∧
              (pr = .urgent → place ≤ s.tickets.queue.length ∧
                (∀ i t, s.tickets.queue[i]? = some t → t.state = .queued ∨ t.state = .onLine →
                  t.priority = .urgent ∨ t.station = a.toNat → i < place) ∧
                (place ≠ 0 → ∃ t, s.tickets.queue[place - 1]? = some t ∧ (t.state = .queued ∨ t.state = .onLine) ∧
                  (t.priority = .urgent ∨ t.station = a.toNat)))))))

/-- CANCEL makes a QUEUED ticket DONE with CANCELLED and has its report placed, the arbiter choosing if that unblocks a ticket;
it is answered TOO_LATE for an ON_LINE ticket, ALREADY_DONE for a DONE one and NO_TICKET where none holds the id, and changes
nothing then. TICKET_QUERY answers the ticket with its position, whether it is blocked, and its result if DONE, or NO_TICKET,
and changes nothing (R110, R113, R114, R117, R118, R164). That the choice waits on an unblocked ticket is the model's reading
(log entry 22). -/
def Obligations.CancelAndTicketQueryFindTheTicket : Prop :=
  ∀ (s : State) (m : Message) (rest : List Message) (id : Byte), TicketLaw s → m.payload = [id] →
    ((∀ t ∈ s.tickets.queue, t.id ≠ id) →
      (s.offers m rest 0x41 → exec .cancel s = .next (s.answered m rest .noTicket [id])) ∧
      (s.offers m rest 0x42 → exec .ticketQuery s = .next (s.answered m rest .noTicket []))) ∧
    (∀ t ahead behind, s.tickets.queue = ahead ++ t :: behind → t.id = id →
      (s.offers m rest 0x41 →
        (t.state = .queued → ∃ u : State,
          u = { s with
            host := { s.host with inbound := rest, processor := .deciding m [] }
            tickets := { s.tickets with
              queue := ahead ++
                { t with state := .done { outcome := .cancelled, status := none, data := [], attempts := 0 } } :: behind }
            reports := { s.reports with
              queue := s.reports.queue ++ [.demandDone
                { id := id, hostTag := t.hostTag, outcome := .cancelled, status := none, attempts := 0, data := [] }] } } ∧
          (s.unblocks u → exec .cancel s = .next (u.arbiterChoice.answered m rest .ok [id, 2])) ∧
          (¬s.unblocks u → exec .cancel s = .next (u.answered m rest .ok [id, 2]))) ∧
        (t.state = .onLine → exec .cancel s = .next (s.answered m rest .tooLate [id, 1])) ∧
        (∀ res, t.state = .done res → exec .cancel s = .next (s.answered m rest .alreadyDone [id, 2]))) ∧
      (s.offers m rest 0x42 → ∀ fields : List Byte,
        (t.state = .queued → s.freeToTake ahead t → fields = [0, byte ahead.length, byte s.tickets.queue.length, 0, 0xFF, 0xFF, 0]) →
        (t.state = .queued → ¬s.freeToTake ahead t →
          fields = [0, byte ahead.length, byte s.tickets.queue.length, 1, 0xFF, 0xFF, 0]) →
        (t.state = .onLine → fields = [1, byte ahead.length, byte s.tickets.queue.length, 0, 0xFF, 0xFF, 0]) →
        (∀ res, t.state = .done res → fields = [2, byte ahead.length, byte s.tickets.queue.length, 0, res.outcome.code,
          statusByte res.status, byte res.attempts]) →
          exec .ticketQuery s = .next (s.answered m rest .ok
            ([id, byte t.station, t.func.onLine.code, t.priority.code] ++ le16 t.hostTag ++ fields))))

/-- At every step at most 16 tickets are live, their ids are pairwise distinct, and the DEMAND_DONE entries of the report queue
are exactly those of the DONE tickets, one for each (R106, R114, R125). -/
def Obligations.EveryStepKeepsTheTicketLaw : Prop :=
  ∀ s t : State, TicketLaw s → step s = .next t → TicketLaw t

/-! ## Reports and credits (spec/07_reports_and_credits.md) -/

/-- CREDIT outside 1..32 is refused with RANGE; it otherwise adds to the counter, which stops at 32, and answers it. A request
for a report updates the unsent entry it merges with in place, or makes a new one at the tail, its counts begun, or, a notice with
all 16 notice places taken, is lost and counted; and a report that was due before the placement is taken first (R120 to R128, R130,
R141). -/
def Obligations.CreditAddsAndRequestsArePlaced : Prop :=
  (∀ (s : State) (m : Message) (rest : List Message) (n : Byte), s.offers m rest 0x50 → m.payload = [n] →
    (n.toNat = 0 ∨ 32 < n.toNat → exec .credit s = .next (s.answered m rest .range [])) ∧
    (1 ≤ n.toNat → n.toNat ≤ 32 → exec .credit s = .next (State.answered
      { s with reports := { s.reports with credit := min (s.reports.credit + n.toNat) 32 } } m rest .ok
      [byte (min (s.reports.credit + n.toNat) 32)]))) ∧
  (∀ (s : State) (request : ReportRequest),
    (¬s.standsReport → s.place request = { s with reports := s.reports.place request }) ∧
    ∀ t, s.standsReport → exec .reportTaken s = .next t → s.place request = { t with reports := t.reports.place request }) ∧
  ∀ u : ReportUnit,
    (∀ (request : ReportRequest) (new : ReportEntry), request.makes new → (∀ e ∈ u.queue, e.sameThing new = false) →
      ((u.queue.filter ReportEntry.isNotice).length < 16 ∨ (∃ d, request = .demandDone d) →
        u.place request = { u with queue := u.queue ++ [new] }) ∧
      (16 ≤ (u.queue.filter ReportEntry.isNotice).length → (∀ d, request ≠ .demandDone d) →
        u.place request = { u with lost := satInc8 u.lost })) ∧
    (∀ ahead e behind, u.queue = ahead ++ e :: behind → (∀ x ∈ ahead, x.sameThing e = false) →
      (∀ a, e = .inputChange a → u.place (.inputChange a) = u) ∧
      (∀ a first n now, e = .stationState a first n →
        u.place (.stationState a now) = { u with queue := ahead ++ .stationState a first (satInc8 n) :: behind }) ∧
      (∀ c n now, e = .cycleDone c n →
        u.place (.cycleDone now) = { u with queue := ahead ++ .cycleDone now (satInc8 n) :: behind }) ∧
      (∀ n a now, e = .lineFault n a →
        u.place (.lineFault now) = { u with queue := ahead ++ .lineFault (satInc8 n) now :: behind }) ∧
      (∀ h g l, e = .supervision h g l →
        u.place (.supervision .holdEntered) = { u with queue := ahead ++ .supervision (satInc8 h) g l :: behind } ∧
        u.place (.supervision .handoverGranted) = { u with queue := ahead ++ .supervision h (satInc8 g) l :: behind } ∧
        u.place (.supervision .limitExpired) = { u with queue := ahead ++ .supervision h g true :: behind } ∧
        u.place (.supervision .other) = u))

/-- At every step the credit counter stays within 32, at most 16 notices wait, and of the notices at most one for each thing a
notice can concern (R120, R121, R130). -/
def Obligations.EveryStepKeepsTheReportLaws : Prop :=
  ∀ s t : State, step s = .next t → (CreditLaw s → CreditLaw t) ∧ (ReportLaw s → ReportLaw t)

/-! ## Hold and handover (spec/09_hold_and_handover.md) -/

/-- HOLD_SETUP with a hold time of 1..9 or over 60000 is refused with RANGE and changes nothing. It otherwise replaces hold time
and handover limit, and restarts the hold timer for the new time, or stops it for 0, unless the part is held, when the timer
stays stopped and the part held; the answer carries both and the hold state (R149). -/
def Obligations.HoldSetupReplacesTimeAndLimit : Prop :=
  ∀ (s : State) (m : Message) (rest : List Message) (time : Half) (limit : Byte), s.offers m rest 0x60 →
    m.payload = le16 time ++ [limit] →
    ((1 ≤ time.toNat ∧ time.toNat ≤ 9) ∨ 60000 < time.toNat → exec .holdSetup s = .next (s.answered m rest .range [])) ∧
    (time.toNat = 0 ∨ (10 ≤ time.toNat ∧ time.toNat ≤ 60000) → exec .holdSetup s = .next (State.answered
      { s with sup := { s.sup with
          holdTime := time.toNat
          handoverLimit := limit.toNat
          holdTimer := if s.sup.hold = .held ∨ time.toNat = 0 then none else some time.toNat } } m rest .ok
      (le16 time ++ [limit, s.sup.hold.code])))

/-- The hold timer's expiry enters hold: HOLD_N asserted, the timer stopped, the claim HOLD, an EXCHANGE or PARAM_WRITE in
flight forbidden its retry, a report asked for, and the arbiter choosing. RESUME is refused outside hold; in hold it ends it,
claims RELEASE, starts the timer for the hold time, asks for a report, and the arbiter chooses (R80, R151, R152, R154). -/
def Obligations.HoldIsEnteredAndEnded : Prop :=
  ∀ s : State,
    (¬s.standsReport → s.sup.holdTimer.isSome = true → State.chosenAt { s with
      sup := { s.sup with hold := .held, holdTimer := none, claim := .hold }
      engine := { s.engine with
        record := s.engine.record.map (fun r =>
          { r with noRetry := r.noRetry || r.func == .exchange || r.func == .paramWrite }) }
      reports := s.reports.place (.supervision .holdEntered) } (exec .holdTimerExpiry s)) ∧
    (s.holdN = false ↔ s.sup.hold = .held) ∧
    (∀ m rest, s.offers m rest 0x61 → m.payload = [] →
      (s.sup.hold = .notHeld → exec .resume s = .next (s.answered m rest .wrongState [])) ∧
      (s.sup.hold = .held → exec .resume s = .next (State.answered (State.arbiterChoice { s with
        host := { s.host with inbound := rest, processor := .deciding m [] }
        sup := { s.sup with
          hold := .notHeld
          claim := .release
          holdTimer := if s.sup.holdTime = 0 then none else some s.sup.holdTime }
        reports := s.reports.place (.supervision .other) }) m rest .ok [0])))

/-- LREQ asserted with no handover standing places the request, and the arbiter chooses. LREQ negated withdraws a request, with
no report; after a grant it returns the line: the engine IDLE with its receiver on, the limit timer stopped, every ONLINE
station SUSPECT and its FRESH inputs STALE, reports asked for in rising order of station, and the arbiter choosing. Where LREQ is
asserted again before that choice, a request stands at it. The limit's expiry asks for a report and leaves the line lent (R10 to
R12, R82, R155, R157, R158). The reassertion's being part of the same step, as any event before the choice, is the model's
choice (log entry 26). -/
def Obligations.LreqAsksForTheLineAndReturnsIt : Prop :=
  ∀ (s : State) (order : IdleOrder), ¬s.standsReport →
    (s.lreq = false → s.sup.handover = .none → exec .lreqAsserted s = .next (State.arbiterChoice { s with
      lreq := true
      sup := { s.sup with handover := .requested } })) ∧
    (s.lreq = true → s.sup.handover = .requested → order.before = .nothing → exec (.lreqNegated order) s = .next { s with
      lreq := false
      sup := { s.sup with handover := .none } }) ∧
    (s.lreq = true → s.sup.handover = .requested → order.before = .lreqAsserted →
      exec (.lreqNegated order) s = .next s.arbiterChoice) ∧
    (s.lreq = true → s.sup.handover = .granted → ∃ (u : State) (requests : List ReportRequest),
      State.choiceFollows (requests.foldl State.place u) order.before (exec (.lreqNegated order) s) ∧
      (∀ v, order.before = .lreqAsserted → (¬(requests.foldl State.place u).standsReport → v = requests.foldl State.place u) →
        ((requests.foldl State.place u).standsReport → exec .reportTaken (requests.foldl State.place u) = .next v) →
        State.chosenAt (State.arbiterChoice { v with lreq := true, sup := { v.sup with handover := .requested } })
          (exec (.lreqNegated order) s)) ∧
      u = { s with
        lreq := false
        engine := .empty .idle
        line := { s.line with rx := .turnedOn }
        sup := { s.sup with handover := .none, limitTimer := none }
        stations := u.stations
        image := u.image } ∧
      (∃ early late : List ReportRequest, requests = early ++ .supervision .other :: late ∧
        early ++ late = ((List.range' 1 63).filter (fun a => (s.entry a).state == .online)).map
          (fun a => .stationState a .online)) ∧
      ∀ a,
        u.entry a = { s.entry a with state := if (s.entry a).state = .online then .suspect else (s.entry a).state } ∧
        u.areas a = (s.areas a).map (fun ar =>
          if (s.entry a).state = .online ∧ ar.input.state = .fresh then { ar with input := { ar.input with state := .stale } }
          else ar)) ∧
    (s.sup.limitTimer.isSome = true → s.sup.handover = .granted → exec .limitTimerExpiry s = .next { s with
      sup := { s.sup with limitTimer := none }
      reports := s.reports.place (.supervision .limitExpired) })

/-- At every step the supervision unit's ranges and timers hold: the hold timer runs, for the hold time, exactly while that is
non-zero and the part is not held, and the limit timer only while the line is granted; and while the part is held, an EXCHANGE
or PARAM_WRITE in flight is forbidden its retry (R80, R149, R150, R156 to R158). -/
def Obligations.EveryStepKeepsTheLawsOfHoldAndHandover : Prop :=
  ∀ s t : State, step s = .next t → (SupervisionLaw s → SupervisionLaw t) ∧ (HoldLaw s → HoldLaw t)

/-- While the part is held, no EXCHANGE and no PARAM_WRITE frame is started: a held part that is sending one was sending the
same attempt before the step (R153). -/
def Obligations.NoForbiddenFrameIsStartedWhileHeld : Prop :=
  ∀ (s t : State) (r : ExchangeRecord), HoldLaw s → step s = .next t → t.sup.hold = .held → t.engine.state = .sending →
    t.engine.record = some r → r.func = .exchange ∨ r.func = .paramWrite →
      s.engine.state = .sending ∧ ∃ r', s.engine.record = some r' ∧ r'.func = r.func ∧ r'.station = r.station ∧
        r'.attempt = r.attempt

/-- Every law that the steps keep holds right after pin reset, in the state `State.reset`. -/
def Obligations.ResetHasEveryLaw : Prop :=
  HostLaw State.reset ∧ LineLaw State.reset ∧ RecordLaw State.reset ∧ StationLaw State.reset ∧ ImageLaw State.reset ∧
    CycleLaw State.reset ∧ TicketLaw State.reset ∧ CreditLaw State.reset ∧ ReportLaw State.reset ∧
    SupervisionLaw State.reset ∧ HoldLaw State.reset
end

