-- ==== Sys2Proof/Laws/State.lean ====
section
/-! SUPPORT. What each update of the state leaves alone, field by field, so that no proof unfolds a record update. -/

namespace Sys2Proof.Machine

@[simp] theorem State.countLine_pending (s : State) (f : LineStats → LineStats) : (s.countLine f).pending = s.pending := rfl
@[simp] theorem State.countLine_lreq (s : State) (f : LineStats → LineStats) : (s.countLine f).lreq = s.lreq := rfl
@[simp] theorem State.countLine_engine (s : State) (f : LineStats → LineStats) : (s.countLine f).engine = s.engine := rfl
@[simp] theorem State.countLine_arbiter (s : State) (f : LineStats → LineStats) : (s.countLine f).arbiter = s.arbiter := rfl
@[simp] theorem State.countLine_sched (s : State) (f : LineStats → LineStats) : (s.countLine f).sched = s.sched := rfl
@[simp] theorem State.countLine_stations (s : State) (f : LineStats → LineStats) : (s.countLine f).stations = s.stations := rfl
@[simp] theorem State.countLine_image (s : State) (f : LineStats → LineStats) : (s.countLine f).image = s.image := rfl
@[simp] theorem State.countLine_tickets (s : State) (f : LineStats → LineStats) : (s.countLine f).tickets = s.tickets := rfl
@[simp] theorem State.countLine_reports (s : State) (f : LineStats → LineStats) : (s.countLine f).reports = s.reports := rfl
@[simp] theorem State.countLine_host (s : State) (f : LineStats → LineStats) : (s.countLine f).host = s.host := rfl
@[simp] theorem State.countLine_sup (s : State) (f : LineStats → LineStats) : (s.countLine f).sup = s.sup := rfl
@[simp] theorem State.countLine_freeDraws (s : State) (f : LineStats → LineStats) : (s.countLine f).freeDraws = s.freeDraws := rfl

@[simp] theorem State.setLineRx_pending (s : State) (rx : LineRx) : (s.setLineRx rx).pending = s.pending := rfl
@[simp] theorem State.setLineRx_lreq (s : State) (rx : LineRx) : (s.setLineRx rx).lreq = s.lreq := rfl
@[simp] theorem State.setLineRx_engine (s : State) (rx : LineRx) : (s.setLineRx rx).engine = s.engine := rfl
@[simp] theorem State.setLineRx_arbiter (s : State) (rx : LineRx) : (s.setLineRx rx).arbiter = s.arbiter := rfl
@[simp] theorem State.setLineRx_sched (s : State) (rx : LineRx) : (s.setLineRx rx).sched = s.sched := rfl
@[simp] theorem State.setLineRx_stations (s : State) (rx : LineRx) : (s.setLineRx rx).stations = s.stations := rfl
@[simp] theorem State.setLineRx_image (s : State) (rx : LineRx) : (s.setLineRx rx).image = s.image := rfl
@[simp] theorem State.setLineRx_tickets (s : State) (rx : LineRx) : (s.setLineRx rx).tickets = s.tickets := rfl
@[simp] theorem State.setLineRx_reports (s : State) (rx : LineRx) : (s.setLineRx rx).reports = s.reports := rfl
@[simp] theorem State.setLineRx_host (s : State) (rx : LineRx) : (s.setLineRx rx).host = s.host := rfl
@[simp] theorem State.setLineRx_sup (s : State) (rx : LineRx) : (s.setLineRx rx).sup = s.sup := rfl
@[simp] theorem State.setLineRx_freeDraws (s : State) (rx : LineRx) : (s.setLineRx rx).freeDraws = s.freeDraws := rfl

@[simp] theorem State.becomeIdle_pending (s : State) : (s.becomeIdle).pending = s.pending := rfl
@[simp] theorem State.becomeIdle_lreq (s : State) : (s.becomeIdle).lreq = s.lreq := rfl
@[simp] theorem State.becomeIdle_line (s : State) : (s.becomeIdle).line = s.line := rfl
@[simp] theorem State.becomeIdle_arbiter (s : State) : (s.becomeIdle).arbiter = s.arbiter := rfl
@[simp] theorem State.becomeIdle_sched (s : State) : (s.becomeIdle).sched = s.sched := rfl
@[simp] theorem State.becomeIdle_stations (s : State) : (s.becomeIdle).stations = s.stations := rfl
@[simp] theorem State.becomeIdle_image (s : State) : (s.becomeIdle).image = s.image := rfl
@[simp] theorem State.becomeIdle_tickets (s : State) : (s.becomeIdle).tickets = s.tickets := rfl
@[simp] theorem State.becomeIdle_reports (s : State) : (s.becomeIdle).reports = s.reports := rfl
@[simp] theorem State.becomeIdle_host (s : State) : (s.becomeIdle).host = s.host := rfl
@[simp] theorem State.becomeIdle_sup (s : State) : (s.becomeIdle).sup = s.sup := rfl
@[simp] theorem State.becomeIdle_freeDraws (s : State) : (s.becomeIdle).freeDraws = s.freeDraws := rfl

@[simp] theorem State.startAttempt_pending (s : State) (r : ExchangeRecord) : (s.startAttempt r).pending = s.pending := rfl
@[simp] theorem State.startAttempt_lreq (s : State) (r : ExchangeRecord) : (s.startAttempt r).lreq = s.lreq := rfl
@[simp] theorem State.startAttempt_arbiter (s : State) (r : ExchangeRecord) : (s.startAttempt r).arbiter = s.arbiter := rfl
@[simp] theorem State.startAttempt_sched (s : State) (r : ExchangeRecord) : (s.startAttempt r).sched = s.sched := rfl
@[simp] theorem State.startAttempt_stations (s : State) (r : ExchangeRecord) : (s.startAttempt r).stations = s.stations := rfl
@[simp] theorem State.startAttempt_image (s : State) (r : ExchangeRecord) : (s.startAttempt r).image = s.image := rfl
@[simp] theorem State.startAttempt_tickets (s : State) (r : ExchangeRecord) : (s.startAttempt r).tickets = s.tickets := rfl
@[simp] theorem State.startAttempt_reports (s : State) (r : ExchangeRecord) : (s.startAttempt r).reports = s.reports := rfl
@[simp] theorem State.startAttempt_host (s : State) (r : ExchangeRecord) : (s.startAttempt r).host = s.host := rfl
@[simp] theorem State.startAttempt_sup (s : State) (r : ExchangeRecord) : (s.startAttempt r).sup = s.sup := rfl
@[simp] theorem State.startAttempt_freeDraws (s : State) (r : ExchangeRecord) : (s.startAttempt r).freeDraws = s.freeDraws := rfl

@[simp] theorem State.lendLine_pending (s : State) : (s.lendLine).pending = s.pending := rfl
@[simp] theorem State.lendLine_lreq (s : State) : (s.lendLine).lreq = s.lreq := rfl
@[simp] theorem State.lendLine_arbiter (s : State) : (s.lendLine).arbiter = s.arbiter := rfl
@[simp] theorem State.lendLine_sched (s : State) : (s.lendLine).sched = s.sched := rfl
@[simp] theorem State.lendLine_stations (s : State) : (s.lendLine).stations = s.stations := rfl
@[simp] theorem State.lendLine_image (s : State) : (s.lendLine).image = s.image := rfl
@[simp] theorem State.lendLine_tickets (s : State) : (s.lendLine).tickets = s.tickets := rfl
@[simp] theorem State.lendLine_reports (s : State) : (s.lendLine).reports = s.reports := rfl
@[simp] theorem State.lendLine_host (s : State) : (s.lendLine).host = s.host := rfl
@[simp] theorem State.lendLine_freeDraws (s : State) : (s.lendLine).freeDraws = s.freeDraws := rfl

@[simp] theorem State.takeDueReport_pending (s : State) : s.takeDueReport.pending = s.pending := rfl
@[simp] theorem State.takeDueReport_lreq (s : State) : s.takeDueReport.lreq = s.lreq := rfl
@[simp] theorem State.takeDueReport_line (s : State) : s.takeDueReport.line = s.line := rfl
@[simp] theorem State.takeDueReport_engine (s : State) : s.takeDueReport.engine = s.engine := rfl
@[simp] theorem State.takeDueReport_arbiter (s : State) : s.takeDueReport.arbiter = s.arbiter := rfl
@[simp] theorem State.takeDueReport_sched (s : State) : s.takeDueReport.sched = s.sched := rfl
@[simp] theorem State.takeDueReport_stations (s : State) : s.takeDueReport.stations = s.stations := rfl
@[simp] theorem State.takeDueReport_image (s : State) : s.takeDueReport.image = s.image := rfl
@[simp] theorem State.takeDueReport_sup (s : State) : s.takeDueReport.sup = s.sup := rfl
@[simp] theorem State.takeDueReport_freeDraws (s : State) : s.takeDueReport.freeDraws = s.freeDraws := rfl
@[simp] theorem State.takeDueReport_rx (s : State) : s.takeDueReport.host.rx = s.host.rx := rfl
@[simp] theorem State.takeDueReport_waitHigh (s : State) : s.takeDueReport.host.waitHigh = s.host.waitHigh := rfl
@[simp] theorem State.takeDueReport_gapTimer (s : State) : s.takeDueReport.host.gapTimer = s.host.gapTimer := rfl
@[simp] theorem State.takeDueReport_inbound (s : State) : s.takeDueReport.host.inbound = s.host.inbound := rfl
@[simp] theorem State.takeDueReport_dropped (s : State) : s.takeDueReport.host.dropped = s.host.dropped := rfl
@[simp] theorem State.takeDueReport_processor (s : State) : s.takeDueReport.host.processor = s.host.processor := rfl
@[simp] theorem State.takeDueReport_response (s : State) : s.takeDueReport.host.response = s.host.response := rfl
@[simp] theorem State.takeDueReport_restart (s : State) : s.takeDueReport.host.restart = s.host.restart := rfl
@[simp] theorem State.takeDueReport_stats (s : State) : s.takeDueReport.host.stats = s.host.stats := rfl
@[simp] theorem State.takeDueReport_strap (s : State) : s.takeDueReport.host.strap = s.host.strap := rfl

@[simp] theorem State.place_rx (s : State) (r : ReportRequest) : (s.place r).host.rx = s.host.rx := rfl
@[simp] theorem State.place_waitHigh (s : State) (r : ReportRequest) : (s.place r).host.waitHigh = s.host.waitHigh := rfl
@[simp] theorem State.place_gapTimer (s : State) (r : ReportRequest) : (s.place r).host.gapTimer = s.host.gapTimer := rfl
@[simp] theorem State.place_inbound (s : State) (r : ReportRequest) : (s.place r).host.inbound = s.host.inbound := rfl
@[simp] theorem State.place_dropped (s : State) (r : ReportRequest) : (s.place r).host.dropped = s.host.dropped := rfl
@[simp] theorem State.place_processor (s : State) (r : ReportRequest) : (s.place r).host.processor = s.host.processor := rfl
@[simp] theorem State.place_response (s : State) (r : ReportRequest) : (s.place r).host.response = s.host.response := rfl
@[simp] theorem State.place_restart (s : State) (r : ReportRequest) : (s.place r).host.restart = s.host.restart := rfl
@[simp] theorem State.place_stats (s : State) (r : ReportRequest) : (s.place r).host.stats = s.host.stats := rfl
@[simp] theorem State.place_strap (s : State) (r : ReportRequest) : (s.place r).host.strap = s.host.strap := rfl
@[simp] theorem State.place_reports (s : State) (r : ReportRequest) : (s.place r).reports = s.takeDueReport.reports.place r := rfl
@[simp] theorem State.place_tickets (s : State) (r : ReportRequest) : (s.place r).tickets = s.takeDueReport.tickets := rfl

@[simp] theorem State.takeReport_pending (s : State) (e : ReportEntry) : (s.takeReport e).pending = s.pending := rfl
@[simp] theorem State.takeReport_lreq (s : State) (e : ReportEntry) : (s.takeReport e).lreq = s.lreq := rfl
@[simp] theorem State.takeReport_line (s : State) (e : ReportEntry) : (s.takeReport e).line = s.line := rfl
@[simp] theorem State.takeReport_engine (s : State) (e : ReportEntry) : (s.takeReport e).engine = s.engine := rfl
@[simp] theorem State.takeReport_arbiter (s : State) (e : ReportEntry) : (s.takeReport e).arbiter = s.arbiter := rfl
@[simp] theorem State.takeReport_sched (s : State) (e : ReportEntry) : (s.takeReport e).sched = s.sched := rfl
@[simp] theorem State.takeReport_stations (s : State) (e : ReportEntry) : (s.takeReport e).stations = s.stations := rfl
@[simp] theorem State.takeReport_image (s : State) (e : ReportEntry) : (s.takeReport e).image = s.image := rfl
@[simp] theorem State.takeReport_sup (s : State) (e : ReportEntry) : (s.takeReport e).sup = s.sup := rfl
@[simp] theorem State.takeReport_freeDraws (s : State) (e : ReportEntry) : (s.takeReport e).freeDraws = s.freeDraws := rfl

@[simp] theorem State.place_pending (s : State) (r : ReportRequest) : (s.place r).pending = s.pending := rfl
@[simp] theorem State.place_lreq (s : State) (r : ReportRequest) : (s.place r).lreq = s.lreq := rfl
@[simp] theorem State.place_line (s : State) (r : ReportRequest) : (s.place r).line = s.line := rfl
@[simp] theorem State.place_engine (s : State) (r : ReportRequest) : (s.place r).engine = s.engine := rfl
@[simp] theorem State.place_arbiter (s : State) (r : ReportRequest) : (s.place r).arbiter = s.arbiter := rfl
@[simp] theorem State.place_sched (s : State) (r : ReportRequest) : (s.place r).sched = s.sched := rfl
@[simp] theorem State.place_stations (s : State) (r : ReportRequest) : (s.place r).stations = s.stations := rfl
@[simp] theorem State.place_image (s : State) (r : ReportRequest) : (s.place r).image = s.image := rfl
@[simp] theorem State.place_sup (s : State) (r : ReportRequest) : (s.place r).sup = s.sup := rfl
@[simp] theorem State.place_freeDraws (s : State) (r : ReportRequest) : (s.place r).freeDraws = s.freeDraws := rfl

/-- A run of requests changes the ticket table, the report unit and the transmitter alone. -/
theorem State.placeAll_frame (s : State) (rs : List ReportRequest) :
    s.placeAll rs =
      { s with
        tickets := (s.placeAll rs).tickets
        reports := (s.placeAll rs).reports
        host := { s.host with tx := (s.placeAll rs).host.tx } } := by
  unfold State.placeAll
  induction rs generalizing s with
  | nil => rfl
  | cons r rs ih => rw [List.foldl_cons, ih]; rfl

@[simp] theorem State.placeAll_pending (s : State) (rs : List ReportRequest) : (s.placeAll rs).pending = s.pending := by
  rw [State.placeAll_frame]
@[simp] theorem State.placeAll_lreq (s : State) (rs : List ReportRequest) : (s.placeAll rs).lreq = s.lreq := by
  rw [State.placeAll_frame]
@[simp] theorem State.placeAll_line (s : State) (rs : List ReportRequest) : (s.placeAll rs).line = s.line := by
  rw [State.placeAll_frame]
@[simp] theorem State.placeAll_engine (s : State) (rs : List ReportRequest) : (s.placeAll rs).engine = s.engine := by
  rw [State.placeAll_frame]
@[simp] theorem State.placeAll_arbiter (s : State) (rs : List ReportRequest) : (s.placeAll rs).arbiter = s.arbiter := by
  rw [State.placeAll_frame]
@[simp] theorem State.placeAll_sched (s : State) (rs : List ReportRequest) : (s.placeAll rs).sched = s.sched := by
  rw [State.placeAll_frame]
@[simp] theorem State.placeAll_stations (s : State) (rs : List ReportRequest) : (s.placeAll rs).stations = s.stations := by
  rw [State.placeAll_frame]
@[simp] theorem State.placeAll_image (s : State) (rs : List ReportRequest) : (s.placeAll rs).image = s.image := by
  rw [State.placeAll_frame]
@[simp] theorem State.placeAll_sup (s : State) (rs : List ReportRequest) : (s.placeAll rs).sup = s.sup := by
  rw [State.placeAll_frame]
@[simp] theorem State.placeAll_freeDraws (s : State) (rs : List ReportRequest) : (s.placeAll rs).freeDraws = s.freeDraws := by
  rw [State.placeAll_frame]

/-- A completion changes the ticket table, the report unit and the transmitter alone. -/
theorem State.completeTicket_frame (s : State) (id : Byte) (res : TicketResult) :
    s.completeTicket id res =
      { s with
        tickets := (s.completeTicket id res).tickets
        reports := (s.completeTicket id res).reports
        host := { s.host with tx := (s.completeTicket id res).host.tx } } := State.placeAll_frame _ _

@[simp] theorem State.dropNotices_pending (s : State) (a : Nat) : (s.dropNotices a).pending = s.pending := rfl
@[simp] theorem State.dropNotices_lreq (s : State) (a : Nat) : (s.dropNotices a).lreq = s.lreq := rfl
@[simp] theorem State.dropNotices_line (s : State) (a : Nat) : (s.dropNotices a).line = s.line := rfl
@[simp] theorem State.dropNotices_engine (s : State) (a : Nat) : (s.dropNotices a).engine = s.engine := rfl
@[simp] theorem State.dropNotices_arbiter (s : State) (a : Nat) : (s.dropNotices a).arbiter = s.arbiter := rfl
@[simp] theorem State.dropNotices_sched (s : State) (a : Nat) : (s.dropNotices a).sched = s.sched := rfl
@[simp] theorem State.dropNotices_stations (s : State) (a : Nat) : (s.dropNotices a).stations = s.stations := rfl
@[simp] theorem State.dropNotices_image (s : State) (a : Nat) : (s.dropNotices a).image = s.image := rfl
@[simp] theorem State.dropNotices_tickets (s : State) (a : Nat) : (s.dropNotices a).tickets = s.tickets := rfl
@[simp] theorem State.dropNotices_host (s : State) (a : Nat) : (s.dropNotices a).host = s.host := rfl
@[simp] theorem State.dropNotices_sup (s : State) (a : Nat) : (s.dropNotices a).sup = s.sup := rfl
@[simp] theorem State.dropNotices_freeDraws (s : State) (a : Nat) : (s.dropNotices a).freeDraws = s.freeDraws := rfl

@[simp] theorem State.discardExchange_pending (s : State) (a : Nat) : (s.discardExchange a).pending = s.pending := rfl
@[simp] theorem State.discardExchange_lreq (s : State) (a : Nat) : (s.discardExchange a).lreq = s.lreq := rfl
@[simp] theorem State.discardExchange_line (s : State) (a : Nat) : (s.discardExchange a).line = s.line := rfl
@[simp] theorem State.discardExchange_arbiter (s : State) (a : Nat) : (s.discardExchange a).arbiter = s.arbiter := rfl
@[simp] theorem State.discardExchange_sched (s : State) (a : Nat) : (s.discardExchange a).sched = s.sched := rfl
@[simp] theorem State.discardExchange_stations (s : State) (a : Nat) : (s.discardExchange a).stations = s.stations := rfl
@[simp] theorem State.discardExchange_image (s : State) (a : Nat) : (s.discardExchange a).image = s.image := rfl
@[simp] theorem State.discardExchange_tickets (s : State) (a : Nat) : (s.discardExchange a).tickets = s.tickets := rfl
@[simp] theorem State.discardExchange_reports (s : State) (a : Nat) : (s.discardExchange a).reports = s.reports := rfl
@[simp] theorem State.discardExchange_host (s : State) (a : Nat) : (s.discardExchange a).host = s.host := rfl
@[simp] theorem State.discardExchange_sup (s : State) (a : Nat) : (s.discardExchange a).sup = s.sup := rfl
@[simp] theorem State.discardExchange_freeDraws (s : State) (a : Nat) : (s.discardExchange a).freeDraws = s.freeDraws := rfl

@[simp] theorem State.forbidRetry_pending (s : State) : (s.forbidRetry).pending = s.pending := rfl
@[simp] theorem State.forbidRetry_lreq (s : State) : (s.forbidRetry).lreq = s.lreq := rfl
@[simp] theorem State.forbidRetry_line (s : State) : (s.forbidRetry).line = s.line := rfl
@[simp] theorem State.forbidRetry_arbiter (s : State) : (s.forbidRetry).arbiter = s.arbiter := rfl
@[simp] theorem State.forbidRetry_sched (s : State) : (s.forbidRetry).sched = s.sched := rfl
@[simp] theorem State.forbidRetry_stations (s : State) : (s.forbidRetry).stations = s.stations := rfl
@[simp] theorem State.forbidRetry_image (s : State) : (s.forbidRetry).image = s.image := rfl
@[simp] theorem State.forbidRetry_tickets (s : State) : (s.forbidRetry).tickets = s.tickets := rfl
@[simp] theorem State.forbidRetry_reports (s : State) : (s.forbidRetry).reports = s.reports := rfl
@[simp] theorem State.forbidRetry_host (s : State) : (s.forbidRetry).host = s.host := rfl
@[simp] theorem State.forbidRetry_sup (s : State) : (s.forbidRetry).sup = s.sup := rfl
@[simp] theorem State.forbidRetry_freeDraws (s : State) : (s.forbidRetry).freeDraws = s.freeDraws := rfl

@[simp] theorem State.enterDiscovery_pending (s : State) : (s.enterDiscovery).pending = s.pending := rfl
@[simp] theorem State.enterDiscovery_lreq (s : State) : (s.enterDiscovery).lreq = s.lreq := rfl
@[simp] theorem State.enterDiscovery_line (s : State) : (s.enterDiscovery).line = s.line := rfl
@[simp] theorem State.enterDiscovery_engine (s : State) : (s.enterDiscovery).engine = s.engine := rfl
@[simp] theorem State.enterDiscovery_arbiter (s : State) : (s.enterDiscovery).arbiter = s.arbiter := rfl
@[simp] theorem State.enterDiscovery_stations (s : State) : (s.enterDiscovery).stations = s.stations := rfl
@[simp] theorem State.enterDiscovery_image (s : State) : (s.enterDiscovery).image = s.image := rfl
@[simp] theorem State.enterDiscovery_tickets (s : State) : (s.enterDiscovery).tickets = s.tickets := rfl
@[simp] theorem State.enterDiscovery_reports (s : State) : (s.enterDiscovery).reports = s.reports := rfl
@[simp] theorem State.enterDiscovery_host (s : State) : (s.enterDiscovery).host = s.host := rfl
@[simp] theorem State.enterDiscovery_sup (s : State) : (s.enterDiscovery).sup = s.sup := rfl
@[simp] theorem State.enterDiscovery_freeDraws (s : State) : (s.enterDiscovery).freeDraws = s.freeDraws := rfl

@[simp] theorem State.placeTicket_pending (s : State) (t : Ticket) : (s.placeTicket t).pending = s.pending := rfl
@[simp] theorem State.placeTicket_lreq (s : State) (t : Ticket) : (s.placeTicket t).lreq = s.lreq := rfl
@[simp] theorem State.placeTicket_line (s : State) (t : Ticket) : (s.placeTicket t).line = s.line := rfl
@[simp] theorem State.placeTicket_engine (s : State) (t : Ticket) : (s.placeTicket t).engine = s.engine := rfl
@[simp] theorem State.placeTicket_arbiter (s : State) (t : Ticket) : (s.placeTicket t).arbiter = s.arbiter := rfl
@[simp] theorem State.placeTicket_sched (s : State) (t : Ticket) : (s.placeTicket t).sched = s.sched := rfl
@[simp] theorem State.placeTicket_stations (s : State) (t : Ticket) : (s.placeTicket t).stations = s.stations := rfl
@[simp] theorem State.placeTicket_image (s : State) (t : Ticket) : (s.placeTicket t).image = s.image := rfl
@[simp] theorem State.placeTicket_reports (s : State) (t : Ticket) : (s.placeTicket t).reports = s.reports := rfl
@[simp] theorem State.placeTicket_host (s : State) (t : Ticket) : (s.placeTicket t).host = s.host := rfl
@[simp] theorem State.placeTicket_sup (s : State) (t : Ticket) : (s.placeTicket t).sup = s.sup := rfl
@[simp] theorem State.placeTicket_freeDraws (s : State) (t : Ticket) : (s.placeTicket t).freeDraws = s.freeDraws := rfl

@[simp] theorem State.completeTicket_pending (s : State) (id : Byte) (res : TicketResult) : (s.completeTicket id res).pending = s.pending := by simp [State.completeTicket]
@[simp] theorem State.completeTicket_lreq (s : State) (id : Byte) (res : TicketResult) : (s.completeTicket id res).lreq = s.lreq := by simp [State.completeTicket]
@[simp] theorem State.completeTicket_line (s : State) (id : Byte) (res : TicketResult) : (s.completeTicket id res).line = s.line := by simp [State.completeTicket]
@[simp] theorem State.completeTicket_engine (s : State) (id : Byte) (res : TicketResult) : (s.completeTicket id res).engine = s.engine := by simp [State.completeTicket]
@[simp] theorem State.completeTicket_arbiter (s : State) (id : Byte) (res : TicketResult) : (s.completeTicket id res).arbiter = s.arbiter := by simp [State.completeTicket]
@[simp] theorem State.completeTicket_sched (s : State) (id : Byte) (res : TicketResult) : (s.completeTicket id res).sched = s.sched := by simp [State.completeTicket]
@[simp] theorem State.completeTicket_stations (s : State) (id : Byte) (res : TicketResult) : (s.completeTicket id res).stations = s.stations := by simp [State.completeTicket]
@[simp] theorem State.completeTicket_image (s : State) (id : Byte) (res : TicketResult) : (s.completeTicket id res).image = s.image := by simp [State.completeTicket]
@[simp] theorem State.completeTicket_sup (s : State) (id : Byte) (res : TicketResult) : (s.completeTicket id res).sup = s.sup := by simp [State.completeTicket]
@[simp] theorem State.completeTicket_freeDraws (s : State) (id : Byte) (res : TicketResult) : (s.completeTicket id res).freeDraws = s.freeDraws := by simp [State.completeTicket]

@[simp] theorem State.completeCycle_pending (s : State) : (s.completeCycle).pending = s.pending := rfl
@[simp] theorem State.completeCycle_lreq (s : State) : (s.completeCycle).lreq = s.lreq := rfl
@[simp] theorem State.completeCycle_line (s : State) : (s.completeCycle).line = s.line := rfl
@[simp] theorem State.completeCycle_engine (s : State) : (s.completeCycle).engine = s.engine := rfl
@[simp] theorem State.completeCycle_arbiter (s : State) : (s.completeCycle).arbiter = s.arbiter := rfl
@[simp] theorem State.completeCycle_stations (s : State) : (s.completeCycle).stations = s.stations := rfl
@[simp] theorem State.completeCycle_image (s : State) : (s.completeCycle).image = s.image := rfl
@[simp] theorem State.completeCycle_sup (s : State) : (s.completeCycle).sup = s.sup := rfl
@[simp] theorem State.completeCycle_freeDraws (s : State) : (s.completeCycle).freeDraws = s.freeDraws := rfl

@[simp] theorem State.placeResponse_pending (s : State) (m : Message) (r : Reply) : (s.placeResponse m r).pending = s.pending := rfl
@[simp] theorem State.placeResponse_lreq (s : State) (m : Message) (r : Reply) : (s.placeResponse m r).lreq = s.lreq := rfl
@[simp] theorem State.placeResponse_line (s : State) (m : Message) (r : Reply) : (s.placeResponse m r).line = s.line := rfl
@[simp] theorem State.placeResponse_engine (s : State) (m : Message) (r : Reply) : (s.placeResponse m r).engine = s.engine := rfl
@[simp] theorem State.placeResponse_arbiter (s : State) (m : Message) (r : Reply) : (s.placeResponse m r).arbiter = s.arbiter := rfl
@[simp] theorem State.placeResponse_sched (s : State) (m : Message) (r : Reply) : (s.placeResponse m r).sched = s.sched := rfl
@[simp] theorem State.placeResponse_stations (s : State) (m : Message) (r : Reply) : (s.placeResponse m r).stations = s.stations := rfl
@[simp] theorem State.placeResponse_image (s : State) (m : Message) (r : Reply) : (s.placeResponse m r).image = s.image := rfl
@[simp] theorem State.placeResponse_tickets (s : State) (m : Message) (r : Reply) : (s.placeResponse m r).tickets = s.tickets := rfl
@[simp] theorem State.placeResponse_reports (s : State) (m : Message) (r : Reply) : (s.placeResponse m r).reports = s.reports := rfl
@[simp] theorem State.placeResponse_sup (s : State) (m : Message) (r : Reply) : (s.placeResponse m r).sup = s.sup := rfl
@[simp] theorem State.placeResponse_freeDraws (s : State) (m : Message) (r : Reply) : (s.placeResponse m r).freeDraws = s.freeDraws := rfl

@[simp] theorem State.beginCommand_pending (s : State) (m : Message) : (s.beginCommand m).pending = s.pending := rfl
@[simp] theorem State.beginCommand_lreq (s : State) (m : Message) : (s.beginCommand m).lreq = s.lreq := rfl
@[simp] theorem State.beginCommand_line (s : State) (m : Message) : (s.beginCommand m).line = s.line := rfl
@[simp] theorem State.beginCommand_engine (s : State) (m : Message) : (s.beginCommand m).engine = s.engine := rfl
@[simp] theorem State.beginCommand_arbiter (s : State) (m : Message) : (s.beginCommand m).arbiter = s.arbiter := rfl
@[simp] theorem State.beginCommand_sched (s : State) (m : Message) : (s.beginCommand m).sched = s.sched := rfl
@[simp] theorem State.beginCommand_stations (s : State) (m : Message) : (s.beginCommand m).stations = s.stations := rfl
@[simp] theorem State.beginCommand_image (s : State) (m : Message) : (s.beginCommand m).image = s.image := rfl
@[simp] theorem State.beginCommand_tickets (s : State) (m : Message) : (s.beginCommand m).tickets = s.tickets := rfl
@[simp] theorem State.beginCommand_reports (s : State) (m : Message) : (s.beginCommand m).reports = s.reports := rfl
@[simp] theorem State.beginCommand_sup (s : State) (m : Message) : (s.beginCommand m).sup = s.sup := rfl
@[simp] theorem State.beginCommand_freeDraws (s : State) (m : Message) : (s.beginCommand m).freeDraws = s.freeDraws := rfl

@[simp] theorem State.countLink_pending (s : State) (f : LinkStats → LinkStats) : (s.countLink f).pending = s.pending := rfl
@[simp] theorem State.countLink_lreq (s : State) (f : LinkStats → LinkStats) : (s.countLink f).lreq = s.lreq := rfl
@[simp] theorem State.countLink_line (s : State) (f : LinkStats → LinkStats) : (s.countLink f).line = s.line := rfl
@[simp] theorem State.countLink_engine (s : State) (f : LinkStats → LinkStats) : (s.countLink f).engine = s.engine := rfl
@[simp] theorem State.countLink_arbiter (s : State) (f : LinkStats → LinkStats) : (s.countLink f).arbiter = s.arbiter := rfl
@[simp] theorem State.countLink_sched (s : State) (f : LinkStats → LinkStats) : (s.countLink f).sched = s.sched := rfl
@[simp] theorem State.countLink_stations (s : State) (f : LinkStats → LinkStats) : (s.countLink f).stations = s.stations := rfl
@[simp] theorem State.countLink_image (s : State) (f : LinkStats → LinkStats) : (s.countLink f).image = s.image := rfl
@[simp] theorem State.countLink_tickets (s : State) (f : LinkStats → LinkStats) : (s.countLink f).tickets = s.tickets := rfl
@[simp] theorem State.countLink_reports (s : State) (f : LinkStats → LinkStats) : (s.countLink f).reports = s.reports := rfl
@[simp] theorem State.countLink_sup (s : State) (f : LinkStats → LinkStats) : (s.countLink f).sup = s.sup := rfl
@[simp] theorem State.countLink_freeDraws (s : State) (f : LinkStats → LinkStats) : (s.countLink f).freeDraws = s.freeDraws := rfl

@[simp] theorem State.setHostRx_pending (s : State) (rx : HostRx) (gap : Option Nat) : (s.setHostRx rx gap).pending = s.pending := rfl
@[simp] theorem State.setHostRx_lreq (s : State) (rx : HostRx) (gap : Option Nat) : (s.setHostRx rx gap).lreq = s.lreq := rfl
@[simp] theorem State.setHostRx_line (s : State) (rx : HostRx) (gap : Option Nat) : (s.setHostRx rx gap).line = s.line := rfl
@[simp] theorem State.setHostRx_engine (s : State) (rx : HostRx) (gap : Option Nat) : (s.setHostRx rx gap).engine = s.engine := rfl
@[simp] theorem State.setHostRx_arbiter (s : State) (rx : HostRx) (gap : Option Nat) : (s.setHostRx rx gap).arbiter = s.arbiter := rfl
@[simp] theorem State.setHostRx_sched (s : State) (rx : HostRx) (gap : Option Nat) : (s.setHostRx rx gap).sched = s.sched := rfl
@[simp] theorem State.setHostRx_stations (s : State) (rx : HostRx) (gap : Option Nat) : (s.setHostRx rx gap).stations = s.stations := rfl
@[simp] theorem State.setHostRx_image (s : State) (rx : HostRx) (gap : Option Nat) : (s.setHostRx rx gap).image = s.image := rfl
@[simp] theorem State.setHostRx_tickets (s : State) (rx : HostRx) (gap : Option Nat) : (s.setHostRx rx gap).tickets = s.tickets := rfl
@[simp] theorem State.setHostRx_reports (s : State) (rx : HostRx) (gap : Option Nat) : (s.setHostRx rx gap).reports = s.reports := rfl
@[simp] theorem State.setHostRx_sup (s : State) (rx : HostRx) (gap : Option Nat) : (s.setHostRx rx gap).sup = s.sup := rfl
@[simp] theorem State.setHostRx_freeDraws (s : State) (rx : HostRx) (gap : Option Nat) : (s.setHostRx rx gap).freeDraws = s.freeDraws := rfl

@[simp] theorem State.hostRxOn_pending (s : State) (rx : HostRx) : (s.hostRxOn rx).pending = s.pending := rfl
@[simp] theorem State.hostRxOn_lreq (s : State) (rx : HostRx) : (s.hostRxOn rx).lreq = s.lreq := rfl
@[simp] theorem State.hostRxOn_line (s : State) (rx : HostRx) : (s.hostRxOn rx).line = s.line := rfl
@[simp] theorem State.hostRxOn_engine (s : State) (rx : HostRx) : (s.hostRxOn rx).engine = s.engine := rfl
@[simp] theorem State.hostRxOn_arbiter (s : State) (rx : HostRx) : (s.hostRxOn rx).arbiter = s.arbiter := rfl
@[simp] theorem State.hostRxOn_sched (s : State) (rx : HostRx) : (s.hostRxOn rx).sched = s.sched := rfl
@[simp] theorem State.hostRxOn_stations (s : State) (rx : HostRx) : (s.hostRxOn rx).stations = s.stations := rfl
@[simp] theorem State.hostRxOn_image (s : State) (rx : HostRx) : (s.hostRxOn rx).image = s.image := rfl
@[simp] theorem State.hostRxOn_tickets (s : State) (rx : HostRx) : (s.hostRxOn rx).tickets = s.tickets := rfl
@[simp] theorem State.hostRxOn_reports (s : State) (rx : HostRx) : (s.hostRxOn rx).reports = s.reports := rfl
@[simp] theorem State.hostRxOn_sup (s : State) (rx : HostRx) : (s.hostRxOn rx).sup = s.sup := rfl
@[simp] theorem State.hostRxOn_freeDraws (s : State) (rx : HostRx) : (s.hostRxOn rx).freeDraws = s.freeDraws := rfl

@[simp] theorem State.hostRxHunt_pending (s : State) : (s.hostRxHunt).pending = s.pending := rfl
@[simp] theorem State.hostRxHunt_lreq (s : State) : (s.hostRxHunt).lreq = s.lreq := rfl
@[simp] theorem State.hostRxHunt_line (s : State) : (s.hostRxHunt).line = s.line := rfl
@[simp] theorem State.hostRxHunt_engine (s : State) : (s.hostRxHunt).engine = s.engine := rfl
@[simp] theorem State.hostRxHunt_arbiter (s : State) : (s.hostRxHunt).arbiter = s.arbiter := rfl
@[simp] theorem State.hostRxHunt_sched (s : State) : (s.hostRxHunt).sched = s.sched := rfl
@[simp] theorem State.hostRxHunt_stations (s : State) : (s.hostRxHunt).stations = s.stations := rfl
@[simp] theorem State.hostRxHunt_image (s : State) : (s.hostRxHunt).image = s.image := rfl
@[simp] theorem State.hostRxHunt_tickets (s : State) : (s.hostRxHunt).tickets = s.tickets := rfl
@[simp] theorem State.hostRxHunt_reports (s : State) : (s.hostRxHunt).reports = s.reports := rfl
@[simp] theorem State.hostRxHunt_sup (s : State) : (s.hostRxHunt).sup = s.sup := rfl
@[simp] theorem State.hostRxHunt_freeDraws (s : State) : (s.hostRxHunt).freeDraws = s.freeDraws := rfl

@[simp] theorem State.restartHoldTimer_pending (s : State) : (s.restartHoldTimer).pending = s.pending := rfl
@[simp] theorem State.restartHoldTimer_lreq (s : State) : (s.restartHoldTimer).lreq = s.lreq := rfl
@[simp] theorem State.restartHoldTimer_line (s : State) : (s.restartHoldTimer).line = s.line := rfl
@[simp] theorem State.restartHoldTimer_engine (s : State) : (s.restartHoldTimer).engine = s.engine := rfl
@[simp] theorem State.restartHoldTimer_arbiter (s : State) : (s.restartHoldTimer).arbiter = s.arbiter := rfl
@[simp] theorem State.restartHoldTimer_sched (s : State) : (s.restartHoldTimer).sched = s.sched := rfl
@[simp] theorem State.restartHoldTimer_stations (s : State) : (s.restartHoldTimer).stations = s.stations := rfl
@[simp] theorem State.restartHoldTimer_image (s : State) : (s.restartHoldTimer).image = s.image := rfl
@[simp] theorem State.restartHoldTimer_tickets (s : State) : (s.restartHoldTimer).tickets = s.tickets := rfl
@[simp] theorem State.restartHoldTimer_reports (s : State) : (s.restartHoldTimer).reports = s.reports := rfl
@[simp] theorem State.restartHoldTimer_host (s : State) : (s.restartHoldTimer).host = s.host := rfl
@[simp] theorem State.restartHoldTimer_freeDraws (s : State) : (s.restartHoldTimer).freeDraws = s.freeDraws := rfl

@[simp] theorem State.classifyAttempt_pending (s : State) (o : AttemptOutcome) : (s.classifyAttempt o).pending = s.pending := rfl
@[simp] theorem State.classifyAttempt_lreq (s : State) (o : AttemptOutcome) : (s.classifyAttempt o).lreq = s.lreq := rfl
@[simp] theorem State.classifyAttempt_arbiter (s : State) (o : AttemptOutcome) : (s.classifyAttempt o).arbiter = s.arbiter := rfl
@[simp] theorem State.classifyAttempt_sched (s : State) (o : AttemptOutcome) : (s.classifyAttempt o).sched = s.sched := rfl
@[simp] theorem State.classifyAttempt_stations (s : State) (o : AttemptOutcome) : (s.classifyAttempt o).stations = s.stations := rfl
@[simp] theorem State.classifyAttempt_image (s : State) (o : AttemptOutcome) : (s.classifyAttempt o).image = s.image := rfl
@[simp] theorem State.classifyAttempt_tickets (s : State) (o : AttemptOutcome) : (s.classifyAttempt o).tickets = s.tickets := rfl
@[simp] theorem State.classifyAttempt_reports (s : State) (o : AttemptOutcome) : (s.classifyAttempt o).reports = s.reports := rfl
@[simp] theorem State.classifyAttempt_host (s : State) (o : AttemptOutcome) : (s.classifyAttempt o).host = s.host := rfl
@[simp] theorem State.classifyAttempt_sup (s : State) (o : AttemptOutcome) : (s.classifyAttempt o).sup = s.sup := rfl
@[simp] theorem State.classifyAttempt_freeDraws (s : State) (o : AttemptOutcome) : (s.classifyAttempt o).freeDraws = s.freeDraws := rfl

@[simp] theorem State.setEntry_pending (s : State) (a : Nat) (e : StationEntry) : (s.setEntry a e).pending = s.pending := by
  unfold State.setEntry; split <;> rfl
@[simp] theorem State.setEntry_lreq (s : State) (a : Nat) (e : StationEntry) : (s.setEntry a e).lreq = s.lreq := by
  unfold State.setEntry; split <;> rfl
@[simp] theorem State.setEntry_line (s : State) (a : Nat) (e : StationEntry) : (s.setEntry a e).line = s.line := by
  unfold State.setEntry; split <;> rfl
@[simp] theorem State.setEntry_engine (s : State) (a : Nat) (e : StationEntry) : (s.setEntry a e).engine = s.engine := by
  unfold State.setEntry; split <;> rfl
@[simp] theorem State.setEntry_arbiter (s : State) (a : Nat) (e : StationEntry) : (s.setEntry a e).arbiter = s.arbiter := by
  unfold State.setEntry; split <;> rfl
@[simp] theorem State.setEntry_sched (s : State) (a : Nat) (e : StationEntry) : (s.setEntry a e).sched = s.sched := by
  unfold State.setEntry; split <;> rfl
@[simp] theorem State.setEntry_image (s : State) (a : Nat) (e : StationEntry) : (s.setEntry a e).image = s.image := by
  unfold State.setEntry; split <;> rfl
@[simp] theorem State.setEntry_tickets (s : State) (a : Nat) (e : StationEntry) : (s.setEntry a e).tickets = s.tickets := by
  unfold State.setEntry; split <;> rfl
@[simp] theorem State.setEntry_reports (s : State) (a : Nat) (e : StationEntry) : (s.setEntry a e).reports = s.reports := by
  unfold State.setEntry; split <;> rfl
@[simp] theorem State.setEntry_host (s : State) (a : Nat) (e : StationEntry) : (s.setEntry a e).host = s.host := by
  unfold State.setEntry; split <;> rfl
@[simp] theorem State.setEntry_sup (s : State) (a : Nat) (e : StationEntry) : (s.setEntry a e).sup = s.sup := by
  unfold State.setEntry; split <;> rfl
@[simp] theorem State.setEntry_freeDraws (s : State) (a : Nat) (e : StationEntry) : (s.setEntry a e).freeDraws = s.freeDraws := by
  unfold State.setEntry; split <;> rfl

@[simp] theorem State.setAreas_pending (s : State) (a : Nat) (ar : Option Areas) : (s.setAreas a ar).pending = s.pending := by
  unfold State.setAreas; split <;> rfl
@[simp] theorem State.setAreas_lreq (s : State) (a : Nat) (ar : Option Areas) : (s.setAreas a ar).lreq = s.lreq := by
  unfold State.setAreas; split <;> rfl
@[simp] theorem State.setAreas_line (s : State) (a : Nat) (ar : Option Areas) : (s.setAreas a ar).line = s.line := by
  unfold State.setAreas; split <;> rfl
@[simp] theorem State.setAreas_engine (s : State) (a : Nat) (ar : Option Areas) : (s.setAreas a ar).engine = s.engine := by
  unfold State.setAreas; split <;> rfl
@[simp] theorem State.setAreas_arbiter (s : State) (a : Nat) (ar : Option Areas) : (s.setAreas a ar).arbiter = s.arbiter := by
  unfold State.setAreas; split <;> rfl
@[simp] theorem State.setAreas_sched (s : State) (a : Nat) (ar : Option Areas) : (s.setAreas a ar).sched = s.sched := by
  unfold State.setAreas; split <;> rfl
@[simp] theorem State.setAreas_stations (s : State) (a : Nat) (ar : Option Areas) : (s.setAreas a ar).stations = s.stations := by
  unfold State.setAreas; split <;> rfl
@[simp] theorem State.setAreas_tickets (s : State) (a : Nat) (ar : Option Areas) : (s.setAreas a ar).tickets = s.tickets := by
  unfold State.setAreas; split <;> rfl
@[simp] theorem State.setAreas_reports (s : State) (a : Nat) (ar : Option Areas) : (s.setAreas a ar).reports = s.reports := by
  unfold State.setAreas; split <;> rfl
@[simp] theorem State.setAreas_host (s : State) (a : Nat) (ar : Option Areas) : (s.setAreas a ar).host = s.host := by
  unfold State.setAreas; split <;> rfl
@[simp] theorem State.setAreas_sup (s : State) (a : Nat) (ar : Option Areas) : (s.setAreas a ar).sup = s.sup := by
  unfold State.setAreas; split <;> rfl
@[simp] theorem State.setAreas_freeDraws (s : State) (a : Nat) (ar : Option Areas) : (s.setAreas a ar).freeDraws = s.freeDraws := by
  unfold State.setAreas; split <;> rfl

@[simp] theorem State.markStale_pending (s : State) (a : Nat) : (s.markStale a).pending = s.pending := by
  simp [State.markStale]
@[simp] theorem State.markStale_lreq (s : State) (a : Nat) : (s.markStale a).lreq = s.lreq := by
  simp [State.markStale]
@[simp] theorem State.markStale_line (s : State) (a : Nat) : (s.markStale a).line = s.line := by
  simp [State.markStale]
@[simp] theorem State.markStale_engine (s : State) (a : Nat) : (s.markStale a).engine = s.engine := by
  simp [State.markStale]
@[simp] theorem State.markStale_arbiter (s : State) (a : Nat) : (s.markStale a).arbiter = s.arbiter := by
  simp [State.markStale]
@[simp] theorem State.markStale_sched (s : State) (a : Nat) : (s.markStale a).sched = s.sched := by
  simp [State.markStale]
@[simp] theorem State.markStale_stations (s : State) (a : Nat) : (s.markStale a).stations = s.stations := by
  simp [State.markStale]
@[simp] theorem State.markStale_tickets (s : State) (a : Nat) : (s.markStale a).tickets = s.tickets := by
  simp [State.markStale]
@[simp] theorem State.markStale_reports (s : State) (a : Nat) : (s.markStale a).reports = s.reports := by
  simp [State.markStale]
@[simp] theorem State.markStale_host (s : State) (a : Nat) : (s.markStale a).host = s.host := by
  simp [State.markStale]
@[simp] theorem State.markStale_sup (s : State) (a : Nat) : (s.markStale a).sup = s.sup := by
  simp [State.markStale]
@[simp] theorem State.markStale_freeDraws (s : State) (a : Nat) : (s.markStale a).freeDraws = s.freeDraws := by
  simp [State.markStale]

@[simp] theorem State.clearCounters_pending (s : State) (a : Nat) : (s.clearCounters a).pending = s.pending := by
  simp [State.clearCounters]
@[simp] theorem State.clearCounters_lreq (s : State) (a : Nat) : (s.clearCounters a).lreq = s.lreq := by
  simp [State.clearCounters]
@[simp] theorem State.clearCounters_line (s : State) (a : Nat) : (s.clearCounters a).line = s.line := by
  simp [State.clearCounters]
@[simp] theorem State.clearCounters_engine (s : State) (a : Nat) : (s.clearCounters a).engine = s.engine := by
  simp [State.clearCounters]
@[simp] theorem State.clearCounters_arbiter (s : State) (a : Nat) : (s.clearCounters a).arbiter = s.arbiter := by
  simp [State.clearCounters]
@[simp] theorem State.clearCounters_sched (s : State) (a : Nat) : (s.clearCounters a).sched = s.sched := by
  simp [State.clearCounters]
@[simp] theorem State.clearCounters_image (s : State) (a : Nat) : (s.clearCounters a).image = s.image := by
  simp [State.clearCounters]
@[simp] theorem State.clearCounters_tickets (s : State) (a : Nat) : (s.clearCounters a).tickets = s.tickets := by
  simp [State.clearCounters]
@[simp] theorem State.clearCounters_reports (s : State) (a : Nat) : (s.clearCounters a).reports = s.reports := by
  simp [State.clearCounters]
@[simp] theorem State.clearCounters_host (s : State) (a : Nat) : (s.clearCounters a).host = s.host := by
  simp [State.clearCounters]
@[simp] theorem State.clearCounters_sup (s : State) (a : Nat) : (s.clearCounters a).sup = s.sup := by
  simp [State.clearCounters]
@[simp] theorem State.clearCounters_freeDraws (s : State) (a : Nat) : (s.clearCounters a).freeDraws = s.freeDraws := by
  simp [State.clearCounters]

@[simp] theorem State.spendAllowance_pending (s : State) : (s.spendAllowance).pending = s.pending := by
  unfold State.spendAllowance; split <;> rfl
@[simp] theorem State.spendAllowance_lreq (s : State) : (s.spendAllowance).lreq = s.lreq := by
  unfold State.spendAllowance; split <;> rfl
@[simp] theorem State.spendAllowance_line (s : State) : (s.spendAllowance).line = s.line := by
  unfold State.spendAllowance; split <;> rfl
@[simp] theorem State.spendAllowance_engine (s : State) : (s.spendAllowance).engine = s.engine := by
  unfold State.spendAllowance; split <;> rfl
@[simp] theorem State.spendAllowance_sched (s : State) : (s.spendAllowance).sched = s.sched := by
  unfold State.spendAllowance; split <;> rfl
@[simp] theorem State.spendAllowance_stations (s : State) : (s.spendAllowance).stations = s.stations := by
  unfold State.spendAllowance; split <;> rfl
@[simp] theorem State.spendAllowance_image (s : State) : (s.spendAllowance).image = s.image := by
  unfold State.spendAllowance; split <;> rfl
@[simp] theorem State.spendAllowance_tickets (s : State) : (s.spendAllowance).tickets = s.tickets := by
  unfold State.spendAllowance; split <;> rfl
@[simp] theorem State.spendAllowance_reports (s : State) : (s.spendAllowance).reports = s.reports := by
  unfold State.spendAllowance; split <;> rfl
@[simp] theorem State.spendAllowance_host (s : State) : (s.spendAllowance).host = s.host := by
  unfold State.spendAllowance; split <;> rfl
@[simp] theorem State.spendAllowance_sup (s : State) : (s.spendAllowance).sup = s.sup := by
  unfold State.spendAllowance; split <;> rfl
@[simp] theorem State.spendAllowance_freeDraws (s : State) : (s.spendAllowance).freeDraws = s.freeDraws := by
  unfold State.spendAllowance; split <;> rfl

@[simp] theorem State.countLine_rx (s : State) (f : LineStats → LineStats) : (s.countLine f).line.rx = s.line.rx := rfl
@[simp] theorem State.countLine_stats (s : State) (f : LineStats → LineStats) : (s.countLine f).line.stats = f s.line.stats := rfl
@[simp] theorem State.countLine_rateIndex (s : State) (f : LineStats → LineStats) : (s.countLine f).line.rateIndex = s.line.rateIndex := rfl
@[simp] theorem State.countLine_replyTimeout (s : State) (f : LineStats → LineStats) : (s.countLine f).line.replyTimeout = s.line.replyTimeout := rfl
@[simp] theorem State.countLine_retryCount (s : State) (f : LineStats → LineStats) : (s.countLine f).line.retryCount = s.line.retryCount := rfl
@[simp] theorem State.setLineRx_rx (s : State) (rx : LineRx) : (s.setLineRx rx).line.rx = rx := rfl
@[simp] theorem State.setLineRx_stats (s : State) (rx : LineRx) : (s.setLineRx rx).line.stats = s.line.stats := rfl
@[simp] theorem State.becomeIdle_engine (s : State) : s.becomeIdle.engine = .empty .idle := rfl
@[simp] theorem State.startAttempt_engine (s : State) (r : ExchangeRecord) : (s.startAttempt r).engine = { Engine.empty .sending with record := some r } := rfl
@[simp] theorem State.startAttempt_rx (s : State) (r : ExchangeRecord) : (s.startAttempt r).line.rx = .off := rfl
@[simp] theorem State.lendLine_engine (s : State) : s.lendLine.engine = .empty .released := rfl
@[simp] theorem State.lendLine_handover (s : State) : s.lendLine.sup.handover = .granted := rfl
@[simp] theorem State.lendLine_hold (s : State) : s.lendLine.sup.hold = s.sup.hold := rfl
@[simp] theorem State.dropNotices_reports (s : State) (a : Nat) : (s.dropNotices a).reports = s.reports.dropStation a := rfl
@[simp] theorem State.placeResponse_response (s : State) (m : Message) (r : Reply) : (s.placeResponse m r).host.response = some (responseTo m s.host.dropped r) := rfl
@[simp] theorem State.placeResponse_dropped (s : State) (m : Message) (r : Reply) : (s.placeResponse m r).host.dropped = 0 := rfl
@[simp] theorem State.placeResponse_inbound (s : State) (m : Message) (r : Reply) : (s.placeResponse m r).host.inbound = s.host.inbound := rfl
@[simp] theorem State.beginCommand_inbound (s : State) (m : Message) : (s.beginCommand m).host.inbound = s.host.inbound.tail := rfl
@[simp] theorem State.beginCommand_dropped (s : State) (m : Message) : (s.beginCommand m).host.dropped = s.host.dropped := rfl
@[simp] theorem State.beginCommand_strap (s : State) (m : Message) : (s.beginCommand m).host.strap = s.host.strap := rfl
@[simp] theorem State.beginCommand_stats (s : State) (m : Message) : (s.beginCommand m).host.stats = s.host.stats := rfl
@[simp] theorem State.setHostRx_rx (s : State) (rx : HostRx) (gap : Option Nat) : (s.setHostRx rx gap).host.rx = rx := rfl

/-- Whether the part is held depends on the supervision unit alone. -/
theorem State.isHeld_congr {s t : State} (h : t.sup = s.sup) : t.isHeld = s.isHeld := by
  unfold State.isHeld; rw [h]

/-- The entry of an address depends on the station table alone. -/
theorem State.entry_congr {s t : State} (h : t.stations = s.stations) (a : Nat) : t.entry a = s.entry a := by
  unfold State.entry; rw [h]

/-- The areas of an address depend on the image alone. -/
theorem State.areas_congr {s t : State} (h : t.image = s.image) (a : Nat) : t.areas a = s.areas a := by
  unfold State.areas; rw [h]

/-! ## A report that is due (R141) -/

/-- When a report is due: the free transmitter, no command being decided, no response waiting, no restart arranged, and an offer
that stands (R130, R131, R141, R146). -/
theorem State.dueReport_iff (s : State) :
    (∃ e, s.dueReport = some e) ↔ s.host.tx = .free ∧ s.host.processor = .idle ∧ s.host.response = none ∧
      s.host.restart = none ∧ 0 < s.reports.credit ∧ s.reports.queue ≠ [] := by
  unfold State.dueReport State.processorFree
  constructor
  · rintro ⟨e, h⟩
    split at h
    · rename_i hc
      simp only [Bool.and_eq_true, beq_iff_eq, Option.isNone_iff_eq_none, bne_iff_ne, ne_eq] at hc
      exact ⟨hc.1.2, hc.1.1.1.1, hc.1.1.1.2, hc.1.1.2, Nat.pos_of_ne_zero hc.2, fun h0 => by rw [h0] at h; cases h⟩
    · cases h
  · rintro ⟨h1, h2, h3, h4, h5, h6⟩
    cases hq : s.reports.queue with
    | nil => exact absurd hq h6
    | cons e q => exact ⟨e, by simp [h1, h2, h3, h4, Nat.pos_iff_ne_zero.1 h5]⟩

/-- No report is due where one of what it takes is missing (R131, R141). -/
theorem State.dueReport_none_of_not {s : State}
    (h : ¬(s.host.tx = .free ∧ s.host.processor = .idle ∧ s.host.response = none ∧ s.host.restart = none ∧
      0 < s.reports.credit ∧ s.reports.queue ≠ [])) : s.dueReport = none := by
  cases hd : s.dueReport with
  | none => rfl
  | some e => exact absurd ((State.dueReport_iff s).1 ⟨e, hd⟩) h

/-- Where a report is due, its taking is what the transmitter does. -/
theorem State.takeDueReport_of_due {s : State} {e : ReportEntry} (h : s.dueReport = some e) :
    s.takeDueReport = s.takeReport e := by
  unfold State.takeDueReport; rw [h]; rfl

/-- Where none is due, nothing changes. -/
theorem State.takeDueReport_of_none {s : State} (h : s.dueReport = none) : s.takeDueReport = s := by
  unfold State.takeDueReport; rw [h]; rfl

/-- A report that is due stands at the head of the queue, with credit, the transmitter free and the processor too. -/
theorem State.dueReport_some {s : State} {e : ReportEntry} (h : s.dueReport = some e) :
    (∃ rest, s.reports.queue = e :: rest) ∧ s.reports.credit ≠ 0 ∧ s.host.tx = .free ∧ s.processorFree = true := by
  unfold State.dueReport at h
  split at h
  · rename_i hd
    simp only [Bool.and_eq_true, beq_iff_eq, bne_iff_ne, ne_eq] at hd
    exact ⟨List.head?_eq_some_iff.1 h, hd.2, hd.1.2, hd.1.1⟩
  · cases h

/-- None is due while the transmitter is sending. -/
theorem State.dueReport_of_busy {s : State} (h : s.host.tx ≠ .free) : s.dueReport = none := by
  unfold State.dueReport; simp [h]

/-- None is due while the processor decides a command. -/
theorem State.dueReport_of_deciding {s : State} (h : s.host.processor ≠ .idle) : s.dueReport = none := by
  unfold State.dueReport State.processorFree; simp [h]

/-- None is due once the one that was has been taken. -/
theorem State.takeDueReport_dueReport (s : State) : s.takeDueReport.dueReport = none := by
  cases h : s.dueReport with
  | none => rw [State.takeDueReport_of_none h, h]
  | some e => rw [State.takeDueReport_of_due h]; exact State.dueReport_of_busy (by simp [State.takeReport])

/-- Where none is due, a placement is only that of the report unit. -/
theorem State.place_of_none {s : State} (h : s.dueReport = none) (r : ReportRequest) :
    s.place r = { s with reports := s.reports.place r } := by
  unfold State.place; rw [State.takeDueReport_of_none h]

/-- Where a report is due, it is taken before the placement. -/
theorem State.place_of_due {s : State} {e : ReportEntry} (h : s.dueReport = some e) (r : ReportRequest) :
    s.place r = { s.takeReport e with reports := (s.takeReport e).reports.place r } := by
  unfold State.place; rw [State.takeDueReport_of_due h]

/-- A property that the taking of a report keeps is kept where one is due. -/
theorem State.takeDueReport_keeps {P : State → Prop}
    (h : ∀ s e rest, P s → s.reports.queue = e :: rest → s.reports.credit ≠ 0 → P (s.takeReport e)) {s : State} (hp : P s) :
    P s.takeDueReport := by
  cases hd : s.dueReport with
  | none => rwa [State.takeDueReport_of_none hd]
  | some e =>
    obtain ⟨⟨rest, hq⟩, hc, -⟩ := State.dueReport_some hd
    rw [State.takeDueReport_of_due hd]
    exact h s e rest hp hq hc

end Sys2Proof.Machine
end

