-- ==== Sys2Proof/Laws/Choice.lean ====
section
/-! SUPPORT. What the arbiter's choice can do, said once: a choice is made of ten kinds of move, and a property that every
kind keeps is kept by a choice (R100). -/

namespace Sys2Proof.Machine

/-- The sched part of a skipped slot (R90). -/
def State.skipSlot (s : State) : State :=
  { s with sched := { s.sched with
      slotCursor := s.sched.slotCursor + 1
      summary := { s.sched.summary with skipped := satInc8 s.sched.summary.skipped } } }

/-- The sched part of a slot that yields a function (R90). -/
def State.yieldSlot (s : State) (f : LineFunction) : State :=
  { s with sched := { s.sched with
      slotCursor := s.sched.slotCursor + 1
      summary := s.sched.summary.countYield f } }

/-- The arbiter's and the scheduler's part of a discovery probe issued (R92). -/
def State.issueProbe (s : State) (a : Nat) : State :=
  { s with
    arbiter := { s.arbiter with probeCursor := a }
    sched := { s.sched with
      probesIssued := s.sched.probesIssued + 1
      summary := { s.sched.summary with probed := satInc8 s.sched.summary.probed } } }

/-- The scheduler can answer with work: it is ACTIVE and no AFTER_SLOT request stands (R87, R97). -/
def State.mayAnswer (s : State) : Prop := s.sched.state = .active ∧ s.sched.stopRequest ≠ .afterSlot

/-- A property kept by every kind of move that a choice is made of. -/
structure ChoiceClosed (P : State → Prop) : Prop where
  grant : ∀ s, P s → s.engine.state = .idle → s.sup.handover = .requested → P s.grant
  broadcast : ∀ s f, P s → s.engine.state = .idle → f = .hold ∨ f = .release → P (s.handBroadcast f)
  own : ∀ s t, P s → s.engine.state = .idle → s.eligibleTicket = some t →
    takeOf t.func (s.entry t.station).state = .own → P (s.putOnLine t)
  resync : ∀ s t, P s → s.engine.state = .idle → s.eligibleTicket = some t →
    takeOf t.func (s.entry t.station).state = .resync → P (s.spendAllowance.handOver t.station .probe .resync [])
  down : ∀ s t, P s → s.engine.state = .idle → s.eligibleTicket = some t →
    P (s.completeTicket t.id (.bare .stationDown 0))
  skip : ∀ s a, P s → s.engine.state = .idle → s.mayAnswer → s.sched.slotCursor < s.sched.cycleList.length →
    s.judgeSlot a = none → P s.skipSlot
  slot : ∀ s a f o, P s → s.engine.state = .idle → s.mayAnswer → s.sched.slotCursor < s.sched.cycleList.length →
    s.judgeSlot a = some (f, o) → P ((s.yieldSlot f).takeOffer (a, f, o))
  enter : ∀ s, P s → s.engine.state = .idle → s.mayAnswer → P s.enterDiscovery
  probe : ∀ s a, P s → s.engine.state = .idle → s.mayAnswer → s.sched.probesIssued ≠ s.sched.probeBudget →
    s.findCandidate = some a → P ((s.issueProbe a).takeOffer (a, .probe, .discovery))
  complete : ∀ s, P s → s.engine.state = .idle → s.mayAnswer → P s.completeCycle

variable {P : State → Prop}

/-- Item 3 of a choice keeps what every move keeps, and leaves the engine IDLE where it does not use the line. -/
theorem ChoiceClosed.ticketItem (h : ChoiceClosed P) (n : Nat) (s : State) (hp : P s) (hi : s.engine.state = .idle) :
    P (State.ticketItem n s).1 ∧ ((State.ticketItem n s).2 = false → (State.ticketItem n s).1.engine.state = .idle) := by
  induction n generalizing s with
  | zero => exact ⟨hp, fun _ => hi⟩
  | succ n ih =>
    simp only [State.ticketItem]
    split
    · exact ⟨hp, fun _ => hi⟩
    · split
      · exact ⟨hp, fun _ => hi⟩
      · rename_i t ht
        split
        · rename_i hk
          exact ⟨h.own s t hp hi ht hk, by simp⟩
        · rename_i hk
          exact ⟨h.resync s t hp hi ht hk, by simp⟩
        · exact ih _ (h.down s t hp hi ht) (by simpa using hi)

/-- Stepping the slots: what it keeps, whether it ends with an exchange or at the list's end (R87, R90). -/
theorem ChoiceClosed.stepSlots (h : ChoiceClosed P) (rest : List Nat) (s : State)
    (hr : rest = s.sched.cycleList.drop s.sched.slotCursor) (hp : P s) (hi : s.engine.state = .idle)
    (ha : s.mayAnswer) :
    (∀ offer, (State.stepSlots rest s).2 = some offer → P ((State.stepSlots rest s).1.takeOffer offer)) ∧
      ((State.stepSlots rest s).2 = none →
        P (State.stepSlots rest s).1 ∧ (State.stepSlots rest s).1.engine.state = .idle ∧
          (State.stepSlots rest s).1.mayAnswer) := by
  induction rest generalizing s with
  | nil => exact ⟨by simp [State.stepSlots], fun _ => ⟨hp, hi, ha⟩⟩
  | cons a rest ih =>
    have hc : s.sched.slotCursor < s.sched.cycleList.length := by
      by_contra hge
      rw [List.drop_eq_nil_of_le (by omega)] at hr
      simp at hr
    have hrest : rest = s.sched.cycleList.drop (s.sched.slotCursor + 1) := by
      rw [← List.drop_drop, ← hr]; rfl
    simp only [State.stepSlots]
    split
    · rename_i hj
      exact ih s.skipSlot hrest (h.skip s a hp hi ha hc hj) hi ha
    · rename_i f o hj
      refine ⟨?_, by simp⟩
      intro offer ho
      simp only [Option.some.injEq] at ho
      subst ho
      exact h.slot s a f o hp hi ha hc hj

/-- A question to the discovery phase (R92). -/
theorem ChoiceClosed.discover (h : ChoiceClosed P) (s : State) (hp : P s) (hi : s.engine.state = .idle)
    (ha : s.mayAnswer) :
    (∀ offer, s.discover.2 = some offer → P (s.discover.1.takeOffer offer)) ∧
      (s.discover.2 = none → P s.discover.1 ∧ s.discover.1.engine.state = .idle ∧ s.discover.1.mayAnswer) := by
  unfold State.discover
  split
  · exact ⟨by simp, fun _ => ⟨hp, hi, ha⟩⟩
  · rename_i hb
    split
    · exact ⟨by simp, fun _ => ⟨hp, hi, ha⟩⟩
    · rename_i a hf
      refine ⟨?_, by simp⟩
      intro offer ho
      simp only [Option.some.injEq] at ho
      subst ho
      exact h.probe s a hp hi ha hb hf

/-- A question within the cycle in progress (R87). -/
theorem ChoiceClosed.stepCycle (h : ChoiceClosed P) (s : State) (hp : P s) (hi : s.engine.state = .idle)
    (ha : s.mayAnswer) :
    (∀ offer, s.stepCycle.2 = some offer → P (s.stepCycle.1.takeOffer offer)) ∧
      (s.stepCycle.2 = none → P s.stepCycle.1 ∧ s.stepCycle.1.engine.state = .idle ∧ s.stepCycle.1.mayAnswer) := by
  unfold State.stepCycle
  split
  · exact h.discover s hp hi ha
  · obtain ⟨h1, h2⟩ := h.stepSlots _ s rfl hp hi ha
    split
    · rename_i s1 offer heq
      rw [heq] at h1
      exact ⟨by simpa using h1, by simp⟩
    · rename_i s1 heq
      rw [heq] at h2
      obtain ⟨p1, i1, a1⟩ := h2 rfl
      exact h.discover _ (h.enter s1 p1 i1 a1) i1 a1

/-- The arbiter's question to the scheduler: it keeps what every move keeps, with the exchange it answers taken. -/
theorem ChoiceClosed.ask (h : ChoiceClosed P) (n : Nat) (s : State) (hp : P s) (hi : s.engine.state = .idle) :
    (∀ offer, (State.ask n s).2 = .take offer → P ((State.ask n s).1.takeOffer offer)) ∧
      ((∀ offer, (State.ask n s).2 ≠ .take offer) → P (State.ask n s).1 ∧ (State.ask n s).1.engine.state = .idle) := by
  induction n generalizing s with
  | zero => exact ⟨by simp [State.ask], fun _ => ⟨hp, hi⟩⟩
  | succ n ih =>
    simp only [State.ask]
    split
    · exact ⟨by simp, fun _ => ⟨hp, hi⟩⟩
    · rename_i hna
      have ha : s.mayAnswer := by simpa [State.mayAnswer, not_or] using hna
      obtain ⟨h1, h2⟩ := h.stepCycle s hp hi ha
      split
      · rename_i s1 offer heq
        rw [heq] at h1
        refine ⟨?_, fun hne => absurd rfl (hne offer)⟩
        intro o ho
        simp only [Answer.take.injEq] at ho
        subst ho
        exact h1 _ rfl
      · rename_i s1 heq
        rw [heq] at h2
        obtain ⟨p1, i1, a1⟩ := h2 rfl
        have p2 := h.complete s1 p1 i1 a1
        have i2 : s1.completeCycle.engine.state = .idle := by simpa using i1
        split
        · exact ih _ p2 i2
        · exact ⟨by simp, fun _ => ⟨p2, i2⟩⟩

/-- Items 3 to 5 of a choice keep what every move keeps. -/
theorem ChoiceClosed.chooseWork (h : ChoiceClosed P) (s : State) (hp : P s) (hi : s.engine.state = .idle) :
    P s.chooseWork := by
  unfold State.chooseWork
  obtain ⟨p1, i1⟩ := h.ticketItem s.ticketTurns s hp hi
  split
  · rename_i s1 heq; rw [heq] at p1; exact p1
  · rename_i s1 heq
    rw [heq] at p1 i1
    obtain ⟨a1, a2⟩ := h.ask 3 s1 p1 (i1 rfl)
    split
    · rename_i s2 offer heq2; rw [heq2] at a1; exact a1 _ rfl
    · rename_i s2 heq2; rw [heq2] at a2; exact (a2 (by simp)).1
    · rename_i s2 heq2
      rw [heq2] at a2
      obtain ⟨p2, i2⟩ := a2 (by simp)
      exact (h.ticketItem _ s2 p2 i2).1

/-- A choice keeps what every move keeps. -/
theorem ChoiceClosed.choice (h : ChoiceClosed P) (s : State) (hp : P s) : P s.arbiterChoice := by
  unfold State.arbiterChoice
  split
  · exact hp
  · rename_i hi
    simp only [ne_eq, not_not] at hi
    split
    · rename_i hh; exact h.grant s hp hi hh
    · split
      · exact h.broadcast s _ hp hi (Or.inl rfl)
      · exact h.broadcast s _ hp hi (Or.inr rfl)
      · exact h.chooseWork s hp hi

/-! ## What a choice leaves alone -/

@[simp] theorem State.capture_frame (s : State) (a : Nat) :
    (s.capture a).1 = { s with image := (s.capture a).1.image } := by
  unfold State.capture
  split
  · unfold State.setAreas; split <;> rfl
  · rfl

/-- A hand-over changes the engine, the receiver and, for an EXCHANGE, the image (R31, R62). -/
theorem State.handOver_frame (s : State) (a : Nat) (f : LineFunction) (o : Origin) (d : List Byte) :
    s.handOver a f o d =
      { s with
        engine := (s.handOver a f o d).engine
        line := { s.line with rx := .off }
        image := (s.handOver a f o d).image } := by
  unfold State.handOver
  split
  · simp only [State.startAttempt]
    rw [State.capture_frame]
  · rfl

/-- The record a hand-over builds (R62): the request data are the output area's bytes for an EXCHANGE, and those handed
over otherwise. -/
theorem State.handOver_engine (s : State) (a : Nat) (f : LineFunction) (o : Origin) (d : List Byte) :
    (s.handOver a f o d).engine =
      { Engine.empty .sending with record := some (s.buildRecord a f o (if f = .exchange then (s.capture a).2 else d)) } := by
  unfold State.handOver
  split
  · rename_i hf
    simp only [State.startAttempt_engine]
    rw [State.capture_frame]
    rfl
  · rfl

@[simp] theorem State.handOver_rx (s : State) (a : Nat) (f : LineFunction) (o : Origin) (d : List Byte) :
    (s.handOver a f o d).line.rx = .off := by rw [State.handOver_frame]

@[simp] theorem State.handOver_sup (s : State) (a : Nat) (f : LineFunction) (o : Origin) (d : List Byte) :
    (s.handOver a f o d).sup = s.sup := by rw [State.handOver_frame]

@[simp] theorem State.handOver_lreq (s : State) (a : Nat) (f : LineFunction) (o : Origin) (d : List Byte) :
    (s.handOver a f o d).lreq = s.lreq := by rw [State.handOver_frame]

@[simp] theorem State.handOver_stations (s : State) (a : Nat) (f : LineFunction) (o : Origin) (d : List Byte) :
    (s.handOver a f o d).stations = s.stations := by rw [State.handOver_frame]

@[simp] theorem State.handOver_sched (s : State) (a : Nat) (f : LineFunction) (o : Origin) (d : List Byte) :
    (s.handOver a f o d).sched = s.sched := by rw [State.handOver_frame]

@[simp] theorem State.handOver_arbiter (s : State) (a : Nat) (f : LineFunction) (o : Origin) (d : List Byte) :
    (s.handOver a f o d).arbiter = s.arbiter := by rw [State.handOver_frame]

@[simp] theorem State.handOver_host (s : State) (a : Nat) (f : LineFunction) (o : Origin) (d : List Byte) :
    (s.handOver a f o d).host = s.host := by rw [State.handOver_frame]

@[simp] theorem State.handOver_reports (s : State) (a : Nat) (f : LineFunction) (o : Origin) (d : List Byte) :
    (s.handOver a f o d).reports = s.reports := by rw [State.handOver_frame]

@[simp] theorem State.handOver_tickets (s : State) (a : Nat) (f : LineFunction) (o : Origin) (d : List Byte) :
    (s.handOver a f o d).tickets = s.tickets := by rw [State.handOver_frame]

/-- What no choice changes: the queue of events, LREQ, the station table, the host link but for its transmitter, the free values
and the line settings and statistics. -/
def SameAside (s t : State) : Prop :=
  t.pending = s.pending ∧ t.lreq = s.lreq ∧ t.stations = s.stations ∧
    { t.host with tx := .free } = { s.host with tx := .free } ∧ t.freeDraws = s.freeDraws ∧
    t.line.rateIndex = s.line.rateIndex ∧ t.line.replyTimeout = s.line.replyTimeout ∧
    t.line.retryCount = s.line.retryCount ∧ t.line.stats = s.line.stats ∧ t.sup.hold = s.sup.hold ∧
    t.sup.holdTime = s.sup.holdTime ∧ t.sup.holdTimer = s.sup.holdTimer ∧ t.sup.handoverLimit = s.sup.handoverLimit

theorem SameAside.handOver {s0 s : State} (h : SameAside s0 s) (a : Nat) (f : LineFunction) (o : Origin)
    (d : List Byte) : SameAside s0 (s.handOver a f o d) := by
  rw [State.handOver_frame]
  exact h

theorem State.spendAllowance_frame (s : State) :
    s.spendAllowance = { s with arbiter := s.spendAllowance.arbiter } := by
  unfold State.spendAllowance; split <;> rfl

/-- A choice leaves aside what `SameAside` names. -/
theorem sameAside_closed (s0 : State) : ChoiceClosed (SameAside s0) where
  grant := fun s h _ _ => h
  broadcast := fun s f h _ _ => by
    unfold State.handBroadcast
    exact SameAside.handOver h 0 f .broadcast []
  own := fun s t h _ _ _ => by
    unfold State.putOnLine
    apply SameAside.handOver
    rw [State.spendAllowance_frame]
    exact h
  resync := fun s t h _ _ _ => by
    apply SameAside.handOver
    rw [State.spendAllowance_frame]
    exact h
  down := fun s t h _ _ => by
    rw [State.completeTicket_frame]
    exact h
  skip := fun s a h _ _ _ _ => h
  slot := fun s a f o h _ _ _ _ => by
    unfold State.takeOffer
    apply SameAside.handOver
    exact h
  enter := fun s h _ _ => h
  probe := fun s a h _ _ _ _ => by
    unfold State.takeOffer
    apply SameAside.handOver
    exact h
  complete := fun s h _ _ => h

/-- A choice leaves aside what `SameAside` names. -/
theorem State.arbiterChoice_sameAside (s : State) : SameAside s s.arbiterChoice :=
  (sameAside_closed s).choice s (by unfold SameAside; simp)

/-- A choice changes nothing of the host link but the transmitter, which may take reports that become due (R141). -/
theorem State.arbiterChoice_host (s : State) :
    { s.arbiterChoice.host with tx := .free } = { s.host with tx := .free } := (State.arbiterChoice_sameAside s).2.2.2.1

@[simp] theorem State.arbiterChoice_processor (s : State) : s.arbiterChoice.host.processor = s.host.processor := by
  have h := congrArg HostLink.processor s.arbiterChoice_host
  exact h

@[simp] theorem State.arbiterChoice_response (s : State) : s.arbiterChoice.host.response = s.host.response := by
  have h := congrArg HostLink.response s.arbiterChoice_host
  exact h

@[simp] theorem State.arbiterChoice_inbound (s : State) : s.arbiterChoice.host.inbound = s.host.inbound := by
  have h := congrArg HostLink.inbound s.arbiterChoice_host
  exact h

@[simp] theorem State.arbiterChoice_restart (s : State) : s.arbiterChoice.host.restart = s.host.restart := by
  have h := congrArg HostLink.restart s.arbiterChoice_host
  exact h

@[simp] theorem State.arbiterChoice_stations (s : State) : s.arbiterChoice.stations = s.stations :=
  (State.arbiterChoice_sameAside s).2.2.1

@[simp] theorem State.arbiterChoice_pending (s : State) : s.arbiterChoice.pending = s.pending :=
  (State.arbiterChoice_sameAside s).1

@[simp] theorem State.arbiterChoice_lreq (s : State) : s.arbiterChoice.lreq = s.lreq :=
  (State.arbiterChoice_sameAside s).2.1

@[simp] theorem State.arbiterChoice_freeDraws (s : State) : s.arbiterChoice.freeDraws = s.freeDraws :=
  (State.arbiterChoice_sameAside s).2.2.2.2.1

@[simp] theorem State.arbiterChoice_isHeld (s : State) : s.arbiterChoice.isHeld = s.isHeld := by
  have := (State.arbiterChoice_sameAside s).2.2.2.2.2.2.2.2.2.1
  unfold State.isHeld; rw [this]

/-- While a command is being decided no choice changes the host link: the transmitter makes none (R141). -/
theorem State.arbiterChoice_host_of_deciding {s : State} (h : s.host.processor ≠ .idle) :
    s.arbiterChoice.host = s.host := by
  have place : ∀ (t : State) (r : ReportRequest), t.host = s.host → (t.place r).host = s.host := by
    intro t r ht
    rw [State.place_of_none (State.dueReport_of_deciding (by rw [ht]; exact h))]
    exact ht
  have closed : ChoiceClosed (fun t => t.host = s.host) :=
    { grant := fun t ht _ _ => place t.lendLine _ ht
      broadcast := fun t f ht _ _ => by unfold State.handBroadcast; exact (State.handOver_host ..).trans ht
      own := fun t u ht _ _ _ => by
        unfold State.putOnLine
        rw [State.handOver_host, State.spendAllowance_frame]
        exact ht
      resync := fun t u ht _ _ _ => by
        rw [State.handOver_host, State.spendAllowance_frame]
        exact ht
      down := fun t u ht _ _ => by
        unfold State.completeTicket TicketTable.complete State.placeAll
        split
        · exact ht
        · split
          · exact ht
          · exact place { t with tickets := _ } _ ht
      skip := fun t a ht _ _ _ _ => ht
      slot := fun t a f o ht _ _ _ _ => by unfold State.takeOffer; exact (State.handOver_host ..).trans ht
      enter := fun t ht _ _ => ht
      probe := fun t a ht _ _ _ _ => by unfold State.takeOffer; exact (State.handOver_host ..).trans ht
      complete := fun t ht _ _ => place t (.cycleDone t.sched.summary) ht }
  exact closed.choice s rfl

/-- A choice is none while the engine is not IDLE (R100). -/
theorem State.arbiterChoice_of_not_idle {s : State} (h : s.engine.state ≠ .idle) : s.arbiterChoice = s := by
  unfold State.arbiterChoice; rw [if_pos h]

end Sys2Proof.Machine
end

