-- ==== Sys2Proof/Laws/Commands.lean ====
section
/-! SUPPORT. What the taking of a message can do (R138, R139), and the outcome of a guarded event. -/

namespace Sys2Proof.Machine

/-- Everything the taking of a message can do: if it answers a next state, there was a message at the head with a TYPE of
its own and a free command processor, and the message was either refused BAD_LENGTH or decided by the owning block, with
the response placed at the end. -/
theorem takeHead_next {α : Type} {mine : Byte → Bool} {parse : List Byte → Option α}
    {decide : α → State → State × Reply} {s t : State} (h : takeHead mine parse decide s = .next t) :
    ∃ m rest, s.host.inbound = m :: rest ∧ mine m.type = true ∧ s.processorFree = true ∧
      ((parse m.payload = none ∧ t = (s.beginCommand m).placeResponse m (.refuse .badLength)) ∨
        ∃ f, parse m.payload = some f ∧
          t = (decide f (s.beginCommand m)).1.placeResponse m (decide f (s.beginCommand m)).2) := by
  unfold takeHead at h
  split at h
  · simp at h
  · rename_i m rest hin
    split at h
    · simp at h
    · rename_i hm
      split at h
      · simp at h
      · split at h
        · simp at h
        · rename_i hf
          refine ⟨m, rest, hin, by simpa using hm, by simpa using hf, ?_⟩
          split at h
          · rename_i hp
            exact Or.inl ⟨hp, by simpa using h.symm⟩
          · rename_i f hp
            exact Or.inr ⟨f, hp, by simpa using h.symm⟩

/-- A free processor decides no command. -/
theorem State.processor_of_free {s : State} (h : s.processorFree = true) : s.host.processor = .idle := by
  unfold State.processorFree at h
  simp only [Bool.and_eq_true, beq_iff_eq] at h
  exact h.1.1

/-- The taking of a message with a readable payload answers a next state. -/
theorem takeCommand_of_parse {α : Type} {mine : Byte → Bool} {parse : List Byte → Option α}
    {decide : α → State → State × Reply} {s : State} {m : Message} {rest : List Message} {f : α}
    (hin : s.host.inbound = m :: rest) (hm : mine m.type = true) (hf : s.processorFree = true)
    (hd : s.dueReport = none) (hp : parse m.payload = some f) :
    takeCommand mine parse decide s =
      .next ((decide f (s.beginCommand m)).1.placeResponse m (decide f (s.beginCommand m)).2) := by
  unfold takeCommand takeHead
  rw [State.takeDueReport_of_none hd]
  simp [hin, hm, hf, hp, State.processor_of_free hf]

/-- The taking of a message with an unreadable payload is answered BAD_LENGTH. -/
theorem takeCommand_of_badLength {α : Type} {mine : Byte → Bool} {parse : List Byte → Option α}
    {decide : α → State → State × Reply} {s : State} {m : Message} {rest : List Message}
    (hin : s.host.inbound = m :: rest) (hm : mine m.type = true) (hf : s.processorFree = true)
    (hd : s.dueReport = none) (hp : parse m.payload = none) :
    takeCommand mine parse decide s = .next ((s.beginCommand m).placeResponse m (.refuse .badLength)) := by
  unfold takeCommand takeHead
  rw [State.takeDueReport_of_none hd]
  simp [hin, hm, hf, hp, State.processor_of_free hf]

/-- A property of the state without the host link is kept by a command if the owning block's event keeps it. -/
theorem takeHead_keeps {P : State → Prop} (hhost : ∀ s h, P s → P { s with host := h }) {α : Type}
    {mine : Byte → Bool} {parse : List Byte → Option α} {decide : α → State → State × Reply}
    (hdec : ∀ m f s, parse m = some f → P s → P (decide f s).1) {s t : State}
    (h : takeHead mine parse decide s = .next t) (hp : P s) : P t := by
  obtain ⟨m, rest, -, -, -, hcase⟩ := takeHead_next h
  rcases hcase with ⟨-, rfl⟩ | ⟨f, hf, rfl⟩
  · exact hhost _ _ (hhost _ _ hp)
  · exact hhost _ _ (hdec _ f _ hf (hhost _ _ hp))

/-- A guarded event answers a next state exactly where its guard holds. -/
theorem guarded_next {possible : Bool} {fault : Fault} {n t : State} (h : guarded possible fault n = .next t) :
    possible = true ∧ t = n := by
  unfold guarded at h
  split at h
  · rename_i hp; simp at h; exact ⟨hp, h.symm⟩
  · simp at h

/-- A guarded event whose guard holds answers its next state. -/
theorem guarded_of {possible : Bool} {fault : Fault} {n : State} (h : possible = true) :
    guarded possible fault n = .next n := by
  unfold guarded; rw [if_pos h]

end Sys2Proof.Machine
end

