-- ==== Sys2Proof/Laws/Exec.lean ====
section
/-! SUPPORT. What a command can do, said once: a property that every effect below keeps is kept by every command. -/

namespace Sys2Proof.Machine

/-- A property kept by every effect a command can have on the state. -/
structure ExecClosed (P : State → Prop) : Prop where
  choice : ∀ s, P s → P s.arbiterChoice
  host : ∀ s h, P s → P { s with host := h }
  lineSetup : ∀ s rate timeout retries, P s → s.sched.state = .stopped → s.engine.state.inExchange = false →
    rate ≤ 7 ∧ 2 ≤ timeout ∧ timeout ≤ 250 ∧ retries ≤ 3 →
    P { s with line := { s.line with rateIndex := rate, replyTimeout := timeout, retryCount := retries } }
  clearLine : ∀ s, P s → P { s with line := { s.line with stats := .zero } }
  draw : ∀ s n, P s → P { s with freeDraws := n }
  define : ∀ s f p, P s → s.checkDefine f = .ok p → P (s.define f.address p)
  remove : ∀ s a, P s → validAddress a = true → s.isDefined a = true → P (s.remove a)
  clearCounters : ∀ s a, P s → validAddress a = true → P (s.clearCounters a)
  installList : ∀ s l, P s → s.sched.state = .stopped → l.length ≤ Config.cycleListCapacity →
    (∀ a ∈ l, validAddress a = true) → P { s with sched := { s.sched with cycleList := l, pendingList := none } }
  pendList : ∀ s l, P s → l.length ≤ Config.cycleListCapacity → (∀ a ∈ l, validAddress a = true) →
    P { s with sched := { s.sched with pendingList := some l } }
  beginCycling : ∀ s mode f, P s → f.inRange = true → s.sched.pendingList.getD s.sched.cycleList ≠ [] →
    P (s.beginCycling mode f)
  stopAfterSlot : ∀ s, P s → P s.stopAfterSlot
  stopAfterCycle : ∀ s, P s → P s.stopAfterCycle
  applyItems : ∀ s items, P s → items.findSome? s.itemFault = none → P (s.applyItems items)
  placeTicket : ∀ s f fn pr, P s → s.checkSubmit f = .ok (fn, pr) → P (s.placeTicket (s.newTicket f fn pr))
  cancelTicket : ∀ s id t, P s → s.tickets.find id = some t → t.state = .queued →
    P (s.completeTicket id (.bare .cancelled 0))
  credit : ∀ s n, P s → n ≤ Config.creditLimit → P { s with reports := { s.reports with credit := n } }
  takeReport : ∀ s e rest, P s → s.reports.queue = e :: rest → s.reports.credit ≠ 0 → P (s.takeReport e)
  holdSetup : ∀ s time limit timer, P s →
    P { s with sup := { s.sup with holdTime := time, handoverLimit := limit, holdTimer := timer } }
  restartHoldTimer : ∀ s, P s → P s.restartHoldTimer
  endHold : ∀ s, P s → s.isHeld = true → P s.endHold
  enterHold : ∀ s, P s → P s.enterHold
  limitExpires : ∀ s, P s → P s.limitExpires
  lreqAsserted : ∀ s, P s → s.lreq = false →
    P { s with lreq := true, sup := if s.sup.handover = .none then { s.sup with handover := .requested } else s.sup }
  lreqNegated : ∀ s, P s → s.lreq = true → s.sup.handover ≠ .granted →
    P { s with lreq := false, sup := { s.sup with handover := .none } }
  returnLine : ∀ s order, P s → s.lreq = true → s.sup.handover = .granted → P (s.returnLine order)
  initialised : ∀ s strap, P s → P (s.initialised strap).followLreq
  warm : ∀ s, P s → P s.warmRestart
  startBit : ∀ s b, P s → s.line.rx ≠ .off → P (s.startBit b)
  char : ∀ s rx c, P s → s.line.rx ≠ .off → rx ≠ .off → P ((s.setLineRx rx).deliverChar c)
  frameEnds : ∀ s r, P s → s.engine.state = .sending → s.engine.record = some r → P (s.frameEnds r)
  noReply : ∀ s, P s → s.engine.state = .awaiting → P (s.classifyAttempt .noReply)
  gap : ∀ s, P s → s.engine.state = .receiving → P (s.classifyAttempt .broken)
  quiet : ∀ s order, P s → s.engine.state.isGuard = true → P (s.guardEnds order)
  jam : ∀ s order, P s → s.engine.state.isGuard = true → s.engine.jamTimer.isSome = true → P (s.lineJams order)
  period : ∀ s, P s → s.sched.periodTimer.isSome = true → P s.periodExpires

variable {P : State → Prop}

/-- The taking of a report that is due keeps the property. -/
theorem ExecClosed.due (h : ExecClosed P) {s : State} (hp : P s) : P s.takeDueReport :=
  State.takeDueReport_keeps h.takeReport hp

/-- A choice after placements keeps the property. -/
theorem ExecClosed.choose (h : ExecClosed P) {s : State} (hp : P s) : P s.choose := h.choice _ (h.due hp)

/-- A message whose owning block's event keeps the property keeps it. -/
theorem ExecClosed.command (h : ExecClosed P) {α : Type} {mine : Byte → Bool} {parse : List Byte → Option α}
    {decide : α → State → State × Reply} (hdec : ∀ m f s, parse m = some f → P s → P (decide f s).1) {s t : State}
    (ht : takeCommand mine parse decide s = .next t) (hp : P s) : P t :=
  takeHead_keeps h.host hdec ht (h.due hp)

/-- One block read keeps the property. -/
theorem ExecClosed.readOne (h : ExecClosed P) (k : ReadKind) (b : ReadBlock) {s : State} (hp : P s) :
    P (s.readOne k b) := by
  refine h.host _ _ ?_
  unfold State.clearRead
  split
  · exact h.clearLine _ hp
  · split
    · exact h.host _ _ hp
    · exact hp

/-- The reading of the blocks left keeps the property. -/
theorem ExecClosed.readRest (h : ExecClosed P) (k : ReadKind) {s : State} (hp : P s) : P (s.readRest k).1 := by
  unfold State.readRest
  dsimp only
  generalize k.left s.host.processor.reads = l
  induction l generalizing s with
  | nil => exact hp
  | cons b l ih => exact ih (h.readOne k b hp)

/-- The end of a HELLO or STATUS that is being decided keeps the property. -/
theorem ExecClosed.finishReading (h : ExecClosed P) {s t : State} {type : Byte} (ht : s.finishReading type = some t)
    (hp : P s) : P t := by
  unfold State.finishReading at ht
  split at ht
  · cases ht
  · split at ht
    · simp only [Option.map_eq_some_iff] at ht
      obtain ⟨k, -, rfl⟩ := ht
      exact h.host _ _ (h.readRest k hp)
    · cases ht

/-- What the block does of itself keeps the property. -/
theorem ExecClosed.tick (h : ExecClosed P) {s : State} (hp : P s) : P s.tick := by
  have hd := h.due hp
  unfold State.tick State.processorTurn State.beginReading
  split
  · split
    · exact hd
    · split
      · exact h.host _ _ hd
      · exact hd
  · split
    · rename_i k _
      unfold State.readNext
      dsimp only
      split
      · exact h.draw _ _ (h.readOne k _ hd)
      · exact h.host _ _ hd
    · exact hd

/-- The check of a complete message keeps the property. -/
theorem ExecClosed.checkMessage (h : ExecClosed P) (len : Byte) (got : List Byte) (lo hi : Byte) (s : State) (hp : P s) :
    P (s.checkMessage len got lo hi) := by
  have hunt : P s.hostRxHunt := h.host s _ hp
  unfold State.checkMessage
  split
  · unfold State.acceptMessage
    have h1 := h.restartHoldTimer _ hunt
    have h2 : ∀ f, P (s.hostRxHunt.restartHoldTimer.countLink f) := fun f => h.host _ _ h1
    dsimp only
    split
    · exact h.host _ _ (h2 _)
    · exact h.host _ _ (h2 _)
  · exact h.host _ _ hunt

/-- Every operation on bytes received keeps the property. -/
theorem ExecClosed.hostByte (h : ExecClosed P) (b : Byte) (stopBit : Bool) (s : State) (hp : P s) :
    P (s.hostByte b stopBit) := by
  unfold State.hostByte
  split
  · have take : ∀ u : State, P u → P (u.takeHostByte b) := by
      intro u hu
      have on : ∀ rx, P (u.hostRxOn rx) := fun rx => h.host u _ hu
      have count : ∀ f, P (u.hostRxHunt.countLink f) := fun f => h.host _ _ (h.host u _ hu)
      unfold State.takeHostByte
      split
      · split
        · exact on _
        · exact count _
      · split
        · exact on _
        · exact count _
      · split
        · exact on _
        · exact on _
      · exact on _
      · exact h.checkMessage _ _ _ _ u hu
    exact take _ (h.host s _ hp)
  · split
    · exact hp
    · exact h.host _ _ (h.host _ _ (h.host s _ hp))

/-- A negation of LREQ, before any choice, keeps the property. -/
theorem ExecClosed.negateLreq (h : ExecClosed P) {s : State} (order : List ReportSource) (hp : P s) (hl : s.lreq = true) :
    P (s.negateLreq order) := by
  unfold State.negateLreq
  split
  · rename_i hh
    have := h.lreqNegated _ hp hl (by rw [hh]; simp)
    have he : ({ s.sup with handover := .none } : Supervision) = s.sup := by rw [← hh]
    rwa [he] at this
  · rename_i hh
    exact h.lreqNegated _ hp hl (by rw [hh]; simp)
  · rename_i hh
    exact h.returnLine _ _ hp hl hh

/-- The rows whose choice an event can precede. -/
def Instr.leadsToIdle : Instr → Prop
  | .quietTimerExpiry _ | .lreqNegated _ => True
  | _ => False

/-- A property that every effect keeps is kept by every command whose choice no event can precede. -/
theorem ExecClosed.plain (h : ExecClosed P) {c : Instr} {s t : State} (hc : ¬Instr.leadsToIdle c)
    (ht : Machine.exec c s = .next t) (hp : P s) : P t := by
  have hd := h.due hp
  cases c <;> simp only [Machine.exec] at ht
  case hello =>
    unfold execHello at ht
    split at ht
    · rename_i hf
      cases ht
      exact h.finishReading hf hp
    · exact h.command (fun _ _ _ _ hp => h.readRest _ hp) ht hp
  case lineSetup =>
    refine h.command (fun _ _ s _ hp => ?_) ht hp
    unfold State.lineSetup
    split
    · exact hp
    · rename_i hr
      split
      · exact hp
      · rename_i hw
        simp only [not_or, ne_eq, not_not, Bool.not_eq_true, not_lt] at hw hr
        exact h.lineSetup _ _ _ _ hp hw.1 hw.2 hr
  case status =>
    unfold execStatus at ht
    split at ht
    · rename_i hf
      cases ht
      exact h.finishReading hf hp
    · refine h.command (fun _ _ s _ hp => ?_) ht hp
      unfold State.status
      split
      · exact hp
      · exact h.readRest _ hp
  case stationDefine =>
    refine h.command (fun _ f s _ hp => ?_) ht hp
    unfold State.stationDefine
    split
    · exact hp
    · rename_i hc; exact h.define _ _ _ hp hc
  case stationRemove =>
    refine h.command (fun _ f s _ hp => ?_) ht hp
    unfold State.stationRemove
    split
    · exact hp
    · rename_i hv
      split
      · exact hp
      · rename_i hd; exact h.remove _ _ hp (by simpa using hv) (by simpa using hd)
  case stationQuery =>
    refine h.command (fun _ f s _ hp => ?_) ht hp
    unfold State.stationQuery
    split
    · exact hp
    · split
      · exact hp
      · rename_i hv
        dsimp only
        split
        · exact h.clearCounters _ _ hp (by simpa using hv)
        · exact hp
  case cycleSet =>
    refine h.command (fun _ l s _ hp => ?_) ht hp
    unfold State.cycleSet
    split
    · exact hp
    · rename_i hv
      simp only [not_or, not_lt, Bool.not_eq_true, List.any_eq_false, Bool.not_eq_true'] at hv
      have hall : ∀ a ∈ l, validAddress a = true := fun a ha => by simpa using hv.2 a ha
      split
      · rename_i hs; exact h.installList _ _ hp hs hv.1 hall
      · exact h.pendList _ _ hp hv.1 hall
  case cycleStart =>
    refine h.command (fun _ f s _ hp => ?_) ht hp
    unfold State.cycleStart
    split
    · exact hp
    · split
      · exact hp
      · rename_i hr
        split
        · exact hp
        · rename_i hl
          exact h.choice _ (h.beginCycling _ _ _ hp (by simpa using hr) hl)
  case cycleStop =>
    refine h.command (fun _ f s _ hp => ?_) ht hp
    unfold State.cycleStop
    split
    · exact hp
    · split
      · exact hp
      · dsimp only
        have key : ∀ (u : State) b, P u → P (u.choiceAfterStop b) := by
          intro u b hu
          unfold State.choiceAfterStop
          split
          · exact h.choice _ hu
          · exact hu
        apply key
        split
        · exact h.stopAfterSlot _ hp
        · exact h.stopAfterCycle _ hp
  case cycleQuery =>
    refine h.command (fun _ _ s _ hp => ?_) ht hp
    unfold State.cycleQuery; split <;> exact hp
  case imageWrite =>
    refine h.command (fun _ f s _ hp => ?_) ht hp
    unfold State.imageWrite
    split
    · exact hp
    · rename_i hf; exact h.applyItems _ _ hp hf
  case imageRead =>
    refine h.command (fun _ _ s _ hp => ?_) ht hp
    unfold State.imageRead; split <;> exact hp
  case submit =>
    refine h.command (fun _ f s _ hp => ?_) ht hp
    unfold State.submit
    split
    · exact hp
    · rename_i hc; exact h.choice _ (h.placeTicket _ _ _ _ hp hc)
  case cancel =>
    refine h.command (fun _ f s _ hp => ?_) ht hp
    unfold State.cancel
    split
    · exact hp
    · rename_i t hf
      split
      · rename_i hq
        dsimp only
        unfold State.choiceIfUnblocked
        split
        · exact h.choice _ (h.cancelTicket _ _ _ hp hf hq)
        · exact h.cancelTicket _ _ _ hp hf hq
      · exact hp
      · exact hp
  case ticketQuery =>
    refine h.command (fun _ _ s _ hp => ?_) ht hp
    unfold State.ticketQuery; split <;> exact hp
  case credit =>
    refine h.command (fun _ f s _ hp => ?_) ht hp
    unfold State.addCredit
    split
    · exact hp
    · exact h.credit _ _ hp (Nat.min_le_right _ _)
  case holdSetup =>
    refine h.command (fun _ f s _ hp => ?_) ht hp
    unfold State.holdSetup
    split
    · exact hp
    · exact h.holdSetup _ _ _ _ hp
  case resume =>
    refine h.command (fun _ f s _ hp => ?_) ht hp
    unfold State.resume
    split
    · rename_i hh; exact h.choice _ (h.endHold _ hp hh)
    · exact hp
  case restart =>
    refine h.command (fun _ f s _ hp => ?_) ht hp
    unfold State.arrangeRestart
    split
    · exact hp
    · exact h.host _ _ hp
  case badType => exact h.command (fun _ _ _ _ hp => hp) ht hp
  case hostByteReceived b stop =>
    cases ht
    exact h.hostByte b stop _ hd
  case hrxdStartBit => cases ht; exact h.host _ _ hd
  case hostGapTimeout => obtain ⟨-, rfl⟩ := guarded_next ht; exact h.host _ _ (h.host _ _ hd)
  case responseTaken =>
    unfold execResponseTaken State.takeResponse at ht
    split at ht
    · cases ht
    · split at ht <;> cases ht
      exact h.host _ _ hd
  case reportTaken =>
    unfold execReportTaken at ht
    split at ht
    · cases ht
    · split at ht
      · cases ht
      · rename_i e he
        cases ht
        obtain ⟨⟨rest, hq⟩, hc, -⟩ := State.dueReport_some he
        exact h.takeReport _ _ rest hp hq hc
  case transmitEnd =>
    obtain ⟨-, rfl⟩ := guarded_next ht
    unfold State.transmitEnds
    split
    · exact hd
    · exact h.host _ _ hd
    · exact h.host _ _ hd
  case restartTakesEffect crcByte =>
    unfold execRestartTakesEffect at ht
    split at ht
    · cases ht
    · rename_i level _
      have hr : P (s.takeRestart level) := by
        cases level
        · exact h.warm _ hp
        · exact h.host _ _ (h.initialised _ _ hp)
      split at ht
      · unfold State.restartWith at ht
        split at ht
        · cases ht; exact hr
        · split at ht <;> cases ht
          exact h.checkMessage _ _ _ _ _ hr
      · cases ht
  case pinReset a b => cases ht; exact h.initialised _ _ hp
  case startDetected b =>
    cases ht
    split
    · rename_i he
      refine h.startBit _ _ hd ?_
      intro hoff
      rw [hoff] at he
      cases he
    · exact hd
  case characterDelivered sm =>
    unfold execCharacterDelivered State.finishChar at ht
    split at ht <;> cases ht
    · rename_i hrx
      refine h.char _ _ _ hd (by rw [hrx]; simp) ?_
      unfold LineRx.afterChar
      split <;> simp
    · exact hd
  case lowLineBrokenCharacter =>
    unfold execLowLineBrokenCharacter State.lowLine at ht
    split at ht <;> cases ht
    · rename_i hrx
      exact h.char _ _ _ hd (by rw [hrx]; simp) (by simp)
    · rename_i hrx
      exact h.char _ _ _ hd (by rw [hrx]; simp) (by simp)
    · exact hd
  case frameSent =>
    unfold execFrameSent State.endFrame at ht
    split at ht <;> cases ht
    rename_i h1 h2
    exact h.frameEnds _ _ hd h1 h2
  case replyTimeoutExpiry =>
    obtain ⟨hg, rfl⟩ := guarded_next ht
    simp only [Bool.and_eq_true, beq_iff_eq] at hg
    exact h.noReply _ hd hg.1
  case gapTimerExpiry =>
    obtain ⟨hg, rfl⟩ := guarded_next ht
    simp only [Bool.and_eq_true, beq_iff_eq] at hg
    exact h.gap _ hd hg.1
  case quietTimerExpiry => exact absurd trivial hc
  case jamTimerExpiry o =>
    obtain ⟨hg, rfl⟩ := guarded_next ht
    simp only [Bool.and_eq_true] at hg
    exact h.jam _ _ hd hg.1 hg.2
  case periodTimerExpiry =>
    obtain ⟨hg, rfl⟩ := guarded_next ht
    exact h.period _ hd hg
  case holdTimerExpiry =>
    obtain ⟨-, rfl⟩ := guarded_next ht
    exact h.choose (h.enterHold _ hd)
  case lreqAsserted =>
    obtain ⟨hg, rfl⟩ := guarded_next ht
    unfold State.assertLreq
    exact h.choice _ (h.lreqAsserted _ hd (by simpa using hg))
  case lreqNegated => exact absurd trivial hc
  case limitTimerExpiry =>
    obtain ⟨-, rfl⟩ := guarded_next ht
    exact h.limitExpires _ hd

/-- The taking of the message at the head is one of the commands, or the refusal of its TYPE (R138). -/
theorem State.takeMessage_eq (s : State) :
    s.takeMessage = .fault .noMessageWaiting ∨ ∃ c, ¬Instr.leadsToIdle c ∧ s.takeMessage = Machine.exec c s := by
  unfold State.takeMessage
  split
  · exact Or.inl rfl
  · right
    split
    · rename_i row hrow
      have hm := List.mem_of_find?_eq_some hrow
      simp only [commandMeanings, List.mem_cons, List.not_mem_nil, or_false] at hm
      rcases hm with rfl | rfl | rfl | rfl | rfl | rfl | rfl | rfl | rfl | rfl | rfl | rfl | rfl | rfl | rfl | rfl | rfl |
        rfl | rfl
      exacts [⟨.hello, id, rfl⟩, ⟨.lineSetup, id, rfl⟩, ⟨.status, id, rfl⟩, ⟨.stationDefine, id, rfl⟩,
        ⟨.stationRemove, id, rfl⟩, ⟨.stationQuery, id, rfl⟩, ⟨.cycleSet, id, rfl⟩, ⟨.cycleStart, id, rfl⟩,
        ⟨.cycleStop, id, rfl⟩, ⟨.cycleQuery, id, rfl⟩, ⟨.imageWrite, id, rfl⟩, ⟨.imageRead, id, rfl⟩, ⟨.submit, id, rfl⟩,
        ⟨.cancel, id, rfl⟩, ⟨.ticketQuery, id, rfl⟩, ⟨.credit, id, rfl⟩, ⟨.holdSetup, id, rfl⟩, ⟨.resume, id, rfl⟩,
        ⟨.restart, id, rfl⟩]
    · exact ⟨.badType, id, rfl⟩

/-- The event before a choice keeps the property. -/
theorem ExecClosed.beforeChoice (h : ExecClosed P) {s t : State} {b : BeforeChoice} (ht : s.beforeChoice b = .next t)
    (hp : P s) : P t := by
  cases b with
  | nothing => cases ht; exact hp
  | lreqAsserted => exact h.plain (c := .lreqAsserted) id ht hp
  | holdTimerExpiry => exact h.plain (c := .holdTimerExpiry) id ht hp
  | command =>
    change s.takeMessage = .next t at ht
    rcases s.takeMessage_eq with h1 | ⟨c, hc, h1⟩
    · rw [h1] at ht; cases ht
    · exact h.plain hc (h1.symm.trans ht) hp

/-- The choice that follows an outcome keeps the property. -/
theorem ExecClosed.thenChoose (h : ExecClosed P) {o : Host.Outcome State Fault Refusal} {t : State}
    (ht : Machine.thenChoose o = .next t) (ho : ∀ u, o = .next u → P u) : P t := by
  unfold Machine.thenChoose at ht
  split at ht <;> cases ht
  exact h.choose (ho _ rfl)

/-- A property that every effect keeps is kept by every command. -/
theorem ExecClosed.exec (h : ExecClosed P) {c : Instr} {s t : State} (ht : Machine.exec c s = .next t) (hp : P s) :
    P t := by
  by_cases hc : Instr.leadsToIdle c
  · have hd := h.due hp
    cases c <;> simp only [Instr.leadsToIdle] at hc
    case quietTimerExpiry o =>
      change execQuietTimerExpiry o s = .next t at ht
      unfold execQuietTimerExpiry State.quietExpiry at ht
      split at ht
      · rename_i hg
        simp only [Bool.and_eq_true] at hg
        have hq := h.quiet _ o.reports hd hg.1
        unfold State.quietExpires at ht
        dsimp only at ht
        split at ht
        · exact h.thenChoose ht (fun u hu => h.beforeChoice hu hq)
        · split at ht <;> cases ht
          exact hq
      · cases ht
    case lreqNegated o =>
      change execLreqNegated o s = .next t at ht
      unfold execLreqNegated State.lreqFalls at ht
      split at ht
      · rename_i hl
        have hn := h.negateLreq o.reports hd hl
        unfold State.releaseLreq at ht
        dsimp only at ht
        split at ht
        · exact h.thenChoose ht (fun u hu => h.beforeChoice hu hn)
        · exact h.beforeChoice ht hn
      · cases ht
  · exact h.plain hc ht hp

/-- A property that the queue of events does not touch and that every effect keeps is kept by every step. -/
theorem ExecClosed.step (h : ExecClosed P) (hpend : ∀ s q, P s → P { s with pending := q }) {s t : State}
    (ht : Machine.step s = .next t) (hp : P s) : P t := by
  unfold Machine.step at ht
  split at ht
  · cases ht; exact h.tick hp
  · exact h.exec ht (hpend _ _ hp)

end Sys2Proof.Machine
end

