-- ==== Sys2Proof/Laws/Reports.lean ====
section
/-! SUPPORT. The report unit: what a request does to the queue (R121, R122), and that the laws of the queue are kept. -/

namespace Sys2Proof.Machine

/-- An entry a request merges with is a notice, stays a notice, and still concerns the same thing. -/
theorem ReportEntry.merge_some {e e' : ReportEntry} {r : ReportRequest} (h : e.merge r = some e') :
    e.isNotice = true ∧ e'.isNotice = true ∧ r.isCompletion = false ∧
      (∀ f : ReportEntry, e'.sameThing f = e.sameThing f ∧ f.sameThing e' = f.sameThing e) := by
  cases e <;> cases r <;> simp only [ReportEntry.merge, reduceCtorEq] at h
  case inputChange.inputChange a b =>
    split at h <;> cases h
    exact ⟨rfl, rfl, rfl, fun f => ⟨rfl, rfl⟩⟩
  case stationState.stationState a f n b g =>
    split at h <;> cases h
    exact ⟨rfl, rfl, rfl, fun f => ⟨by cases f <;> rfl, by cases f <;> rfl⟩⟩
  case cycleDone.cycleDone =>
    cases h
    exact ⟨rfl, rfl, rfl, fun f => ⟨by cases f <;> rfl, by cases f <;> rfl⟩⟩
  case lineFault.lineFault =>
    cases h
    exact ⟨rfl, rfl, rfl, fun f => ⟨by cases f <;> rfl, by cases f <;> rfl⟩⟩
  case supervision.supervision h' g l c =>
    cases c <;> cases h <;> exact ⟨rfl, rfl, rfl, fun f => ⟨by cases f <;> rfl, by cases f <;> rfl⟩⟩

/-- A request that does not merge with an entry makes an entry for another thing. -/
theorem ReportEntry.merge_none {e : ReportEntry} {r : ReportRequest} (h : e.merge r = none) :
    e.sameThing r.newEntry = false := by
  cases r
  case supervision c =>
    cases e <;> cases c <;> first | rfl | cases h
  all_goals
    cases e <;> first | rfl | cases h | skip
  all_goals
    simp only [ReportEntry.merge] at h
    split at h <;> rename_i hne
    · cases h
    · simpa [ReportRequest.newEntry, sameThing] using hne

/-- The contents of the completion entries of a queue with one entry more at its head. -/
theorem completions_cons (e : ReportEntry) (q : List ReportEntry) :
    completions (e :: q) = (match e with | .demandDone d => [d] | _ => []) ++ completions q := by
  cases e <;> simp [completions]

theorem completions_append (q q' : List ReportEntry) : completions (q ++ q') = completions q ++ completions q' := by
  simp [completions]

/-- A notice holds no completion. -/
theorem completions_notice {e : ReportEntry} (h : e.isNotice = true) (q : List ReportEntry) :
    completions (e :: q) = completions q := by
  cases e <;> simp_all [completions, ReportEntry.isNotice]

/-- Merging changes one notice in place: the queue keeps its length, its notices, its completions, and the things its
entries concern. -/
theorem mergeInto_some {q q' : List ReportEntry} {r : ReportRequest} (h : mergeInto q r = some q') :
    r.isCompletion = false ∧ q'.length = q.length ∧ q'.countP ReportEntry.isNotice = q.countP ReportEntry.isNotice ∧
      completions q' = completions q ∧ List.Forall₂ (fun e' e => ∀ f : ReportEntry, e'.sameThing f = e.sameThing f ∧
        f.sameThing e' = f.sameThing e) q' q := by
  induction q generalizing q' with
  | nil => simp [mergeInto] at h
  | cons e es ih =>
    simp only [mergeInto] at h
    split at h
    · rename_i e' he
      obtain ⟨hn, hn', hc, hl⟩ := ReportEntry.merge_some he
      simp only [Option.some.injEq] at h
      subst h
      refine ⟨hc, rfl, by simp [hn, hn'], ?_, ?_⟩
      · rw [completions_notice hn, completions_notice hn']
      · exact List.Forall₂.cons hl (List.forall₂_same.2 fun _ _ _ => ⟨rfl, rfl⟩)
    · simp only [Option.map_eq_some_iff] at h
      obtain ⟨es', hes, rfl⟩ := h
      obtain ⟨hc, hlen, hcount, hcomp, hall⟩ := ih hes
      refine ⟨hc, by simp [hlen], by simp [List.countP_cons, hcount], ?_, ?_⟩
      · rw [completions_cons, completions_cons, hcomp]
      · exact List.Forall₂.cons (fun f => ⟨rfl, rfl⟩) hall

/-- Where nothing merges, the new entry concerns what no waiting entry concerns. -/
theorem mergeInto_none {q : List ReportEntry} {r : ReportRequest} (h : mergeInto q r = none) :
    ∀ e ∈ q, e.sameThing r.newEntry = false := by
  induction q with
  | nil => simp
  | cons e es ih =>
    simp only [mergeInto] at h
    split at h
    · simp at h
    · rename_i he
      simp only [Option.map_eq_none_iff] at h
      intro x hx
      rcases List.mem_cons.1 hx with rfl | hx
      · exact ReportEntry.merge_none he
      · exact ih h x hx

/-- The class of a new entry is that of its request (R120). -/
theorem ReportRequest.newEntry_isNotice (r : ReportRequest) : r.newEntry.isNotice = !r.isCompletion := by
  cases r <;> simp [newEntry, ReportEntry.isNotice, isCompletion]
  rename_i c; cases c <;> rfl

/-- Pairwise distinctness carries over a merge. -/
theorem pairwise_sameThing_of_forall₂ {q q' : List ReportEntry}
    (h : List.Forall₂ (fun e' e => ∀ f : ReportEntry, e'.sameThing f = e.sameThing f ∧ f.sameThing e' = f.sameThing e) q' q)
    (hp : q.Pairwise (fun e f => e.sameThing f = false)) : q'.Pairwise (fun e f => e.sameThing f = false) := by
  induction h with
  | nil => simp
  | @cons e' e es' es he hes ih =>
    rw [List.pairwise_cons] at hp ⊢
    refine ⟨?_, ih hp.2⟩
    have key : ∀ (l' l : List ReportEntry), List.Forall₂ (fun e' e => ∀ f : ReportEntry, e'.sameThing f = e.sameThing f ∧
        f.sameThing e' = f.sameThing e) l' l → (∀ x ∈ l, e.sameThing x = false) → ∀ x ∈ l', e.sameThing x = false := by
      intro l' l hl
      induction hl with
      | nil => simp
      | @cons b' b bs' bs hb _ ihl =>
        intro hx x hm
        rcases List.mem_cons.1 hm with rfl | hm
        · rw [(hb e).2]; exact hx b List.mem_cons_self
        · exact ihl (fun y hy => hx y (List.mem_cons_of_mem _ hy)) x hm
    intro x hx
    rw [(he x).1]
    exact key es' es hes hp.1 x hx

/-- The part of the report law that is about a report unit. -/
def ReportUnit.Law (u : ReportUnit) : Prop :=
  u.notices ≤ Config.noticePlaces ∧ u.queue.Pairwise (fun e f => e.sameThing f = false)

/-- Everything a request does to the report unit (R121, R122): it keeps the law, touches neither credit nor sequence, adds
its contents to the completions if it is one, and otherwise leaves them. -/
theorem ReportUnit.place_spec (u : ReportUnit) (r : ReportRequest) :
    (u.Law → (u.place r).Law) ∧ (u.place r).credit = u.credit ∧ (u.place r).sequence = u.sequence ∧
      completions (u.place r).queue = completions u.queue ++ (match r with | .demandDone d => [d] | _ => []) := by
  unfold ReportUnit.place
  split
  · rename_i q hq
    obtain ⟨hc, -, hcount, hcomp, hall⟩ := mergeInto_some hq
    refine ⟨fun h => ⟨by simpa [ReportUnit.notices, hcount] using h.1, pairwise_sameThing_of_forall₂ hall h.2⟩, rfl, rfl, ?_⟩
    cases r <;> simp_all [ReportRequest.isCompletion]
  · rename_i hq
    have hnone := mergeInto_none hq
    split
    · rename_i hplace
      refine ⟨fun h => ⟨?_, ?_⟩, rfl, rfl, ?_⟩
      · have := h.1
        simp only [ReportUnit.notices, List.countP_append, List.countP_singleton, ReportRequest.newEntry_isNotice] at *
        cases hc : r.isCompletion
        · rw [hc] at hplace
          have hlt := of_decide_eq_true ((Bool.false_or _).symm.trans hplace)
          simpa using hlt
        · simpa using this
      · rw [List.pairwise_append]
        exact ⟨h.2, by simp, fun e he f hf => by rw [List.mem_singleton.1 hf]; exact hnone e he⟩
      · rw [completions_append]
        cases r <;> simp [completions, ReportRequest.newEntry]
        rename_i c; cases c <;> rfl
    · rename_i hfull
      refine ⟨fun h => h, rfl, rfl, ?_⟩
      cases r <;> simp_all [ReportRequest.isCompletion]

/-- The completion contents among requests. -/
def completionRequests (rs : List ReportRequest) : List DemandDone :=
  rs.filterMap (fun r =>
    match r with
    | .demandDone d => some d
    | _ => none)

/-- Everything a run of requests does to the report unit. -/
theorem ReportUnit.placeAll_spec (u : ReportUnit) (rs : List ReportRequest) :
    (u.Law → (rs.foldl ReportUnit.place u).Law) ∧ (rs.foldl ReportUnit.place u).credit = u.credit ∧
      (rs.foldl ReportUnit.place u).sequence = u.sequence ∧
      completions (rs.foldl ReportUnit.place u).queue = completions u.queue ++ completionRequests rs := by
  induction rs generalizing u with
  | nil => simp [completionRequests]
  | cons r rs ih =>
    obtain ⟨h1, h2, h3, h4⟩ := u.place_spec r
    obtain ⟨i1, i2, i3, i4⟩ := ih (u.place r)
    refine ⟨fun h => i1 (h1 h), by simpa [h2] using i2, by simpa [h3] using i3, ?_⟩
    simp only [List.foldl_cons, i4, h4, List.append_assoc, completionRequests]
    cases r <;> simp

/-- A station's notices dropped (R129) leave the law and the completions. -/
theorem ReportUnit.dropStation_spec (u : ReportUnit) (a : Nat) :
    (u.Law → (u.dropStation a).Law) ∧ (u.dropStation a).credit = u.credit ∧
      completions (u.dropStation a).queue = completions u.queue := by
  refine ⟨fun h => ⟨le_trans ?_ h.1, h.2.filter _⟩, rfl, ?_⟩
  · exact List.Sublist.countP_le (p := ReportEntry.isNotice) List.filter_sublist
  · simp only [ReportUnit.dropStation, completions, List.filterMap_filter]
    congr 1
    funext e
    cases e <;> simp [ReportEntry.isStationNotice]

/-- The order of report requests is a rearrangement of them. -/
theorem interleave_perm (order : List ReportSource) (reqs : List TaggedRequest) :
    (interleave order reqs).Perm (reqs.map Prod.snd) := by
  induction order generalizing reqs with
  | nil => exact List.Perm.refl _
  | cons src order ih =>
    simp only [interleave]
    split
    · rename_i r hr
      have hsome := hr
      rw [List.find?_eq_some_iff_append] at hr
      obtain ⟨hp, as, bs, hreq, hnot⟩ := hr
      have herase : reqs.eraseP (fun r => r.1 == src) = as ++ bs := by
        rw [hreq, List.eraseP_append_right _ (by simpa using hnot)]
        simp [hp]
      rw [herase]
      refine (List.Perm.cons _ (ih _)).trans ?_
      rw [hreq]
      simp only [List.map_append, List.map_cons]
      exact List.perm_middle.symm
    · exact ih reqs

/-- Completion contents do not depend on the order of requests. -/
theorem completionRequests_perm {rs rs' : List ReportRequest} (h : rs.Perm rs') :
    (completionRequests rs).Perm (completionRequests rs') := h.filterMap _

end Sys2Proof.Machine
end

