-- ==== Sys2Proof/Laws/Placing.lean ====
section
/-! SUPPORT. What each operation does to the report unit: nearly all of them only place requests (R121, R122). -/

namespace Sys2Proof.Machine

/-- From the first state to the second, the report unit took some requests, had some of its entries taken for sending, and
nothing else happened to it: whatever those two keep has been kept (R121, R131, R141). -/
def Placed (s t : State) : Prop :=
  ∀ Q : ReportUnit → Prop, (∀ u r, Q u → Q (u.place r)) → (∀ u, u.queue ≠ [] → u.credit ≠ 0 → Q u → Q u.taken) →
    Q s.reports → Q t.reports

theorem Placed.refl (s : State) : Placed s s := fun _ _ _ h => h

theorem Placed.of_eq {s t : State} (h : t.reports = s.reports) : Placed s t := fun _ _ _ hq => by rw [h]; exact hq

theorem Placed.trans {s t u : State} (h : Placed s t) (k : Placed t u) : Placed s u :=
  fun Q hp ht hq => k Q hp ht (h Q hp ht hq)

theorem State.takeReport_placed {s : State} {e : ReportEntry} {rest : List ReportEntry} (hq : s.reports.queue = e :: rest)
    (hc : s.reports.credit ≠ 0) : Placed s (s.takeReport e) :=
  fun _ _ ht h => ht _ (by rw [hq]; simp) hc h

theorem State.takeDueReport_placed (s : State) : Placed s s.takeDueReport :=
  State.takeDueReport_keeps (P := Placed s) (fun _ _ _ h hq hc => h.trans (State.takeReport_placed hq hc)) (.refl s)

theorem State.place_placed (s : State) (r : ReportRequest) : Placed s (s.place r) :=
  s.takeDueReport_placed.trans (fun _ hp _ h => hp _ r h)

theorem State.placeAll_placed (s : State) (rs : List ReportRequest) : Placed s (s.placeAll rs) := by
  unfold State.placeAll
  induction rs generalizing s with
  | nil => exact .refl s
  | cons r rs ih => exact (s.place_placed r).trans (ih _)

/-- Requests taken in a state with the report unit of another. -/
theorem Placed.placeAll {s t : State} (h : t.reports = s.reports) (rs : List ReportRequest) : Placed s (t.placeAll rs) :=
  (Placed.of_eq h).trans (t.placeAll_placed rs)

/-- What only places requests does so in any state with the same report unit. -/
theorem Placed.congr {s t u : State} (h : Placed s t) (hr : u.reports = t.reports) : Placed s u := h.trans (.of_eq hr)

theorem State.completeTicket_placed (s : State) (id : Byte) (res : TicketResult) : Placed s (s.completeTicket id res) :=
  Placed.trans (.of_eq rfl) (State.placeAll_placed { s with tickets := (s.tickets.complete id res).1 } _)

theorem placed_closed (s0 : State) : ChoiceClosed (Placed s0) where
  grant := fun s h _ _ => h.trans (s.lendLine.place_placed _)
  broadcast := fun s f h _ _ => h.trans (.of_eq (by unfold State.handBroadcast; exact State.handOver_reports ..))
  own := fun s t h _ _ _ => h.trans (.of_eq (by
    unfold State.putOnLine; rw [State.handOver_reports]; simp))
  resync := fun s t h _ _ _ => h.trans (.of_eq (by rw [State.handOver_reports]; simp))
  down := fun s t h _ _ => h.trans (s.completeTicket_placed _ _)
  skip := fun s a h _ _ _ _ => h
  slot := fun s a f o h _ _ _ _ => h.trans (.of_eq (by unfold State.takeOffer; rw [State.handOver_reports]; rfl))
  enter := fun s h _ _ => h
  probe := fun s a h _ _ _ _ => h.trans (.of_eq (by unfold State.takeOffer; rw [State.handOver_reports]; rfl))
  complete := fun s h _ _ => h.trans (s.place_placed _)

/-- A choice only places requests. -/
theorem State.arbiterChoice_placed (s : State) : Placed s s.arbiterChoice :=
  (placed_closed s).choice s (.refl s)

theorem State.guardedChoice_placed {s t : State} (h : Placed s t) : Placed s t.arbiterChoice :=
  h.trans t.arbiterChoice_placed

theorem State.withdrawTickets_placed (s : State) (a : Nat) : Placed s (s.withdrawTickets a) := by
  unfold State.withdrawTickets
  generalize s.tickets.queuedOf a = ids
  induction ids generalizing s with
  | nil => exact .refl s
  | cons id ids ih => exact (s.completeTicket_placed id _).trans (ih _)

theorem State.abandonCycle_placed (s : State) : Placed s s.abandonCycle := by
  unfold State.abandonCycle
  split <;> split
  · exact s.place_placed _
  · exact s.place_placed _
  · exact .of_eq rfl
  · exact .refl s

theorem State.stopAfterSlot_placed (s : State) : Placed s s.stopAfterSlot := by
  unfold State.stopAfterSlot
  split
  · exact .refl s
  · exact .of_eq rfl
  · split
    · exact .of_eq rfl
    · exact s.place_placed _

theorem State.stopAfterCycle_placed (s : State) : Placed s s.stopAfterCycle := by
  unfold State.stopAfterCycle
  split
  · exact .refl s
  · exact .of_eq rfl
  · split
    · exact .refl s
    · exact .of_eq rfl

/-! ## The end of an exchange leaves the report unit to the caller -/

@[simp] theorem State.tableTakes_reports (s : State) (a : Nat) (o : OutcomeRecord) :
    (s.tableTakes a o).1.reports = s.reports := by
  unfold State.tableTakes; dsimp only; split <;> simp

@[simp] theorem State.imageTakes_reports (s : State) (a : Nat) (f : LineFunction) (o : AttemptOutcome) (b : List Byte) :
    (s.imageTakes a f o b).1.reports = s.reports := by
  unfold State.imageTakes; split <;> simp

@[simp] theorem State.ticketTakes_reports (s : State) (id : Byte) (res : TicketResult) :
    (s.ticketTakes id res).1.reports = s.reports := rfl

@[simp] theorem State.slotEnded_reports (s : State) : s.slotEnded.1.reports = s.reports := rfl

@[simp] theorem State.deliverEnd_reports (s : State) (r : ExchangeRecord) (o : AttemptOutcome) :
    (s.deliverEnd r o).1.reports = s.reports := by
  unfold State.deliverEnd State.deliverDiscarded State.deliverOutcome
  dsimp only
  split
  · rfl
  · split
    · split <;> simp
    · split <;> simp

@[simp] theorem State.concludeExchange_reports (s : State) (r : ExchangeRecord) (o : AttemptOutcome) :
    (s.concludeExchange r o).1.reports = s.reports := by
  simp [State.concludeExchange]

theorem State.guardEnds_placed (s : State) (order : List ReportSource) : Placed s (s.guardEnds order) := by
  unfold State.guardEnds
  split
  · exact .of_eq rfl
  · split
    · exact .of_eq rfl
    · unfold State.endExchange
      dsimp only
      exact (Placed.placeAll (State.concludeExchange_reports ..) _).congr (State.becomeIdle_reports _)

theorem State.lineJams_placed (s : State) (order : List ReportSource) : Placed s (s.lineJams order) := by
  unfold State.lineJams
  dsimp only
  split
  · exact .of_eq rfl
  · rename_i r _
    have h := Placed.placeAll (s := s) (t := ((s.countLine (fun st => { st with jams := satInc st.jams })).concludeExchange
      r.jammed .broken).1) (State.concludeExchange_reports ..)
    exact h _

theorem State.returnLine_placed (s : State) (order : List ReportSource) : Placed s (s.returnLine order) := by
  unfold State.returnLine
  refine Placed.placeAll ?_ _
  rfl

theorem State.periodExpires_placed (s : State) : Placed s s.periodExpires := by
  unfold State.periodExpires
  split
  · exact .of_eq rfl
  · exact .of_eq rfl
  · dsimp only
    split
    · exact State.guardedChoice_placed (.of_eq rfl)
    · exact .of_eq rfl

end Sys2Proof.Machine
end

