-- ==== Sys2Proof/Laws/Line.lean ====
section
/-! SUPPORT. The engine and the receiver: what a classification, a delivered character and the end of an exchange do and
leave alone (R66 to R78). -/

namespace Sys2Proof.Machine

/-- A complete reply is classified; beside that, at most a free value is drawn (R67). -/
theorem State.classifyReply_eq (s : State) (r : ExchangeRecord) :
    ∃ n, s.classifyReply r = State.classifyAttempt { s with freeDraws := n }
      (r.judge (lengthSuits r.func (s.entry r.station).profile (Config.absentProfileSuits s.freeDraws)
        (r.replyByte 2).toNat)) := by
  unfold State.classifyReply
  dsimp only
  split
  · exact ⟨_, rfl⟩
  · exact ⟨s.freeDraws, rfl⟩

/-- LTXD idles high (R42). -/
theorem State.ltxd_of_lde_false {s : State} (h : s.lde = false) (k : Nat) : s.ltxd k = true := by
  simp [State.ltxd, h]

/-- HTXD idles high (R133). -/
theorem State.htxd_of_free {s : State} (h : s.host.tx = .free) (k : Nat) : s.htxd k = true := by
  simp [State.htxd, State.htxdBits, h, Transmitter.frame]

/-- The state with a character appended to the reply in assembly and the gap timer as given. -/
def State.withReplyChar (s : State) (r : ExchangeRecord) (c : RxChar) (gap : Option Nat) : State :=
  { s with engine := { s.engine with record := some (r.append c), gapTimer := gap } }

/-- Everything a character delivered in RECEIVING can do (R66). -/
theorem State.receiveChar_eq {s : State} {r : ExchangeRecord} (hr : s.engine.record = some r) (c : RxChar) :
    s.receiveChar c = s.withReplyChar r c (some Config.gapLimitCT) ∨
      ∃ n o, s.receiveChar c = State.classifyAttempt { s.withReplyChar r c none with freeDraws := n } o ∧
        (o = .good → (r.append c).replyComplete = true ∧
          (r.append c).judge (lengthSuits r.func (s.entry r.station).profile (Config.absentProfileSuits s.freeDraws)
            ((r.append c).replyByte 2).toNat) = .good) := by
  unfold State.receiveChar
  rw [hr]
  dsimp only
  split
  · exact Or.inr ⟨s.freeDraws, .broken, rfl, by simp⟩
  · split
    · rename_i hc
      right
      obtain ⟨n, hn⟩ := State.classifyReply_eq (s.withReplyChar r c none) (r.append c)
      exact ⟨n, _, hn, fun ho => ⟨hc, ho⟩⟩
    · exact Or.inl rfl

/-- A classification changes the statistics, the record's outcome and counts, and enters GUARD (R68). -/
theorem State.classifyAttempt_engine (s : State) (o : AttemptOutcome) :
    (s.classifyAttempt o).engine =
      { state := .guard o.guardKind, record := s.engine.record.map (fun r => r.classified o), replyTimer := none,
        gapTimer := none, quietTimer := some o.guardKind.length, jamTimer := some Config.jamLimitCT } := rfl

@[simp] theorem State.classifyAttempt_rx (s : State) (o : AttemptOutcome) :
    (s.classifyAttempt o).line.rx = s.line.rx := rfl

/-! ## What the end of an exchange leaves alone -/

theorem State.tableTakes_frame (s : State) (a : Nat) (o : OutcomeRecord) :
    (s.tableTakes a o).1 =
      { s with stations := (s.tableTakes a o).1.stations, image := (s.tableTakes a o).1.image } := by
  unfold State.tableTakes State.markStale State.setEntry State.setAreas
  dsimp only
  split <;> split <;> rfl

theorem State.imageTakes_frame (s : State) (a : Nat) (f : LineFunction) (o : AttemptOutcome) (b : List Byte) :
    (s.imageTakes a f o b).1 = { s with image := (s.imageTakes a f o b).1.image } := by
  unfold State.imageTakes State.setAreas
  split
  · rfl
  · dsimp only; split <;> rfl

/-- The deliveries change the station table, the image, the ticket table and the scheduler's summary alone (R74). -/
theorem State.deliverEnd_frame (s : State) (r : ExchangeRecord) (o : AttemptOutcome) :
    (s.deliverEnd r o).1 =
      { s with
        stations := (s.deliverEnd r o).1.stations
        image := (s.deliverEnd r o).1.image
        tickets := (s.deliverEnd r o).1.tickets
        sched := (s.deliverEnd r o).1.sched } := by
  unfold State.deliverEnd State.deliverDiscarded State.deliverOutcome State.ticketTakes
  dsimp only
  split
  · rfl
  · split
    · split <;> rfl
    · rw [State.imageTakes_frame, State.tableTakes_frame]
      split <;> first | rfl | rw [State.tableTakes_frame]

/-- The end of an exchange leaves alone the line, the engine, the arbiter, the report unit, the host link and the
supervision unit (R74, R87). -/
theorem State.concludeExchange_frame (s : State) (r : ExchangeRecord) (o : AttemptOutcome) :
    (s.concludeExchange r o).1 =
      { s with
        stations := (s.concludeExchange r o).1.stations
        image := (s.concludeExchange r o).1.image
        tickets := (s.concludeExchange r o).1.tickets
        sched := (s.concludeExchange r o).1.sched } := by
  unfold State.concludeExchange State.slotEnded
  dsimp only
  rw [State.deliverEnd_frame]

@[simp] theorem State.concludeExchange_engine (s : State) (r : ExchangeRecord) (o : AttemptOutcome) :
    (s.concludeExchange r o).1.engine = s.engine := by rw [State.concludeExchange_frame]

@[simp] theorem State.concludeExchange_line (s : State) (r : ExchangeRecord) (o : AttemptOutcome) :
    (s.concludeExchange r o).1.line = s.line := by rw [State.concludeExchange_frame]

@[simp] theorem State.concludeExchange_sup (s : State) (r : ExchangeRecord) (o : AttemptOutcome) :
    (s.concludeExchange r o).1.sup = s.sup := by rw [State.concludeExchange_frame]

@[simp] theorem State.concludeExchange_lreq (s : State) (r : ExchangeRecord) (o : AttemptOutcome) :
    (s.concludeExchange r o).1.lreq = s.lreq := by rw [State.concludeExchange_frame]

@[simp] theorem State.concludeExchange_host (s : State) (r : ExchangeRecord) (o : AttemptOutcome) :
    (s.concludeExchange r o).1.host = s.host := by rw [State.concludeExchange_frame]

@[simp] theorem State.concludeExchange_arbiter (s : State) (r : ExchangeRecord) (o : AttemptOutcome) :
    (s.concludeExchange r o).1.arbiter = s.arbiter := by rw [State.concludeExchange_frame]

/-- Withdrawing tickets changes the ticket table, the report unit and the transmitter alone (R19). -/
theorem State.withdrawTickets_frame (s : State) (a : Nat) :
    s.withdrawTickets a =
      { s with
        tickets := (s.withdrawTickets a).tickets
        reports := (s.withdrawTickets a).reports
        host := { s.host with tx := (s.withdrawTickets a).host.tx } } := by
  unfold State.withdrawTickets
  generalize s.tickets.queuedOf a = ids
  induction ids generalizing s with
  | nil => rfl
  | cons id ids ih => rw [List.foldl_cons, ih, State.completeTicket_frame]

/-- IMAGE_WRITE changes the image alone (R35). -/
theorem State.applyItems_frame (s : State) (items : List WriteItem) :
    s.applyItems items = { s with image := (s.applyItems items).image } := by
  have set : ∀ (t : State) a ar, t.setAreas a ar = { t with image := (t.setAreas a ar).image } := by
    intro t a ar; unfold State.setAreas; split <;> rfl
  have h1 : ∀ (ws : List WriteItem) (t : State),
      ws.foldl State.writeItem t = { t with image := (ws.foldl State.writeItem t).image } := by
    intro ws
    induction ws with
    | nil => intro t; rfl
    | cons w ws ih => intro t; rw [List.foldl_cons, ih]; unfold State.writeItem; rw [set]
  have h2 : ∀ (as : List Nat) (t : State), as.foldl State.touch t = { t with image := (as.foldl State.touch t).image } := by
    intro as
    induction as with
    | nil => intro t; rfl
    | cons a as ih => intro t; rw [List.foldl_cons, ih]; unfold State.touch; rw [set]
  unfold State.applyItems
  rw [h2, h1]

/-- A define changes the entry, the areas, the discard flag and the station's notices alone (R16, R17). -/
theorem State.define_frame (s : State) (a : Nat) (p : Profile) :
    s.define a p =
      { s with
        stations := (s.setEntry a (.defined p)).stations
        image := (s.setAreas a (some p.freshAreas)).image
        engine := (s.discardExchange a).engine
        reports := if s.isDefined a then s.reports.dropStation a else s.reports } := by
  unfold State.define State.discardExchange State.setEntry State.setAreas State.dropNotices
  dsimp only
  split <;> split <;> rfl

/-- A remove changes the entry, the areas, the discard flag, the station's notices and its tickets alone, and, where reports
become due, the transmitter (R18, R19). -/
theorem State.remove_frame (s : State) (a : Nat) :
    s.remove a =
      { s with
        stations := (s.setEntry a .unused).stations
        image := (s.setAreas a none).image
        engine := (s.discardExchange a).engine
        tickets := (s.remove a).tickets
        reports := (s.remove a).reports
        host := { s.host with tx := (s.remove a).host.tx } } := by
  unfold State.remove
  rw [State.withdrawTickets_frame]
  unfold State.discardExchange State.setEntry State.setAreas State.dropNotices
  split <;> rfl

/-- An abandoned cycle changes the report unit and the slot-abandoned marker alone, and, where a report is due, what its taking
changes (R89). -/
theorem State.abandonCycle_frame (s : State) :
    s.abandonCycle =
      { s with
        tickets := s.abandonCycle.tickets
        reports := s.abandonCycle.reports
        host := { s.host with tx := s.abandonCycle.host.tx }
        sched := { s.sched with slotAbandoned := s.abandonCycle.sched.slotAbandoned } } := by
  unfold State.abandonCycle
  dsimp only
  split <;> split <;> rfl

/-! ## The end of a guard -/

/-- A record in its last attempt, or with a flag that forbids a retry, makes no further attempt (R69). -/
theorem ExchangeRecord.mayRetry_of_last {r : ExchangeRecord} {o : AttemptOutcome} (ho : r.lastOutcome = some o)
    (h : o = .noReply ∨ o = .broken ∨ o = .wrongStation →
      r.attempt = r.attemptLimit ∨ r.discard = true ∨ r.noRetry = true) : r.mayRetry = false := by
  unfold ExchangeRecord.mayRetry
  rw [ho]
  cases o <;> simp_all [AttemptOutcome.allowsRetry]
  all_goals rcases h with h | h | h <;> simp [h]

/-- A guard that ends with no retry to come ends its exchange (R71, R74): the deliveries, the reports, IDLE. -/
theorem State.guardEnds_of_last {s : State} {r : ExchangeRecord} {o : AttemptOutcome} (hr : s.engine.record = some r)
    (ho : r.lastOutcome = some o) (hm : r.mayRetry = false) (order : List ReportSource) :
    s.guardEnds order =
      ((s.concludeExchange r o).1.placeAll (interleave order (s.concludeExchange r o).2)).becomeIdle := by
  unfold State.guardEnds
  rw [hr]
  simp only [hm, ho, Option.getD_some, Bool.false_eq_true, and_false, if_false]
  rfl

end Sys2Proof.Machine
end

