-- ==== Sys2Proof/Laws/LineLaw.lean ====
section
/-! SUPPORT. The law of the engine, the receiver and the handover (section 4.2, R44, R61, R155 to R158) over each operation
that touches them. -/

namespace Sys2Proof.Machine

/-- The law reads the engine, the receiver, the handover state and LREQ. -/
theorem LineLaw.congr {s t : State} (h : LineLaw s) (h1 : t.engine = s.engine) (h2 : t.line.rx = s.line.rx)
    (h3 : t.sup.handover = s.sup.handover) (h4 : t.lreq = s.lreq) : LineLaw t := by
  unfold LineLaw
  rw [h1, h2, h3, h4]
  exact h

/-- An IDLE engine holds no record (R61, R63). -/
theorem LineLaw.record_of_idle {s : State} (h : LineLaw s) (hs : s.engine.state = .idle) : s.engine.record = none := by
  have := h.1
  unfold EngineLaw at this
  rw [hs] at this
  rw [this]
  rfl

/-- A RELEASED engine holds no record (R61, R82). -/
theorem LineLaw.record_of_released {s : State} (h : LineLaw s) (hs : s.engine.state = .released) :
    s.engine.record = none := by
  have := h.1
  unfold EngineLaw at this
  rw [hs] at this
  rw [this]
  rfl

/-- An attempt that begins keeps the law (R62, R69). -/
theorem LineLaw.sending {s t : State} (h : LineLaw s) (hs : s.engine.state ≠ .released) (r : ExchangeRecord)
    (hr : r.lastOutcome.all AttemptOutcome.allowsRetry = true)
    (h1 : t.engine = { Engine.empty .sending with record := some r }) (h2 : t.line.rx = .off)
    (h3 : t.sup.handover = s.sup.handover) (h4 : t.lreq = s.lreq) : LineLaw t := by
  obtain ⟨-, -, c, d⟩ := h
  refine ⟨?_, ?_, ?_, ?_⟩
  · rw [h1]; exact ⟨⟨r, rfl, hr⟩, rfl, rfl, rfl, rfl⟩
  · rw [h1, h2]; simp [Engine.empty]
  · rw [h1, h3, ← c]; simp [Engine.empty, hs]
  · rw [h3, h4]; exact d

/-- A hand-over to an IDLE engine keeps the law (R62). -/
theorem LineLaw.handOver {s s0 : State} (h0 : LineLaw s0) (hs : s0.engine.state = .idle) (a : Nat) (f : LineFunction)
    (o : Origin) (d : List Byte) (h3 : s.sup.handover = s0.sup.handover) (h4 : s.lreq = s0.lreq) :
    LineLaw (s.handOver a f o d) :=
  LineLaw.sending h0 (by rw [hs]; simp) _ (by rfl) (State.handOver_engine ..) (by simp) (by simpa using h3)
    (by simpa using h4)

/-- A choice keeps the law (R100, R156). -/
theorem lineLaw_closed : ChoiceClosed LineLaw where
  grant := fun s h hi hh => by
    obtain ⟨a, b, c, d⟩ := h
    refine ⟨?_, ?_, ?_, ?_⟩
    · rfl
    · simp [State.grant, Engine.empty, State.lendLine]
    · simp [State.grant, Engine.empty, State.lendLine]
    · simp only [State.grant, State.lendLine, State.place_lreq, State.place_sup]
      rw [d, hh]
      simp
  broadcast := fun s f h hi _ => by
    unfold State.handBroadcast
    dsimp only
    exact LineLaw.congr (LineLaw.handOver h hi 0 f .broadcast [] rfl rfl) rfl rfl rfl rfl
  own := fun s t h hi _ _ => LineLaw.handOver h hi _ _ _ _ (by simp) (by simp)
  resync := fun s t h hi _ _ => LineLaw.handOver h hi _ _ _ _ (by simp) (by simp)
  down := fun s t h _ _ => by
    rw [State.completeTicket_frame]
    exact h
  skip := fun s a h _ _ _ _ => h
  slot := fun s a f o h hi _ _ _ => LineLaw.handOver h hi _ _ _ _ rfl rfl
  enter := fun s h _ _ => h
  probe := fun s a h hi _ _ _ => LineLaw.handOver h hi _ _ _ _ rfl rfl
  complete := fun s h _ _ => h

theorem LineLaw.choice {s : State} (h : LineLaw s) : LineLaw s.arbiterChoice := lineLaw_closed.choice s h

/-- The engine IDLE with the line not lent (R63, R158). -/
theorem LineLaw.idle {s : State} (h1 : s.engine = .empty .idle) (h2 : s.line.rx ≠ .off)
    (h3 : s.sup.handover ≠ .granted) (h4 : s.lreq = true ↔ s.sup.handover ≠ .none) : LineLaw s := by
  refine ⟨?_, ?_, ?_, h4⟩
  · rw [h1]; rfl
  · rw [h1]; simp [Engine.empty, h2]
  · rw [h1]; simp [Engine.empty, h3]

/-- A guard entered or gone on with (R68, R70, R72). -/
theorem LineLaw.guard {s t : State} (h : LineLaw s) (hs : s.line.rx ≠ .off) (k : GuardKind)
    (h1 : t.engine.state = .guard k) (hr : t.engine.replyTimer = none) (hg : t.engine.gapTimer = none)
    (hj : t.engine.record = none → t.engine.jamTimer = none) (h2 : t.line.rx ≠ .off)
    (h3 : t.sup.handover = s.sup.handover) (h4 : t.lreq = s.lreq) : LineLaw t := by
  obtain ⟨-, b, c, d⟩ := h
  have hn : s.engine.state ≠ .released := fun h => hs (b.2 (Or.inr h))
  refine ⟨?_, ?_, ?_, ?_⟩
  · unfold EngineLaw; rw [h1]; exact ⟨hr, hg, hj⟩
  · rw [h1]; simp [h2]
  · rw [h1, h3, ← c]; simp [hn]
  · rw [h3, h4]; exact d

/-- A classification keeps the law (R68). -/
theorem LineLaw.classify {s : State} (h : LineLaw s) (hs : s.line.rx ≠ .off) (o : AttemptOutcome)
    (hr : s.engine.record ≠ none) : LineLaw (s.classifyAttempt o) := by
  refine LineLaw.guard h hs o.guardKind rfl rfl rfl ?_ hs rfl rfl
  intro hn
  simp only [State.classifyAttempt_engine, Option.map_eq_none_iff] at hn
  exact absurd hn hr

/-- The handover state follows LREQ after a reset (R84, R161). -/
theorem State.followLreq_lineLaw {s : State} (h1 : s.engine = .empty .idle) (h2 : s.line.rx ≠ .off)
    (h3 : s.sup.handover = .none) : LineLaw s.followLreq := by
  unfold State.followLreq
  split
  · rename_i hl
    refine ⟨rfl, ?_, ?_, ?_⟩
    · simp [State.lendLine, Engine.empty]
    · simp [State.lendLine, Engine.empty]
    · simp [State.lendLine, hl]
  · rename_i hl
    exact LineLaw.choice (LineLaw.idle h1 h2 (by rw [h3]; simp) (by rw [h3]; simpa using hl))

end Sys2Proof.Machine
end

