-- ==== Sys2Proof/Laws/CycleLaw.lean ====
section
/-! SUPPORT. The law of the cycle scheduler and the arbiter (R85 to R98, R102) over each operation of the scheduler. -/

namespace Sys2Proof.Machine

/-- The scheduler's own ranges. -/
def Scheduler.Ranges (c : Scheduler) : Prop :=
  c.cycleList.length ≤ Config.cycleListCapacity ∧ (∀ a ∈ c.cycleList, validAddress a = true) ∧
    (∀ l, c.pendingList = some l → l.length ≤ Config.cycleListCapacity ∧ ∀ a ∈ l, validAddress a = true) ∧
    c.slotCursor ≤ Config.cycleListCapacity ∧ c.period ≤ Config.periodLimit ∧ (1 ≤ c.demandShare ∧ c.demandShare ≤ 4) ∧
    c.probeBudget ≤ 4 ∧ c.probesIssued ≤ c.probeBudget ∧ validAddress c.startMark = true

/-- The arbiter's ranges. -/
def Arbiter.Ranges (a : Arbiter) : Prop := a.demandAllowance ≤ 4 ∧ validAddress a.probeCursor = true

/-- What goes with the scheduler's state, given whether an exchange is in flight. -/
def Scheduler.Consistent (c : Scheduler) (inFlight : Bool) : Prop :=
  (c.state = .stopped → c.periodTimer = none) ∧ (c.state = .resting → c.periodTimer.isSome = true) ∧
    (c.stopRequest ≠ .none → c.state = .active) ∧ (c.stopRequest = .afterSlot → c.slotInFlight = true) ∧
    (c.slotInFlight = true → inFlight = true) ∧ (c.slotAbandoned = true → c.slotInFlight = true)

/-- The law read as three parts. -/
theorem CycleLaw_iff (s : State) :
    CycleLaw s ↔ s.sched.Ranges ∧ s.arbiter.Ranges ∧ s.sched.Consistent s.engine.record.isSome := by
  unfold CycleLaw CycleRanges CycleConsistent Scheduler.Ranges Arbiter.Ranges Scheduler.Consistent
  tauto

/-- The law does not see what leaves scheduler and arbiter alone and keeps an exchange in flight. -/
theorem CycleLaw.congr {s t : State} (h : CycleLaw s) (h1 : t.sched = s.sched) (h2 : t.arbiter = s.arbiter)
    (h3 : s.engine.record.isSome = true → t.engine.record.isSome = true) : CycleLaw t := by
  rw [CycleLaw_iff] at h ⊢
  rw [h1, h2]
  exact ⟨h.1, h.2.1, h.2.2.1, h.2.2.2.1, h.2.2.2.2.1, h.2.2.2.2.2.1, fun hs => h3 (h.2.2.2.2.2.2.1 hs), h.2.2.2.2.2.2.2⟩

/-- A pending list installed (R85). -/
theorem Scheduler.Ranges.install {c : Scheduler} (h : c.Ranges) : c.install.Ranges := by
  unfold Scheduler.install
  split
  · rename_i l hl
    obtain ⟨-, -, h3, h4⟩ := h
    exact ⟨(h3 l hl).1, (h3 l hl).2, fun _ hn => (by cases hn), h4⟩
  · exact h

/-- A cycle begun (R88, R93). -/
theorem Scheduler.Ranges.beginCycle {c : Scheduler} (h : c.Ranges) (n : Half) : (c.beginCycle n).Ranges := by
  obtain ⟨h1, h2, h3, h4, h5, h6, h7, h8, h9⟩ := h
  exact ⟨h1, h2, h3, Nat.zero_le _, h5, h6, h7, Nat.zero_le _, h9⟩

theorem Scheduler.Ranges.nextCycle {c : Scheduler} (h : c.Ranges) : c.nextCycle.Ranges := by
  unfold Scheduler.nextCycle
  dsimp only
  split
  · exact h.install
  · exact h.install.beginCycle _

/-- A completed cycle (R93). -/
theorem Scheduler.Ranges.completed {c : Scheduler} (h : c.Ranges) : c.completed.Ranges := by
  unfold Scheduler.completed
  split
  · exact h
  · split
    · exact h
    · split
      · exact h
      · exact h.nextCycle

/-- Installing changes neither state nor timer nor markers. -/
theorem Scheduler.install_frame (c : Scheduler) :
    c.install = { c with cycleList := c.install.cycleList, pendingList := c.install.pendingList } := by
  unfold Scheduler.install; split <;> rfl

/-- STOPPED keeps the consistency (R93, R97). -/
theorem Scheduler.Consistent.stop {c : Scheduler} {b : Bool} (h : c.Consistent b) : c.stop.Consistent b := by
  obtain ⟨-, -, -, -, h5, h6⟩ := h
  exact ⟨fun _ => rfl, fun h => (by cases h), fun h => absurd rfl h, fun h => (by cases h), h5, h6⟩

/-- A cycle begun with no AFTER_SLOT request standing (R88, R93). -/
theorem Scheduler.Consistent.beginCycle {c : Scheduler} {b : Bool} (h : c.Consistent b) (n : Half) :
    (c.beginCycle n).Consistent b := by
  obtain ⟨-, -, -, h4, h5, h6⟩ := h
  exact ⟨fun h => (by cases h), fun h => (by cases h), fun _ => rfl, h4, h5, h6⟩

theorem Scheduler.Consistent.nextCycle {c : Scheduler} {b : Bool} (h : c.Consistent b) :
    c.nextCycle.Consistent b := by
  unfold Scheduler.nextCycle
  dsimp only
  have hi : c.install.Consistent b := by rw [Scheduler.install_frame]; exact h
  split
  · exact hi.stop
  · exact hi.beginCycle _

/-- A completed cycle, with no AFTER_SLOT request standing (R93). -/
theorem Scheduler.Consistent.completed {c : Scheduler} {b : Bool} (h : c.Consistent b)
    (hs : c.stopRequest ≠ .afterSlot) : c.completed.Consistent b := by
  unfold Scheduler.completed
  split
  · exact h.stop
  · rename_i hc
    have hn : c.stopRequest = .none := by
      cases hr : c.stopRequest
      · rfl
      · exact absurd hr hs
      · exact absurd (Or.inr hr) hc
    obtain ⟨h1, h2, h3, h4, h5, h6⟩ := h
    split
    · rename_i ho
      exact ⟨fun h => (by cases h), fun _ => ho.2, fun h => absurd hn h, h4, h5, h6⟩
    · split
      · exact ⟨fun h => (by cases h), fun _ => rfl, fun h => absurd hn h, h4, h5, h6⟩
      · exact Scheduler.Consistent.nextCycle ⟨h1, h2, h3, h4, h5, h6⟩

/-- The end of the slot in flight (R87, R97): no slot is in flight after it. -/
theorem Scheduler.Consistent.slotEnded {c : Scheduler} {b : Bool} (h : c.Consistent b) (b' : Bool) :
    c.slotEnded.1.Consistent b' := by
  obtain ⟨h1, h2, h3, h4, h5, h6⟩ := h
  unfold Scheduler.slotEnded
  split
  · dsimp only
    split
    · exact ⟨fun _ => rfl, fun h => (by cases h), fun h => absurd rfl h, fun h => (by cases h), fun h => (by cases h),
        fun h => (by cases h)⟩
    · rename_i hc
      exact ⟨h1, h2, h3, fun h => absurd ⟨h3 (by rw [h]; simp), h⟩ hc, fun h => (by cases h), fun h => (by cases h)⟩
  · rename_i hs
    exact ⟨h1, h2, h3, fun h => absurd (h4 h) hs, fun h => absurd h hs, h6⟩

theorem Scheduler.Ranges.slotEnded {c : Scheduler} (h : c.Ranges) : c.slotEnded.1.Ranges := by
  unfold Scheduler.slotEnded
  split
  · dsimp only
    split <;> exact h
  · exact h

@[simp] theorem State.tableTakes_sched (s : State) (a : Nat) (o : OutcomeRecord) :
    (s.tableTakes a o).1.sched = s.sched := by rw [State.tableTakes_frame]

@[simp] theorem State.imageTakes_sched (s : State) (a : Nat) (f : LineFunction) (o : AttemptOutcome) (b : List Byte) :
    (s.imageTakes a f o b).1.sched = s.sched := by rw [State.imageTakes_frame]

/-- The scheduler's part of the end of any exchange (R87, R95, R97). -/
theorem State.concludeExchange_sched (s : State) (r : ExchangeRecord) (o : AttemptOutcome) :
    (s.concludeExchange r o).1.sched = s.sched.slotEnded.1 ∨
      (s.concludeExchange r o).1.sched = (s.sched.takeOutcome r.origin o).slotEnded.1 := by
  have hd : (s.deliverEnd r o).1.sched = s.sched ∨
      (s.deliverEnd r o).1.sched = s.sched.takeOutcome r.origin o := by
    unfold State.deliverEnd State.deliverDiscarded State.deliverOutcome State.ticketTakes
    dsimp only
    split
    · exact Or.inl rfl
    · split
      · left; split <;> rfl
      · split <;> simp_all
  unfold State.concludeExchange State.slotEnded
  dsimp only
  rcases hd with he | he <;> rw [he] <;> simp

/-- The end of an exchange keeps the law, whether or not a record stays (R71, R72). -/
theorem CycleLaw.concludeExchange {s t : State} (h : CycleLaw s) (r : ExchangeRecord) (o : AttemptOutcome)
    (h1 : t.sched = (s.concludeExchange r o).1.sched) (h2 : t.arbiter = s.arbiter) : CycleLaw t := by
  rw [CycleLaw_iff] at h ⊢
  obtain ⟨hr, ha, hc⟩ := h
  have hto : (s.sched.takeOutcome r.origin o).Ranges ∧ (s.sched.takeOutcome r.origin o).Consistent
      s.engine.record.isSome := by
    unfold Scheduler.takeOutcome; split <;> exact ⟨hr, hc⟩
  rw [h1, h2]
  rcases State.concludeExchange_sched s r o with he | he <;> rw [he]
  · exact ⟨hr.slotEnded, ha, hc.slotEnded _⟩
  · exact ⟨hto.1.slotEnded, ha, hto.2.slotEnded _⟩

/-- An address some places after another is an address of an entry (R92). -/
theorem validAddress_addressAfter (a k : Nat) : validAddress (addressAfter a k) = true := by
  unfold validAddress addressAfter
  have := Nat.mod_lt (a - 1 + k) (show 63 > 0 by decide)
  simp only [decide_eq_true_eq]
  omega

/-- The candidate a search finds has an entry (R92). -/
theorem State.findCandidate_valid {s : State} {a : Nat} (h : s.findCandidate = some a) : validAddress a = true := by
  unfold State.findCandidate at h
  obtain ⟨k, -, rfl⟩ := List.mem_map.1 (List.mem_of_find?_eq_some h)
  exact validAddress_addressAfter _ _

/-- A choice keeps the law of the scheduler and the arbiter (R87, R92, R93, R100, R102). -/
theorem cycleLaw_closed : ChoiceClosed (fun s => LineLaw s ∧ CycleLaw s) where
  grant := fun s h hi hh => ⟨lineLaw_closed.grant s h.1 hi hh, h.2.congr rfl rfl (by
    rw [h.1.record_of_idle hi]; intro hc; cases hc)⟩
  broadcast := fun s f h hi hf => ⟨lineLaw_closed.broadcast s f h.1 hi hf, by
    refine h.2.congr ?_ ?_ ?_
    · unfold State.handBroadcast; simp
    · unfold State.handBroadcast; simp
    · unfold State.handBroadcast; simp [State.handOver_engine]⟩
  own := fun s t h hi ht hk => ⟨lineLaw_closed.own s t h.1 hi ht hk, by
    have h2 := (CycleLaw_iff s).1 h.2
    rw [CycleLaw_iff]
    unfold State.putOnLine
    refine ⟨?_, ?_, ?_⟩
    · simp only [State.handOver_sched]; rw [State.spendAllowance_frame]; exact h2.1
    · simp only [State.handOver_arbiter]
      unfold State.spendAllowance
      split
      · exact ⟨Nat.le_trans (Nat.sub_le _ _) h2.2.1.1, h2.2.1.2⟩
      · exact h2.2.1
    · simp only [State.handOver_sched, State.handOver_engine, Option.isSome_some]
      rw [State.spendAllowance_frame]
      obtain ⟨-, -, c1, c2, c3, c4, -, c6⟩ := h2
      exact ⟨c1, c2, c3, c4, fun _ => rfl, c6⟩⟩
  resync := fun s t h hi ht hk => ⟨lineLaw_closed.resync s t h.1 hi ht hk, by
    have h2 := (CycleLaw_iff s).1 h.2
    rw [CycleLaw_iff]
    refine ⟨?_, ?_, ?_⟩
    · simp only [State.handOver_sched]; rw [State.spendAllowance_frame]; exact h2.1
    · simp only [State.handOver_arbiter]
      unfold State.spendAllowance
      split
      · exact ⟨Nat.le_trans (Nat.sub_le _ _) h2.2.1.1, h2.2.1.2⟩
      · exact h2.2.1
    · simp only [State.handOver_sched, State.handOver_engine, Option.isSome_some]
      rw [State.spendAllowance_frame]
      obtain ⟨-, -, c1, c2, c3, c4, -, c6⟩ := h2
      exact ⟨c1, c2, c3, c4, fun _ => rfl, c6⟩⟩
  down := fun s t h hi ht => ⟨lineLaw_closed.down s t h.1 hi ht, by
    rw [State.completeTicket_frame]
    exact h.2.congr rfl rfl id⟩
  skip := fun s a h hi ha hc hj => ⟨lineLaw_closed.skip s a h.1 hi ha hc hj, by
    have h2 := (CycleLaw_iff s).1 h.2
    rw [CycleLaw_iff]
    obtain ⟨⟨r1, r2, r3, r4, r5⟩, ar, cc⟩ := h2
    exact ⟨⟨r1, r2, r3, Nat.le_trans hc r1, r5⟩, ar, cc⟩⟩
  slot := fun s a f o h hi ha hc hj => ⟨lineLaw_closed.slot s a f o h.1 hi ha hc hj, by
    have h2 := (CycleLaw_iff s).1 h.2
    rw [CycleLaw_iff]
    obtain ⟨⟨r1, r2, r3, r4, r5, r6, r7⟩, ar, c1, c2, c3, c4, c5, c6⟩ := h2
    unfold State.takeOffer
    simp only [State.handOver_sched, State.handOver_arbiter, State.handOver_engine, Option.isSome_some]
    exact ⟨⟨r1, r2, r3, Nat.le_trans hc r1, r5, r6, r7⟩, ⟨r6.2, ar.2⟩, c1, c2, c3, fun _ => rfl, fun _ => rfl,
      fun _ => rfl⟩⟩
  enter := fun s h hi ha => ⟨lineLaw_closed.enter s h.1 hi ha, by
    have h2 := (CycleLaw_iff s).1 h.2
    rw [CycleLaw_iff]
    obtain ⟨⟨r1, r2, r3, r4, r5, r6, r7, r8, -⟩, ar, cc⟩ := h2
    exact ⟨⟨r1, r2, r3, r4, r5, r6, r7, r8, ar.2⟩, ar, cc⟩⟩
  probe := fun s a h hi ha hb hf => ⟨lineLaw_closed.probe s a h.1 hi ha hb hf, by
    have h2 := (CycleLaw_iff s).1 h.2
    rw [CycleLaw_iff]
    obtain ⟨⟨r1, r2, r3, r4, r5, r6, r7, r8, r9⟩, ar, c1, c2, c3, c4, c5, c6⟩ := h2
    unfold State.takeOffer
    simp only [State.handOver_sched, State.handOver_arbiter, State.handOver_engine, Option.isSome_some]
    have hlt : s.sched.probesIssued + 1 ≤ s.sched.probeBudget := Nat.lt_of_le_of_ne r8 hb
    exact ⟨⟨r1, r2, r3, r4, r5, r6, r7, hlt, r9⟩, ⟨r6.2, State.findCandidate_valid hf⟩, c1, c2, c3, fun _ => rfl,
      fun _ => rfl, fun _ => rfl⟩⟩
  complete := fun s h hi ha => ⟨lineLaw_closed.complete s h.1 hi ha, by
    have h2 := (CycleLaw_iff s).1 h.2
    rw [CycleLaw_iff]
    exact ⟨h2.1.completed, h2.2.1, h2.2.2.completed ha.2⟩⟩

theorem CycleLaw.choice {s : State} (h : LineLaw s ∧ CycleLaw s) : LineLaw s.arbiterChoice ∧ CycleLaw s.arbiterChoice :=
  cycleLaw_closed.choice s h

end Sys2Proof.Machine
end

