-- ==== Sys2Proof/Laws/RecordLaw.lean ====
section
/-! SUPPORT. The law of the exchange record (R61, R66, R68, R69) over each operation that touches the record. -/

namespace Sys2Proof.Machine

/-- The ranges of the line settings (R57). -/
def LinePort.inRange (p : LinePort) : Prop :=
  p.rateIndex ≤ 7 ∧ 2 ≤ p.replyTimeout ∧ p.replyTimeout ≤ 250 ∧ p.retryCount ≤ 3

/-- The law read as two parts. -/
theorem RecordLaw_iff (s : State) :
    RecordLaw s ↔ s.line.inRange ∧
      ∀ r, s.engine.record = some r → r.ShapeLaw ∧ r.AttemptLaw s.engine.state ∧ r.AssemblyLaw s.engine.state := Iff.rfl

/-- The law reads the line settings, the engine's state and the record. -/
theorem RecordLaw.congr {s t : State} (h : RecordLaw s) (h1 : t.line.inRange) (h2 : t.engine.state = s.engine.state)
    (h3 : t.engine.record = s.engine.record) : RecordLaw t :=
  ⟨h1, fun r hr => by rw [h2]; exact h.2 r (h3 ▸ hr)⟩

/-- With no record in flight the law is that of the settings. -/
theorem RecordLaw.ofNone {t : State} (h1 : t.line.inRange) (h3 : t.engine.record = none) : RecordLaw t :=
  ⟨h1, fun r hr => by rw [h3] at hr; cases hr⟩

/-- The record changed in fields the law does not read. -/
theorem RecordLaw.mapRecord {s t : State} (h : RecordLaw s) (F : ExchangeRecord → ExchangeRecord)
    (hF : ∀ r, F r = { r with discard := (F r).discard, noRetry := (F r).noRetry }) (h1 : t.line.inRange)
    (h2 : t.engine.state = s.engine.state) (h3 : t.engine.record = s.engine.record.map F) : RecordLaw t := by
  refine ⟨h1, fun r hr => ?_⟩
  rw [h3] at hr
  cases hq : s.engine.record with
  | none => rw [hq] at hr; cases hr
  | some q =>
    rw [hq] at hr
    simp only [Option.map_some, Option.some.injEq] at hr
    subst hr
    rw [hF, h2]
    exact h.2 q hq

/-- A hand-over whose function suits its origin builds a record that keeps the law (R62). -/
theorem RecordLaw.handOver {s : State} (h1 : s.line.inRange) (a : Nat) (f : LineFunction) (o : Origin) (d : List Byte)
    (ho : match o with
      | .broadcast => (f = .hold ∨ f = .release) ∧ a = 0 ∧ d = []
      | .cyclic => f = .exchange ∨ f = .sample
      | .discovery | .resync => f = .probe
      | .ticket _ => f = .sample ∨ f = .probe ∨ f = .paramRead ∨ f = .paramWrite) :
    RecordLaw (s.handOver a f o d) := by
  refine ⟨by rw [State.handOver_frame]; exact h1, fun r hr => ?_⟩
  rw [State.handOver_engine] at hr ⊢
  simp only [Option.some.injEq] at hr
  subst hr
  obtain ⟨-, -, -, h4⟩ := h1
  refine ⟨?_, ⟨?_, ?_, ?_, rfl⟩, ⟨?_, ?_⟩⟩
  · unfold ExchangeRecord.ShapeLaw
    cases o <;> simp only [State.buildRecord] at ho ⊢
    · exact ho
    · exact ho
    · exact ho
    · exact ho
    · obtain ⟨hf, rfl, rfl⟩ := ho
      refine ⟨hf, rfl, rfl, ?_, by simp, by simp⟩
      rcases hf with rfl | rfl <;> rfl
  · simp [State.buildRecord]
  · simp only [State.buildRecord]; split <;> omega
  · simp only [State.buildRecord]; split <;> omega
  · simp [State.buildRecord]
  · simp [Engine.empty]

/-- A classification establishes the law from that of an attempt in progress (R68). -/
theorem RecordLaw.classifyAttempt {s : State} (h : s.line.inRange)
    (hr : ∀ r, s.engine.record = some r → r.ShapeLaw ∧ r.AttemptLaw .receiving ∧ r.reply.length ≤ 36)
    (o : AttemptOutcome) : RecordLaw (s.classifyAttempt o) := by
  refine ⟨h, fun r hr' => ?_⟩
  rw [State.classifyAttempt_engine] at hr' ⊢
  cases hq : s.engine.record with
  | none => rw [hq] at hr'; cases hr'
  | some q =>
    rw [hq] at hr'
    simp only [Option.map_some, Option.some.injEq] at hr'
    subst hr'
    obtain ⟨h1, ⟨a1, a2, a3, a4, a5⟩, b1⟩ := hr q hq
    refine ⟨?_, ⟨a1, a2, a3, ?_⟩, b1, by simp⟩
    · unfold ExchangeRecord.ShapeLaw at h1 ⊢
      split at h1
      · exact absurd ‹_› a5
      all_goals simp only [ExchangeRecord.classified, ‹q.origin = _›]; exact h1
    · cases o <;> simpa [ExchangeRecord.classified, AttemptOutcome.isFailedAttempt] using a4

/-- An attempt waiting for its reply or receiving it is classified (R65, R66). -/
theorem RecordLaw.classify {s : State} (h : RecordLaw s)
    (hs : s.engine.state = .awaiting ∨ s.engine.state = .receiving) (o : AttemptOutcome) :
    RecordLaw (s.classifyAttempt o) := by
  refine RecordLaw.classifyAttempt h.1 (fun r hr => ?_) o
  obtain ⟨h1, h2, h3⟩ := h.2 r hr
  refine ⟨h1, ?_, h3.1⟩
  rcases hs with hs | hs <;> rw [hs] at h2 <;> exact h2

/-- A slot that yields gives a function that suits its origin (R90). -/
theorem State.judgeSlot_origin {s : State} {a : Nat} {f : LineFunction} {o : Origin}
    (h : s.judgeSlot a = some (f, o)) :
    (o = .cyclic ∧ (f = .exchange ∨ f = .sample)) ∨ (o = .resync ∧ f = .probe) := by
  unfold State.judgeSlot at h
  dsimp only at h
  split at h
  · cases h
  · split at h
    · split at h
      · cases h
      · split at h <;> cases h <;> simp
    · split at h
      · cases h; simp
      · cases h
    all_goals cases h

/-- A choice keeps the law of the record. -/
theorem recordLaw_closed : ChoiceClosed RecordLaw where
  grant := fun s h _ _ => RecordLaw.ofNone h.1 rfl
  broadcast := fun s f h _ hf => by
    unfold State.handBroadcast
    dsimp only
    have h1 := RecordLaw.handOver h.1 0 f .broadcast [] ⟨hf, rfl, rfl⟩
    exact RecordLaw.congr h1 h1.1 rfl rfl
  own := fun s t h _ _ _ => by
    unfold State.putOnLine
    apply RecordLaw.handOver
    · rw [State.spendAllowance_frame]; exact h.1
    · cases t.func <;> simp [TicketFunction.onLine]
  resync := fun s t h _ _ _ => by
    apply RecordLaw.handOver
    · rw [State.spendAllowance_frame]; exact h.1
    · rfl
  down := fun s t h _ _ => by
    rw [State.completeTicket_frame]
    exact h
  skip := fun s a h _ _ _ _ => h
  slot := fun s a f o h _ _ _ hj => by
    unfold State.takeOffer
    apply RecordLaw.handOver
    · exact h.1
    · rcases State.judgeSlot_origin hj with ⟨rfl, hf⟩ | ⟨rfl, hf⟩ <;> exact hf
  enter := fun s h _ _ => h
  probe := fun s a h _ _ _ _ => by
    unfold State.takeOffer
    apply RecordLaw.handOver
    · exact h.1
    · rfl
  complete := fun s h _ _ => h

theorem RecordLaw.choice {s : State} (h : RecordLaw s) : RecordLaw s.arbiterChoice := recordLaw_closed.choice s h

/-- A character appended leaves the reply at most 36 long (R61, R66). -/
theorem ExchangeRecord.append_length {r : ExchangeRecord} (c : RxChar) (h : r.AssemblyLaw .receiving) :
    (r.append c).reply.length ≤ 36 := by
  obtain ⟨-, h2⟩ := h
  have h3 := h2 rfl
  have hlen : (r.append c).reply.length = r.reply.length + 1 := by simp [ExchangeRecord.append]
  by_cases hl : 3 ≤ r.reply.length
  · have := h3 hl; omega
  · omega

/-- A character that leaves the attempt unclassified keeps the reply short of its own length (R66). -/
theorem ExchangeRecord.assembly_append {r : ExchangeRecord} {c : RxChar} (h : r.AssemblyLaw .receiving)
    (hb : c.breaksReply r.reply.length = false) :
    (r.append c).reply.length ≤ 36 ∧ ((r.append c).replyComplete = false → (r.append c).AssemblyLaw .receiving) := by
  obtain ⟨-, h2⟩ := h
  have h3 := h2 rfl
  have hlen : (r.append c).reply.length = r.reply.length + 1 := by simp [ExchangeRecord.append]
  have hkeep : 3 ≤ r.reply.length → (r.append c).replyByte 2 = r.replyByte 2 := by
    intro hl
    unfold ExchangeRecord.replyByte ExchangeRecord.append
    rw [List.getElem?_append_left (by omega)]
  have hthird : r.reply.length = 2 → ((r.append c).replyByte 2).toNat ≤ 32 := by
    intro hl
    have : (r.append c).replyByte 2 = c.value := by
      unfold ExchangeRecord.replyByte ExchangeRecord.append
      rw [List.getElem?_append_right (by omega)]
      simp [hl]
    rw [this]
    unfold RxChar.breaksReply at hb
    simp [hl] at hb
    omega
  have hle : (r.append c).reply.length ≤ 36 := by
    by_cases hl : 3 ≤ r.reply.length
    · have := h3 hl; omega
    · omega
  refine ⟨hle, fun hc => ⟨hle, fun _ hl => ?_⟩⟩
  unfold ExchangeRecord.replyComplete at hc
  simp only [Bool.and_eq_false_iff, decide_eq_false_iff_not, beq_eq_false_iff_ne] at hc
  have hne : (r.append c).reply.length ≠ ((r.append c).replyByte 2).toNat + 4 := by
    rcases hc with hc | hc
    · omega
    · exact hc
  by_cases h3' : 3 ≤ r.reply.length
  · have := h3 h3'
    rw [hkeep h3'] at hne ⊢
    omega
  · have := hthird (by omega)
    omega

end Sys2Proof.Machine
end

