-- ==== Sys2Proof/Laws/Stations.lean ====
section
/-! SUPPORT. Entries and areas read and written, and the law of an entry over each change the station table makes (R1, R5 to
R10, R14, R16, R22). -/

namespace Sys2Proof.Machine

/-! ## Reading what was written -/

/-- The entry of any address after one entry was replaced. -/
theorem State.entry_setEntry (s : State) (a b : Nat) (e : StationEntry) :
    (s.setEntry a e).entry b = if b = a ∧ 1 ≤ a ∧ a ≤ 63 then e else s.entry b := by
  unfold State.setEntry State.entry
  by_cases ha : 1 ≤ a
  · by_cases hb : 1 ≤ b
    · by_cases hlt : b - 1 < 63
      · simp only [ha, hb, if_true, Vector.getElem?_eq_getElem hlt, Option.getD_some, Vector.getElem_setIfInBounds]
        by_cases hab : b = a
        · subst hab
          have : b ≤ 63 := by omega
          simp [this]
        · have : a - 1 ≠ b - 1 := by omega
          simp [hab, this]
      · have : ¬ (b = a ∧ 1 ≤ a ∧ a ≤ 63) := by omega
        rw [if_neg this]
        simp [ha, hb, Vector.getElem?_eq_none (Nat.le_of_not_lt hlt)]
    · have : ¬ (b = a ∧ 1 ≤ a ∧ a ≤ 63) := by omega
      simp [hb, this]
  · have : ¬ (b = a ∧ 1 ≤ a ∧ a ≤ 63) := by omega
    rw [if_neg this, if_neg ha]

/-- The areas of any address after those of one were replaced. -/
theorem State.areas_setAreas (s : State) (a b : Nat) (ar : Option Areas) :
    (s.setAreas a ar).areas b = if b = a ∧ 1 ≤ a ∧ a ≤ 63 then ar else s.areas b := by
  unfold State.setAreas State.areas
  by_cases ha : 1 ≤ a
  · by_cases hb : 1 ≤ b
    · by_cases hlt : b - 1 < 63
      · simp only [ha, hb, if_true, Vector.getElem?_eq_getElem hlt, Option.getD_some, Vector.getElem_setIfInBounds]
        by_cases hab : b = a
        · subst hab
          have : b ≤ 63 := by omega
          simp [this]
        · have : a - 1 ≠ b - 1 := by omega
          simp [hab, this]
      · have : ¬ (b = a ∧ 1 ≤ a ∧ a ≤ 63) := by omega
        rw [if_neg this]
        simp [ha, hb, Vector.getElem?_eq_none (Nat.le_of_not_lt hlt)]
    · have : ¬ (b = a ∧ 1 ≤ a ∧ a ≤ 63) := by omega
      simp [hb, this]
  · have : ¬ (b = a ∧ 1 ≤ a ∧ a ≤ 63) := by omega
    rw [if_neg this, if_neg ha]

/-- The entry of any address after every entry was changed by a function that keeps an UNUSED entry. -/
theorem State.entry_map {s t : State} {f : StationEntry → StationEntry} (hf : f .unused = .unused)
    (ht : t.stations = s.stations.map f) (a : Nat) : t.entry a = f (s.entry a) := by
  unfold State.entry
  rw [ht]
  split
  · by_cases hlt : a - 1 < 63
    · simp [hlt]
    · rw [Vector.getElem?_eq_none (Nat.le_of_not_lt hlt), Vector.getElem?_eq_none (Nat.le_of_not_lt hlt)]
      simp [hf]
  · exact hf.symm

/-- The areas of any address after all were changed by a function. -/
theorem State.areas_map {s t : State} {f : Option Areas → Option Areas} (hf : f none = none)
    (ht : t.image = s.image.map f) (a : Nat) : t.areas a = f (s.areas a) := by
  unfold State.areas
  rw [ht]
  split
  · by_cases hlt : a - 1 < 63
    · simp [hlt]
    · rw [Vector.getElem?_eq_none (Nat.le_of_not_lt hlt), Vector.getElem?_eq_none (Nat.le_of_not_lt hlt)]
      simp [hf]
  · exact hf.symm

/-- Addresses outside 1..63 have no entry (R1). -/
theorem State.entry_of_invalid (s : State) {a : Nat} (h : validAddress a = false) : s.entry a = .unused := by
  unfold State.entry
  simp only [validAddress, decide_eq_false_iff_not, not_and, not_le] at h
  split
  · rename_i ha
    rw [Vector.getElem?_eq_none (by have := h ha; omega)]
    rfl
  · rfl

/-- An entry that is not UNUSED has a valid address. -/
theorem State.valid_of_entry (s : State) {a : Nat} (h : (s.entry a).state ≠ .unused) : 1 ≤ a ∧ a ≤ 63 := by
  by_contra hc
  exact h (by rw [s.entry_of_invalid (by simpa [validAddress] using hc)]; rfl)

/-- The reset table holds UNUSED entries alone. -/
theorem State.entry_of_reset {s : State} (h : s.stations = State.reset.stations) (a : Nat) : s.entry a = .unused := by
  unfold State.entry
  rw [h]
  split
  · by_cases hlt : a - 1 < 63
    · simp [State.reset, hlt]
    · rw [Vector.getElem?_eq_none (Nat.le_of_not_lt hlt)]; rfl
  · rfl

/-- The reset image holds no areas. -/
theorem State.areas_of_reset {s : State} (h : s.image = State.reset.image) (a : Nat) : s.areas a = none := by
  unfold State.areas
  rw [h]
  split
  · by_cases hlt : a - 1 < 63
    · simp [State.reset, hlt]
    · rw [Vector.getElem?_eq_none (Nat.le_of_not_lt hlt)]; rfl
  · rfl

@[simp] theorem State.entry_setAreas (s : State) (a b : Nat) (ar : Option Areas) :
    (s.setAreas a ar).entry b = s.entry b := State.entry_congr (by simp) b

@[simp] theorem State.areas_setEntry (s : State) (a b : Nat) (e : StationEntry) :
    (s.setEntry a e).areas b = s.areas b := State.areas_congr (by simp) b

@[simp] theorem State.entry_markStale (s : State) (a b : Nat) : (s.markStale a).entry b = s.entry b :=
  State.entry_congr (by simp) b

/-- The areas of any address after one was marked STALE (R29). -/
theorem State.areas_markStale (s : State) (a b : Nat) :
    (s.markStale a).areas b = if b = a then (s.areas b).map Areas.markStale else s.areas b := by
  unfold State.markStale
  rw [State.areas_setAreas]
  by_cases hab : b = a
  · subst hab
    by_cases hv : 1 ≤ b ∧ b ≤ 63
    · simp [hv]
    · have : s.areas b = none := by
        unfold State.areas
        split
        · rename_i h1
          rw [Vector.getElem?_eq_none (by omega)]; rfl
        · rfl
      simp [hv, this]
  · simp [hab]

/-- The entry the station table leaves after an outcome record (R4). -/
theorem State.entry_tableTakes (s : State) (a : Nat) (o : OutcomeRecord) (b : Nat) :
    (s.tableTakes a o).1.entry b = if b = a ∧ 1 ≤ a ∧ a ≤ 63 then (s.entry a).take o else s.entry b := by
  unfold State.tableTakes
  dsimp only
  split <;> simp [State.entry_setEntry]

/-! ## The law of an entry -/

theorem StationEntry.law_unused : StationEntry.unused.Law := by
  unfold StationEntry.Law; simp [StationEntry.unused]

/-- A new definition keeps the law (R16). -/
theorem StationEntry.law_defined {p : Profile} (h : p.inRange) : (StationEntry.defined p).Law := by
  unfold StationEntry.Law
  obtain ⟨h1, h2, h3, h4, h5⟩ := h
  refine ⟨⟨h1, h2, h3, h4, h5⟩, by simp [StationEntry.defined], ?_, ?_, fun _ => rfl⟩
  · simp [StationEntry.defined, StationEntry.unused]
  · simp only [StationEntry.defined, StationEntry.unused, reduceCtorEq, iff_false]
    omega

/-- A counted failure of an ONLINE or SUSPECT station keeps the law (R6, R9, R14). -/
theorem StationEntry.law_fail {e : StationEntry} {p : Profile} (hp : e.profile = some p) (h : e.Law)
    (hs : e.state = .online ∨ e.state = .suspect) : (e.fail p).Law := by
  unfold StationEntry.Law at h ⊢
  simp only [StationEntry.fail, hp] at h ⊢
  obtain ⟨hr, -, hle, hiff, -⟩ := h
  have hne : e.failRun ≠ p.failLimit := by
    intro he
    have := hiff.1 he
    rcases hs with hs | hs <;> rw [hs] at this <;> cases this
  refine ⟨hr, ?_, by omega, ?_, ?_⟩
  · split <;> simp
  · split
    · simp; omega
    · simp; omega
  · split <;> simp

/-- An outcome record keeps the law, if a data function finds the station ONLINE (R4 to R9). -/
theorem StationEntry.law_take {e : StationEntry} (h : e.Law) (o : OutcomeRecord)
    (hd : o.func ≠ .probe → e.state = .online) : (e.take o).Law := by
  unfold StationEntry.take
  split
  · exact h
  · rename_i p hp
    have hc : ({ e with counters := e.counters.count o } : StationEntry).Law := by
      unfold StationEntry.Law at h ⊢
      simp only [hp] at h ⊢
      exact h
    dsimp only
    split
    · unfold StationEntry.takeProbe
      split
      · unfold StationEntry.Law at h ⊢
        simp only [hp] at h ⊢
        obtain ⟨⟨h1, h2, h3, h4⟩, -⟩ := h
        refine ⟨⟨h1, h2, h3, h4⟩, ?_, by omega, ?_, by simp⟩
        · split <;> simp
        · split <;> simp <;> omega
      · split
        · rename_i hs
          exact StationEntry.law_fail (e := { e with counters := e.counters.count o }) hp hc (Or.inr hs)
        · rename_i hs
          exact StationEntry.law_fail (e := { e with counters := e.counters.count o }) hp hc (Or.inl hs)
        all_goals exact hc
    · rename_i hf
      unfold StationEntry.takeData
      split
      · exact StationEntry.law_fail (e := { e with counters := e.counters.count o }) hp hc (Or.inl (hd hf))
      · have hs := hd hf
        unfold StationEntry.Law at h ⊢
        simp only [hp] at h ⊢
        obtain ⟨⟨h1, h2, h3, h4⟩, -⟩ := h
        refine ⟨⟨h1, h2, h3, h4⟩, by rw [hs]; simp, by omega, ?_, by simp⟩
        rw [hs]; simp; omega

/-- The return of the line keeps the law (R10). -/
theorem StationEntry.law_lineReturned {e : StationEntry} (h : e.Law) : e.lineReturned.Law := by
  unfold StationEntry.lineReturned
  split
  · rename_i hs
    unfold StationEntry.Law at h ⊢
    cases hp : e.profile with
    | none => rw [hp] at h; simp only at h; rw [h] at hs; cases hs
    | some p =>
      simp only [hp] at h ⊢
      obtain ⟨hr, -, hle, hiff, h0⟩ := h
      have := h0 (Or.inr hs)
      have h3 := hr.2.2.1
      refine ⟨hr, by simp, hle, ?_, by simp⟩
      simp; omega
  · exact h

/-- A WARM restart keeps the law (R22). -/
theorem StationEntry.law_warm {e : StationEntry} (h : e.Law) : e.warm.Law := by
  unfold StationEntry.warm
  split
  · exact StationEntry.law_unused
  · rename_i p hp
    unfold StationEntry.Law at h
    rw [hp] at h
    exact StationEntry.law_defined h.1

/-- Cleared counters keep the law (R20). -/
theorem StationEntry.law_clear {e : StationEntry} (h : e.Law) : ({ e with counters := .zero } : StationEntry).Law := by
  unfold StationEntry.Law at h ⊢
  cases hp : e.profile with
  | none => simp only [hp] at h ⊢; rw [h]; rfl
  | some p => simp only [hp] at h ⊢; exact h

/-- A profile that passes the checks of STATION_DEFINE is in range (R15). -/
theorem State.checkDefine_ok {s : State} {f : DefineFields} {p : Profile} (h : s.checkDefine f = .ok p) :
    validAddress f.address = true ∧ p.inRange ∧ p.inLen = f.inLen ∧ p.outLen = f.outLen ∧
      s.allocatedExcept f.address + (f.inLen + f.outLen) ≤ Config.imageStoreSize := by
  unfold State.checkDefine at h
  split at h
  · cases h
  · rename_i hv
    split at h
    · split at h
      · cases h
      · rename_i hr
        split at h
        · cases h
        · rename_i hs
          cases h
          simp only [Bool.not_eq_true', Bool.not_eq_false] at hv hr
          simp only [DefineFields.inRange, decide_eq_true_eq] at hr
          refine ⟨hv, ?_, rfl, rfl, by omega⟩
          refine ⟨hr.1, hr.2.1, ?_, ?_, hr.2.2.1, hr.2.2.2.1⟩
          · simp only [DefineFields.profile]; split <;> omega
          · simp only [DefineFields.profile]; split <;> omega
    · cases h

end Sys2Proof.Machine
end

