-- ==== Sys2Proof/Laws/StationLaw.lean ====
section
/-! SUPPORT. The law of the station table (R1, R5, R14, R90) over each operation that touches an entry or the record in
flight. -/

namespace Sys2Proof.Machine

/-- The law reads the table and, of the record, three fields. -/
theorem StationLaw.congr {s t : State} (h : StationLaw s) (h1 : t.stations = s.stations)
    (h2 : ∀ r, t.engine.record = some r → ∃ q, s.engine.record = some q ∧ r.func = q.func ∧ r.station = q.station ∧
      (r.discard = false → q.discard = false)) : StationLaw t := by
  refine ⟨fun a => by rw [State.entry_congr h1]; exact h.1 a, fun r hr => ?_⟩
  obtain ⟨q, hq, e1, e2, e4⟩ := h2 r hr
  intro hd hf
  rw [State.entry_congr h1, e2]
  exact h.2 q hq (e4 hd) (e1 ▸ hf)

/-- The law does not see what leaves the table and the record alone. -/
theorem StationLaw.same {s t : State} (h : StationLaw s) (h1 : t.stations = s.stations)
    (h2 : t.engine.record = s.engine.record) : StationLaw t :=
  h.congr h1 (fun r hr => ⟨r, h2 ▸ hr, rfl, rfl, id⟩)

/-- The record changed in its other fields. -/
theorem StationLaw.mapRecord {s t : State} (h : StationLaw s) (F : ExchangeRecord → ExchangeRecord)
    (hF : ∀ r, (F r).func = r.func ∧ (F r).station = r.station ∧
      ((F r).discard = false → r.discard = false))
    (h1 : t.stations = s.stations) (h2 : t.engine.record = s.engine.record.map F) : StationLaw t := by
  refine h.congr h1 (fun r hr => ?_)
  rw [h2] at hr
  cases hq : s.engine.record with
  | none => rw [hq] at hr; cases hr
  | some q =>
    rw [hq] at hr
    simp only [Option.map_some, Option.some.injEq] at hr
    subst hr
    exact ⟨q, rfl, hF q⟩

/-- With no record in flight the law is that of the entries. -/
theorem StationLaw.ofEntries {t : State} (h : ∀ a, (t.entry a).Law) (h2 : t.engine.record = none) : StationLaw t :=
  ⟨h, fun r hr => by rw [h2] at hr; cases hr⟩

/-- A hand-over keeps the law where a data function finds its station ONLINE (R90, R103). -/
theorem StationLaw.handOver {s : State} (h : ∀ a, (s.entry a).Law) (a : Nat) (f : LineFunction) (o : Origin)
    (d : List Byte) (hf : f.isData = true → (s.entry a).state = .online) : StationLaw (s.handOver a f o d) := by
  refine ⟨fun b => by rw [State.entry_congr (s := s) (by simp)]; exact h b, fun r hr => ?_⟩
  rw [State.handOver_engine] at hr
  simp only [Option.some.injEq] at hr
  subst hr
  intro _ hfd
  rw [State.entry_congr (s := s) (by simp)]
  exact hf hfd

/-- A slot that yields a data function has an ONLINE station (R90). -/
theorem State.judgeSlot_data {s : State} {a : Nat} {f : LineFunction} {o : Origin} (h : s.judgeSlot a = some (f, o))
    (hf : f.isData = true) : (s.entry a).state = .online := by
  unfold State.judgeSlot at h
  dsimp only at h
  split at h
  · cases h
  · split at h
    · assumption
    · split at h
      · cases h; cases hf
      · cases h
    all_goals cases h

/-- A ticket taken on its own account has an ONLINE station, unless it is a PROBE (R103, R111). -/
theorem takeOf_data {f : TicketFunction} {st : Health} (h : takeOf f st = .own) (hf : f.onLine.isData = true) :
    st = .online := by
  cases f <;> cases st <;> first | rfl | (simp [TicketFunction.onLine, LineFunction.isData] at hf; done) | cases h

/-- A choice keeps the law of the station table. -/
theorem stationLaw_closed : ChoiceClosed StationLaw where
  grant := fun s h _ _ => StationLaw.ofEntries h.1 rfl
  broadcast := fun s f h _ hf => by
    unfold State.handBroadcast
    dsimp only
    refine StationLaw.same (s := s.handOver 0 f .broadcast [])
      (StationLaw.handOver h.1 _ _ _ _ ?_) rfl rfl
    rcases hf with rfl | rfl <;> intro h <;> cases h
  own := fun s t h _ ht hk => by
    unfold State.putOnLine
    have e : ∀ b, State.entry { s.spendAllowance with tickets := s.spendAllowance.tickets.setState t.id .onLine } b
        = s.entry b := fun b => State.entry_congr (by simp) b
    apply StationLaw.handOver
    · intro b; rw [e]; exact h.1 b
    · intro hf; rw [e]; exact takeOf_data hk hf
  resync := fun s t h _ _ _ =>
    StationLaw.handOver (fun b => by rw [State.entry_congr (s := s) (by simp)]; exact h.1 b) _ _ _ _
      (by intro h; cases h)
  down := fun s t h _ _ => by
    rw [State.completeTicket_frame]
    exact h
  skip := fun s a h _ _ _ _ => h
  slot := fun s a f o h _ _ _ hj => by
    unfold State.takeOffer
    dsimp only
    apply StationLaw.handOver
    · exact fun b => h.1 b
    · exact State.judgeSlot_data hj
  enter := fun s h _ _ => h
  probe := fun s a h _ _ _ _ => by
    unfold State.takeOffer
    dsimp only
    apply StationLaw.handOver
    · exact fun b => h.1 b
    · intro h; cases h
  complete := fun s h _ _ => h

theorem StationLaw.choice {s : State} (h : StationLaw s) : StationLaw s.arbiterChoice := stationLaw_closed.choice s h

/-- The table after the end of an exchange is that before it, or that after the outcome record (R4, R78). -/
theorem State.concludeExchange_stations (s : State) (r : ExchangeRecord) (o : AttemptOutcome) :
    (s.concludeExchange r o).1.stations = s.stations ∨
      (r.discard = false ∧ r.origin ≠ .broadcast ∧
        (s.concludeExchange r o).1.stations = (s.tableTakes r.station (r.outcomeRecord o)).1.stations) := by
  unfold State.concludeExchange State.slotEnded State.deliverEnd State.deliverDiscarded State.deliverOutcome
    State.ticketTakes
  dsimp only
  split
  · exact Or.inl rfl
  · split
    · left; split <;> rfl
    · rename_i h1 h2
      right
      refine ⟨by simpa using h2, h1, ?_⟩
      rw [State.imageTakes_frame]
      split <;> rfl

/-- The end of an exchange keeps the law of every entry (R4 to R9). -/
theorem State.concludeExchange_entries {s : State} (h : ∀ a, (s.entry a).Law) {r : ExchangeRecord} (hr : r.DataLaw s)
    (hsh : r.ShapeLaw) (o : AttemptOutcome) (a : Nat) : ((s.concludeExchange r o).1.entry a).Law := by
  rcases State.concludeExchange_stations s r o with he | ⟨hd, hob, he⟩
  · rw [State.entry_congr he]; exact h a
  · rw [State.entry_congr he, State.entry_tableTakes]
    split
    · refine StationEntry.law_take (h _) _ ?_
      intro hf
      refine hr hd ?_
      simp only [ExchangeRecord.outcomeRecord] at hf
      unfold ExchangeRecord.ShapeLaw at hsh
      split at hsh
      · exact absurd ‹_› hob
      · rcases hsh with e | e <;> rw [e] <;> rfl
      · exact absurd hsh hf
      · exact absurd hsh hf
      · rcases hsh with e | e | e | e <;> rw [e] <;> first | rfl | exact absurd e hf
    · exact h a

end Sys2Proof.Machine
end

