-- ==== Sys2Proof/Laws/ImageLaw.lean ====
section
/-! SUPPORT. The law of the process image (R23 to R33) over each operation that touches an area, an entry or the record in
flight. -/

namespace Sys2Proof.Machine

/-! ## The areas of one address -/

theorem AreasLaw.mono {e : StationEntry} {ar : Option Areas} {p q : Prop} (h : AreasLaw e ar p) (hpq : p → q) :
    AreasLaw e ar q := by
  unfold AreasLaw at h ⊢
  split at h
  · trivial
  · exact ⟨h.1, h.2.1, h.2.2.1, fun hs => hpq (h.2.2.2 hs)⟩
  · exact h
  · exact h

theorem AreasLaw.ofNoProfile {e : StationEntry} {p : Prop} (h : e.profile = none) : AreasLaw e none p := by
  unfold AreasLaw; rw [h]; trivial

/-- An UNUSED entry without areas (R23, R25). -/
theorem AreasLaw.unused (p : Prop) : AreasLaw .unused none p := AreasLaw.ofNoProfile rfl

/-- A new definition with its new areas (R24). -/
theorem AreasLaw.defined (pr : Profile) (p : Prop) : AreasLaw (.defined pr) (some pr.freshAreas) p := by
  unfold AreasLaw
  simp [StationEntry.defined, Profile.freshAreas]

/-- Every entry and its areas at a WARM restart (R22, R41). -/
theorem AreasLaw.warm {e : StationEntry} {ar : Option Areas} {p : Prop} (h : AreasLaw e ar p) (q : Prop) :
    AreasLaw e.warm (ar.map Areas.warm) q := by
  unfold AreasLaw at h
  unfold StationEntry.warm
  split at h
  · rename_i hp; rw [hp]; exact AreasLaw.unused q
  · rename_i hp
    rw [hp]
    unfold AreasLaw
    simp [Areas.warm, h.1, h.2.1]
  · exact absurd h id
  · exact absurd h id

/-- The input area marked STALE suits every state of the entry with the same profile (R29). -/
theorem AreasLaw.markStale {e e' : StationEntry} {ar : Option Areas} {p : Prop} (h : AreasLaw e ar p)
    (hp : e'.profile = e.profile) : AreasLaw e' (ar.map Areas.markStale) p := by
  unfold AreasLaw at h ⊢
  rw [hp]
  split at h
  · rename_i h1; rw [h1]; trivial
  · rename_i h1
    rw [h1]
    simp only [Option.map_some, Areas.markStale]
    refine ⟨h.1, h.2.1, ?_, h.2.2.2⟩
    intro hf
    split at hf
    · cases hf
    · exact absurd hf ‹_›
  · exact absurd h id
  · exact absurd h id

/-- Areas kept by an entry that stays ONLINE if it was, with the same profile. -/
theorem AreasLaw.entry {e e' : StationEntry} {ar : Option Areas} {p : Prop} (h : AreasLaw e ar p)
    (hp : e'.profile = e.profile) (hs : e.state = .online → e'.state = .online) : AreasLaw e' ar p := by
  unfold AreasLaw at h ⊢
  rw [hp]
  split at h
  · trivial
  · exact ⟨h.1, h.2.1, fun hf => hs (h.2.2.1 hf), h.2.2.2⟩
  · exact absurd h id
  · exact absurd h id

/-- Areas changed in ways that keep lengths, make nothing FRESH and make nothing SENDING that is not allowed. -/
theorem AreasLaw.map {e : StationEntry} {ar : Option Areas} {p q : Prop} (h : AreasLaw e ar p) (f : Areas → Areas)
    (h1 : ∀ a, (f a).input = a.input)
    (h2 : ∀ a pr, e.profile = some pr → a.output.bytes.length = pr.outLen → (f a).output.bytes.length = pr.outLen)
    (h3 : ∀ a, (f a).output.state = .sending → (a.output.state = .sending → p) → q) :
    AreasLaw e (ar.map f) q := by
  unfold AreasLaw at h ⊢
  split at h
  · rename_i hp; rw [hp]; trivial
  · rename_i hp
    rw [hp]
    simp only [Option.map_some]
    refine ⟨by rw [h1]; exact h.1, h2 _ _ hp h.2.1, by rw [h1]; exact h.2.2.1, fun hs => h3 _ hs h.2.2.2⟩
  · exact absurd h id
  · exact absurd h id

/-- The areas at the end of an exchange: a delivery needs an ONLINE station and in_len bytes (R27), and after an EXCHANGE
nothing is SENDING (R32, R33). -/
theorem AreasLaw.exchangeEnded {e : StationEntry} {ar : Option Areas} {p : Prop} (h : AreasLaw e ar p)
    (f : LineFunction) (o : AttemptOutcome) (bytes : List Byte)
    (hd : (f = .exchange ∨ f = .sample) ∧ o = .good →
      e.state = .online ∧ ∀ pr, e.profile = some pr → bytes.length = pr.inLen)
    (q : Prop) (hq : f ≠ .exchange → p → q) : AreasLaw e (ar.map (fun a => a.exchangeEnded f o bytes)) q := by
  unfold AreasLaw at h ⊢
  split at h
  · rename_i hp; rw [hp]; trivial
  · rename_i hp
    rw [hp]
    simp only [Option.map_some, Areas.exchangeEnded]
    refine ⟨?_, ?_, ?_, ?_⟩
    · split
      · rename_i hc; exact (hd hc).2 _ hp
      · exact h.1
    · split
      · exact h.2.1
      · exact h.2.1
    · split
      · rename_i hc; exact fun _ => (hd hc).1
      · exact h.2.2.1
    · split
      · intro hs
        simp only [OutputArea.resolve] at hs
        split at hs
        · split at hs <;> cases hs
        · exact absurd hs ‹_›
      · rename_i hf; exact fun hs => hq hf (h.2.2.2 hs)
  · exact absurd h id
  · exact absurd h id

/-! ## Allocation -/

/-- The store's use depends on the profiles alone (R23). -/
theorem State.allocated_congr {s t : State} (h : ∀ a, (t.entry a).profile = (s.entry a).profile) :
    t.allocated = s.allocated := by
  unfold State.allocated
  congr 1
  refine List.map_congr_left (fun a _ => ?_)
  unfold State.allocationOf
  rw [h]

/-- The store's use as that of one address and that of the others (R15, check 4). -/
theorem State.allocated_eq (s : State) {a : Nat} (h : validAddress a = true) :
    s.allocated = s.allocatedExcept a + s.allocationOf a := by
  unfold State.allocated State.allocatedExcept
  have hm : a ∈ addresses := by
    simp only [validAddress, decide_eq_true_eq] at h
    simp only [addresses, List.mem_range'_1]
    omega
  have hn : addresses.Nodup := List.nodup_range' 1
  generalize addresses = l at hm hn
  induction l with
  | nil => cases hm
  | cons b l ih =>
    simp only [List.nodup_cons] at hn
    simp only [List.map_cons, List.sum_cons, List.filter_cons]
    by_cases hb : b = a
    · subst hb
      have : l.filter (fun c => c != b) = l := by
        refine List.filter_eq_self.2 (fun c hc => ?_)
        simp only [bne_iff_ne, ne_eq]
        rintro rfl
        exact hn.1 hc
      simp [this]; omega
    · have hm' : a ∈ l := by
        rcases List.mem_cons.1 hm with rfl | h
        · exact absurd rfl hb
        · exact h
      simp only [bne_iff_ne, ne_eq, hb, not_false_eq_true, if_true, List.map_cons, List.sum_cons]
      rw [ih hm' hn.2]
      omega

/-- The use of the others does not depend on an address's own entry. -/
theorem State.allocatedExcept_congr {s t : State} {a : Nat}
    (h : ∀ b, b ≠ a → (t.entry b).profile = (s.entry b).profile) : t.allocatedExcept a = s.allocatedExcept a := by
  unfold State.allocatedExcept
  congr 1
  refine List.map_congr_left (fun b hb => ?_)
  unfold State.allocationOf
  rw [h]
  simpa using (List.mem_filter.1 hb).2

/-- An outcome record keeps the profile (R2). -/
@[simp] theorem StationEntry.take_profile (e : StationEntry) (o : OutcomeRecord) : (e.take o).profile = e.profile := by
  unfold StationEntry.take StationEntry.takeProbe StationEntry.takeData StationEntry.fail
  split
  · rfl
  · dsimp only
    split
    · split
      · rfl
      · split <;> rfl
    · split <;> rfl

/-- A success keeps an ONLINE station ONLINE (R5). -/
theorem StationEntry.take_success {e : StationEntry} {o : OutcomeRecord} (hf : o.func ≠ .probe)
    (ho : o.outcome.isFailure = false) : (e.take o).state = e.state := by
  unfold StationEntry.take StationEntry.takeData
  split
  · rfl
  · dsimp only; rw [if_neg hf, ho]; simp

/-! ## The whole image -/

/-- The law without the record: no area is SENDING. -/
def ImageIdle (s : State) : Prop :=
  (∀ a, AreasLaw (s.entry a) (s.areas a) False) ∧ s.allocated ≤ Config.imageStoreSize

theorem ImageIdle.congr {s t : State} (h : ImageIdle s) (h1 : t.stations = s.stations) (h2 : t.image = s.image) :
    ImageIdle t := by
  refine ⟨fun a => ?_, ?_⟩
  · rw [State.entry_congr h1, State.areas_congr h2]; exact h.1 a
  · rw [State.allocated_congr (s := s) (fun a => by rw [State.entry_congr h1])]; exact h.2

/-- With no record in flight the law is that of the idle image. -/
theorem ImageLaw.ofIdle {s : State} (h : ImageIdle s) (hr : s.engine.record = none) : ImageLaw s :=
  ⟨fun a => (h.1 a).mono False.elim, h.2, fun r h => by rw [hr] at h; cases h⟩

theorem ImageLaw.idle {s : State} (h : ImageLaw s) (hr : s.engine.record = none) : ImageIdle s :=
  ⟨fun a => (h.1 a).mono (by rintro ⟨r, h1, -⟩; rw [hr] at h1; cases h1), h.2.1⟩

/-- The law over changes that leave table and image alone and change the record in ways that keep its EXCHANGE. -/
theorem ImageLaw.congr {s t : State} (h : ImageLaw s) (h1 : t.stations = s.stations) (h2 : t.image = s.image)
    (h3 : ∀ a, s.exchangeInFlight a → t.exchangeInFlight a)
    (h4 : ∀ r, t.engine.record = some r → r.ReplyLaw t) : ImageLaw t := by
  refine ⟨fun a => ?_, ?_, h4⟩
  · rw [State.entry_congr h1, State.areas_congr h2]; exact (h.1 a).mono (h3 a)
  · rw [State.allocated_congr (s := s) (fun a => by rw [State.entry_congr h1])]; exact h.2.1

/-- The law over changes that leave table, image and record alone. -/
theorem ImageLaw.same {s t : State} (h : ImageLaw s) (h1 : t.stations = s.stations) (h2 : t.image = s.image)
    (h3 : t.engine.record = s.engine.record) : ImageLaw t := by
  refine h.congr h1 h2 (fun a => ?_) (fun r hr => ?_)
  · rintro ⟨r, hr, hx⟩; exact ⟨r, h3 ▸ hr, hx⟩
  · intro a b c p hp
    rw [State.entry_congr h1] at hp
    exact h.2.2 r (h3 ▸ hr) a b c p hp

/-- The record changed in fields that the law does not read. -/
theorem ImageLaw.mapRecord {s t : State} (h : ImageLaw s) (F : ExchangeRecord → ExchangeRecord)
    (hF : ∀ r, (F r).func = r.func ∧ (F r).station = r.station ∧ (F r).discard = r.discard ∧
      (r.ReplyLaw s → (F r).ReplyLaw s))
    (h1 : t.stations = s.stations) (h2 : t.image = s.image) (h3 : t.engine.record = s.engine.record.map F) :
    ImageLaw t := by
  refine h.congr h1 h2 (fun a => ?_) (fun r hr => ?_)
  · rintro ⟨r, hr, hs, hf, hd⟩
    obtain ⟨f1, f2, f3, -⟩ := hF r
    exact ⟨F r, by rw [h3, hr]; rfl, by rw [f2]; exact hs, by rw [f1]; exact hf, by rw [f3]; exact hd⟩
  · rw [h3] at hr
    cases hq : s.engine.record with
    | none => rw [hq] at hr; cases hr
    | some q =>
      rw [hq] at hr
      simp only [Option.map_some, Option.some.injEq] at hr
      subst hr
      intro a b c p hp
      rw [State.entry_congr h1] at hp
      exact (hF q).2.2.2 (h.2.2 q hq) a b c p hp

/-- A hand-over captures the outputs of its own station alone (R31, R62). -/
theorem ImageLaw.handOver {s : State} (h : ImageIdle s) (a : Nat) (f : LineFunction) (o : Origin) (d : List Byte) :
    ImageLaw (s.handOver a f o d) := by
  have hst : ∀ b, (s.handOver a f o d).entry b = s.entry b := fun b => State.entry_congr (by simp) b
  refine ⟨fun b => ?_, ?_, fun r hr => ?_⟩
  · rw [hst]
    by_cases hf : f = .exchange
    · subst hf
      have hi : (s.handOver a .exchange o d).image = (s.capture a).1.image := by
        unfold State.handOver; rfl
      rw [State.areas_congr hi]
      unfold State.capture
      split
      · rename_i ar har
        rw [State.areas_setAreas]
        split
        · rename_i hb
          obtain ⟨rfl, -⟩ := hb
          have := AreasLaw.map (q := (s.handOver b .exchange o d).exchangeInFlight b) (h.1 b)
            (fun ar => { ar with output := ar.output.capture }) (fun _ => rfl) (fun _ _ _ h => h) (fun _ _ _ => by
              refine ⟨_, by rw [State.handOver_engine], ?_, rfl, rfl⟩
              rfl)
          rw [har] at this
          exact this
        · exact (h.1 b).mono False.elim
      · exact (h.1 b).mono False.elim
    · have hi : (s.handOver a f o d).image = s.image := by unfold State.handOver; rw [if_neg hf]; rfl
      rw [State.areas_congr hi]
      exact (h.1 b).mono False.elim
  · rw [State.allocated_congr (s := s) (fun b => by rw [hst])]; exact h.2
  · rw [State.handOver_engine] at hr
    simp only [Option.some.injEq] at hr
    subst hr
    intro _ hg
    cases hg

/-- A choice keeps the law of the image: it hands exchanges to an IDLE engine alone, which holds no record (R31, R100). -/
theorem imageLaw_closed : ChoiceClosed (fun s => LineLaw s ∧ ImageLaw s) where
  grant := fun s h hi hh =>
    ⟨lineLaw_closed.grant s h.1 hi hh,
      ImageLaw.ofIdle ((h.2.idle (h.1.record_of_idle hi)).congr rfl rfl) rfl⟩
  broadcast := fun s f h hi hf =>
    ⟨lineLaw_closed.broadcast s f h.1 hi hf, by
      unfold State.handBroadcast
      exact ImageLaw.same (ImageLaw.handOver (h.2.idle (h.1.record_of_idle hi)) 0 f .broadcast []) rfl rfl rfl⟩
  own := fun s t h hi ht hk =>
    ⟨lineLaw_closed.own s t h.1 hi ht hk, by
      unfold State.putOnLine
      exact ImageLaw.handOver ((h.2.idle (h.1.record_of_idle hi)).congr (by simp) (by simp)) _ _ _ _⟩
  resync := fun s t h hi ht hk =>
    ⟨lineLaw_closed.resync s t h.1 hi ht hk,
      ImageLaw.handOver ((h.2.idle (h.1.record_of_idle hi)).congr (by simp) (by simp)) _ _ _ _⟩
  down := fun s t h hi ht => ⟨lineLaw_closed.down s t h.1 hi ht, by
    rw [State.completeTicket_frame]
    exact h.2.same rfl rfl rfl⟩
  skip := fun s a h hi ha hc hj => ⟨lineLaw_closed.skip s a h.1 hi ha hc hj, h.2.same rfl rfl rfl⟩
  slot := fun s a f o h hi ha hc hj =>
    ⟨lineLaw_closed.slot s a f o h.1 hi ha hc hj, by
      unfold State.takeOffer
      dsimp only
      apply ImageLaw.handOver
      exact ImageIdle.congr (h.2.idle (h.1.record_of_idle hi)) rfl rfl⟩
  enter := fun s h hi ha => ⟨lineLaw_closed.enter s h.1 hi ha, h.2.same rfl rfl rfl⟩
  probe := fun s a h hi ha hb hf =>
    ⟨lineLaw_closed.probe s a h.1 hi ha hb hf, by
      unfold State.takeOffer
      dsimp only
      apply ImageLaw.handOver
      exact ImageIdle.congr (h.2.idle (h.1.record_of_idle hi)) rfl rfl⟩
  complete := fun s h hi ha => ⟨lineLaw_closed.complete s h.1 hi ha, h.2.same rfl rfl rfl⟩

theorem ImageLaw.choice {s : State} (h : LineLaw s ∧ ImageLaw s) : LineLaw s.arbiterChoice ∧ ImageLaw s.arbiterChoice :=
  imageLaw_closed.choice s h

/-! ## The end of an exchange -/

/-- Addresses outside 1..63 have no areas (R23). -/
theorem State.areas_of_invalid (s : State) {a : Nat} (h : validAddress a = false) : s.areas a = none := by
  unfold State.areas
  simp only [validAddress, decide_eq_false_iff_not, not_and, not_le] at h
  split
  · rename_i ha
    rw [Vector.getElem?_eq_none (by have := h ha; omega)]
    rfl
  · rfl

/-- The areas of any address after an outcome record (R12, R29). -/
theorem State.areas_tableTakes (s : State) (a b : Nat) (o : OutcomeRecord) :
    (s.tableTakes a o).1.areas b =
      if b = a ∧ (s.entry a).state = .online ∧ ((s.entry a).take o).state ≠ .online then
        (s.areas b).map Areas.markStale
      else s.areas b := by
  unfold State.tableTakes
  dsimp only
  split
  · rename_i h
    rw [State.areas_markStale]
    by_cases hb : b = a
    · rw [if_pos hb, if_pos ⟨hb, h⟩, State.areas_setEntry]
    · rw [if_neg hb, if_neg (by tauto), State.areas_setEntry]
  · rename_i h
    rw [if_neg (by tauto), State.areas_setEntry]

/-- The areas of any address after the image has taken the end of an exchange (R27, R32, R33). -/
theorem State.areas_imageTakes (s : State) (a b : Nat) (f : LineFunction) (o : AttemptOutcome) (bytes : List Byte) :
    (s.imageTakes a f o bytes).1.areas b =
      if b = a then (s.areas b).map (fun ar => ar.exchangeEnded f o bytes) else s.areas b := by
  unfold State.imageTakes
  split
  · rename_i h
    by_cases hb : b = a
    · subst hb; rw [if_pos rfl, h]; rfl
    · rw [if_neg hb]
  · rename_i ar h
    rw [State.areas_setAreas]
    by_cases hb : b = a
    · subst hb
      rw [if_pos rfl, h]
      by_cases hv : validAddress b = true
      · rw [if_pos ⟨rfl, by simpa [validAddress] using hv⟩]; rfl
      · rw [State.areas_of_invalid s (by simpa using hv)] at h; cases h
    · rw [if_neg (by tauto), if_neg hb]

/-- The entries an imageTakes leaves. -/
@[simp] theorem State.entry_imageTakes (s : State) (a b : Nat) (f : LineFunction) (o : AttemptOutcome)
    (bytes : List Byte) : (s.imageTakes a f o bytes).1.entry b = s.entry b :=
  State.entry_congr (by rw [State.imageTakes_frame]) b

/-- The entry and areas of an address after the station table has taken an outcome record (R4, R12, R29). -/
theorem State.tableTakes_areasLaw {s : State} {p : Prop} (a b : Nat) (o : OutcomeRecord)
    (h : AreasLaw (s.entry b) (s.areas b) p) :
    AreasLaw ((s.tableTakes a o).1.entry b) ((s.tableTakes a o).1.areas b) p := by
  by_cases hv : validAddress b = true
  · have hv' : 1 ≤ b ∧ b ≤ 63 := by simpa [validAddress] using hv
    rw [State.entry_tableTakes, State.areas_tableTakes]
    by_cases hb : b = a
    · subst hb
      rw [if_pos ⟨rfl, hv'⟩]
      split
      · exact h.markStale (by simp)
      · rename_i hc
        exact h.entry (by simp) (fun hs => by tauto)
    · rw [if_neg (by tauto), if_neg (by tauto)]; exact h
  · rw [State.entry_of_invalid _ (by simpa using hv), State.areas_of_invalid _ (by simpa using hv)]
    exact AreasLaw.unused p

/-- After the end of an exchange or broadcast no area is SENDING (R32, R33, R79). `hgood` says that the data of a GOOD reply
number in_len. -/
theorem State.concludeExchange_areasLaw {s : State} {r : ExchangeRecord} {o : AttemptOutcome}
    (h : ∀ b, AreasLaw (s.entry b) (s.areas b) (r.station = b ∧ r.func = .exchange ∧ r.discard = false))
    (hsh : r.ShapeLaw) (hd : r.DataLaw s)
    (hgood : o = .good → r.discard = false → (r.func = .exchange ∨ r.func = .sample) →
      ∀ p, (s.entry r.station).profile = some p → r.replyData.length = p.inLen) (b : Nat) :
    AreasLaw ((s.concludeExchange r o).1.entry b) ((s.concludeExchange r o).1.areas b) False := by
  have hframe : ∀ b, (s.concludeExchange r o).1.entry b = (s.deliverEnd r o).1.entry b ∧
      (s.concludeExchange r o).1.areas b = (s.deliverEnd r o).1.areas b := fun b =>
    ⟨State.entry_congr rfl b, State.areas_congr rfl b⟩
  rw [(hframe b).1, (hframe b).2]
  have hnot : r.func ≠ .exchange → AreasLaw (s.entry b) (s.areas b) False := fun hf => (h b).mono (fun hx => hf hx.2.1)
  unfold State.deliverEnd
  split
  · rename_i hb
    unfold ExchangeRecord.ShapeLaw at hsh
    rw [hb] at hsh
    exact hnot (by rcases hsh.1 with e | e <;> rw [e] <;> simp)
  · split
    · rename_i hdis
      have : AreasLaw (s.entry b) (s.areas b) False := (h b).mono (fun hx => by rw [hdis] at hx; cases hx.2.2)
      unfold State.deliverDiscarded State.ticketTakes
      split <;> exact this
    · rename_i hdis
      have hdis' : r.discard = false := by simpa using hdis
      have hprobe : r.func = .probe →
          AreasLaw ((s.tableTakes r.station (r.outcomeRecord o)).1.entry b)
            ((s.tableTakes r.station (r.outcomeRecord o)).1.areas b) False := fun hp =>
        State.tableTakes_areasLaw _ _ _ (hnot (by rw [hp]; simp))
      have himage : AreasLaw
          (((s.tableTakes r.station (r.outcomeRecord o)).1.imageTakes r.station r.func o r.replyData).1.entry b)
          (((s.tableTakes r.station (r.outcomeRecord o)).1.imageTakes r.station r.func o r.replyData).1.areas b)
          False := by
        have ht := State.tableTakes_areasLaw (s := s) r.station b (r.outcomeRecord o) (h b)
        rw [State.entry_imageTakes, State.areas_imageTakes]
        by_cases hb : b = r.station
        · rw [if_pos hb]
          refine AreasLaw.exchangeEnded ht r.func o r.replyData ?_ False (fun hf hx => hf hx.2.1)
          rintro ⟨hf, ho⟩
          have hdata : r.func.isData = true := by rcases hf with e | e <;> rw [e] <;> rfl
          have hon := hd hdis' hdata
          rw [State.entry_tableTakes]
          subst hb
          have hval := State.valid_of_entry s (a := r.station) (by rw [hon]; simp)
          rw [if_pos ⟨rfl, hval⟩]
          refine ⟨?_, ?_⟩
          · rw [StationEntry.take_success, hon]
            · rcases hf with e | e <;> simp [ExchangeRecord.outcomeRecord, e]
            · simp [ExchangeRecord.outcomeRecord, ho, AttemptOutcome.isFailure]
          · intro p hp
            rw [StationEntry.take_profile] at hp
            exact hgood ho hdis' hf p hp
        · rw [if_neg hb]
          exact ht.mono (fun hx => hb hx.1.symm)
      unfold State.deliverOutcome
      unfold ExchangeRecord.ShapeLaw at hsh
      dsimp only
      split
      · rename_i ho; rw [ho] at hsh; exact hprobe hsh
      · rename_i ho; exact absurd ho ‹_›
      · exact himage
      · rename_i ho; rw [ho] at hsh; exact hprobe hsh
      · exact himage

/-- The end of an exchange keeps every profile (R2). -/
theorem State.concludeExchange_profile (s : State) (r : ExchangeRecord) (o : AttemptOutcome) (b : Nat) :
    ((s.concludeExchange r o).1.entry b).profile = (s.entry b).profile := by
  rcases State.concludeExchange_stations s r o with he | ⟨-, -, he⟩
  · rw [State.entry_congr he]
  · rw [State.entry_congr he, State.entry_tableTakes]
    split
    · rename_i hb; rw [StationEntry.take_profile, hb.1]
    · rfl

/-- The data of a complete reply number what its length character says (R49, R66). -/
theorem ExchangeRecord.replyData_length {r : ExchangeRecord} (h : r.replyComplete = true) :
    r.replyData.length = (r.replyByte 2).toNat := by
  unfold ExchangeRecord.replyComplete at h
  simp only [Bool.and_eq_true, decide_eq_true_eq, beq_iff_eq] at h
  unfold ExchangeRecord.replyData
  simp only [List.length_map, List.length_dropLast, List.length_drop]
  omega

/-- A reply judged GOOD has the length that suits its function (R67, test 6). -/
theorem ExchangeRecord.judge_good {r : ExchangeRecord} {suits : Bool} (h : r.judge suits = .good) : suits = true := by
  unfold ExchangeRecord.judge at h
  dsimp only at h
  repeat' split at h
  all_goals first | assumption | cases h

/-! ## The law over commands and events -/

/-- A record whose last outcome is not GOOD keeps the law of its reply. -/
theorem ExchangeRecord.replyLaw_of_ne {r : ExchangeRecord} {s : State} (h : r.lastOutcome ≠ some .good) :
    r.ReplyLaw s := fun _ hg => absurd hg h

/-- The record replaced by one of the same station, function and flag (R66, R69). -/
theorem ImageLaw.record {s t : State} (h : ImageLaw s) {r q : ExchangeRecord} (hr : s.engine.record = some r)
    (hq : t.engine.record = some q) (e : q.func = r.func ∧ q.station = r.station ∧ q.discard = r.discard)
    (h1 : t.stations = s.stations) (h2 : t.image = s.image) (h4 : q.ReplyLaw s) : ImageLaw t := by
  refine h.congr h1 h2 (fun a => ?_) (fun x hx => ?_)
  · rintro ⟨x, hx, h1, h2, h3⟩
    rw [hr] at hx; cases hx
    exact ⟨q, hq, by rw [e.2.1]; exact h1, by rw [e.1]; exact h2, by rw [e.2.2]; exact h3⟩
  · rw [hq] at hx; cases hx
    intro a b c p hp; rw [State.entry_congr h1] at hp; exact h4 a b c p hp

/-- A classification other than GOOD keeps the law (R68). -/
theorem ImageLaw.classify {s : State} (h : ImageLaw s) (o : AttemptOutcome) (hg : o ≠ .good) :
    ImageLaw (s.classifyAttempt o) := by
  refine h.mapRecord (fun r => r.classified o)
    (fun r => ⟨rfl, rfl, rfl, fun _ => ExchangeRecord.replyLaw_of_ne ?_⟩) rfl rfl rfl
  simpa [ExchangeRecord.classified] using hg

/-- A define or remove: the station's entry and areas are replaced together and its exchange is discarded (R16, R18, R24,
R25, R79). -/
theorem ImageLaw.redefine {s t : State} (h : ImageLaw s) (a : Nat) (e : StationEntry) (ar : Option Areas)
    (hva : validAddress a = true) (hst : t.stations = (s.setEntry a e).stations)
    (him : t.image = (s.setAreas a ar).image) (hen : t.engine = (s.discardExchange a).engine)
    (hok : AreasLaw e ar False)
    (hal : s.allocatedExcept a + (match e.profile with | some p => p.allocation | none => 0) ≤ Config.imageStoreSize) :
    ImageLaw t := by
  have hent : ∀ b, t.entry b = if b = a ∧ 1 ≤ a ∧ a ≤ 63 then e else s.entry b := fun b => by
    rw [State.entry_congr hst, State.entry_setEntry]
  have hv : 1 ≤ a ∧ a ≤ 63 := by simpa [validAddress] using hva
  refine ⟨fun b => ?_, ?_, fun r hr => ?_⟩
  · rw [hent, State.areas_congr him, State.areas_setAreas]
    by_cases hb : b = a
    · rw [if_pos ⟨hb, hv⟩, if_pos ⟨hb, hv⟩]; exact hok.mono False.elim
    · rw [if_neg (by tauto), if_neg (by tauto)]
      refine (h.1 b).mono ?_
      rintro ⟨r, hr, h1, h2, h3⟩
      refine ⟨r, ?_, h1, h2, h3⟩
      rw [hen]; simp [State.discardExchange, hr, show r.station ≠ a by rw [h1]; exact hb]
  · rw [State.allocated_eq t hva, State.allocatedExcept_congr (s := s) (fun b hb => by rw [hent, if_neg (by tauto)])]
    unfold State.allocationOf
    rw [hent, if_pos ⟨rfl, hv⟩]; exact hal
  · rw [hen] at hr
    simp only [State.discardExchange] at hr
    cases hq : s.engine.record with
    | none => rw [hq] at hr; cases hr
    | some q =>
      rw [hq] at hr; simp only [Option.map_some, Option.some.injEq] at hr; subst hr
      split
      · exact fun hd => by cases hd
      · rename_i hne
        intro a b c p hp
        rw [hent, if_neg (by tauto)] at hp
        exact h.2.2 q hq a b c p hp

/-- After the end of an exchange the image is that of an idle part (R27, R32, R33). -/
theorem ImageLaw.concludeExchange {s : State} {r : ExchangeRecord} {o : AttemptOutcome} (h : ImageLaw s)
    (hr' : ∃ q, s.engine.record = some q ∧ q.station = r.station ∧ q.func = r.func ∧ q.discard = r.discard)
    (hsh : r.ShapeLaw) (hd : r.DataLaw s)
    (hgood : o = .good → r.discard = false → (r.func = .exchange ∨ r.func = .sample) →
      ∀ p, (s.entry r.station).profile = some p → r.replyData.length = p.inLen) :
    ImageIdle (s.concludeExchange r o).1 := by
  obtain ⟨q, hq, e1, e2, e3⟩ := hr'
  refine ⟨fun b => ?_, ?_⟩
  · refine State.concludeExchange_areasLaw (fun b => (h.1 b).mono ?_) hsh hd hgood b
    rintro ⟨x, hx, h1, h2, h3⟩
    rw [hq] at hx; cases hx
    exact ⟨e1 ▸ h1, e2 ▸ h2, e3 ▸ h3⟩
  · rw [State.allocated_congr (fun a => State.concludeExchange_profile s r o a)]; exact h.2.1

/-- The areas of any address after several were marked STALE (R29). -/
theorem State.areas_foldMarkStale (l : List Nat) (s : State) (b : Nat) :
    (l.foldl State.markStale s).areas b = if b ∈ l then (s.areas b).map Areas.markStale else s.areas b := by
  induction l generalizing s with
  | nil => simp
  | cons a l ih =>
    simp only [List.foldl_cons]
    rw [ih, State.areas_markStale]
    by_cases h1 : b = a
    · subst h1
      simp only [if_true, List.mem_cons, true_or]
      split
      · cases s.areas b with
        | none => rfl
        | some ar =>
          simp only [Option.map_some, Option.some.injEq, Areas.markStale]
          by_cases hx : ar.input.state = .fresh <;> simp [hx]
      · rfl
    · simp [h1]

/-- The areas of any address after an item was written (R35). -/
theorem State.areas_writeItem (s : State) (w : WriteItem) (b : Nat) :
    (s.writeItem w).areas b =
      if b = w.address then
        (s.areas b).map (fun ar =>
          { ar with output := { ar.output with bytes := overlay ar.output.bytes w.offset w.data } })
      else s.areas b := by
  unfold State.writeItem
  rw [State.areas_setAreas]
  by_cases hb : b = w.address
  · subst hb
    by_cases hv : 1 ≤ w.address ∧ w.address ≤ 63
    · rw [if_pos ⟨rfl, hv⟩, if_pos rfl]
    · rw [if_neg (by tauto), if_pos rfl, State.areas_of_invalid s (by simpa [validAddress] using hv)]; rfl
  · rw [if_neg (by tauto), if_neg hb]

/-- The areas of any address after one was touched (R35). -/
theorem State.areas_touch (s : State) (a : Nat) (b : Nat) :
    (s.touch a).areas b =
      if b = a then (s.areas b).map (fun ar => { ar with output := ar.output.touched }) else s.areas b := by
  unfold State.touch
  rw [State.areas_setAreas]
  by_cases hb : b = a
  · subst hb
    by_cases hv : 1 ≤ b ∧ b ≤ 63
    · rw [if_pos ⟨rfl, hv⟩, if_pos rfl]
    · rw [if_neg (by tauto), if_pos rfl, State.areas_of_invalid s (by simpa [validAddress] using hv)]; rfl
  · rw [if_neg (by tauto), if_neg hb]

/-- An IMAGE_WRITE whose items all pass keeps the law of every address (R34, R35). -/
theorem State.applyItems_areasLaw {s0 : State} (items : List WriteItem)
    (hf : items.findSome? s0.itemFault = none) (P : Nat → Prop)
    (hs : ∀ b, AreasLaw (s0.entry b) (s0.areas b) (P b)) :
    ∀ b, AreasLaw ((s0.applyItems items).entry b) ((s0.applyItems items).areas b) (P b) := by
  have hitem : ∀ w ∈ items, ∀ p, (s0.entry w.address).profile = some p → w.offset + w.data.length ≤ p.outLen := by
    intro w hw p hp
    have := List.findSome?_eq_none_iff.1 hf w hw
    unfold State.itemFault at this
    split at this; cases this
    rw [hp] at this
    dsimp only at this
    split at this; cases this
    omega
  have step1 : ∀ (ws : List WriteItem), (∀ w ∈ ws, w ∈ items) → ∀ s : State, s.stations = s0.stations →
      (∀ b, AreasLaw (s0.entry b) (s.areas b) (P b)) →
      (ws.foldl State.writeItem s).stations = s0.stations ∧
        ∀ b, AreasLaw (s0.entry b) ((ws.foldl State.writeItem s).areas b) (P b) := by
    intro ws
    induction ws with
    | nil => intro _ s h1 h2; exact ⟨h1, h2⟩
    | cons w ws ih =>
      intro hm s h1 h2
      refine ih (fun w hw => hm w (List.mem_cons_of_mem _ hw)) _ (by simp [State.writeItem, h1]) (fun b => ?_)
      rw [State.areas_writeItem]
      split
      · rename_i hb
        refine AreasLaw.map (h2 b) _ (fun _ => rfl) ?_ (fun a hs h => h hs)
        intro a pr hpr hl
        have := hitem w (hm w List.mem_cons_self) pr (hb ▸ hpr)
        simp [overlay, hl]; omega
      · exact h2 b
  have step2 : ∀ (ws : List Nat), ∀ s : State, s.stations = s0.stations →
      (∀ b, AreasLaw (s0.entry b) (s.areas b) (P b)) →
      (ws.foldl State.touch s).stations = s0.stations ∧
        ∀ b, AreasLaw (s0.entry b) ((ws.foldl State.touch s).areas b) (P b) := by
    intro ws
    induction ws with
    | nil => intro s h1 h2; exact ⟨h1, h2⟩
    | cons w ws ih =>
      intro s h1 h2
      refine ih _ (by simp [State.touch, h1]) (fun b => ?_)
      rw [State.areas_touch]
      split
      · exact AreasLaw.map (h2 b) _ (fun _ => rfl) (fun a pr _ h => h) (fun a hs _ => by cases hs)
      · exact h2 b
  obtain ⟨a1, a2⟩ := step1 items (fun _ h => h) s0 rfl hs
  obtain ⟨b1, b2⟩ := step2 (items.map WriteItem.address).eraseDups _ a1 a2
  intro b
  have : (s0.applyItems items).entry b = s0.entry b := State.entry_congr b1 b
  rw [this]; exact b2 b

/-- The image keeps its law when the handover state follows LREQ after a reset (R161). -/
theorem State.followLreq_imageLaw {s : State} (h1 : s.engine = .empty .idle) (h2 : s.line.rx ≠ .off)
    (h3 : s.sup.handover = .none) (h : ImageIdle s) : ImageLaw s.followLreq := by
  unfold State.followLreq
  split
  · exact ImageLaw.ofIdle (h.congr rfl rfl) rfl
  · rename_i hl
    exact (ImageLaw.choice ⟨LineLaw.idle h1 h2 (by rw [h3]; simp) (by rw [h3]; simpa using hl),
      ImageLaw.ofIdle h (by rw [h1]; rfl)⟩).2

end Sys2Proof.Machine
end

