-- ==== Sys2Proof/Laws/PerInstr.lean ====
section
/-! SUPPORT. What well-formedness asks of each command, one lemma for each constructor. -/

namespace Sys2Proof.Laws

/-- A command with no `order` is well formed; one with an `order` is well formed exactly when the order names only blocks
whose requests can fall at its row (R10, R11, R28, R72, R97, R114, R158; log entry 5). -/
def WellFormedness.Statement (i : Instr) : Prop :=
  match i with
  | .quietTimerExpiry order => i.wellFormed = true ↔ ∀ src ∈ order.reports, src ≠ .engine ∧ src ≠ .supervision
  | .jamTimerExpiry order => i.wellFormed = true ↔ ∀ src ∈ order, src ≠ .image ∧ src ≠ .supervision
  | .lreqNegated order => i.wellFormed = true ↔ ∀ src ∈ order.reports, src = .stationTable ∨ src = .supervision
  | _ => i.wellFormed = true

theorem WellFormedness.hello : WellFormedness.Statement .hello := rfl

theorem WellFormedness.lineSetup : WellFormedness.Statement .lineSetup := rfl

theorem WellFormedness.status : WellFormedness.Statement .status := rfl

theorem WellFormedness.stationDefine : WellFormedness.Statement .stationDefine := rfl

theorem WellFormedness.stationRemove : WellFormedness.Statement .stationRemove := rfl

theorem WellFormedness.stationQuery : WellFormedness.Statement .stationQuery := rfl

theorem WellFormedness.cycleSet : WellFormedness.Statement .cycleSet := rfl

theorem WellFormedness.cycleStart : WellFormedness.Statement .cycleStart := rfl

theorem WellFormedness.cycleStop : WellFormedness.Statement .cycleStop := rfl

theorem WellFormedness.cycleQuery : WellFormedness.Statement .cycleQuery := rfl

theorem WellFormedness.imageWrite : WellFormedness.Statement .imageWrite := rfl

theorem WellFormedness.imageRead : WellFormedness.Statement .imageRead := rfl

theorem WellFormedness.submit : WellFormedness.Statement .submit := rfl

theorem WellFormedness.cancel : WellFormedness.Statement .cancel := rfl

theorem WellFormedness.ticketQuery : WellFormedness.Statement .ticketQuery := rfl

theorem WellFormedness.credit : WellFormedness.Statement .credit := rfl

theorem WellFormedness.holdSetup : WellFormedness.Statement .holdSetup := rfl

theorem WellFormedness.resume : WellFormedness.Statement .resume := rfl

theorem WellFormedness.restart : WellFormedness.Statement .restart := rfl

theorem WellFormedness.badType : WellFormedness.Statement .badType := rfl

theorem WellFormedness.hostByteReceived (value : Byte) (stopBit : Bool) : WellFormedness.Statement (.hostByteReceived value stopBit) := rfl

theorem WellFormedness.hostGapTimeout : WellFormedness.Statement .hostGapTimeout := rfl

theorem WellFormedness.responseTaken : WellFormedness.Statement .responseTaken := rfl

theorem WellFormedness.reportTaken : WellFormedness.Statement .reportTaken := rfl

theorem WellFormedness.transmitEnd : WellFormedness.Statement .transmitEnd := rfl

theorem WellFormedness.restartTakesEffect (crcByte : Option Byte) :
    WellFormedness.Statement (.restartTakesEffect crcByte) := rfl

theorem WellFormedness.pinReset (hrate1 hrate0 : Bool) : WellFormedness.Statement (.pinReset hrate1 hrate0) := rfl

theorem WellFormedness.startDetected (start : BitSamples) : WellFormedness.Statement (.startDetected start) := rfl

theorem WellFormedness.characterDelivered (samples : CharSamples) : WellFormedness.Statement (.characterDelivered samples) := rfl

theorem WellFormedness.lowLineBrokenCharacter : WellFormedness.Statement .lowLineBrokenCharacter := rfl

theorem WellFormedness.frameSent : WellFormedness.Statement .frameSent := rfl

theorem WellFormedness.replyTimeoutExpiry : WellFormedness.Statement .replyTimeoutExpiry := rfl

theorem WellFormedness.gapTimerExpiry : WellFormedness.Statement .gapTimerExpiry := rfl

theorem WellFormedness.quietTimerExpiry (order : IdleOrder) : WellFormedness.Statement (.quietTimerExpiry order) := by
  unfold WellFormedness.Statement
  simp only [Instr.wellFormed, List.all_eq_true]
  exact forall₂_congr (fun src _ => by cases src <;> simp [ReportSource.asksAtExchangeEnd])

theorem WellFormedness.jamTimerExpiry (order : List ReportSource) : WellFormedness.Statement (.jamTimerExpiry order) := by
  unfold WellFormedness.Statement
  simp only [Instr.wellFormed, List.all_eq_true]
  exact forall₂_congr (fun src _ => by cases src <;> simp [ReportSource.asksAtJam])

theorem WellFormedness.periodTimerExpiry : WellFormedness.Statement .periodTimerExpiry := rfl

theorem WellFormedness.holdTimerExpiry : WellFormedness.Statement .holdTimerExpiry := rfl

theorem WellFormedness.lreqAsserted : WellFormedness.Statement .lreqAsserted := rfl

theorem WellFormedness.lreqNegated (order : IdleOrder) : WellFormedness.Statement (.lreqNegated order) := by
  unfold WellFormedness.Statement
  simp only [Instr.wellFormed, List.all_eq_true]
  exact forall₂_congr (fun src _ => by cases src <;> simp [ReportSource.asksAtReturn])

theorem WellFormedness.limitTimerExpiry : WellFormedness.Statement .limitTimerExpiry := rfl

theorem WellFormedness.hrxdStartBit : WellFormedness.Statement .hrxdStartBit := rfl

end Sys2Proof.Laws
end

