-- ==== Sys2Proof/Laws/Reading.lean ====
section
/-! SUPPORT. The reading of several blocks by HELLO and STATUS (R138, R144, R145): what one reading leaves of the others, and what
a row of readings does. -/

namespace Sys2Proof.Machine

/-- A reading changes nothing that another block answers (R138). -/
theorem State.blockBytes_readOne (k : ReadKind) (s : State) {b c : ReadBlock} (h : b ≠ c) :
    (s.readOne k b).blockBytes k c = s.blockBytes k c := by
  unfold State.readOne State.clearRead
  by_cases h1 : k = .status true ∧ b = .linePort
  · rw [if_pos h1]
    cases c <;> first | rfl | simp_all
  · rw [if_neg h1]
    by_cases h2 : k = .status true ∧ b = .hostLink
    · rw [if_pos h2]
      cases c <;> first | rfl | simp_all
    · rw [if_neg h2]
      cases c <;> rfl

/-- The state with the statistics cleared that a clearing STATUS clears as it reads the blocks given (R60, R145). -/
def State.clearedOf (s : State) (k : ReadKind) (bs : List ReadBlock) : State :=
  { s with
    line := { s.line with stats := if k = .status true ∧ .linePort ∈ bs then .zero else s.line.stats }
    host := { s.host with stats := if k = .status true ∧ .hostLink ∈ bs then .zero else s.host.stats } }

/-- Blocks read one after the other, each once: every block's bytes are those it holds before the first reading, and what is
cleared is what the readings clear. -/
theorem State.foldl_readOne (k : ReadKind) (m : Message) (bs : List ReadBlock) (s : State)
    (reads : List (ReadBlock × List Byte)) (hp : s.host.processor = .deciding m reads) (hn : bs.Nodup) :
    bs.foldl (State.readOne k) s = { s.clearedOf k bs with
      host := { (s.clearedOf k bs).host with
        processor := .deciding m (reads ++ bs.map (fun b => (b, s.blockBytes k b))) } } := by
  induction bs generalizing s reads with
  | nil => simp [State.clearedOf, ← hp]
  | cons b bs ih =>
    rw [List.nodup_cons] at hn
    have hp' : (s.readOne k b).host.processor = .deciding m (reads ++ [(b, s.blockBytes k b)]) := by
      unfold State.readOne State.clearRead
      split <;> (try split) <;> simp [hp, Processor.note]
    have e : bs.map (fun c => (c, (s.readOne k b).blockBytes k c)) = bs.map (fun c => (c, s.blockBytes k c)) :=
      List.map_congr_left (fun c hc => by
        rw [State.blockBytes_readOne k s (by rintro rfl; exact hn.1 hc)])
    rw [List.foldl_cons, ih _ _ hp' hn.2, e]
    unfold State.clearedOf State.readOne State.clearRead
    by_cases h1 : k = .status true ∧ b = .linePort
    · simp [h1]
    · rw [if_neg h1]
      by_cases h2 : k = .status true ∧ b = .hostLink
      · simp [h2]
      · rw [if_neg h2]
        by_cases hk : k = .status true
        · simp [Ne.symm (fun h => h1 ⟨hk, h⟩ : b ≠ .linePort), Ne.symm (fun h => h2 ⟨hk, h⟩ : b ≠ .hostLink)]
        · simp [hk]

/-- The blocks left hold none twice. -/
theorem ReadKind.left_nodup (k : ReadKind) (reads : List (ReadBlock × List Byte)) : (k.left reads).Nodup := by
  unfold ReadKind.left
  apply List.Nodup.filter
  cases k <;> simp [ReadKind.blocks]

/-- In the readings made and those of the blocks left, a block is found with what was read first, or with its bytes now. -/
theorem ReadKind.lookup_left (k : ReadKind) (reads : List (ReadBlock × List Byte)) (f : ReadBlock → List Byte) {b : ReadBlock}
    (hb : b ∈ k.blocks) :
    ((reads ++ (k.left reads).map (fun c => (c, f c))).lookup b).getD [] = (reads.lookup b).getD (f b) := by
  rw [List.lookup_append]
  cases hl : reads.lookup b with
  | some x => simp
  | none =>
    have hm : b ∈ k.left reads := by
      rw [ReadKind.left, List.mem_filter]
      refine ⟨hb, ?_⟩
      rw [List.lookup_eq_none_iff] at hl
      simp only [Bool.not_eq_true', List.contains_eq_mem, decide_eq_false_iff_not, List.mem_map, not_exists, not_and]
      rintro p hp rfl
      simpa using hl p hp
    generalize k.left reads = l at hm
    simp only [Option.or, Option.getD_none]
    induction l with
    | nil => cases hm
    | cons c l ih =>
      rw [List.map_cons, List.lookup_cons]
      by_cases hc : b = c
      · subst hc
        simp
      · rw [show (b == c) = false by simpa using hc]
        exact ih ((List.mem_cons.1 hm).resolve_left hc)

end Sys2Proof.Machine
end

