-- ==== Sys2Proof/Laws/Tickets.lean ====
section
/-! SUPPORT. The ticket table: tickets found, given a new state, placed and removed, and that the law of tickets and
completions is kept (R106, R107, R114, R115). -/

namespace Sys2Proof.Machine

/-- The ticket law over a queue and the contents of the completion entries. -/
def TicketsLaw (q : List Ticket) (c : List DemandDone) : Prop :=
  q.length ≤ Config.ticketCapacity ∧ (q.map Ticket.id).Nodup ∧ c.Perm (doneReports q)

theorem TicketLaw_iff (s : State) : TicketLaw s ↔ TicketsLaw s.tickets.queue (completions s.reports.queue) := Iff.rfl

/-- The report a ticket asks for in its present state. -/
def Ticket.doneReport (t : Ticket) : List DemandDone :=
  match t.state with
  | .done res => [t.report res]
  | .queued | .onLine => []

theorem doneReports_nil : doneReports [] = [] := rfl

theorem doneReports_append (q q' : List Ticket) : doneReports (q ++ q') = doneReports q ++ doneReports q' := by
  simp [doneReports]

theorem doneReports_cons (t : Ticket) (q : List Ticket) : doneReports (t :: q) = t.doneReport ++ doneReports q := by
  unfold doneReports Ticket.doneReport
  cases h : t.state <;> simp [h]

/-- A ticket of a queue with distinct ids stands alone with its id. -/
theorem split_of_mem {q : List Ticket} (hn : (q.map Ticket.id).Nodup) {u : Ticket} (hu : u ∈ q) :
    ∃ as bs, q = as ++ u :: bs ∧ (∀ x ∈ as, x.id ≠ u.id) ∧ (∀ x ∈ bs, x.id ≠ u.id) := by
  obtain ⟨as, bs, rfl⟩ := List.append_of_mem hu
  refine ⟨as, bs, rfl, ?_, ?_⟩
  · intro x hx he
    simp only [List.map_append, List.map_cons, List.nodup_append, List.mem_map, List.mem_cons] at hn
    exact hn.2.2 _ ⟨x, hx, rfl⟩ _ (Or.inl rfl) he
  · intro x hx he
    simp only [List.map_append, List.map_cons, List.nodup_append, List.nodup_cons, List.mem_map] at hn
    exact hn.2.1.1 ⟨x, hx, he⟩

/-- A list is unchanged by giving a new state to an id it does not hold. -/
theorem map_state_of_ne {q : List Ticket} {id : Byte} {st : TicketState} (h : ∀ x ∈ q, x.id ≠ id) :
    q.map (fun u => if u.id = id then { u with state := st } else u) = q := by
  conv_rhs => rw [← List.map_id q]
  apply List.map_congr_left
  intro x hx
  simp [h x hx]

/-- The queue with a new state for one of its tickets. -/
theorem setState_split {as bs : List Ticket} {u : Ticket} {k : Byte} {st : TicketState} (ha : ∀ x ∈ as, x.id ≠ u.id)
    (hb : ∀ x ∈ bs, x.id ≠ u.id) :
    (TicketTable.setState ⟨as ++ u :: bs, k⟩ u.id st).queue = as ++ { u with state := st } :: bs := by
  simp only [TicketTable.setState, List.map_append, List.map_cons, if_true]
  rw [map_state_of_ne ha, map_state_of_ne hb]

@[simp] theorem TicketTable.setState_ids (t : TicketTable) (id : Byte) (st : TicketState) :
    (t.setState id st).queue.map Ticket.id = t.queue.map Ticket.id := by
  simp only [TicketTable.setState, List.map_map]
  apply List.map_congr_left
  intro x _
  simp only [Function.comp]
  split <;> rfl

@[simp] theorem TicketTable.setState_length (t : TicketTable) (id : Byte) (st : TicketState) :
    (t.setState id st).queue.length = t.queue.length := by simp [TicketTable.setState]

@[simp] theorem TicketTable.setState_idCounter (t : TicketTable) (id : Byte) (st : TicketState) :
    (t.setState id st).idCounter = t.idCounter := rfl

/-- A found ticket is live and holds the id. -/
theorem TicketTable.find_some {t : TicketTable} {id : Byte} {u : Ticket} (h : t.find id = some u) :
    u ∈ t.queue ∧ u.id = id := by
  unfold TicketTable.find at h
  exact ⟨List.mem_of_find?_eq_some h, by simpa using List.find?_some h⟩

/-- A live ticket of a table with distinct ids is the one found under its id. -/
theorem TicketTable.find_of_mem {t : TicketTable} (hn : (t.queue.map Ticket.id).Nodup) {u : Ticket} (hu : u ∈ t.queue) :
    t.find u.id = some u := by
  obtain ⟨as, bs, hq, ha, -⟩ := split_of_mem hn hu
  unfold TicketTable.find
  rw [hq, List.find?_append]
  have : List.find? (fun x => x.id == u.id) as = none := by simpa using fun x hx => ha x hx
  simp [this]

/-- A ticket that is not DONE asks for no report. -/
theorem Ticket.doneReport_of_not_done {t : Ticket} (h : t.isDone = false) : t.doneReport = [] := by
  unfold Ticket.isDone at h; unfold Ticket.doneReport
  cases hs : t.state <;> simp_all

/-- A ticket that is put ON_LINE, or left in any state that is not DONE, leaves the law. -/
theorem TicketsLaw.setState {t : TicketTable} {c : List DemandDone} (h : TicketsLaw t.queue c) {u : Ticket}
    (hu : u ∈ t.queue) (hd : u.isDone = false) {st : TicketState} (hst : ∀ r, st ≠ .done r) :
    TicketsLaw (t.setState u.id st).queue c := by
  obtain ⟨hl, hn, hp⟩ := h
  refine ⟨by simpa using hl, by simpa using hn, ?_⟩
  obtain ⟨as, bs, hq, ha, hb⟩ := split_of_mem hn hu
  have ht : t = ⟨as ++ u :: bs, t.idCounter⟩ := by rw [← hq]
  rw [ht, setState_split ha hb]
  rw [hq] at hp
  rw [doneReports_append, doneReports_cons, Ticket.doneReport_of_not_done hd] at hp
  rw [doneReports_append, doneReports_cons]
  have : Ticket.doneReport { u with state := st } = [] := by
    cases st with
    | queued => rfl
    | onLine => rfl
    | done r => exact absurd rfl (hst r)
  rw [this]
  exact hp

/-- A ticket's completion keeps the law once its report is placed (R114). -/
theorem TicketsLaw.complete {t : TicketTable} {c : List DemandDone} (h : TicketsLaw t.queue c) (id : Byte)
    (res : TicketResult) :
    TicketsLaw (t.complete id res).1.queue (c ++ completionRequests (t.complete id res).2) := by
  unfold TicketTable.complete
  split
  · simpa [completionRequests] using h
  · rename_i u hu
    obtain ⟨hmem, hid⟩ := TicketTable.find_some hu
    split
    · simpa [completionRequests] using h
    · rename_i hd
      obtain ⟨hl, hn, hp⟩ := h
      refine ⟨by simpa using hl, by simpa using hn, ?_⟩
      obtain ⟨as, bs, hq, ha, hb⟩ := split_of_mem hn hmem
      have ht : t = ⟨as ++ u :: bs, t.idCounter⟩ := by rw [← hq]
      rw [← hid, ht, setState_split ha hb]
      rw [hq, doneReports_append, doneReports_cons, Ticket.doneReport_of_not_done (by simpa using hd)] at hp
      rw [doneReports_append, doneReports_cons]
      have : Ticket.doneReport { u with state := .done res } = [u.report res] := rfl
      rw [this]
      simp only [completionRequests, List.filterMap_cons, List.filterMap_nil]
      refine (hp.append_right _).trans ?_
      simp only [List.nil_append, List.append_assoc]
      exact List.Perm.append_left _ List.perm_append_comm

/-- A completion changes neither the ids nor the number of tickets. -/
theorem TicketTable.complete_shape (t : TicketTable) (id : Byte) (res : TicketResult) :
    (t.complete id res).1.queue.map Ticket.id = t.queue.map Ticket.id ∧
      (t.complete id res).1.queue.length = t.queue.length ∧ (t.complete id res).1.idCounter = t.idCounter := by
  unfold TicketTable.complete
  split
  · simp
  · split <;> simp

/-- The ticket that a DEMAND_DONE report names leaves with it (R115). -/
theorem TicketsLaw.leave {t : TicketTable} {c : List DemandDone} (d : DemandDone)
    (h : TicketsLaw t.queue (d :: c)) : TicketsLaw (t.queue.filter (fun u => u.id != d.id)) c := by
  obtain ⟨hl, hn, hp⟩ := h
  refine ⟨le_trans (List.length_filter_le _ _) hl, (List.filter_sublist.map Ticket.id).nodup hn, ?_⟩
  have hmem : d ∈ doneReports t.queue := hp.subset List.mem_cons_self
  unfold doneReports at hmem
  rw [List.mem_filterMap] at hmem
  obtain ⟨u, hu, hud⟩ := hmem
  have hrep : ∃ r, u.state = .done r ∧ u.report r = d := by
    cases hs : u.state <;> simp_all
  obtain ⟨r, hs, hr⟩ := hrep
  have hid : d.id = u.id := by rw [← hr]; rfl
  obtain ⟨as, bs, hq, ha, hb⟩ := split_of_mem hn hu
  have hf : t.queue.filter (fun x => x.id != d.id) = as ++ bs := by
    rw [hq, List.filter_append, List.filter_cons, hid]
    rw [List.filter_eq_self.2 (by simpa using ha), List.filter_eq_self.2 (by simpa using hb)]
    simp
  rw [hf]
  rw [hq, doneReports_append, doneReports_cons] at hp
  have : u.doneReport = [d] := by unfold Ticket.doneReport; rw [hs]; simp [hr]
  rw [this] at hp
  rw [doneReports_append]
  exact (List.perm_cons d).1 (hp.trans (by simp))

/-! ## Queue order (R110) -/

/-- The eligible ticket is a live QUEUED ticket that is not blocked by those ahead of it. -/
theorem firstEligible_some {held : Bool} {ahead q : List Ticket} {t : Ticket} (h : firstEligible held ahead q = some t) :
    t ∈ q ∧ t.isQueued = true ∧ (t.func = .paramWrite → held = false) := by
  induction q generalizing ahead with
  | nil => simp [firstEligible] at h
  | cons x xs ih =>
    simp only [firstEligible] at h
    split at h
    · rename_i hx
      simp only [Option.some.injEq] at h
      subst h
      simp only [Bool.and_eq_true, Bool.not_eq_true', Ticket.blockedBehind, Bool.or_eq_false_iff] at hx
      refine ⟨List.mem_cons_self, hx.1, fun hf => ?_⟩
      simpa [hf] using hx.2.2
    · obtain ⟨h1, h2⟩ := ih h
      exact ⟨List.mem_cons_of_mem _ h1, h2⟩

/-- A QUEUED ticket is not DONE. -/
theorem Ticket.not_done_of_queued {t : Ticket} (h : t.isQueued = true) : t.isDone = false := by
  unfold Ticket.isQueued at h; unfold Ticket.isDone
  cases hs : t.state <;> simp_all

/-- DONE tickets block none, and are none (R110): with some of them gone, the same ticket is eligible. -/
theorem firstEligible_filter (held : Bool) (keep : Ticket → Bool) (ahead q : List Ticket)
    (h : ∀ x ∈ ahead ++ q, keep x = false → x.isDone = true) :
    firstEligible held (ahead.filter keep) (q.filter keep) = firstEligible held ahead q := by
  induction q generalizing ahead with
  | nil => rfl
  | cons t q ih =>
    have hq : ∀ x ∈ (ahead ++ [t]) ++ q, keep x = false → x.isDone = true := by simpa using h
    have ha : (ahead.filter keep).any (fun u => u.station == t.station && u.isWaiting) =
        ahead.any (fun u => u.station == t.station && u.isWaiting) := by
      rw [List.any_filter, Bool.eq_iff_iff, List.any_eq_true, List.any_eq_true]
      constructor
      · rintro ⟨x, hx, hp⟩
        exact ⟨x, hx, (Bool.and_eq_true _ _ ▸ hp).2⟩
      · rintro ⟨x, hx, hp⟩
        refine ⟨x, hx, ?_⟩
        cases hk : keep x with
        | true => simpa using hp
        | false =>
          have hd := h x (List.mem_append_left _ hx) hk
          simp [Ticket.isWaiting, hd] at hp
    cases hk : keep t with
    | true =>
      rw [List.filter_cons_of_pos hk]
      simp only [firstEligible, Ticket.blockedBehind, ha]
      rw [← ih _ hq, List.filter_append]
      simp [hk]
    | false =>
      have hd : t.isDone = true := h t (by simp) hk
      have hn : t.isQueued = false := by
        cases hc : t.isQueued with
        | false => rfl
        | true => rw [Ticket.not_done_of_queued hc] at hd; exact absurd hd (by decide)
      rw [List.filter_cons_of_neg (by simp [hk])]
      simp only [firstEligible, hn, Bool.false_and, Bool.false_eq_true, if_false]
      rw [← ih _ hq, List.filter_append]
      simp [hk]

/-- The ticket that a DEMAND_DONE report names is DONE (R114). -/
theorem TicketsLaw.done_of_report {q : List Ticket} {c : List DemandDone} {d : DemandDone} (h : TicketsLaw q c) (hd : d ∈ c)
    {x : Ticket} (hx : x ∈ q) (hid : x.id = d.id) : x.isDone = true := by
  obtain ⟨-, hn, hp⟩ := h
  have hmem := hp.subset hd
  unfold doneReports at hmem
  rw [List.mem_filterMap] at hmem
  obtain ⟨u, hu, hud⟩ := hmem
  cases hs : u.state with
  | queued => rw [hs] at hud; cases hud
  | onLine => rw [hs] at hud; cases hud
  | done r =>
    rw [hs, Option.some.injEq] at hud
    have hux : x = u := List.inj_on_of_nodup_map hn hx hu (by rw [hid, ← hud]; rfl)
    rw [hux, Ticket.isDone, hs]

/-! ## Submission (R107, R109) -/

/-- Of `n + 1` ids tried from one on, `firstFree` answers a free one if at most `n` of them are held. -/
theorem TicketTable.firstFree_free (t : TicketTable) (n : Nat) (id : Byte)
    (h : ∃ k ≤ n, t.isFree (id + BitVec.ofNat 8 k) = true) : t.isFree (t.firstFree n id) = true := by
  induction n generalizing id with
  | zero =>
    obtain ⟨k, hk, hf⟩ := h
    obtain rfl : k = 0 := by omega
    simpa [TicketTable.firstFree] using hf
  | succ n ih =>
    simp only [TicketTable.firstFree]
    split
    · assumption
    · rename_i hnf
      apply ih
      obtain ⟨k, hk, hf⟩ := h
      cases k with
      | zero => simp at hf; exact absurd hf hnf
      | succ k =>
        refine ⟨k, by omega, ?_⟩
        have : id + 1 + BitVec.ofNat 8 k = id + BitVec.ofNat 8 (k + 1) := by
          rw [BitVec.add_assoc]
          congr 1
          apply BitVec.eq_of_toNat_eq
          simp
          omega
        rw [this]; exact hf

/-- An id is free when no live ticket holds it. -/
theorem TicketTable.isFree_iff (t : TicketTable) (id : Byte) : t.isFree id = true ↔ id ∉ t.queue.map Ticket.id := by
  unfold TicketTable.isFree TicketTable.find
  rw [Option.isNone_iff_eq_none, List.find?_eq_none]
  simp only [beq_iff_eq, List.mem_map, not_exists, not_and]

/-- With fewer than 16 live tickets the next id is free (R107). -/
theorem TicketTable.nextId_free (t : TicketTable) (h : t.queue.length < 16) : t.isFree t.nextId = true := by
  apply firstFree_free
  by_contra hno
  simp only [not_exists, not_and, Bool.not_eq_true] at hno
  have hall : ∀ k < 16, t.idCounter + BitVec.ofNat 8 k ∈ t.queue.map Ticket.id := by
    intro k hk
    have := hno k (by omega)
    by_contra hc
    rw [(isFree_iff t _).2 hc] at this
    simp at this
  have hsub : ((List.range 16).map (fun k => t.idCounter + BitVec.ofNat 8 k)) ⊆ t.queue.map Ticket.id := by
    intro x hx
    simp only [List.mem_map, List.mem_range] at hx
    obtain ⟨k, hk, rfl⟩ := hx
    exact hall k hk
  have hnd : ((List.range 16).map (fun k => t.idCounter + BitVec.ofNat 8 k)).Nodup := by
    refine List.Nodup.map_on ?_ List.nodup_range
    intro x hx y hy hxy
    simp only [List.mem_range] at hx hy
    have h1 : BitVec.ofNat 8 x = BitVec.ofNat 8 y := by simpa using hxy
    have h2 := congrArg BitVec.toNat h1
    simp at h2
    omega
  have hlen := (hnd.subperm hsub).length_le
  simp at hlen
  omega

/-- A new QUEUED ticket under a free id keeps the law (R106, R108). -/
theorem TicketsLaw.insertAt {t : TicketTable} {c : List DemandDone} (h : TicketsLaw t.queue c) (n : Nat) {u : Ticket}
    (hu : u.isQueued = true) (hlen : t.queue.length < Config.ticketCapacity) (hfree : t.isFree u.id = true) :
    TicketsLaw (t.insertAt n u).queue c := by
  obtain ⟨hl, hn, hp⟩ := h
  have hperm : (t.insertAt n u).queue.Perm (u :: t.queue) := by
    simp only [TicketTable.insertAt]
    refine List.perm_middle.trans (List.Perm.cons _ ?_)
    rw [List.take_append_drop]
  refine ⟨?_, ?_, ?_⟩
  · rw [hperm.length_eq]; simpa using hlen
  · rw [(hperm.map Ticket.id).nodup_iff]
    simp only [List.map_cons, List.nodup_cons]
    exact ⟨(TicketTable.isFree_iff t u.id).1 hfree, hn⟩
  · refine hp.trans ?_
    have : (doneReports (t.insertAt n u).queue).Perm (doneReports (u :: t.queue)) := hperm.filterMap _
    rw [doneReports_cons, Ticket.doneReport_of_not_done (Ticket.not_done_of_queued hu)] at this
    exact this.symm

end Sys2Proof.Machine
end

