-- ==== Sys2Proof/Laws/TicketLaw.lean ====
section
/-! SUPPORT. The law of tickets and completions (R106, R114) over each operation of the state. -/

namespace Sys2Proof.Machine

/-- The law reads the completions up to their order. -/
theorem TicketsLaw.of_perm {q : List Ticket} {c c' : List DemandDone} (h : TicketsLaw q c) (hp : c'.Perm c) :
    TicketsLaw q c' := ⟨h.1, h.2.1, hp.trans h.2.2⟩

theorem TicketLaw.congr {s t : State} (h : TicketLaw s) (ht : t.tickets.queue = s.tickets.queue)
    (hr : completions t.reports.queue = completions s.reports.queue) : TicketLaw t := by
  unfold TicketLaw; rw [ht, hr]; exact h

/-! ## The law with requests still to be placed -/

theorem completionRequests_append (a b : List ReportRequest) :
    completionRequests (a ++ b) = completionRequests a ++ completionRequests b := by simp [completionRequests]

/-- The law holds once the completions `c` are placed. -/
def TicketLawAwaiting (s : State) (c : List DemandDone) : Prop :=
  TicketsLaw s.tickets.queue (completions s.reports.queue ++ c)

theorem ticketLawAwaiting_nil {s : State} : TicketLawAwaiting s [] ↔ TicketLaw s := by
  unfold TicketLawAwaiting; rw [List.append_nil]; exact Iff.rfl

/-- A report taken leaves the law, whatever is still to be placed: a completion leaves together with its ticket (R115). -/
theorem TicketLawAwaiting.takeReport {s : State} {c : List DemandDone} (h : TicketLawAwaiting s c) {e : ReportEntry}
    {rest : List ReportEntry} (hq : s.reports.queue = e :: rest) : TicketLawAwaiting (s.takeReport e) c := by
  unfold TicketLawAwaiting at *
  rw [hq] at h
  have hr : (s.takeReport e).reports.queue = rest := by simp [State.takeReport, ReportUnit.taken, hq]
  rw [hr]
  cases e with
  | demandDone d =>
    rw [completions_cons] at h
    exact TicketsLaw.leave (t := s.tickets) d h
  | inputChange a => exact h
  | stationState a b n => exact h
  | cycleDone x n => exact h
  | lineFault n a => exact h
  | supervision x y z => exact h

/-- A report that is due, taken, leaves the law. -/
theorem TicketLawAwaiting.takeDueReport {s : State} {c : List DemandDone} (h : TicketLawAwaiting s c) :
    TicketLawAwaiting s.takeDueReport c :=
  State.takeDueReport_keeps (P := fun s => TicketLawAwaiting s c) (fun _ _ _ h hq _ => h.takeReport hq) h

/-- A request placed is awaited no more. -/
theorem TicketLawAwaiting.place {s : State} {r : ReportRequest} {c : List DemandDone}
    (h : TicketLawAwaiting s (completionRequests [r] ++ c)) : TicketLawAwaiting (s.place r) c := by
  have hd := h.takeDueReport
  unfold TicketLawAwaiting at *
  rw [State.place_tickets, State.place_reports, (ReportUnit.place_spec _ r).2.2.2, List.append_assoc]
  cases r <;> exact hd

/-- Requests placed are awaited no more. -/
theorem TicketLawAwaiting.placeAll {s : State} {rs : List ReportRequest} {c : List DemandDone}
    (h : TicketLawAwaiting s (completionRequests rs ++ c)) : TicketLawAwaiting (s.placeAll rs) c := by
  unfold State.placeAll
  induction rs generalizing s with
  | nil => exact h
  | cons r rs ih =>
    refine ih (TicketLawAwaiting.place ?_)
    rw [← List.append_assoc, ← completionRequests_append]
    exact h

/-- Notices placed leave the law. -/
theorem TicketLaw.placeAll {s : State} (h : TicketLaw s) {rs : List ReportRequest} (hr : completionRequests rs = []) :
    TicketLaw (s.placeAll rs) := by
  refine ticketLawAwaiting_nil.1 (TicketLawAwaiting.placeAll ?_)
  rw [hr]
  exact ticketLawAwaiting_nil.2 h

theorem TicketLaw.place {s : State} (h : TicketLaw s) {r : ReportRequest} (hr : r.isCompletion = false) :
    TicketLaw (s.place r) := by
  refine h.placeAll (rs := [r]) ?_
  cases r <;> first | rfl | cases hr

/-- A completed ticket with its report placed leaves the law (R114). -/
theorem TicketLaw.completeTicket {s : State} (h : TicketLaw s) (id : Byte) (res : TicketResult) :
    TicketLaw (s.completeTicket id res) := by
  refine ticketLawAwaiting_nil.1 (TicketLawAwaiting.placeAll ?_)
  unfold TicketLawAwaiting
  rw [List.append_nil]
  exact TicketsLaw.complete (t := s.tickets) h id res

/-- A report taken leaves the law (R115). -/
theorem TicketLaw.takeReport {s : State} (h : TicketLaw s) {e : ReportEntry} {rest : List ReportEntry}
    (hq : s.reports.queue = e :: rest) : TicketLaw (s.takeReport e) :=
  ticketLawAwaiting_nil.1 ((ticketLawAwaiting_nil.2 h).takeReport hq)

/-- A ticket put ON_LINE leaves the law. -/
theorem TicketLaw.setState {s : State} (h : TicketLaw s) {u : Ticket} (hu : u ∈ s.tickets.queue)
    (hd : u.isDone = false) {st : TicketState} (hst : ∀ r, st ≠ .done r) :
    TicketsLaw (s.tickets.setState u.id st).queue (completions s.reports.queue) :=
  TicketsLaw.setState (t := s.tickets) h hu hd hst

theorem State.eligibleTicket_some {s : State} {t : Ticket} (h : s.eligibleTicket = some t) :
    t ∈ s.tickets.queue ∧ t.isQueued = true ∧ (t.func = .paramWrite → s.isHeld = false) := firstEligible_some h

theorem ticketLaw_closed : ChoiceClosed TicketLaw where
  grant := fun s h _ _ => TicketLaw.place (s := s.lendLine) (h.congr rfl rfl) rfl
  broadcast := fun s f h _ _ => h.congr (by unfold State.handBroadcast; dsimp only; rw [State.handOver_tickets])
    (by unfold State.handBroadcast; dsimp only; rw [State.handOver_reports])
  own := fun s t h _ ht _ => by
    obtain ⟨hm, hq, -⟩ := State.eligibleTicket_some ht
    have key := TicketLaw.setState h hm (Ticket.not_done_of_queued hq) (st := .onLine) (by simp)
    rw [TicketLaw_iff]
    unfold State.putOnLine
    rw [State.handOver_tickets, State.handOver_reports]
    simp only [State.spendAllowance_tickets, State.spendAllowance_reports]
    exact key
  resync := fun s t h _ _ _ => h.congr (by rw [State.handOver_tickets]; simp) (by rw [State.handOver_reports]; simp)
  down := fun s t h _ _ => h.completeTicket _ _
  skip := fun s a h _ _ _ _ => h
  slot := fun s a f o h _ _ _ _ => h.congr (by unfold State.takeOffer; rw [State.handOver_tickets]; rfl)
    (by unfold State.takeOffer; rw [State.handOver_reports]; rfl)
  enter := fun s h _ _ => h
  probe := fun s a h _ _ _ _ => h.congr (by unfold State.takeOffer; rw [State.handOver_tickets]; rfl)
    (by unfold State.takeOffer; rw [State.handOver_reports]; rfl)
  complete := fun s h _ _ => (TicketLaw.place h rfl : TicketLaw (s.place (.cycleDone s.sched.summary)))

/-- The taking of a report that is due leaves the eligible ticket as it is (R110, R115). -/
theorem TicketLaw.eligibleTicket_takeDueReport {s : State} (h : TicketLaw s) :
    s.takeDueReport.eligibleTicket = s.eligibleTicket := by
  cases hd : s.dueReport with
  | none => rw [State.takeDueReport_of_none hd]
  | some e =>
    rw [State.takeDueReport_of_due hd]
    obtain ⟨⟨rest, hq⟩, -⟩ := State.dueReport_some hd
    cases e with
    | demandDone d =>
      refine firstEligible_filter s.isHeld (fun u => u.id != d.id) [] s.tickets.queue (fun x hx hk => ?_)
      refine TicketsLaw.done_of_report (d := d) h ?_ hx (by simpa using hk)
      rw [hq, completions_cons]
      exact List.mem_cons_self
    | inputChange a => rfl
    | stationState a b n => rfl
    | cycleDone c n => rfl
    | lineFault n a => rfl
    | supervision x y z => rfl

/-- A report placed leaves the eligible ticket as it is (R110, R115, R141). -/
theorem TicketLaw.eligibleTicket_place {s : State} (h : TicketLaw s) (r : ReportRequest) :
    (s.place r).eligibleTicket = s.eligibleTicket := h.eligibleTicket_takeDueReport

/-- A choice keeps the law. -/
theorem TicketLaw.choice {s : State} (h : TicketLaw s) : TicketLaw s.arbiterChoice := ticketLaw_closed.choice s h

theorem TicketLaw.withdrawTickets {s : State} (h : TicketLaw s) (a : Nat) : TicketLaw (s.withdrawTickets a) := by
  unfold State.withdrawTickets
  generalize s.tickets.queuedOf a = ids
  induction ids generalizing s with
  | nil => exact h
  | cons id ids ih => exact ih (h.completeTicket id _)

/-- An accepted SUBMIT's ticket keeps the law (R106 to R109). -/
theorem TicketLaw.placeTicket {s : State} (h : TicketLaw s) {u : Ticket} (hu : u.isQueued = true)
    (hid : u.id = s.tickets.nextId) (hlen : s.tickets.queue.length < Config.ticketCapacity) :
    TicketLaw (s.placeTicket u) := by
  have hf : s.tickets.isFree u.id = true := by rw [hid]; exact s.tickets.nextId_free hlen
  exact TicketsLaw.insertAt (t := s.tickets) h (s.tickets.positionFor u.priority u.station) hu hlen hf

/-! ## The end of an exchange -/

@[simp] theorem State.tableTakes_tickets (s : State) (a : Nat) (o : OutcomeRecord) :
    (s.tableTakes a o).1.tickets = s.tickets := by
  unfold State.tableTakes; dsimp only; split <;> simp

@[simp] theorem State.imageTakes_tickets (s : State) (a : Nat) (f : LineFunction) (o : AttemptOutcome)
    (b : List Byte) : (s.imageTakes a f o b).1.tickets = s.tickets := by
  unfold State.imageTakes; split <;> simp

/-- Requests of the station table are notices. -/
theorem State.tableTakes_completions (s : State) (a : Nat) (o : OutcomeRecord) :
    completionRequests ((s.tableTakes a o).2.map Prod.snd) = [] := by
  unfold State.tableTakes; dsimp only; split <;> rfl

/-- Requests of the image are notices. -/
theorem State.imageTakes_completions (s : State) (a : Nat) (f : LineFunction) (o : AttemptOutcome) (b : List Byte) :
    completionRequests ((s.imageTakes a f o b).2.map Prod.snd) = [] := by
  unfold State.imageTakes; split
  · rfl
  · dsimp only; split <;> rfl

/-- Requests of the scheduler at the end of a slot are notices. -/
theorem State.slotEnded_completions (s : State) : completionRequests (s.slotEnded.2.map Prod.snd) = [] := by
  unfold State.slotEnded Scheduler.slotEnded; dsimp only; split
  · split <;> rfl
  · rfl

/-- The deliveries of an exchange keep the law, once the requests they make are counted as placed. -/
theorem TicketLaw.deliverEnd {s : State} (h : TicketLaw s) (r : ExchangeRecord) (o : AttemptOutcome) :
    TicketsLaw (s.deliverEnd r o).1.tickets.queue
      (completions s.reports.queue ++ completionRequests ((s.deliverEnd r o).2.map Prod.snd)) := by
  have tick : ∀ (t : State) id res, t.tickets = s.tickets →
      TicketsLaw (t.ticketTakes id res).1.tickets.queue
        (completions s.reports.queue ++ completionRequests ((t.ticketTakes id res).2.map Prod.snd)) := by
    intro t id res ht
    have := TicketsLaw.complete (t := s.tickets) h id res
    simp only [State.ticketTakes, ht, List.map_map, Function.comp_def, List.map_id']
    exact this
  have none_ : ∀ (t : State) (q : List TaggedRequest), t.tickets = s.tickets →
      completionRequests (q.map Prod.snd) = [] →
      TicketsLaw t.tickets.queue (completions s.reports.queue ++ completionRequests (q.map Prod.snd)) := by
    intro t q ht hq
    rw [ht, hq, List.append_nil]; exact h
  unfold State.deliverEnd
  split
  · exact none_ _ _ rfl rfl
  · split
    · unfold State.deliverDiscarded
      split
      · exact tick _ _ _ rfl
      all_goals exact none_ _ _ rfl rfl
    · unfold State.deliverOutcome
      dsimp only
      split
      · exact none_ _ _ (by simp) (s.tableTakes_completions _ _)
      · exact none_ _ _ (by simp) (s.tableTakes_completions _ _)
      · refine none_ _ _ (by simp) ?_
        rw [List.map_append, completionRequests_append, State.tableTakes_completions, State.imageTakes_completions]
        rfl
      · exact none_ _ _ (by simp) (s.tableTakes_completions _ _)
      · rw [List.map_append, completionRequests_append, List.map_append, completionRequests_append,
          State.tableTakes_completions, State.imageTakes_completions, List.nil_append, List.nil_append]
        exact tick _ _ _ (by simp)

/-- The end of an exchange keeps the law once its requests are placed, in whatever order, with notices beside them. -/
theorem TicketLaw.concludeExchange {s : State} (h : TicketLaw s) (r : ExchangeRecord) (o : AttemptOutcome)
    {rs : List ReportRequest} {extra : List TaggedRequest} (he : completionRequests (extra.map Prod.snd) = [])
    (hrs : rs.Perm ((extra ++ (s.concludeExchange r o).2).map Prod.snd)) :
    TicketLaw ((s.concludeExchange r o).1.placeAll rs) := by
  refine ticketLawAwaiting_nil.1 (TicketLawAwaiting.placeAll ?_)
  unfold TicketLawAwaiting
  rw [List.append_nil, State.concludeExchange_reports]
  have hp := completionRequests_perm hrs
  have hq : completionRequests ((extra ++ (s.concludeExchange r o).2).map Prod.snd) =
      completionRequests ((s.deliverEnd r o).2.map Prod.snd) := by
    simp only [State.concludeExchange, List.map_append, completionRequests_append, he, State.slotEnded_completions,
      List.nil_append, List.append_nil]
  rw [hq] at hp
  exact (h.deliverEnd r o).of_perm (hp.append_left _)

theorem TicketLaw.guardEnds {s : State} (h : TicketLaw s) (order : List ReportSource) :
    TicketLaw (s.guardEnds order) := by
  unfold State.guardEnds
  split
  · exact h.congr rfl rfl
  · split
    · exact h.congr rfl rfl
    · unfold State.endExchange
      exact h.concludeExchange _ _ (extra := []) rfl (interleave_perm order _)

theorem TicketLaw.lineJams {s : State} (h : TicketLaw s) (order : List ReportSource) :
    TicketLaw (s.lineJams order) := by
  unfold State.lineJams
  dsimp only
  split
  · exact h.congr rfl rfl
  · rename_i r _
    exact TicketLaw.concludeExchange (s := s.countLine (fun st => { st with jams := satInc st.jams })) (h.congr rfl rfl)
      r.jammed .broken (extra := [(.engine, .lineFault r.station)]) rfl (interleave_perm order _)

/-- The requests at the line's return are notices. -/
theorem State.tableLineReturned_completions (s : State) (order : List ReportSource) :
    completionRequests (interleave order (s.tableLineReturned.2 ++ [(.supervision, .supervision .other)])) = [] := by
  refine List.Perm.eq_nil ((completionRequests_perm (interleave_perm order _)).trans ?_)
  rw [List.map_append, completionRequests_append]
  simp [State.tableLineReturned, completionRequests, List.filterMap_map]

theorem TicketLaw.returnLine {s : State} (h : TicketLaw s) (order : List ReportSource) :
    TicketLaw (s.returnLine order) := by
  unfold State.returnLine
  refine TicketLaw.placeAll ?_ (State.tableLineReturned_completions _ order)
  exact h.congr rfl rfl

end Sys2Proof.Machine
end

