-- ==== Sys2Proof/Tests/Slice0.lean ====
section
/-! SUPPORT. Small tests: the checks, the reset, one step at a time; and for every statement with hypotheses a state and
operands that meet them. -/

namespace Sys2Proof.Tests
open Sys2Proof Sys2Proof.Machine
set_option Elab.async false

/-! ## Sample states -/

/-- A profile of two input bytes and one output byte. -/
def profile : Profile :=
  { kind := 0, inLen := 2, outLen := 1, failLimit := 2, divisor := 2, notify := .onChange, probeEnable := true }

/-- A defined entry in a state. -/
def entryIn (st : Health) : StationEntry :=
  { StationEntry.unused with state := st, profile := some profile, failRun := if st = .offline then 2 else 0 }

/-- Areas that fit the profile, with outputs in a state. -/
def areasIn (st : OutState) : Areas :=
  { input := { bytes := [0, 0], state := .none, gen := 0 }, output := { bytes := [7], state := st, gen := 1 } }

/-- The part with station 5 defined, in a state, with outputs in a state. -/
def part (st : Health) (out : OutState) : State :=
  (State.reset.setEntry 5 (entryIn st)).setAreas 5 (some (areasIn out))

/-- A message of a TYPE with a payload. -/
def msg (type : Byte) (payload : List Byte) : Message := { type := type, tag := 9, payload := payload }

/-- A state with a message waiting. -/
def given (s : State) (type : Byte) (payload : List Byte) : State :=
  { s with host := { s.host with inbound := [msg type payload] } }

/-- A record of a function to station 5. -/
def record (f : LineFunction) (origin : Origin) : ExchangeRecord :=
  { station := 5, func := f, origin := origin, toggle := false, data := [], attempt := 1, attemptLimit := 2,
    failedAttempts := 0, lastOutcome := none, reply := [], discard := false, noRetry := false }

/-- A state whose engine holds a record in an engine state, every timer running. -/
def busy (s : State) (st : EngineState) (r : ExchangeRecord) : State :=
  { s with
    engine := { state := st, record := some r, replyTimer := some 10, gapTimer := some 2, quietTimer := some 3,
                jamTimer := some 64 } }

/-- A ticket for station 5. -/
def ticket (id : Byte) (f : TicketFunction) (st : TicketState) : Ticket :=
  { id := id, station := 5, func := f, data := [], priority := .normal, hostTag := 3, state := st }

/-- A scheduler in a state, on a list of slots, in the phase given. -/
def cycling (s : State) (st : SchedState) (phase : CyclePhase) (cursor : Nat) : State :=
  { s with sched := { s.sched with
      state := st, cycleList := [5], phase := phase, slotCursor := cursor, periodTimer := some 50, period := 50
      mode := .continuous, probeBudget := 1 } }

/-- The part with a DONE ticket 1, whose report waits, and tickets 2 and 4 QUEUED for station 5. -/
def withTickets (s : State) : State :=
  { s with
    tickets := { queue := [ticket 1 .sample (.done (.bare .stationDown 0)), ticket 2 .sample .queued,
                           ticket 4 .probe .queued], idCounter := 1 }
    reports := { s.reports with queue := [.demandDone ((ticket 1 .sample .queued).report (.bare .stationDown 0))] } }

/-! ## Well-formedness: each check refuses an ill-formed term -/

theorem test_order_at_exchange_end : Instr.wellFormed (.quietTimerExpiry ⟨[.image, .engine], .nothing⟩) = false := by decide
theorem test_order_at_jam : Instr.wellFormed (.jamTimerExpiry [.engine, .image]) = false := by decide
theorem test_order_at_return : Instr.wellFormed (.lreqNegated ⟨[.supervision, .scheduler], .nothing⟩) = false := by decide
theorem test_orders_in_order :
    Instr.wellFormed (.quietTimerExpiry ⟨[.image, .stationTable], .command⟩) = true ∧
      Instr.wellFormed (.jamTimerExpiry [.engine, .scheduler]) = true ∧
      Instr.wellFormed (.lreqNegated ⟨[.supervision], .lreqAsserted⟩) = true := by decide

/-! ## Frames and checks, as the manual writes them out -/

theorem test_crc8_of_sample_request : crc8 [0x05, 0x02, 0x00] = 0xCB := by decide +kernel
theorem test_crc16_of_digits : crc16 [0x31, 0x32, 0x33, 0x34, 0x35, 0x36, 0x37, 0x38, 0x39] = 0x29B1 := by decide +kernel
theorem test_sample_request_frame :
    (record .sample .cyclic).frame = [⟨0x05, true⟩, ⟨0x02, false⟩, ⟨0x00, false⟩, ⟨0xCB, false⟩] := by decide +kernel
theorem test_reply_address : replyAddress 9 true = 0xC9 := by decide
theorem test_no_word_spells_a_command : decodeTableWord 8 0x01 = none := by decide

/-! ## Reset -/

theorem test_reset_line :
    State.reset.line.rateIndex = 3 ∧ State.reset.line.replyTimeout = 10 ∧ State.reset.line.retryCount = 1 := by decide
theorem test_reset_engine : State.reset.engine.state = .idle ∧ State.reset.lde = false ∧ State.reset.lgnt = false := by
  decide
theorem test_reset_store_is_free : State.reset.freeBytes = 2048 := by decide +kernel
theorem test_reset_has_no_station : State.reset.isDefined 1 = false ∧ State.reset.isDefined 63 = false := by decide +kernel

/-! ## One step at a time -/

theorem test_idle_without_commands : step State.reset = .next State.reset := rfl

/-- The part with room for `n` reports on the host's credit, and the entries given waiting. -/
def credited (n : Nat) (queue : List ReportEntry) : State :=
  { State.reset with reports := { queue := queue, credit := n, lost := 0, sequence := 0 } }

theorem test_report_is_taken_between_two_placements :
    ((credited 2 []).placeAll [.lineFault 5, .lineFault 5]).reports =
        { queue := [.lineFault 1 5], credit := 1, lost := 0, sequence := 1 } ∧
      ((credited 0 []).placeAll [.lineFault 5, .lineFault 5]).reports =
        { queue := [.lineFault 2 5], credit := 0, lost := 0, sequence := 0 } := by decide +kernel
theorem test_tick_takes_a_due_report :
    (credited 1 [.lineFault 1 5]).tick = (credited 1 [.lineFault 1 5]).takeReport (.lineFault 1 5) := rfl
theorem test_hello_needs_a_message : exec .hello State.reset = .fault .noMessageWaiting := rfl
theorem test_tick_begins_a_hello : step (given State.reset 0x01 []) = .next (State.reset.taking (msg 0x01 []) []) := rfl
theorem test_hello_ends_with_what_it_has_read :
    (match exec .hello { State.reset with host := { State.reset.host with
        processor := .deciding (msg 0x01 []) [(.reportUnit, [7])] } } with
      | .next t => t.host.response.map (fun m => (m.type, m.payload.drop 13))
      | _ => none) = some (0x81, [0, 0, 0, 0, 0, 7, 0x00, 0x08]) := by decide +kernel
theorem test_low_line_gives_one_framing_error :
    (match runCommands [.hostByteReceived 0 false, .hostByteReceived 0 false, .hrxdStartBit, .hostByteReceived 0x5A true]
        State.reset with
      | .next t => some (t.host.stats.framingErrors, t.host.rx)
      | _ => none) = some (1, .length) := by decide
theorem test_unfitting_row_faults : exec .status (given State.reset 0x01 []) = .fault .otherMessageType := rfl
theorem test_hello_is_answered :
    (match exec .hello (given State.reset 0x01 []) with
      | .next t => t.host.response.map (fun m => (m.type, m.tag, m.payload.take 4))
      | _ => none) = some (0x81, 9, [0x00, 0x00, 0x3C, 0x0F]) := by decide +kernel
theorem test_submit_takes_the_line :
    (match exec .submit (given (part .online .clean) 0x40 [5, 2, 0, 0, 0, 0]) with
      | .next t => t.engine.record.map (fun r => (r.station, r.func, r.origin))
      | _ => none) = some (5, .sample, .ticket 0) := by decide +kernel
theorem test_reply_is_good :
    (match runCommands (lineReceptionOf (replyFrame 5 false .accept [1, 2]))
        (busy (part .online .clean) .awaiting (record .sample .cyclic)) with
      | .next t => some (t.engine.state, t.line.stats.goodReplies)
      | _ => none) = some (.guard .turnaround, 1) := by decide +kernel

/-! ## States and operands that meet the statements' hypotheses -/

/-- Without credit no report is due. -/
theorem not_due {s : State} (h : s.reports.credit = 0 := by first | rfl | decide +kernel) : ¬s.standsReport :=
  fun hd => Nat.lt_irrefl 0 (h ▸ hd.2.2.2.2.1)

/-- A message waiting in a part that can take it is offered. -/
theorem offered (s : State) (type : Byte) (payload : List Byte) (h1 : s.host.response = none) (h2 : s.host.restart = none)
    (h3 : s.reports.credit = 0 := by first | rfl | decide +kernel)
    (h4 : s.host.processor = .idle := by first | rfl | decide +kernel) :
    (given s type payload).offers (msg type payload) [] type :=
  ⟨rfl, rfl, h4, h1, h2, not_due h3⟩

theorem test_meets_StepExecutesTheFrontCommand : State.reset.pending = [] := rfl

theorem test_meets_UnreadableMessagesAreRefused :
    (given State.reset 0x04 [1]).offers (msg 0x04 [1]) [] 0x04 ∧ (∀ row ∈ commandRows, (0x04 : Byte) ≠ row.1) ∧
      (0x10, Instr.stationDefine) ∈ commandRows ∧
      (given State.reset 0x10 [5]).offers (msg 0x10 [5]) [] 0x10 ∧ payloadFits 0x10 [5] = false :=
  ⟨offered _ _ _ rfl rfl, by decide, by decide, offered _ _ _ rfl rfl, by decide⟩

theorem test_meets_TakenCommandIsAnsweredOnce :
    (0x01, Instr.hello) ∈ commandRows ∧ (given State.reset 0x01 []).offers (msg 0x01 []) [] 0x01 ∧
      { State.reset with host := { State.reset.host with response := some (msg 0x81 []) } }.host.response ≠ none ∧
      { State.reset.host with processor := .deciding (msg 0x03 [0]) [] }.processor = .deciding (msg 0x03 [0]) [] ∧
      (msg 0x03 [0]).type ≠ 0x01 :=
  ⟨by decide, offered _ _ _ rfl rfl, by decide, rfl, by decide⟩

/-- The host link's receiver in a state, its gap timer running. -/
def receiving (rx : HostRx) : State := { State.reset with host := { State.reset.host with rx := rx, gapTimer := some 5 } }

theorem test_meets_ReceiverMovesAndDiscards :
    State.reset.host.rx = .hunt ∧ (receiving .length).host.rx = .length ∧ (receiving (.body 2 [0x01])).host.rx = .body 2 [0x01] ∧
      (receiving (.crc 2 [1, 2] none)).host.rx = .crc 2 [1, 2] none ∧
      (receiving (.crc 2 [1, 2] (some 0))).host.rx = .crc 2 [1, 2] (some 0) ∧
      [(0 : Byte), 0] ≠ le16 (crc16 [2, 1, 2]) ∧ (receiving .length).host.gapTimer.isSome = true ∧
      (receiving .length).host.waitHigh = false ∧
      { State.reset with host := { State.reset.host with waitHigh := true } }.host.waitHigh = true ∧
      (∀ rx, ¬(receiving rx).standsReport) ∧ ¬State.reset.standsReport :=
  ⟨by decide, by decide, by decide, by decide, by decide, by decide +kernel, by decide, by decide, by decide, fun _ => not_due, not_due⟩

theorem test_meets_FrameOfAnyMessageIsReceived :
    ¬State.reset.standsReport ∧ State.reset.host.rx = .hunt ∧ (msg 0x40 (List.replicate 96 0x5A)).payload.length ≤ 96 :=
  ⟨not_due, by decide, by decide⟩

theorem test_meets_ResponseStaysInItsBufferUntilSent :
    (∃ s : State, s.host.tx = .free ∧ s.host.response = some (msg 0x81 [0, 0])) ∧
      (∃ s : State, s.host.tx = .sendingResponse [0x5A]) ∧ ∃ s : State, s.host.tx = .sendingReport [0x5A] :=
  ⟨⟨{ State.reset with host := { State.reset.host with response := some (msg 0x81 [0, 0]) } }, rfl, rfl⟩,
    ⟨{ State.reset with host := { State.reset.host with tx := .sendingResponse [0x5A] } }, rfl⟩,
    ⟨{ State.reset with host := { State.reset.host with tx := .sendingReport [0x5A] } }, rfl⟩⟩

theorem test_meets_HelloAndStatusAnswerWhatTheyRead :
    (given State.reset 0x01 []).offers (msg 0x01 []) [] 0x01 ∧ (given State.reset 0x03 [0]).offers (msg 0x03 [0]) [] 0x03 ∧
      (given State.reset 0x03 [1]).offers (msg 0x03 [1]) [] 0x03 ∧
      (given State.reset 0x03 [2]).offers (msg 0x03 [2]) [] 0x03 ∧ 2 ≤ (2 : Byte).toNat :=
  ⟨offered _ _ _ rfl rfl, offered _ _ _ rfl rfl, offered _ _ _ rfl rfl, offered _ _ _ rfl rfl, by decide⟩

/-- HELLO or STATUS being decided, some blocks read, or all of them. -/
theorem test_meets_reading_block_by_block :
    (msg 0x01 []).readsBlocks ∧ (msg 0x03 [1]).readsBlocks ∧
      (State.reset.taking (msg 0x03 [1]) []).host.processor = .deciding (msg 0x03 [1]) [] ∧
      (∃ x ∈ State.reset.readings (msg 0x03 [1]), x.1 ∉ [ReadBlock.linePort]) ∧
      (∀ x ∈ State.reset.readings (msg 0x01 []), x.1 ∈ (State.reset.readings (msg 0x01 [])).map Prod.fst) ∧
      (∀ q qs, State.reset.offers q qs q.type → ¬q.readsBlocks) ∧ (credited 1 [.lineFault 1 0]).standsReport :=
  ⟨Or.inl ⟨rfl, rfl⟩, Or.inr ⟨rfl, Or.inr rfl⟩, rfl, by decide +kernel, by decide +kernel, fun _ _ h => absurd h.1.symm (List.cons_ne_nil _ _),
    by unfold State.standsReport; decide⟩

theorem test_meets_ReportTakenIsTheHeadOfTheQueue :
    (credited 1 [.lineFault 1 0]).standsReport ∧ (credited 1 [.lineFault 1 0]).reports.queue = .lineFault 1 0 :: [] ∧
      (∃ t, exec .reportTaken (credited 1 [.lineFault 1 0]) = .next t) ∧ ¬State.reset.standsReport :=
  ⟨by unfold State.standsReport; decide, rfl, ⟨_, rfl⟩, not_due⟩

/-- A restart of the level given, its response being sent. -/
def restarting (level : RestartLevel) (lreq : Bool) : State :=
  { State.reset with
    lreq := lreq
    host := { State.reset.host with
      restart := some level, response := some (msg 0xF0 [0, 0]), tx := .sendingResponse [0x5A] } }

theorem test_meets_RestartIsArrangedAndTakesEffect :
    (given State.reset 0x70 [0]).offers (msg 0x70 [0]) [] 0x70 ∧ (given State.reset 0x70 [1]).offers (msg 0x70 [1]) [] 0x70 ∧
      (given State.reset 0x70 [2]).offers (msg 0x70 [2]) [] 0x70 ∧
      (restarting .cold false).restartDue .cold ∧ (restarting .cold false).lreq = false ∧
      (restarting .cold true).restartDue .cold ∧ (restarting .cold true).lreq = true :=
  ⟨offered _ _ _ rfl rfl, offered _ _ _ rfl rfl, offered _ _ _ rfl rfl, ⟨rfl, Or.inl ⟨_, rfl⟩⟩, rfl,
    ⟨rfl, Or.inl ⟨_, rfl⟩⟩, rfl⟩

/-- A restart whose response ends together with the second CRC byte of a HELLO. -/
def restartingWithMessage (level : RestartLevel) : State :=
  { restarting level false with
    host := { (restarting level false).host with rx := .crc 2 [0x01, 9] (some ((le16 (crc16 [2, 0x01, 9])).headD 0)) } }

theorem test_meets_message_together_with_restart :
    (restartingWithMessage .warm).restartDue .warm ∧ (∃ t, exec (.restartTakesEffect none) (restartingWithMessage .warm) = .next t) ∧
      ∃ b lo : Byte, (restartingWithMessage .warm).host.rx = .crc 2 (0x01 :: 9 :: []) (some lo) ∧
        [lo, b] = le16 (crc16 [2, 0x01, 9]) ∧ [lo, b + 1] ≠ le16 (crc16 [2, 0x01, 9]) := by
  refine ⟨⟨rfl, Or.inl ⟨_, rfl⟩⟩, ⟨_, rfl⟩, (le16 (crc16 [2, 0x01, 9])).getD 1 0, _, rfl, ?_⟩
  decide +kernel

theorem test_meets_WarmRestartKeepsWhatTheHostHasSet : (restarting .warm true).restartDue .warm :=
  ⟨rfl, Or.inl ⟨_, rfl⟩⟩

theorem test_meets_EveryStepKeepsTheHostLinkLaw :
    ∃ s t : State, HostLaw s ∧ step s = .next t :=
  ⟨{ receiving (.body 98 []) with pending := [.hrxdStartBit] }, _, ⟨by decide, by decide, ⟨by decide, by decide, by decide⟩, trivial, by decide⟩, rfl⟩

/-- A part whose store is full: stations 1 to 32 hold 64 bytes each. -/
def full : State :=
  (List.range' 1 32).foldl (fun s a => s.setEntry a (.defined { profile with inLen := 32, outLen := 32 })) State.reset

theorem test_meets_StationDefineIsCheckedInOrder :
    (given full 0x10 [40, 0, 0, 1, 0, 0, 1, 0, 0]).offers (msg 0x10 [40, 0, 0, 1, 0, 0, 1, 0, 0]) [] 0x10 ∧
      2048 < full.allocatedExcept 40 + (1 + 0) ∧
      (given full 0x10 [63, 0, 0, 33, 0, 0, 1, 2, 1]).offers (msg 0x10 [63, 0, 0, 33, 0, 0, 1, 2, 1]) [] 0x10 ∧
      (given full 0x10 [1, 0, 0, 33, 0, 0, 1, 3, 0]).offers (msg 0x10 [1, 0, 0, 33, 0, 0, 1, 3, 0]) [] 0x10 ∧
      (given full 0x10 [64, 0, 0, 33, 0, 0, 1, 3, 0]).offers (msg 0x10 [64, 0, 0, 33, 0, 0, 1, 3, 0]) [] 0x10 :=
  ⟨offered _ _ _ (by decide +kernel) (by decide +kernel), by decide +kernel,
    offered _ _ _ (by decide +kernel) (by decide +kernel), offered _ _ _ (by decide +kernel) (by decide +kernel),
    offered _ _ _ (by decide +kernel) (by decide +kernel)⟩

theorem test_meets_StationDefineStartsTheStationAfresh :
    (given (part .online .clean) 0x10 [63, 0x34, 0x12, 32, 32, 15, 16, 2, 1]).offers
        (msg 0x10 [63, 0x34, 0x12, 32, 32, 15, 16, 2, 1]) [] 0x10 ∧
      ([63, 0x34, 0x12, 32, 32, 15, 16, 2, 1] : List Byte) =
        [63] ++ le16 0x1234 ++ [32, 32, 15, 16, Notify.every.code, byte true.toNat] ∧
      (part .online .clean).allocatedExcept 63 + (32 + 32) ≤ 2048 :=
  ⟨offered _ _ _ rfl rfl, by decide, by decide +kernel⟩

theorem test_meets_StationRemoveReachesItsBlocks :
    TicketLaw (given (withTickets (part .online .clean)) 0x11 [5]) ∧
      (given (withTickets (part .online .clean)) 0x11 [5]).offers (msg 0x11 [5]) [] 0x11 ∧
      ((withTickets (part .online .clean)).entry 5).state ≠ .unused ∧
      ((withTickets (part .online .clean)).entry 63).state = .unused := by
  refine ⟨⟨by decide, by decide, ?_⟩, offered _ _ _ rfl rfl, by decide +kernel, by decide +kernel⟩
  exact List.Perm.refl _

/-- An exchange of station 5 in the last guard of an outcome. -/
def ending (s : State) (f : LineFunction) (origin : Origin) (o : AttemptOutcome) : State :=
  busy s (.guard o.guardKind) { record f origin with attempt := 2, failedAttempts := 1, lastOutcome := some o }

theorem lastGuard_of_ending (s : State) (f : LineFunction) (origin : Origin) (o : AttemptOutcome) (h : origin ≠ .broadcast) :
    (ending s f origin o).lastGuardOf
      { record f origin with attempt := 2, failedAttempts := 1, lastOutcome := some o } o :=
  ⟨rfl, rfl, rfl, rfl, h, fun _ => Or.inl rfl⟩

/-- A state in which each event that can fall before a choice can come: LREQ negated, the hold timer running, a CREDIT
waiting. -/
def eventful (s : State) : State :=
  { given s 0x50 [1] with sup := { s.sup with holdTime := 10, holdTimer := some 10 } }

theorem test_meets_DataOutcomeAtTheStationTable :
    (∀ o, (ending (part .online .clean) .paramRead (.ticket 1) o).lastGuardOf
        { record .paramRead (.ticket 1) with attempt := 2, failedAttempts := 1, lastOutcome := some o } o) ∧
      ((part .online .clean).entry 5).profile = some profile ∧
      (∀ o, (ending { part .online .clean with reports := (credited 1 [.lineFault 1 0]).reports } .paramRead (.ticket 1)
        o).standsReport) ∧
      ∀ b, ∃ t, exec (.quietTimerExpiry ⟨[], b⟩)
        (eventful (ending (part .online .clean) .paramRead (.ticket 1) .noReply)) = .next t :=
  ⟨fun o => lastGuard_of_ending _ _ _ o (by decide), by decide +kernel,
    fun _ => ⟨rfl, rfl, rfl, rfl, Nat.one_pos, List.cons_ne_nil _ _⟩, fun b => by cases b <;> exact ⟨_, rfl⟩⟩

theorem test_meets_ProbeOutcomeAtTheStationTable :
    (∀ o, (ending (part .suspect .clean) .probe .resync o).lastGuardOf
        { record .probe .resync with attempt := 2, failedAttempts := 1, lastOutcome := some o } o) ∧
      ((part .suspect .clean).entry 5).profile = some profile ∧ ((part .suspect .clean).entry 5).state = .suspect ∧
      ((part .absent .clean).entry 5).state ≠ .suspect ∧
      ({ record .probe .resync with reply := replyFrame 5 false .accept (le16 0x1234 ++ [2, 1]) } : ExchangeRecord).replyData =
        le16 0x1234 ++ [2, 1] ∧
      ∀ b, ∃ t, exec (.quietTimerExpiry ⟨[], b⟩) (eventful (ending (part .suspect .clean) .probe .resync .good)) = .next t :=
  ⟨fun o => lastGuard_of_ending _ _ _ o (by decide), by decide +kernel, by decide +kernel, by decide +kernel, by decide +kernel,
    fun b => by cases b <;> exact ⟨_, rfl⟩⟩

/-- Only station 5 of a sample part is defined. -/
theorem part_entry (st : Health) (out : OutState) (a : Nat) :
    (part st out).entry a = if a = 5 then entryIn st else .unused := by
  unfold part
  rw [State.entry_setAreas, State.entry_setEntry, State.entry_of_reset rfl]
  by_cases h : a = 5 <;> simp [h]

theorem part_areas (st : Health) (out : OutState) (a : Nat) :
    (part st out).areas a = if a = 5 then some (areasIn out) else none := by
  unfold part
  rw [State.areas_setAreas, State.areas_setEntry, State.areas_of_reset rfl]
  by_cases h : a = 5 <;> simp [h]

theorem part_lineLaw (st : Health) (out : OutState) : LineLaw (part st out) := by
  refine ⟨rfl, ?_, ?_, ?_⟩
  · change LineRx.turnedOn = .off ↔ EngineState.idle = .sending ∨ EngineState.idle = .released
    decide
  · change EngineState.idle = .released ↔ HandoverState.none = .granted
    decide
  · change false = true ↔ HandoverState.none ≠ .none
    decide

theorem part_recordLaw (st : Health) (out : OutState) : RecordLaw (part st out) :=
  ⟨by change 3 ≤ 7 ∧ 2 ≤ 10 ∧ 10 ≤ 250 ∧ 1 ≤ 3; decide, fun r h => nomatch h⟩

theorem part_stationLaw : StationLaw (part .online .clean) := by
  refine ⟨fun a => ?_, fun r h => nomatch h⟩
  rw [part_entry]
  by_cases h : a = 5 <;> simp [h, StationEntry.Law, entryIn, Profile.inRange, profile, StationEntry.unused]

theorem test_meets_StationQueryAnswersTheEntry :
    (given (part .online .clean) 0x12 [0, 2]).offers (msg 0x12 [0, 2]) [] 0x12 ∧
      (given (part .online .clean) 0x12 [64, 1]).offers (msg 0x12 [64, 1]) [] 0x12 ∧
      (given (part .online .clean) 0x12 [63, 1]).offers (msg 0x12 [63, 1]) [] 0x12 ∧
      StationLaw (given (part .online .clean) 0x12 [63, 1]) ∧ ((part .online .clean).entry 63).state = .unused :=
  ⟨offered _ _ _ rfl rfl, offered _ _ _ rfl rfl, offered _ _ _ rfl rfl, part_stationLaw, by decide +kernel⟩

theorem part_imageLaw : ImageLaw (part .online .clean) := by
  refine ⟨fun a => ?_, by decide +kernel, fun r h => nomatch h⟩
  rw [part_entry, part_areas]
  by_cases h : a = 5 <;> simp [h, AreasLaw, entryIn, areasIn, profile, StationEntry.unused]

theorem test_meets_EveryStepKeepsTheStationLaw :
    RecordLaw (part .online .clean) ∧ StationLaw (part .online .clean) ∧
      ∃ t, step { part .online .clean with pending := [.hrxdStartBit] } = .next t :=
  ⟨part_recordLaw _ _, part_stationLaw, _, rfl⟩

/-! ### Image -/

theorem part_offers (st : Health) (out : OutState) (type : Byte) (p : List Byte) :
    (given (part st out) type p).offers (msg type p) [] type := offered _ _ _ rfl rfl

theorem test_meets_ImageWriteChecksAllThenApplies :
    (∀ p, (given (part .online .clean) 0x30 p).offers (msg 0x30 p) [] 0x30) ∧
      ([2, 5, 0, 1, 9, 63, 0, 1, 8] : List Byte) =
        byte 2 :: [((5 : Byte), (0 : Byte), [(9 : Byte)]), (63, 0, [8])].flatMap (fun i => [i.1, i.2.1, byte i.2.2.length] ++ i.2.2) ∧
      (part .online .clean).takesItem (5, 0, [9]) ∧ ((part .online .clean).entry 63).profile = none ∧
      ((part .online .clean).entry 5).profile = some profile ∧ profile.outLen < (0 : Byte).toNat + [(9 : Byte), 8].length :=
  ⟨fun _ => part_offers _ _ _ _, by decide, ⟨by decide, by decide, profile, by decide +kernel, by decide⟩,
    by decide +kernel, by decide +kernel, by decide⟩

theorem test_meets_ImageReadAnswersTheAreas :
    (∀ p, (given (part .online .clean) 0x31 p).offers (msg 0x31 p) [] 0x31) ∧
      ((part .online .clean).entry 5).state ≠ .unused ∧ (part .online .clean).areas 5 = some (areasIn .clean) ∧
      ((part .online .clean).entry 63).state = .unused ∧ 63 < (64 : Byte).toNat :=
  ⟨fun _ => part_offers _ _ _ _, by decide +kernel⟩

theorem test_meets_ExchangeEndAtTheImage :
    (∀ o, (ending (part .online .sending) .exchange .cyclic o).lastGuardOf
        { record .exchange .cyclic with attempt := 2, failedAttempts := 1, lastOutcome := some o } o) ∧
      (record .exchange .cyclic).ShapeLaw ∧ (record .sample .cyclic).ShapeLaw ∧ (record .probe .resync).ShapeLaw ∧
      (part .online .sending).areas 5 = some (areasIn .sending) ∧
      ∀ b, ∃ t, exec (.quietTimerExpiry ⟨[], b⟩) (eventful (ending (part .online .sending) .exchange .cyclic .broken)) = .next t :=
  ⟨fun o => lastGuard_of_ending _ _ _ o (by decide), Or.inl rfl, Or.inr rfl, rfl, by decide +kernel,
    fun b => by cases b <;> exact ⟨_, rfl⟩⟩

/-- A lawful step of the part: the host's start bit. -/
def stepping (s : State) : State := { s with pending := [.hrxdStartBit] }

theorem stepping_steps (s : State) : ∃ t, step (stepping s) = .next t := ⟨_, rfl⟩

theorem test_meets_EveryStepKeepsTheImageLaw :
    LineLaw (part .online .clean) ∧ RecordLaw (part .online .clean) ∧ StationLaw (part .online .clean) ∧
      ImageLaw (part .online .clean) ∧ ∃ t, step (stepping (part .online .clean)) = .next t :=
  ⟨part_lineLaw _ _, part_recordLaw _ _, part_stationLaw, part_imageLaw, stepping_steps _⟩

/-! ### Line and engine -/

/-- A character is in reception. -/
def hearing (s : State) : State := { s with line := { s.line with rx := .receiving 3 } }

theorem seesEdges_of_part (st : Health) (out : OutState) (e : EngineState) (r : ExchangeRecord) :
    (busy (part st out) e r).seesEdges :=
  ⟨fun h => LineRx.noConfusion h, fun _ h => LineRx.noConfusion h⟩

/-- The samples of a character, one bit noisy, with the stop bit's majority given. -/
def samples (value : Byte) (mark stop : Bool) : CharSamples :=
  { cleanSamples ⟨value, mark⟩ with stop := ⟨stop, stop, false⟩ }

theorem hears_of_hearing (s : State) (x : CharSamples) : (hearing s).hears (.characterDelivered x) (classify x) :=
  Or.inl ⟨x, 3, rfl, rfl, rfl⟩

theorem hears_low_line (st : Health) (out : OutState) (e : EngineState) (r : ExchangeRecord) :
    (busy (part st out) e r).hears .lowLineBrokenCharacter { value := 0, mark := false, broken := true, noisy := false } :=
  Or.inr ⟨rfl, Or.inl rfl, rfl⟩

theorem test_meets_StartBitReachesTheEngine :
    (∀ e, (busy (part .online .clean) e (record .sample .cyclic)).seesEdges) ∧
      (∀ e, ¬(busy (part .online .clean) e (record .sample .cyclic)).standsReport) ∧
      ¬(hearing (part .online .clean)).seesEdges ∧ samplesRead ⟨true, true, false⟩ true ∧
      samplesRead ⟨false, false, true⟩ false :=
  ⟨fun e => seesEdges_of_part _ _ e _, fun _ => not_due, fun h => h.2 3 rfl, by unfold samplesRead; decide, by unfold samplesRead; decide⟩

theorem test_meets_CharacterOutsideAReplyIsCounted :
    (∀ e x, (hearing (busy (part .online .clean) e (record .sample .cyclic))).hears (.characterDelivered x) (classify x)) ∧
      (busy (part .online .clean) .awaiting (record .sample .cyclic)).hears .lowLineBrokenCharacter
        { value := 0, mark := false, broken := true, noisy := false } ∧
      (∀ e, ¬(hearing (busy (part .online .clean) e (record .sample .cyclic))).standsReport) ∧
      ((part .online .clean).lendLine.line.rx = .off ∧ ¬(part .online .clean).lendLine.standsReport) ∧
      (classify (samples 5 true true)).broken = false ∧ (classify (samples 5 true true)).noisy = true :=
  ⟨fun _ x => hears_of_hearing _ x, hears_low_line _ _ _ _, fun _ => not_due, ⟨rfl, not_due⟩, by decide +kernel⟩

theorem test_meets_LineSetupReplacesTheSettings :
    (∀ p, (given (part .online .clean) 0x02 p).offers (msg 0x02 p) [] 0x02) ∧
      (part .online .clean).sched.state = .stopped ∧ (part .online .clean).engine.state = .idle ∧
      (given (busy (part .online .clean) .awaiting (record .sample .resync)) 0x02 [7, 250, 3]).offers
        (msg 0x02 [7, 250, 3]) [] 0x02 ∧
      (given (cycling (part .online .clean) .active .slots 0) 0x02 [0, 2, 0]).offers (msg 0x02 [0, 2, 0]) [] 0x02 ∧
      (given (restarting .cold true) 0x02 [8, 1, 4]).engine.state = .idle :=
  ⟨fun _ => part_offers _ _ _ _, rfl, rfl, offered _ _ _ rfl rfl, offered _ _ _ rfl rfl, rfl⟩

/-- A conforming station at address 63, with a memory given, held or not. -/
def stationWith (memory : Option StationMemory) (held : Bool) : ConformingStation :=
  { address := 63, kind := 0x1234, inputs := [1, 2], safe := [0], memory := memory, held := held, outputs := [7] }

theorem test_meets_ConformingStationExecutesARequestOnce :
    (stationWith none false).memory = none ∧ (stationWith none true).held = true ∧ (stationWith none false).inputs.length ≤ 32 ∧
      (stationWith none false).safe.length = [(9 : Byte)].length ∧
      (stationWith (some { toggle := true, func := 0x01, reply := [] }) false).memory =
        some { toggle := true, func := 0x01, reply := [] } ∧
      { record .exchange .cyclic with station := 63, toggle := true, data := [9] }.func.code = 0x01 ∧
      { record .hold .broadcast with station := 0 }.toggle = false ∧ (record .hold .broadcast).data = [] := by decide

theorem test_meets_ReplyOfTheStationIsClassifiedByItsStatus :
    (busy (part .online .clean) .awaiting (record .sample .cyclic)).seesEdges ∧
      ¬(busy (part .online .clean) .awaiting (record .sample .cyclic)).standsReport ∧
      ((busy (part .online .clean) .awaiting (record .sample .cyclic)).entry 5).profile = some profile ∧
      replyLengthFits .sample profile [(1 : Byte), 2].length ∧ replyLengthFits .paramRead profile 16 ∧
      replyLengthFits .probe profile 4 ∧ replyLengthFits .paramWrite profile 0 :=
  ⟨seesEdges_of_part _ _ _ _, not_due, by decide +kernel, rfl, ⟨by decide, by decide⟩, rfl, rfl⟩

theorem test_meets_FrameIsSentWhole :
    (part .online .clean).engine.state ≠ .sending ∧
      (busy (part .online .clean) .sending (record .exchange .cyclic)).engine.record = some (record .exchange .cyclic) ∧
      (busy (part .online .clean) .sending { record .hold .broadcast with station := 0 }).engine.record =
        some { record .hold .broadcast with station := 0 } ∧
      ∀ r, ¬(busy (part .online .clean) .sending r).standsReport :=
  ⟨fun h => EngineState.noConfusion h, rfl, rfl, fun _ => not_due⟩

theorem test_meets_ReplyCharacterIsJudgedAsItArrives :
    (∀ r x, (hearing (busy (part .online .clean) .receiving r)).hears (.characterDelivered x) (classify x)) ∧
      (∀ r, ¬(hearing (busy (part .online .clean) .receiving r)).standsReport) ∧
      (record .sample .cyclic).spoiledBy (classify (samples 0x85 false true)) ∧
      (record .sample .cyclic).spoiledBy (classify (samples 0x85 true false)) ∧
      { record .sample .cyclic with reply := [⟨0x85, true⟩, ⟨0, false⟩] }.spoiledBy (classify (samples 33 false true)) ∧
      ¬(record .sample .cyclic).spoiledBy (classify (samples 0x85 true true)) ∧
      ¬{ record .sample .cyclic with reply := [⟨0x85, true⟩, ⟨0, false⟩] }.spoiledBy (classify (samples 32 false true)) := by
  refine ⟨fun _ x => hears_of_hearing _ x, fun _ => not_due, ?_⟩
  unfold ExchangeRecord.spoiledBy
  decide +kernel

/-- A record whose reply wants its check character: the characters given, the first with the mark bit. -/
def wanting (head : List Byte) : ExchangeRecord :=
  { record .sample .cyclic with
    reply := (head.take 1).map (fun b => ⟨b, true⟩) ++ (head.drop 1).map (fun b => ⟨b, false⟩) }

/-- The replies of station 5, toggle 0, that the tests of R67 tell apart, with all but the check character. -/
def heads : List (List Byte) :=
  [[0x85, 0, 2, 1, 2], [0x05, 0, 0], [0x86, 0, 0], [0x85, 3, 0], [0xC5, 0, 0], [0x85, 1, 0], [0x85, 2, 0], [0x85, 0, 1, 1]]

theorem test_meets_CompleteReplyIsClassifiedByItsFirstFailingTest :
    (∀ r x, (hearing (busy (part .online .clean) .receiving r)).hears (.characterDelivered x) (classify x)) ∧
      (∀ h ∈ heads, (wanting h).reply.length = (h.getD 2 0).toNat + 3 ∧ (wanting h).reply.map LineChar.value = h ∧
        (classify (samples (crc8 h) false true)).value = crc8 h ∧ (classify (samples (crc8 h) false true)).broken = false ∧
        (classify (samples (crc8 h) false true)).mark = false ∧ (0 : Byte) ≠ crc8 h) ∧
      ((part .online .clean).entry 5).profile = some profile ∧ (State.reset.entry 5).profile = none :=
  ⟨fun _ x => hears_of_hearing _ x, by decide +kernel⟩

theorem test_meets_TimersEndAttemptsAndGuards :
    (∀ r, (busy (part .online .clean) .awaiting r).engine.replyTimer.isSome = true ∧
      (busy (part .online .clean) .receiving r).engine.gapTimer.isSome = true ∧
      (busy (part .online .clean) (.guard .quiet) r).engine.quietTimer.isSome = true ∧
      (busy (part .online .clean) (.guard .quiet) r).engine.record = some r) ∧
      { record .sample .cyclic with lastOutcome := some .broken }.attempt < (record .sample .cyclic).attemptLimit ∧
      { State.reset with engine := { Engine.empty (.guard .quiet) with quietTimer := some 3 } }.engine.record = none ∧
      (busy State.reset (.guard .broadcast) { record .hold .broadcast with station := 0 }).sched.slotInFlight = false ∧
      ∀ e r, ¬(busy (part .online .clean) e r).standsReport :=
  ⟨fun _ => ⟨rfl, rfl, rfl, rfl⟩, by decide, rfl, rfl, fun _ _ => not_due⟩

theorem test_meets_JamEndsTheExchangeBroken :
    (∀ r k, (busy (part .online .sending) (.guard k) r).engine.jamTimer.isSome = true ∧
      (busy (part .online .sending) (.guard k) r).engine.record = some r) ∧
      ((part .online .sending).entry 5).profile = some profile ∧
      (part .online .sending).areas 5 = some (areasIn .sending) ∧
      { record .exchange .cyclic with lastOutcome := some .good }.discard = false ∧
      { record .exchange .cyclic with discard := true }.discard = true ∧
      (∀ r k, TicketLaw (busy (part .online .sending) (.guard k) r)) ∧ (record .exchange .cyclic).ShapeLaw ∧
      (record .probe .discovery).ShapeLaw ∧ (record .sample (.ticket 1)).ShapeLaw ∧
      ∀ r k, ¬(busy (part .online .sending) (.guard k) r).standsReport :=
  ⟨fun _ _ => ⟨rfl, rfl⟩, by decide +kernel, by decide +kernel, by decide, by decide,
    fun _ _ => ⟨Nat.zero_le 16, List.nodup_nil, List.Perm.refl _⟩, Or.inl rfl, rfl, Or.inl rfl, fun _ _ => not_due⟩

/-- Ticket 1 ON_LINE, its exchange in its last guard; a slot of the scheduler may be in flight. -/
def ticketEnding (func : LineFunction) (o : AttemptOutcome) (slot : Bool) (st : SchedState) (q : StopRequest) : State :=
  let s := ending (part .online .clean) func (.ticket 1) o
  { s with
    tickets := { queue := [ticket 1 .sample .onLine, ticket 2 .probe .queued], idCounter := 3 }
    sched := { s.sched with slotInFlight := slot, state := st, stopRequest := q } }

/-- An EXCHANGE that a define of its station has discarded. -/
def discardedRecord : ExchangeRecord := { record .exchange .cyclic with discard := true }

/-- The discarded EXCHANGE in the last guard of a GOOD outcome. -/
def discarding : State :=
  busy (part .absent .unset) (.guard .turnaround)
    { discardedRecord with attempt := 2, failedAttempts := 1, lastOutcome := some .good }

theorem test_meets_ExchangeEndAtTicketsAndScheduler :
    (∀ o slot st q, TicketLaw (ticketEnding .sample o slot st q) ∧ (ticketEnding .sample o slot st q).lastGuardOf
        { record .sample (.ticket 1) with attempt := 2, failedAttempts := 1, lastOutcome := some o } o ∧
      ticket 1 .sample .onLine ∈ (ticketEnding .sample o slot st q).tickets.queue ∧
      (ticketEnding .sample o slot st q).sched.slotInFlight = slot ∧ ¬(ticketEnding .sample o slot st q).standsReport) ∧
      discarding.lastGuardOf { discardedRecord with attempt := 2, failedAttempts := 1, lastOutcome := some .good } .good ∧
      discardedRecord.discard = true ∧ discardedRecord.ShapeLaw ∧ TicketLaw discarding ∧ ¬discarding.standsReport ∧
      (record .sample (.ticket 1)).ShapeLaw ∧ State.countsFailure State.reset (record .sample .cyclic) .broken ∧
      ¬State.countsFailure State.reset (record .sample .cyclic) .refused := by
  refine ⟨fun o slot st q => ⟨⟨?_, ?_, List.Perm.refl _⟩,
    lastGuard_of_ending (part .online .clean) _ _ o (by decide), List.mem_cons_self, rfl, not_due⟩,
    ⟨rfl, rfl, rfl, rfl, by decide, fun _ => Or.inl rfl⟩, rfl, Or.inl rfl, ⟨Nat.zero_le 16, List.nodup_nil, List.Perm.refl _⟩,
    not_due, Or.inl rfl, ?_⟩
  · change 2 ≤ 16
    decide
  · change [(1 : Byte), 2].Nodup
    decide
  · unfold State.countsFailure
    decide

/-- The starting condition of section 11.5, with stations 5 and 6: ticket 30 at the end of its exchange, ticket 31 QUEUED, and
the message that cancels it at the head of the inbound buffer. -/
def race : State :=
  let s := ((part .online .clean).setEntry 6 (entryIn .online)).setAreas 6 (some (areasIn .clean))
  { given (ending s .sample (.ticket 30) .good) 0x41 [31] with
    tickets := { queue := [ticket 30 .sample .onLine, { ticket 31 .paramRead .queued with station := 6, data := [7] }],
                 idCounter := 32 } }

/-- What section 11.5 tells apart: the states of the tickets, the response's result and body, whether the engine is IDLE, and
the completions in the order of the report queue. -/
def raceEnd (o : Host.Outcome State Fault Refusal) : Option (List (Byte × Byte) × List Byte × Bool × List (Byte × TicketOutcome)) :=
  match o with
  | .next t => some (t.tickets.queue.map (fun u => (u.id, u.state.code)),
      (t.host.response.map Message.payload).getD [], t.engine.state == .idle,
      (completions t.reports.queue).map (fun d => (d.id, d.outcome)))
  | _ => none

theorem test_cancel_race_take_first :
    raceEnd (runCommands [.quietTimerExpiry ⟨[], .nothing⟩, .cancel] race) =
      some ([(30, 2), (31, 1)], [9, 0, 31, 1], false, [(30, .completed)]) := by decide +kernel

theorem test_cancel_race_cancel_first :
    raceEnd (runCommands [.cancel, .quietTimerExpiry ⟨[], .nothing⟩] race) =
      some ([(30, 2), (31, 2)], [0, 0, 31, 2], true, [(31, .cancelled), (30, .completed)]) := by decide +kernel

theorem test_cancel_race_cancel_before_choice :
    raceEnd (runCommands [.quietTimerExpiry ⟨[], .command⟩] race) =
      some ([(30, 2), (31, 2)], [0, 0, 31, 2], true, [(30, .completed), (31, .cancelled)]) := by decide +kernel

/-- Each event that can come before the choice has a state in which it does. -/
theorem test_meets_events_before_the_choice :
    (∀ b, ∃ t, exec (.quietTimerExpiry ⟨[], b⟩) { race with sup := { race.sup with holdTime := 10, holdTimer := some 10 } } =
      .next t) ∧ ¬race.standsReport :=
  ⟨fun b => by cases b <;> exact ⟨_, rfl⟩, not_due⟩

theorem test_meets_delivery_that_asks :
    (part .online .clean).deliveryAsks (record .sample .cyclic) .good ∧
      ¬(part .online .clean).deliveryAsks (record .sample .cyclic) .refused ∧
      (areasIn .clean).input.state = .none :=
  ⟨⟨rfl, Or.inr rfl, rfl, profile, areasIn .clean, by decide +kernel, by decide +kernel, Or.inr ⟨rfl, Or.inr (Or.inl rfl)⟩⟩,
    fun h => absurd h.2.2.1 (by decide), rfl⟩

theorem test_meets_EveryStepKeepsTheLawsOfLineAndRecord :
    LineLaw (stepping (part .online .clean)) ∧ RecordLaw (stepping (part .online .clean)) ∧
      ∃ t, step (stepping (part .online .clean)) = .next t :=
  ⟨part_lineLaw .online .clean, part_recordLaw .online .clean, stepping_steps _⟩

/-! ### Cycles and the arbiter -/

theorem test_meets_CycleSetReplacesOneList :
    (∀ p, (given (part .online .clean) 0x20 p).offers (msg 0x20 p) [] 0x20) ∧ (part .online .clean).sched.state = .stopped ∧
      (∀ p, (given (cycling (part .online .clean) .resting .slots 0) 0x20 p).offers (msg 0x20 p) [] 0x20) ∧
      (cycling (part .online .clean) .resting .slots 0).sched.state ≠ .stopped ∧
      (List.replicate 64 (63 : Byte)).length ≤ 64 ∧ 64 < (List.replicate 65 (1 : Byte)).length :=
  ⟨fun _ => part_offers _ _ _ _, rfl, fun _ => offered _ _ _ rfl rfl, fun h => SchedState.noConfusion h, by decide, by decide⟩

theorem test_meets_CycleStartBeginsCycleZero :
    (∀ p, (given (part .online .clean) 0x21 p).offers (msg 0x21 p) [] 0x21) ∧
      (∀ st p, (given (cycling (part .online .clean) st .slots 0) 0x21 p).offers (msg 0x21 p) [] 0x21) ∧
      (part .online .clean).sched.pendingList.getD (part .online .clean).sched.cycleList = [] ∧
      (∀ st, (cycling (part .online .clean) st .slots 0).sched.pendingList.getD
        (cycling (part .online .clean) st .slots 0).sched.cycleList = [5]) ∧
      ([1, 0x60, 0xEA, 4, 4] : List Byte) = [CycleMode.continuous.code] ++ le16 60000 ++ [4, 4] :=
  ⟨fun _ => part_offers _ _ _ _, fun _ _ => offered _ _ _ rfl rfl, rfl, fun _ => rfl, by decide⟩

theorem test_meets_CycleStopStopsOrStandsAsARequest :
    (∀ st w, (given (cycling (part .online .clean) st .slots 0) 0x22 [w]).offers (msg 0x22 [w]) [] 0x22 ∧
      (cycling (part .online .clean) st .slots 0).sched.state = st ∧
      (cycling (part .online .clean) st .slots 0).sched.slotInFlight = false) ∧
      { (cycling (part .online .clean) .active .slots 0).sched with slotInFlight := true }.state = .active :=
  ⟨fun _ _ => ⟨offered _ _ _ rfl rfl, rfl, rfl⟩, rfl⟩

theorem test_meets_CycleQueryAnswersTheScheduler :
    ∀ st w, (given (cycling (part .online .clean) st .slots 0) 0x23 [w]).offers (msg 0x23 [w]) [] 0x23 :=
  fun _ _ => offered _ _ _ rfl rfl

theorem test_meets_PeriodExpiryStartsOrOverruns :
    (∀ st, (cycling (part .online .clean) st .slots 0).sched.periodTimer.isSome = true ∧
      (cycling (part .online .clean) st .slots 0).sched.pendingList.getD
        (cycling (part .online .clean) st .slots 0).sched.cycleList ≠ []) ∧
      { (cycling (part .online .clean) .resting .slots 0).sched with pendingList := some [] }.pendingList.getD [5] = [] ∧
      ∀ st, ¬(cycling (part .online .clean) st .slots 0).standsReport :=
  ⟨fun _ => ⟨rfl, List.cons_ne_nil _ _⟩, rfl, fun _ => not_due⟩

theorem test_meets_SlotIsJudgedAgainstItsStation :
    ((part .absent .clean).entry 5).state ≠ .online ∧ ((part .absent .clean).entry 5).state ≠ .suspect ∧
      ((part .suspect .clean).entry 5).state = .suspect ∧ ((part .online .unset).entry 5).state = .online ∧
      (part .online .unset).areas 5 = some (areasIn .unset) ∧ (part .online .clean).areas 5 = some (areasIn .clean) ∧
      ((part .online .clean).entry 5).profile = some profile ∧ State.reset.sched.cycleNumber.toNat % profile.divisor = 0 ∧
      (1 : Half).toNat % profile.divisor ≠ 0 ∧ 0 < profile.outLen ∧ (part .online .clean).sup.hold = .notHeld := by
  decide +kernel

/-- The part with the supervision unit as given. -/
def supervised (s : State) (claim : BroadcastClaim) (handover : HandoverState) : State :=
  { s with sup := { s.sup with claim := claim, handover := handover } }

theorem test_meets_ArbiterTakesHandoverThenBroadcast :
    (busy State.reset .sending (record .sample .cyclic)).engine.state ≠ .idle ∧
      (supervised State.reset .hold .requested).engine.state = .idle ∧
      (supervised State.reset .hold .requested).sup.handover = .requested ∧
      (supervised State.reset .release .none).sup.handover ≠ .requested ∧ State.reset.lineFree ∧
      State.reset.eligibleTicket = none ∧ State.reset.sched.state ≠ .active := by
  unfold State.lineFree
  decide

/-- The part whose station is in a state, with tickets 2 and 4 for it QUEUED, held or not. -/
def waiting (st : Health) (f : TicketFunction) : State :=
  { part st .clean with
    tickets := { queue := [ticket 2 f .queued, ticket 4 .probe .queued], idCounter := 5 } }

theorem waiting_ticketLaw (st : Health) (f : TicketFunction) : TicketLaw (waiting st f) := by
  refine ⟨?_, ?_, List.Perm.refl _⟩
  · change 2 ≤ 16
    decide
  · change [(2 : Byte), 4].Nodup
    decide

theorem test_meets_ArbiterTakesTheEligibleTicket :
    (∀ st f, TicketLaw (waiting st f) ∧ (waiting st f).lineFree ∧ (waiting st f).eligibleTicket = some (ticket 2 f .queued) ∧
      (waiting st f).sched.state ≠ .active) ∧
      ((waiting .online .sample).entry 5).state = .online ∧ ((waiting .suspect .sample).entry 5).state = .suspect ∧
      ((waiting .mismatch .sample).entry 5).state = .mismatch ∧ ((waiting .absent .probe).entry 5).state ≠ .unused ∧
      (cycling (waiting .online .sample) .active .slots 0).lineFree ∧
      0 < { demandAllowance := 4, probeCursor := 63 : Arbiter }.demandAllowance := by
  refine ⟨fun st f => ⟨waiting_ticketLaw st f, ⟨rfl, fun h => HandoverState.noConfusion h, rfl⟩, ?_,
    fun h => SchedState.noConfusion h⟩, by decide +kernel, by decide +kernel, by decide +kernel, by decide +kernel,
    ⟨rfl, fun h => HandoverState.noConfusion h, rfl⟩, by decide⟩
  cases f <;> rfl

theorem test_meets_ArbiterTakesTheNextSlot :
    (cycling (part .online .dirty) .active .slots 0).lineFree ∧ (cycling (part .online .dirty) .active .slots 0).noTicketNow ∧
      (cycling (part .online .dirty) .active .slots 0).sched.stopRequest ≠ .afterSlot ∧
      (cycling (part .online .dirty) .active .slots 0).sched.cycleList.drop 0 = [] ++ 5 :: [] ∧
      (cycling (part .online .dirty) .active .slots 0).judgeSlot 5 = some (.exchange, .cyclic) ∧
      (cycling (part .online .unset) .active .slots 0).judgeSlot 5 = some (.sample, .cyclic) ∧
      (cycling (part .online .dirty) .active .slots 0).judgeSlot 6 = none ∧
      (cycling (part .online .dirty) .active .slots 0).areas 5 = some (areasIn .dirty) :=
  ⟨⟨rfl, fun h => HandoverState.noConfusion h, rfl⟩, Or.inl rfl, fun h => StopRequest.noConfusion h, rfl, by decide +kernel⟩

theorem test_meets_ArbiterIssuesADiscoveryProbe :
    (cycling (part .offline .clean) .active .discovery 1).asksDiscovery ∧
      (cycling (part .offline .clean) .active .discovery 1).sched.probesIssued ≠ 1 ∧
      5 ≤ (cycling (part .offline .clean) .active .discovery 1).searchReach ∧
      (cycling (part .offline .clean) .active .discovery 1).searched 5 = 5 ∧
      (cycling (part .offline .clean) .active .discovery 1).isDiscoverable 5 ∧
      (∀ j, 1 ≤ j → j < 5 → ((part .offline .clean).entry j).state = .unused) ∧
      (∀ b ∈ (cycling (part .offline .clean) .active .slots 0).sched.cycleList.drop 0,
        (cycling (part .offline .clean) .active .slots 0).judgeSlot b = none) ∧
      (cycling (part .offline .clean) .active .slots 1).sched.cycleList.drop 1 = [] := by
  refine ⟨⟨⟨rfl, fun h => HandoverState.noConfusion h, rfl⟩, Or.inl rfl, rfl, fun h => StopRequest.noConfusion h, rfl⟩,
    by decide, by decide, by decide, ⟨by decide +kernel, profile, by decide +kernel, rfl⟩, fun j h1 h5 => ?_,
    by decide +kernel, rfl⟩
  rw [part_entry, if_neg (by omega)]
  rfl

theorem test_meets_CycleCompletes :
    (cycling (part .online .clean) .active .discovery 1).asksDiscovery ∧
      { cycling (part .online .clean) .active .discovery 1 with
        sched := { (cycling (part .online .clean) .active .discovery 1).sched with probesIssued := 1 } }.discoveryOver ∧
      (cycling (part .online .clean) .active .discovery 1).discoveryOver ∧
      (cycling (waiting .online .sample) .active .discovery 1).asksDiscovery ∧
      (cycling (waiting .online .sample) .active .discovery 1).eligibleTicket = some (ticket 2 .sample .queued) ∧
      (cycling (part .online .clean) .active .discovery 1).sched.periodTimer.isSome = true ∧
      TicketLaw (cycling (part .online .clean) .active .discovery 1) ∧
      TicketLaw (cycling (waiting .online .sample) .active .discovery 1) := by
  refine ⟨⟨⟨rfl, fun h => HandoverState.noConfusion h, rfl⟩, Or.inl rfl, rfl, fun h => StopRequest.noConfusion h, rfl⟩,
    Or.inl rfl, Or.inr fun k _ _ h => ?_, ⟨⟨rfl, fun h => HandoverState.noConfusion h, rfl⟩, Or.inr ⟨rfl, rfl⟩, rfl,
      fun h => StopRequest.noConfusion h, rfl⟩, rfl, rfl, ⟨Nat.zero_le 16, List.nodup_nil, List.Perm.refl _⟩,
    waiting_ticketLaw .online .sample⟩
  have hs : (cycling (part .online .clean) .active .discovery 1).entry
      ((cycling (part .online .clean) .active .discovery 1).searched k) =
      if (cycling (part .online .clean) .active .discovery 1).searched k = 5 then entryIn .online else .unused :=
    part_entry .online .clean _
  rw [State.isDiscoverable, hs] at h
  split at h
  · exact absurd h.1 (by decide)
  · exact absurd h.1 (by decide)

theorem part_cycleLaw : CycleLaw (part .online .clean) :=
  ⟨by unfold CycleRanges; decide +kernel, by unfold CycleConsistent; decide +kernel⟩

theorem test_meets_EveryStepKeepsTheCycleLaw :
    LineLaw (part .online .clean) ∧ CycleLaw (part .online .clean) ∧ ∃ t, step (stepping (part .online .clean)) = .next t :=
  ⟨part_lineLaw _ _, part_cycleLaw, stepping_steps _⟩

/-! ### Tickets, reports, hold and handover -/

/-- The part with as many tickets, from id 0 on, and the id counter given. -/
def crowded (n : Nat) (counter : Byte) : State :=
  { part .online .clean with
    tickets := { queue := (List.range n).map (fun k => ticket (byte k) .sample .queued), idCounter := counter } }

theorem test_meets_SubmitPlacesATicket :
    (∀ p, (given (part .online .clean) 0x40 p).offers (msg 0x40 p) [] 0x40) ∧
      (∀ p, (given (crowded 15 0) 0x40 p).offers (msg 0x40 p) [] 0x40) ∧ (crowded 15 0).tickets.queue.length < 16 ∧
      16 ≤ (crowded 16 0).tickets.queue.length ∧ ((part .online .clean).entry 63).state = .unused ∧
      ((crowded 15 0).entry 5).state ≠ .unused ∧
      ([5, 5, 1, 0x34, 0x12, 17] : List Byte) =
        [5, TicketFunction.paramWrite.onLine.code, Priority.urgent.code] ++ le16 0x1234 ++ [byte 17] :=
  ⟨fun _ => part_offers _ _ _ _, fun _ => offered _ _ _ rfl rfl, by decide +kernel⟩

theorem test_meets_CancelAndTicketQueryFindTheTicket :
    TicketLaw (withTickets (part .online .clean)) ∧
      (∀ p, (given (withTickets (part .online .clean)) 0x41 p).offers (msg 0x41 p) [] 0x41) ∧
      (∀ p, (given (withTickets (part .online .clean)) 0x42 p).offers (msg 0x42 p) [] 0x42) ∧
      (∀ t ∈ (withTickets (part .online .clean)).tickets.queue, t.id ≠ 3) ∧
      (withTickets (part .online .clean)).tickets.queue =
        [ticket 1 .sample (.done (.bare .stationDown 0))] ++ ticket 2 .sample .queued :: [ticket 4 .probe .queued] ∧
      (ticketEnding .sample .good false .stopped .none).tickets.queue =
        [] ++ ticket 1 .sample .onLine :: [ticket 2 .probe .queued] ∧
      (∀ p, (given (ticketEnding .sample .good false .stopped .none) 0x41 p).offers (msg 0x41 p) [] 0x41) :=
  ⟨⟨by decide, by decide, List.Perm.refl _⟩, fun _ => offered _ _ _ rfl rfl, fun _ => offered _ _ _ rfl rfl, by decide, rfl, rfl,
    fun _ => offered _ _ _ rfl rfl⟩

theorem test_freedom_of_the_sample_tickets :
    (withTickets (part .online .clean)).freeToTake [ticket 1 .sample (.done (.bare .stationDown 0))] (ticket 2 .sample .queued) ∧
      ¬(withTickets (part .online .clean)).freeToTake [ticket 2 .sample .queued] (ticket 4 .probe .queued) := by
  unfold State.freeToTake
  decide +kernel

theorem test_meets_EveryStepKeepsTheTicketLaw :
    TicketLaw (stepping (withTickets (part .online .clean))) ∧
      ∃ t, step (stepping (withTickets (part .online .clean))) = .next t :=
  ⟨⟨by decide, by decide, List.Perm.refl _⟩, stepping_steps _⟩

/-- A report unit with the notices of stations 1 to n waiting. -/
def notices (n : Nat) : ReportUnit := { ReportUnit.initial with queue := (List.range' 1 n).map .inputChange }

theorem test_meets_CreditAddsAndRequestsArePlaced :
    (∀ p, (given (part .online .clean) 0x50 p).offers (msg 0x50 p) [] 0x50) ∧
      (ReportRequest.lineFault 5).makes (.lineFault 1 5) ∧
      (∀ e ∈ (notices 16).queue, e.sameThing (.lineFault 1 5) = false) ∧
      (credited 1 [.lineFault 1 0]).standsReport ∧ ¬State.reset.standsReport ∧
      16 ≤ ((notices 16).queue.filter ReportEntry.isNotice).length ∧
      ((notices 15).queue.filter ReportEntry.isNotice).length < 16 ∧
      (notices 2).queue = [.inputChange 1] ++ .inputChange 2 :: [] ∧
      (∀ x ∈ [ReportEntry.inputChange 1], x.sameThing (.inputChange 2) = false) :=
  ⟨fun _ => part_offers _ _ _ _, rfl, by decide, by unfold State.standsReport; decide, not_due, by decide⟩

theorem test_meets_EveryStepKeepsTheReportLaws :
    CreditLaw (stepping { State.reset with reports := notices 16 }) ∧
      ReportLaw (stepping { State.reset with reports := notices 16 }) ∧
      ∃ t, step (stepping { State.reset with reports := notices 16 }) = .next t :=
  ⟨by unfold CreditLaw; decide, ⟨by decide, by decide⟩, stepping_steps _⟩

/-- The part held, with a RELEASE or HOLD claimed or not, hold time 10. -/
def heldPart (s : State) : State :=
  { s with sup := { s.sup with hold := .held, holdTime := 10, holdTimer := none } }

theorem test_meets_HoldSetupReplacesTimeAndLimit :
    (∀ p, (given (part .online .clean) 0x60 p).offers (msg 0x60 p) [] 0x60) ∧
      (∀ p, (given (heldPart (part .online .clean)) 0x60 p).offers (msg 0x60 p) [] 0x60) ∧
      ([0x60, 0xEA, 255] : List Byte) = le16 60000 ++ [255] ∧ ([0x61, 0xEA, 255] : List Byte) = le16 60001 ++ [255] ∧
      60000 < (60001 : Half).toNat ∧ 10 ≤ (10 : Half).toNat ∧ (9 : Half).toNat ≤ 9 :=
  ⟨fun _ => part_offers _ _ _ _, fun _ => offered _ _ _ rfl rfl, by decide⟩

theorem test_meets_HoldIsEnteredAndEnded :
    { State.reset with sup := { State.reset.sup with holdTime := 10, holdTimer := some 10 } }.sup.holdTimer.isSome = true ∧
      ¬{ State.reset with sup := { State.reset.sup with holdTime := 10, holdTimer := some 10 } }.standsReport ∧
      (given (heldPart (part .online .clean)) 0x61 []).offers (msg 0x61 []) [] 0x61 ∧
      (heldPart (part .online .clean)).sup.hold = .held ∧
      (given (part .online .clean) 0x61 []).offers (msg 0x61 []) [] 0x61 ∧ (part .online .clean).sup.hold = .notHeld :=
  ⟨rfl, not_due, offered _ _ _ rfl rfl, rfl, offered _ _ _ rfl rfl, rfl⟩

/-- The part with LREQ and handover state as given, the limit timer running. -/
def lent (s : State) (lreq : Bool) (h : HandoverState) : State :=
  { s with lreq := lreq, sup := { s.sup with handover := h, limitTimer := some 10 } }

theorem test_meets_LreqAsksForTheLineAndReturnsIt :
    (part .online .clean).lreq = false ∧ (part .online .clean).sup.handover = .none ∧
      (lent State.reset true .requested).lreq = true ∧ (lent State.reset true .requested).sup.handover = .requested ∧
      (lent (part .online .clean) true .granted).sup.handover = .granted ∧
      (lent (part .online .clean) true .granted).sup.limitTimer.isSome = true ∧
      ((lent (part .online .clean) true .granted).entry 5).state = .online ∧ ¬(part .online .clean).standsReport ∧
      ∀ h, ¬(lent (part .online .clean) true h).standsReport :=
  ⟨rfl, rfl, rfl, rfl, rfl, rfl, by decide +kernel, not_due, fun _ => not_due⟩

/-- The held part, its hold claim standing, sending a retry of a PARAM_WRITE that it began before. -/
def heldSending : State :=
  busy (heldPart (part .online .clean)) .sending { record .paramWrite (.ticket 1) with noRetry := true }

theorem test_meets_EveryStepKeepsTheLawsOfHoldAndHandover :
    SupervisionLaw (stepping (heldPart (part .online .clean))) ∧ HoldLaw (stepping heldSending) ∧
      (∃ t, step (stepping (heldPart (part .online .clean))) = .next t) ∧ ∃ t, step (stepping heldSending) = .next t := by
  refine ⟨⟨by decide +kernel, by decide +kernel, by decide +kernel, by decide +kernel⟩, fun _ r h _ => ?_, stepping_steps _,
    stepping_steps _⟩
  cases h
  rfl

theorem test_meets_NoForbiddenFrameIsStartedWhileHeld :
    HoldLaw (stepping heldSending) ∧ ∃ t, step (stepping heldSending) = .next t ∧ t.sup.hold = .held ∧
      t.engine.state = .sending ∧
      t.engine.record = some { record .paramWrite (.ticket 1) with noRetry := true } := by
  refine ⟨fun _ r h _ => ?_, _, rfl, rfl, rfl, rfl⟩
  cases h
  rfl

end Sys2Proof.Tests
end

section
/-! The words of the statements tied to the operations of the model: a report that stands, a message taken and answered, and the
choice that follows a row which leaves the engine IDLE. -/

namespace Sys2Proof.Machine

/-! ## A report that stands (R131, R141) -/

/-- A report stands exactly where one is due. -/
theorem State.standsReport_iff (s : State) : s.standsReport ↔ ∃ e, s.dueReport = some e := (State.dueReport_iff s).symm

/-- Where no report stands, taking the one due changes nothing. -/
theorem State.takeDueReport_of_not_stands {s : State} (h : ¬s.standsReport) : s.takeDueReport = s :=
  State.takeDueReport_of_none (State.dueReport_none_of_not h)

/-- REPORT_TAKEN where a report stands is the taking of the report that is due. -/
theorem State.exec_reportTaken {s : State} (h : s.standsReport) : exec .reportTaken s = .next s.takeDueReport := by
  obtain ⟨e, he⟩ := s.standsReport_iff.1 h
  change execReportTaken s = _
  unfold execReportTaken
  rw [if_neg (not_not.2 h.1), he, State.takeDueReport_of_due he]

/-- The state in which a row finds the report that was due taken, in the words of the statements. -/
theorem State.takeDueReport_spec (s : State) :
    (¬s.standsReport → s.takeDueReport = s) ∧ (s.standsReport → exec .reportTaken s = .next s.takeDueReport) :=
  ⟨State.takeDueReport_of_not_stands, State.exec_reportTaken⟩

/-- A state that is `s`, or `s` with the report that stood there taken, is `s` with the report that was due taken. -/
theorem State.eq_takeDueReport {s v : State} (h1 : ¬s.standsReport → v = s)
    (h2 : s.standsReport → exec .reportTaken s = .next v) : v = s.takeDueReport := by
  by_cases h : s.standsReport
  · have e := (h2 h).symm.trans (State.exec_reportTaken h)
    injection e
  · rw [State.takeDueReport_of_not_stands h, h1 h]

/-! ## A message taken and answered (R138, R139) -/

section
variable {s : State} {m : Message} {rest : List Message} {type : Byte}

theorem State.offers.takeDueReport (h : s.offers m rest type) : s.takeDueReport = s := by
  obtain ⟨-, -, -, -, -, hn⟩ := h
  exact State.takeDueReport_of_not_stands hn

/-- A message offered that is taken is being decided. -/
theorem State.offers.beginCommand (h : s.offers m rest type) : s.beginCommand m = s.taking m rest := by
  obtain ⟨hin, -⟩ := h
  unfold State.beginCommand State.taking
  rw [hin]
  rfl

/-- A message offered whose owning block answers from the state `t` is answered there. -/
theorem State.offers.answers {α : Type} {mine : Byte → Bool} {parse : List Byte → Option α}
    {decide : α → State → State × Reply} {f : α} {t : State} {r : Reply} (h : s.offers m rest type)
    (hm : mine type = true) (hp : parse m.payload = some f)
    (hd : decide f (s.taking m rest) = (t.taking m rest, r)) :
    takeCommand mine parse decide s = .next (t.answered m rest r.result r.body) := by
  have hb := h.beginCommand
  obtain ⟨hin, rfl, hproc, hresp, hrst, hn⟩ := h
  have hfree : s.processorFree = true := by simp [State.processorFree, hproc, hresp, hrst]
  rw [takeCommand_of_parse hin hm hfree (State.dueReport_none_of_not hn) hp, hb, hd]
  rfl

/-- A message offered that the owning block refuses changes nothing else. -/
theorem State.offers.refuses {α : Type} {mine : Byte → Bool} {parse : List Byte → Option α}
    {decide : α → State → State × Reply} {f : α} {res : Result} (h : s.offers m rest type) (hm : mine type = true)
    (hp : parse m.payload = some f) (hd : decide f (s.taking m rest) = (s.taking m rest, .refuse res)) :
    takeCommand mine parse decide s = .next (s.answered m rest res []) := h.answers hm hp hd

end

/-! ## The choice that follows (R100, R117, R158; log entry 26) -/

/-- A choice, a report due having been taken first, in the words of the statements. -/
theorem State.chosenAt_choose (t : State) : t.chosenAt (.next t.choose) := by
  refine ⟨fun h => ?_, fun v h hv => ?_⟩
  · rw [State.choose, State.takeDueReport_of_not_stands h]
  · rw [State.choose, State.eq_takeDueReport (fun hn => absurd h hn) (fun _ => hv)]

/-- The command processor takes a message of a command TYPE by the row of that TYPE (R138, R163). -/
theorem State.takeMessage_of_row {s : State} {m : Message} {c : Instr} (hm : s.commandInHand = some m)
    (hc : (m.type, c) ∈ commandRows) : s.takeMessage = exec c s := by
  unfold State.takeMessage
  rw [hm]
  dsimp only
  generalize m.type = ty at hc
  simp only [commandRows, List.mem_cons, Prod.mk.injEq, List.not_mem_nil, or_false] at hc
  rcases hc with ⟨rfl, rfl⟩ | ⟨rfl, rfl⟩ | ⟨rfl, rfl⟩ | ⟨rfl, rfl⟩ | ⟨rfl, rfl⟩ | ⟨rfl, rfl⟩ | ⟨rfl, rfl⟩ | ⟨rfl, rfl⟩ |
    ⟨rfl, rfl⟩ | ⟨rfl, rfl⟩ | ⟨rfl, rfl⟩ | ⟨rfl, rfl⟩ | ⟨rfl, rfl⟩ | ⟨rfl, rfl⟩ | ⟨rfl, rfl⟩ | ⟨rfl, rfl⟩ | ⟨rfl, rfl⟩ |
    ⟨rfl, rfl⟩ | ⟨rfl, rfl⟩ <;> rfl

/-- The TYPEs with a meaning are those of the rows (R163). -/
theorem commandMeanings_types : commandMeanings.map Prod.fst = commandRows.map Prod.fst := rfl

/-- The command processor refuses a message of no command TYPE (R138, step 1). -/
theorem State.takeMessage_of_badType {s : State} {m : Message} (hm : s.commandInHand = some m)
    (hc : ∀ row ∈ commandRows, m.type ≠ row.1) : s.takeMessage = exec .badType s := by
  have hnone : commandMeanings.find? (fun row => row.1 == m.type) = none := by
    rw [List.find?_eq_none]
    intro row hrow heq
    have hmem : row.1 ∈ commandRows.map Prod.fst := commandMeanings_types ▸ List.mem_map_of_mem hrow
    obtain ⟨r, hr, hr1⟩ := List.mem_map.1 hmem
    exact hc r hr (by rw [hr1]; exact (beq_iff_eq.1 heq).symm)
  unfold State.takeMessage
  rw [hm]
  dsimp only
  rw [hnone]
  rfl

/-- The choice made after the event named is the choice that follows, in the words of the statements. -/
theorem State.choiceFollows_thenChoose (u : State) (before : BeforeChoice) :
    u.choiceFollows before (thenChoose (u.beforeChoice before)) := by
  have after : ∀ {o : Host.Outcome State Fault Refusal} {t : State}, u.beforeChoice before = o → o = .next t →
      t.chosenAt (thenChoose (u.beforeChoice before)) := by
    rintro _ t ho rfl
    rw [ho]
    exact t.chosenAt_choose
  refine ⟨?_, ?_, ?_, ?_, ?_⟩
  · rintro rfl
    exact after rfl rfl
  · rintro t rfl ht
    exact after rfl ht
  · rintro t rfl ht
    exact after rfl ht
  · rintro t m rest c rfl hidle hin hc ht
    have hand : u.commandInHand = some m := by simp [State.commandInHand, hidle, hin]
    refine after (o := exec c u) ?_ ht
    rcases hc with hc | ⟨rfl, hc⟩
    · exact State.takeMessage_of_row hand hc
    · exact State.takeMessage_of_badType hand hc
  · rintro t m reads c rfl hdec hc ht
    have hand : u.commandInHand = some m := by simp [State.commandInHand, hdec]
    exact after (State.takeMessage_of_row hand hc) ht

end Sys2Proof.Machine
end

section
/-! The law of the exchange record (R57, R61, R66, R68, R69) over every effect a command can have. -/

namespace Sys2Proof.Machine

/-- The change that a define or remove makes to the record in flight: its discard flag alone (R79). -/
theorem ExchangeRecord.discarded_eq (r : ExchangeRecord) (a : Nat) :
    (if r.station = a then { r with discard := true } else r) =
      { r with discard := r.discard || r.station == a } := by
  by_cases h : r.station = a
  · simp [h]
  · rw [if_neg h, beq_false_of_ne h, Bool.or_false]

/-- The handover state that follows LREQ after a reset, with no record in flight (R161). -/
theorem RecordLaw.followLreq {s : State} (h1 : s.line.inRange) (h2 : s.engine.record = none) :
    RecordLaw s.followLreq := by
  unfold State.followLreq
  split
  · exact RecordLaw.ofNone h1 rfl
  · exact (RecordLaw.ofNone h1 h2).choice

/-- A record whose discard flag a define or remove may have set keeps the law. -/
theorem RecordLaw.discardExchange {s t : State} (h : RecordLaw s) (a : Nat) (h1 : t.line = s.line)
    (h2 : t.engine = (s.discardExchange a).engine) : RecordLaw t := by
  refine h.mapRecord (fun r => { r with discard := r.discard || r.station == a }) (fun _ => rfl) (h1 ▸ h.1)
    (by rw [h2]; rfl) ?_
  simp only [h2, State.discardExchange, ExchangeRecord.discarded_eq]

/-- A start bit begins the reply in assembly afresh, or changes timers alone (R65, R66, R70). -/
theorem RecordLaw.startBit {s : State} (h : RecordLaw s) (b : BitSamples) : RecordLaw (s.startBit b) := by
  unfold State.startBit
  split
  · exact h
  · refine ⟨h.1, fun r hr => ?_⟩
    dsimp only [State.setLineRx] at hr ⊢
    obtain ⟨-, hrec⟩ := h
    unfold Engine.startDetected at hr ⊢
    cases hs : s.engine.state
    case awaiting =>
      simp only [hs, Option.map_eq_some_iff] at hr ⊢
      obtain ⟨q, hq, rfl⟩ := hr
      have hlaw := hrec q hq
      rw [hs] at hlaw
      obtain ⟨hshape, hatt, -⟩ := hlaw
      exact ⟨hshape, hatt, by simp [ExchangeRecord.AssemblyLaw]⟩
    all_goals
      simp only [hs] at hr ⊢
      have hlaw := hrec r hr
      rw [hs] at hlaw
      exact hlaw

/-- A character in RECEIVING is appended to the reply in assembly, or classifies the attempt (R66). -/
theorem RecordLaw.receiveChar {s : State} (h : RecordLaw s) (hs : s.engine.state = .receiving) (c : RxChar) :
    RecordLaw (s.receiveChar c) := by
  cases hr : s.engine.record with
  | none => simpa [State.receiveChar, hr] using h
  | some r =>
    obtain ⟨hline, hrec⟩ := h
    have hlaw := hrec r hr
    rw [hs] at hlaw
    obtain ⟨hshape, hatt, hasm⟩ := hlaw
    have classified : ∀ (t : State) (o : AttemptOutcome), t.line = s.line → t.engine.record = some (r.append c) →
        RecordLaw (t.classifyAttempt o) := by
      intro t o hl ht
      refine RecordLaw.classifyAttempt (hl ▸ hline) (fun q hq => ?_) o
      rw [ht, Option.some.injEq] at hq
      subst hq
      exact ⟨hshape, hatt, ExchangeRecord.append_length c hasm⟩
    unfold State.receiveChar
    rw [hr]
    dsimp only
    split
    · exact classified _ _ rfl rfl
    · rename_i hb
      split
      · obtain ⟨n, hn⟩ := State.classifyReply_eq (s.withReplyChar r c none) (r.append c)
        exact hn ▸ classified _ _ rfl rfl
      · rename_i hc
        refine ⟨hline, fun q hq => ?_⟩
        obtain rfl : r.append c = q := by simpa using hq
        obtain ⟨-, hasm'⟩ := ExchangeRecord.assembly_append hasm (by simpa using hb)
        dsimp only
        rw [hs]
        exact ⟨hshape, hatt, hasm' (by simpa using hc)⟩

/-- A finished character keeps the law in every state of the engine (R63, R65, R66, R70). -/
theorem RecordLaw.deliverChar {s : State} (h : RecordLaw s) (c : RxChar) : RecordLaw (s.deliverChar c) := by
  have h1 : RecordLaw (s.countLine (fun st => st.countClass c)) := h
  unfold State.deliverChar
  dsimp only
  split
  · exact h1
  · rename_i hs
    exact h1.classify (Or.inl hs) _
  · rename_i hs
    exact h1.receiveChar hs c
  · exact h1
  · exact h1
  · exact h1

/-- The end of a frame: the engine waits for the reply, or a broadcast for quiet (R64, R70). -/
theorem RecordLaw.frameEnds {s : State} (h : RecordLaw s) {r : ExchangeRecord} (hs : s.engine.state = .sending)
    (hr : s.engine.record = some r) : RecordLaw (s.frameEnds r) := by
  obtain ⟨hline, hrec⟩ := h
  have hlaw := hrec r hr
  rw [hs] at hlaw
  obtain ⟨hshape, ⟨a1, a2, a3, a4⟩, hasm, -⟩ := hlaw
  unfold State.frameEnds
  dsimp only
  split
  · rename_i ho
    refine ⟨hline, fun q hq => ?_⟩
    obtain rfl : r = q := Option.some.inj (hr.symm.trans hq)
    have hnone : r.lastOutcome = none := by
      unfold ExchangeRecord.ShapeLaw at hshape
      rw [ho] at hshape
      obtain ⟨-, -, -, -, -, hl⟩ := hshape
      exact hl
    refine ⟨hshape, ⟨a1, a2, a3, ?_⟩, hasm, by simp [Engine.enterGuard]⟩
    simpa [Engine.enterGuard, hnone] using a4
  · rename_i ho
    refine ⟨hline, fun q hq => ?_⟩
    obtain rfl : r = q := Option.some.inj (hr.symm.trans hq)
    exact ⟨hshape, ⟨a1, a2, a3, a4, ho⟩, hasm, by simp⟩

@[simp] theorem State.endExchange_line (s : State) (r : ExchangeRecord) (o : AttemptOutcome) (order : List ReportSource) :
    (s.endExchange r o order).line = s.line := by
  simp [State.endExchange]

/-- A guard's end: a further attempt after one that failed, or no record any more (R69, R71, R73). -/
theorem RecordLaw.guardEnds {s : State} (h : RecordLaw s) (order : List ReportSource) :
    RecordLaw (s.guardEnds order) := by
  obtain ⟨hline, hrec⟩ := h
  unfold State.guardEnds
  split
  · exact RecordLaw.ofNone hline rfl
  · rename_i r hr
    split
    · rename_i hretry
      obtain ⟨hq, hmay⟩ := hretry
      have hlaw := hrec r hr
      rw [hq] at hlaw
      obtain ⟨hshape, ⟨a1, a2, a3, a4⟩, hasm, -⟩ := hlaw
      simp only [ExchangeRecord.mayRetry, Bool.and_eq_true, decide_eq_true_eq, Bool.not_eq_true'] at hmay
      obtain ⟨⟨⟨hallow, hlt⟩, -⟩, -⟩ := hmay
      have hfail : r.lastOutcome.any AttemptOutcome.isFailedAttempt = true := by
        cases ho : r.lastOutcome with
        | none => simp [ho] at hallow
        | some o => rw [ho] at hallow; cases o <;> simp_all [AttemptOutcome.allowsRetry, AttemptOutcome.isFailedAttempt]
      simp only [hfail, if_true, Nat.add_zero] at a4
      refine ⟨hline, fun q hq' => ?_⟩
      simp only [State.startAttempt_engine, Option.some.injEq] at hq'
      subst hq'
      exact ⟨hshape, ⟨Nat.le_add_left _ _, hlt, a3, by simp [Engine.empty, a4]⟩, hasm, by simp [Engine.empty]⟩
    · exact RecordLaw.ofNone (by rw [State.endExchange_line]; exact hline) rfl

/-- The jam limit leaves no record in flight (R72, R73). -/
theorem State.lineJams_record (s : State) (order : List ReportSource) : (s.lineJams order).engine.record = none := by
  unfold State.lineJams
  dsimp only
  split
  · assumption
  · rfl

theorem State.lineJams_inRange {s : State} (h : s.line.inRange) (order : List ReportSource) :
    (s.lineJams order).line.inRange := by
  unfold State.lineJams
  dsimp only
  split
  · exact h
  · simp only [State.placeAll_line, State.concludeExchange_line]
    exact h

/-- Every effect of a command keeps the law of the record. -/
theorem recordLaw_execClosed : ExecClosed RecordLaw where
  choice := fun _ h => h.choice
  host := fun _ _ h => h
  lineSetup := fun _ _ _ _ h _ _ hr => h.congr hr rfl rfl
  clearLine := fun _ h => h
  draw := fun _ _ h => h
  define := fun s f p h _ => h.discardExchange f.address (by rw [State.define_frame]) (by rw [State.define_frame])
  remove := fun s a h _ _ => h.discardExchange a (by rw [State.remove_frame]) (by rw [State.remove_frame])
  clearCounters := fun s a h _ => h.congr (by rw [State.clearCounters_line]; exact h.1) (by simp) (by simp)
  installList := fun _ _ h _ _ _ => h
  pendList := fun _ _ h _ _ => h
  beginCycling := fun s mode f h _ _ => by
    unfold State.beginCycling
    rw [State.abandonCycle_frame]
    exact h
  stopAfterSlot := fun s h => by
    unfold State.stopAfterSlot
    split
    · exact h
    · exact h
    · split <;> exact h
  stopAfterCycle := fun s h => by
    unfold State.stopAfterCycle
    split
    · exact h
    · exact h
    · split <;> exact h
  applyItems := fun s items h _ => by
    rw [State.applyItems_frame]
    exact h
  placeTicket := fun _ _ _ _ h _ => h
  cancelTicket := fun s id t h _ _ => by
    rw [State.completeTicket_frame]
    exact h
  credit := fun _ _ h _ => h
  takeReport := fun _ _ _ h _ _ => h
  holdSetup := fun _ _ _ _ h => h
  restartHoldTimer := fun _ h => h
  endHold := fun _ h _ => h
  enterHold := fun s h =>
    h.mapRecord (fun r => if r.func.heldForbidden then { r with noRetry := true } else r)
      (fun r => by split <;> rfl) h.1 rfl rfl
  limitExpires := fun _ h => h
  lreqAsserted := fun _ h _ => h
  lreqNegated := fun _ h _ _ => h
  returnLine := fun s order h _ _ => by
    unfold State.returnLine
    exact RecordLaw.ofNone (by rw [State.placeAll_line]; exact h.1) (by rw [State.placeAll_engine]; rfl)
  initialised := fun s strap _ =>
    RecordLaw.followLreq (by simp [State.initialised, State.reset, LinePort.initial, LinePort.inRange]) rfl
  warm := fun s h => RecordLaw.followLreq h.1 rfl
  startBit := fun _ b h _ => h.startBit b
  char := fun s rx c h _ _ => RecordLaw.deliverChar (s := s.setLineRx rx) h c
  frameEnds := fun _ _ h hs hr => h.frameEnds hs hr
  noReply := fun _ h hs => h.classify (Or.inl hs) _
  gap := fun _ h hs => h.classify (Or.inr hs) _
  quiet := fun _ order h _ => h.guardEnds order
  jam := fun s order h _ _ => RecordLaw.ofNone (State.lineJams_inRange h.1 order) (State.lineJams_record s order)
  period := fun s h _ => by
    unfold State.periodExpires
    split
    · exact h
    · exact h
    · dsimp only
      split
      · exact RecordLaw.choice (s := { s with sched := s.sched.nextCycle }) h
      · exact h

end Sys2Proof.Machine
end

section
/-! The law of the station table (R1, R5, R14, R90) over every effect a command can have, and over every step. -/

namespace Sys2Proof.Machine

/-- A handover state that follows LREQ after a reset, with no record in flight (R161). -/
theorem StationLaw.followLreq {s : State} (h : ∀ a, (s.entry a).Law) (h2 : s.engine.record = none) :
    StationLaw s.followLreq := by
  unfold State.followLreq
  split
  · exact StationLaw.ofEntries h rfl
  · exact (StationLaw.ofEntries h h2).choice

/-- A define or remove: the station's entry is replaced and its exchange discarded (R16, R18, R79). -/
theorem StationLaw.redefine {s t : State} (h : StationLaw s) (a : Nat) {e : StationEntry} (he : e.Law)
    (h1 : t.stations = (s.setEntry a e).stations) (h2 : t.engine = (s.discardExchange a).engine) : StationLaw t := by
  obtain ⟨hent, hrec⟩ := h
  have entry : ∀ b, t.entry b = if b = a ∧ 1 ≤ a ∧ a ≤ 63 then e else s.entry b := fun b => by
    rw [State.entry_congr h1, State.entry_setEntry]
  refine ⟨fun b => ?_, fun r hr => ?_⟩
  · rw [entry]
    split
    · exact he
    · exact hent b
  · simp only [h2, State.discardExchange, Option.map_eq_some_iff] at hr
    obtain ⟨q, hq, rfl⟩ := hr
    by_cases hqa : q.station = a
    · rw [if_pos hqa]
      exact fun hd => by cases hd
    · rw [if_neg hqa]
      intro hd hf
      rw [entry, if_neg (fun hc => hqa hc.1)]
      exact hrec q hq hd hf

/-- Cleared counters leave every state as it is (R20). -/
theorem StationLaw.clearCounters {s : State} (h : StationLaw s) (a : Nat) : StationLaw (s.clearCounters a) := by
  obtain ⟨hent, hrec⟩ := h
  have entry : ∀ b, (s.clearCounters a).entry b =
      if b = a ∧ 1 ≤ a ∧ a ≤ 63 then { s.entry a with counters := .zero } else s.entry b := fun b =>
    State.entry_setEntry _ _ _ _
  refine ⟨fun b => ?_, fun r hr hd hf => ?_⟩
  · rw [entry]
    split
    · exact StationEntry.law_clear (hent a)
    · exact hent b
  · rw [State.clearCounters_engine] at hr
    have hon := hrec r hr hd hf
    rw [entry]
    split
    · rename_i hc
      rw [← hc.1]
      exact hon
    · exact hon

/-- A record that keeps its station, function and discard flag. -/
def ExchangeRecord.SameExchange (r q : ExchangeRecord) : Prop :=
  q.func = r.func ∧ q.station = r.station ∧ q.discard = r.discard

/-- The record rewritten in its other fields leaves the law. -/
theorem StationLaw.rewrite {s t : State} (h : StationLaw s) (h1 : t.stations = s.stations)
    (h2 : ∀ r, t.engine.record = some r → ∃ q, s.engine.record = some q ∧ q.SameExchange r) : StationLaw t := by
  refine h.congr h1 (fun r hr => ?_)
  obtain ⟨q, hq, hfunc, hstation, hdiscard⟩ := h2 r hr
  exact ⟨q, hq, hfunc, hstation, fun hd => hdiscard ▸ hd⟩

/-- An attempt classified is one of the same exchange (R68). -/
theorem State.classifyAttempt_sameExchange {s : State} {o : AttemptOutcome} {r : ExchangeRecord}
    (hr : (s.classifyAttempt o).engine.record = some r) : ∃ q, s.engine.record = some q ∧ q.SameExchange r := by
  simp only [State.classifyAttempt_engine, Option.map_eq_some_iff] at hr
  obtain ⟨q, hq, rfl⟩ := hr
  exact ⟨q, hq, rfl, rfl, rfl⟩

/-- A character taken into a reply leaves the exchange the same, and the station table alone (R66). -/
theorem State.receiveChar_sameExchange (s : State) (c : RxChar) :
    (s.receiveChar c).stations = s.stations ∧
      ∀ r, (s.receiveChar c).engine.record = some r → ∃ q, s.engine.record = some q ∧ q.SameExchange r := by
  cases hq : s.engine.record with
  | none => simp [State.receiveChar, hq]
  | some q =>
    rcases State.receiveChar_eq hq c with he | ⟨n, o, he, -⟩ <;> rw [he]
    · refine ⟨rfl, fun r hr => ⟨q, rfl, ?_⟩⟩
      cases hr
      exact ⟨rfl, rfl, rfl⟩
    · refine ⟨rfl, fun r hr => ⟨q, rfl, ?_⟩⟩
      obtain ⟨p, hp, hsame⟩ := State.classifyAttempt_sameExchange hr
      cases hp
      exact hsame

/-- A finished character leaves the exchange the same, and the station table alone (R63, R65, R66, R70). -/
theorem State.deliverChar_sameExchange (s : State) (c : RxChar) :
    (s.deliverChar c).stations = s.stations ∧
      ∀ r, (s.deliverChar c).engine.record = some r → ∃ q, s.engine.record = some q ∧ q.SameExchange r := by
  have same : ∀ r, s.engine.record = some r → ∃ q, s.engine.record = some q ∧ q.SameExchange r :=
    fun r hr => ⟨r, hr, rfl, rfl, rfl⟩
  unfold State.deliverChar
  dsimp only
  split
  · exact ⟨rfl, same⟩
  · exact ⟨rfl, fun r hr => State.classifyAttempt_sameExchange hr⟩
  · exact State.receiveChar_sameExchange _ c
  · exact ⟨rfl, same⟩
  · exact ⟨rfl, same⟩
  · exact ⟨rfl, same⟩

/-- A start bit leaves the exchange the same, and the station table alone (R45, R65). -/
theorem State.startBit_sameExchange (s : State) (b : BitSamples) :
    (s.startBit b).stations = s.stations ∧
      ∀ r, (s.startBit b).engine.record = some r → ∃ q, s.engine.record = some q ∧ q.SameExchange r := by
  have same : ∀ r, s.engine.record = some r → ∃ q, s.engine.record = some q ∧ q.SameExchange r :=
    fun r hr => ⟨r, hr, rfl, rfl, rfl⟩
  unfold State.startBit Engine.startDetected
  split
  · exact ⟨rfl, same⟩
  · refine ⟨rfl, fun r hr => ?_⟩
    dsimp only at hr
    split at hr
    · simp only [Option.map_eq_some_iff] at hr
      obtain ⟨q, hq, rfl⟩ := hr
      exact ⟨q, hq, rfl, rfl, rfl⟩
    all_goals exact same r hr

/-- A guard's end: the exchange goes on, or its outcome reaches the entry (R4 to R9, R69, R71). -/
theorem StationLaw.guardEnds {s : State} (hrec : RecordLaw s) (h : StationLaw s) (order : List ReportSource) :
    StationLaw (s.guardEnds order) := by
  unfold State.guardEnds
  split
  · exact StationLaw.ofEntries h.1 rfl
  · rename_i r hr
    split
    · refine h.rewrite rfl (fun q hq => ⟨r, hr, ?_⟩)
      cases hq
      exact ⟨rfl, rfl, rfl⟩
    · obtain ⟨hshape, -⟩ := hrec.2 r hr
      refine StationLaw.ofEntries (fun a => ?_) rfl
      rw [State.entry_congr (s := (s.concludeExchange r (r.lastOutcome.getD .broken)).1)
        (by simp [State.endExchange])]
      exact State.concludeExchange_entries h.1 (h.2 r hr) hshape _ a

/-- The jam counted (R72, item 1). -/
def State.jamCounted (s : State) : State := s.countLine (fun st => { st with jams := satInc st.jams })

/-- The jam limit with an exchange in flight: the end of the exchange with BROKEN, its reports placed with that of the engine,
and no record any more (R72, R73). -/
theorem State.lineJams_of_record {s : State} {r : ExchangeRecord} (hr : s.engine.record = some r)
    (order : List ReportSource) :
    s.lineJams order =
      { (s.jamCounted.concludeExchange r.jammed .broken).1.placeAll (interleave order
          ((.engine, .lineFault r.station) :: (s.jamCounted.concludeExchange r.jammed .broken).2)) with
        engine := { s.engine with record := none, jamTimer := none } } := by
  have heng : ((s.jamCounted.concludeExchange r.jammed .broken).1.placeAll (interleave order
      ((.engine, .lineFault r.station) :: (s.jamCounted.concludeExchange r.jammed .broken).2))).engine = s.engine := by
    rw [State.placeAll_engine, State.concludeExchange_engine]
    rfl
  unfold State.lineJams
  dsimp only [State.countLine_engine]
  rw [hr]
  dsimp only
  rw [← heng]
  rfl

/-- The jam changes at most the count of failed attempts of the record (R72, item 3). -/
theorem ExchangeRecord.jammed_eq (r : ExchangeRecord) : r.jammed = { r with failedAttempts := r.jammed.failedAttempts } := by
  unfold ExchangeRecord.jammed
  split <;> rfl

/-- The jam limit: the outcome BROKEN reaches the entry (R4, R6, R9, R72). -/
theorem StationLaw.lineJams {s : State} (hrec : RecordLaw s) (h : StationLaw s) (order : List ReportSource) :
    StationLaw (s.lineJams order) := by
  refine StationLaw.ofEntries (fun a => ?_) (State.lineJams_record s order)
  obtain ⟨hent, hdata⟩ := h
  cases hr : s.engine.record with
  | none =>
    have hsame : (s.lineJams order).stations = s.stations := by simp [State.lineJams, hr]
    rw [State.entry_congr hsame]
    exact hent a
  | some r =>
    obtain ⟨hshape, -⟩ := hrec.2 r hr
    have hst : (s.lineJams order).stations = (s.jamCounted.concludeExchange r.jammed .broken).1.stations := by
      rw [State.lineJams_of_record hr]
      exact State.placeAll_stations _ _
    rw [State.entry_congr hst, ExchangeRecord.jammed_eq]
    exact State.concludeExchange_entries (s := s.jamCounted) (r := { r with failedAttempts := r.jammed.failedAttempts })
      hent (hdata r hr) hshape .broken a

/-- The line's return makes every ONLINE station SUSPECT (R10). -/
theorem State.entry_returnLine (s : State) (order : List ReportSource) (a : Nat) :
    (s.returnLine order).entry a = (s.entry a).lineReturned := by
  refine State.entry_map (f := StationEntry.lineReturned) rfl ?_ a
  simp [State.returnLine, State.tableLineReturned]

/-- Every effect of a command keeps the law of the station table, the record in flight keeping its own. -/
theorem stationLaw_execClosed : ExecClosed (fun s => RecordLaw s ∧ StationLaw s) where
  choice := fun _ h => ⟨h.1.choice, h.2.choice⟩
  host := fun _ _ h => h
  lineSetup := fun s a b c h h1 h2 h3 => ⟨recordLaw_execClosed.lineSetup s a b c h.1 h1 h2 h3, h.2⟩
  clearLine := fun _ h => h
  draw := fun _ _ h => h
  define := fun s f p h hc => by
    obtain ⟨-, hp, -⟩ := State.checkDefine_ok hc
    refine ⟨recordLaw_execClosed.define s f p h.1 hc, h.2.redefine f.address (StationEntry.law_defined hp) ?_ ?_⟩ <;>
      rw [State.define_frame]
  remove := fun s a h h1 h2 => by
    refine ⟨recordLaw_execClosed.remove s a h.1 h1 h2, h.2.redefine a StationEntry.law_unused ?_ ?_⟩ <;>
      rw [State.remove_frame]
  clearCounters := fun s a h hv => ⟨recordLaw_execClosed.clearCounters s a h.1 hv, h.2.clearCounters a⟩
  installList := fun _ _ h _ _ _ => h
  pendList := fun _ _ h _ _ => h
  beginCycling := fun s mode f h h1 h2 => ⟨recordLaw_execClosed.beginCycling s mode f h.1 h1 h2, by
    unfold State.beginCycling
    rw [State.abandonCycle_frame]
    exact h.2⟩
  stopAfterSlot := fun s h => ⟨recordLaw_execClosed.stopAfterSlot s h.1, by
    unfold State.stopAfterSlot
    split
    · exact h.2
    · exact h.2
    · split <;> exact h.2⟩
  stopAfterCycle := fun s h => ⟨recordLaw_execClosed.stopAfterCycle s h.1, by
    unfold State.stopAfterCycle
    split
    · exact h.2
    · exact h.2
    · split <;> exact h.2⟩
  applyItems := fun s items h _ => by
    rw [State.applyItems_frame]
    exact h
  placeTicket := fun _ _ _ _ h _ => h
  cancelTicket := fun s id t h _ _ => by
    rw [State.completeTicket_frame]
    exact h
  credit := fun _ _ h _ => h
  takeReport := fun _ _ _ h _ _ => h
  holdSetup := fun _ _ _ _ h => h
  restartHoldTimer := fun _ h => h
  endHold := fun _ h _ => h
  enterHold := fun s h => ⟨recordLaw_execClosed.enterHold s h.1,
    h.2.mapRecord (fun r => if r.func.heldForbidden then { r with noRetry := true } else r)
      (fun r => by split <;> exact ⟨rfl, rfl, id⟩) rfl rfl⟩
  limitExpires := fun _ h => h
  lreqAsserted := fun _ h _ => h
  lreqNegated := fun _ h _ _ => h
  returnLine := fun s order h h1 h2 => ⟨recordLaw_execClosed.returnLine s order h.1 h1 h2,
    StationLaw.ofEntries (fun a => by rw [State.entry_returnLine]; exact StationEntry.law_lineReturned (h.2.1 a))
      (by unfold State.returnLine; rw [State.placeAll_engine]; rfl)⟩
  initialised := fun s strap h => ⟨recordLaw_execClosed.initialised s strap h.1,
    StationLaw.followLreq (fun a => by rw [State.entry_of_reset (s := s.initialised strap) rfl]; exact StationEntry.law_unused) rfl⟩
  warm := fun s h => ⟨recordLaw_execClosed.warm s h.1,
    StationLaw.followLreq (fun a => by
      rw [State.entry_map (s := s) (f := StationEntry.warm) rfl rfl]; exact StationEntry.law_warm (h.2.1 a)) rfl⟩
  startBit := fun s b h hrx => by
    obtain ⟨hst, hsame⟩ := s.startBit_sameExchange b
    exact ⟨recordLaw_execClosed.startBit s b h.1 hrx, h.2.rewrite hst hsame⟩
  char := fun s rx c h h1 h2 => by
    obtain ⟨hst, hsame⟩ := (s.setLineRx rx).deliverChar_sameExchange c
    exact ⟨recordLaw_execClosed.char s rx c h.1 h1 h2, h.2.rewrite hst hsame⟩
  frameEnds := fun s r h hs hr => ⟨recordLaw_execClosed.frameEnds s r h.1 hs hr, h.2.same
    (by unfold State.frameEnds; dsimp only; split <;> rfl) (by unfold State.frameEnds; dsimp only; split <;> rfl)⟩
  noReply := fun s h hs => ⟨recordLaw_execClosed.noReply s h.1 hs,
    h.2.rewrite rfl (fun _ hr => State.classifyAttempt_sameExchange hr)⟩
  gap := fun s h hs => ⟨recordLaw_execClosed.gap s h.1 hs,
    h.2.rewrite rfl (fun _ hr => State.classifyAttempt_sameExchange hr)⟩
  quiet := fun s order h hg => ⟨recordLaw_execClosed.quiet s order h.1 hg, h.2.guardEnds h.1 order⟩
  jam := fun s order h h1 h2 => ⟨recordLaw_execClosed.jam s order h.1 h1 h2, h.2.lineJams h.1 order⟩
  period := fun s h hp => ⟨recordLaw_execClosed.period s h.1 hp, by
    unfold State.periodExpires
    split
    · exact h.2
    · exact h.2
    · dsimp only
      split
      · exact StationLaw.choice (s := { s with sched := s.sched.nextCycle }) h.2
      · exact h.2⟩

/-- Settles O20: every effect of a command keeps the law of an entry, and a data function goes only to an ONLINE station. -/
theorem everyStepKeepsTheStationLaw : Obligations.EveryStepKeepsTheStationLaw := by
  intro s t hrec hst ht
  obtain ⟨-, h⟩ := stationLaw_execClosed.step (fun _ _ h => h) ht ⟨hrec, hst⟩
  exact h

end Sys2Proof.Machine
end

section
/-! The end of an exchange, block by block (R3 to R12, R27 to R33, R74 to R79, R87, R95 to R97, R112 to R114). -/

namespace Sys2Proof.Machine

/-! ## Entries and counters after an outcome record (R3 to R9) -/

theorem satInc_toNat (c : Half) : (satInc c).toNat = min (c.toNat + 1) 65535 := by
  unfold satInc
  split
  · rename_i h
    rw [h]
    rfl
  · rename_i h
    have hne : c.toNat ≠ 65535 := fun he => h (BitVec.eq_of_toNat_eq he)
    have hlt := c.isLt
    rw [BitVec.toNat_add_of_lt] <;> simp <;> omega

theorem satAdd_toNat (c : Half) (n : Nat) : (satAdd c n).toNat = min (c.toNat + n) 65535 := by
  simp only [satAdd, BitVec.toNat_ofNat]
  omega

/-- A counter counted only where a condition holds (R3). -/
theorem toNat_satInc_if (p : Prop) [Decidable p] (c : Half) :
    (if p then satInc c else c).toNat = min (c.toNat + if p then 1 else 0) 65535 := by
  have hlt := c.isLt
  split
  · exact satInc_toNat c
  · omega

/-- The counters after an outcome record, in the words of the statements (R3). -/
theorem Counters.count_countedFrom (c : Counters) (o : OutcomeRecord) :
    (c.count o).countedFrom c (if o.outcome = .good then 1 else 0) o.failedAttempts
      (if o.outcome = .refused ∨ o.outcome = .notReady then 1 else 0) (if o.outcome = .desync then 1 else 0) :=
  ⟨toNat_satInc_if _ _, satAdd_toNat _ _, toNat_satInc_if _ _, toNat_satInc_if _ _⟩

section
variable {e : StationEntry} {p : Profile} {o : OutcomeRecord}

/-- A data function's success (R5). -/
theorem StationEntry.take_data_success (hp : e.profile = some p) (hf : o.func ≠ .probe)
    (ho : o.outcome.isFailure = false) :
    e.take o = { e with failRun := 0, toggle := !e.toggle, counters := e.counters.count o } := by
  simp [StationEntry.take, StationEntry.takeData, hp, hf, ho]

/-- A data function's failure (R6). -/
theorem StationEntry.take_data_failure (hp : e.profile = some p) (hf : o.func ≠ .probe)
    (ho : o.outcome.isFailure = true) :
    e.take o = { e with
      failRun := e.failRun + 1, state := if p.failLimit ≤ e.failRun + 1 then .offline else .suspect
      counters := e.counters.count o } := by
  simp [StationEntry.take, StationEntry.takeData, StationEntry.fail, hp, hf, ho]

/-- A GOOD PROBE (R7, R8). -/
theorem StationEntry.take_probe_good (hp : e.profile = some p) (hf : o.func = .probe) (ho : o.outcome = .good) :
    e.take o = { e with
      toggle := false, failRun := 0, counters := e.counters.count o, identity := some o.identity
      state := if o.identity.matchesProfile p then .online else .mismatch } := by
  simp [StationEntry.take, StationEntry.takeProbe, hp, hf, ho]

/-- A failed PROBE of a SUSPECT or ONLINE station (R9). -/
theorem StationEntry.take_probe_failed (hp : e.profile = some p) (hf : o.func = .probe) (ho : o.outcome ≠ .good)
    (hs : e.state = .suspect ∨ e.state = .online) :
    e.take o = { e with
      failRun := e.failRun + 1, state := if p.failLimit ≤ e.failRun + 1 then .offline else .suspect
      counters := e.counters.count o } := by
  rcases hs with hs | hs <;> simp [StationEntry.take, StationEntry.takeProbe, StationEntry.fail, hp, hf, ho, hs]

/-- A failed PROBE of a station in any other state (R9). -/
theorem StationEntry.take_probe_other (hp : e.profile = some p) (hf : o.func = .probe) (ho : o.outcome ≠ .good)
    (h1 : e.state ≠ .suspect) (h2 : e.state ≠ .online) :
    e.take o = { e with counters := e.counters.count o } := by
  cases hs : e.state <;> simp_all [StationEntry.take, StationEntry.takeProbe]

/-- An UNUSED entry takes no outcome (R4). -/
theorem StationEntry.take_unused (o : OutcomeRecord) : StationEntry.unused.take o = .unused := rfl

end

/-- A defined station's address has an entry (R1). -/
theorem State.valid_of_profile {s : State} {a : Nat} {p : Profile} (h : (s.entry a).profile = some p) : 1 ≤ a ∧ a ≤ 63 := by
  by_contra hc
  rw [s.entry_of_invalid (by simpa [validAddress] using hc)] at h
  cases h

/-- An address that holds areas has an entry (R23). -/
theorem State.valid_of_areas {s : State} {a : Nat} {ar : Areas} (h : s.areas a = some ar) : 1 ≤ a ∧ a ≤ 63 := by
  by_contra hc
  rw [s.areas_of_invalid (by simpa [validAddress] using hc)] at h
  cases h

/-- The entry of the station itself after an outcome record, whatever its address. -/
theorem State.entry_tableTakes_self (s : State) (a : Nat) (o : OutcomeRecord) :
    (s.tableTakes a o).1.entry a = (s.entry a).take o := by
  rw [State.entry_tableTakes]
  by_cases h : 1 ≤ a ∧ a ≤ 63
  · rw [if_pos ⟨rfl, h⟩]
  · rw [if_neg (fun hc => h hc.2), s.entry_of_invalid (by simpa [validAddress] using h), StationEntry.take_unused]

theorem State.entry_tableTakes_other (s : State) {a b : Nat} (hb : b ≠ a) (o : OutcomeRecord) :
    (s.tableTakes a o).1.entry b = s.entry b := by
  rw [State.entry_tableTakes, if_neg (fun hc => hb hc.1)]

/-! ## What each block does at the end of an exchange (R74, R78) -/

/-- An exchange whose end reaches the entry and the areas of its station: no broadcast, and not discarded (R74, R78). -/
def ExchangeRecord.reachesStation (r : ExchangeRecord) : Bool := !r.discard && r.origin != .broadcast

/-- The end of the exchange at its station's entry and areas, with the reports they ask for. -/
def State.stationTakes (s : State) (r : ExchangeRecord) (o : AttemptOutcome) :
    State × List ReportRequest × List ReportRequest :=
  if r.reachesStation then
    let table := s.tableTakes r.station (r.outcomeRecord o)
    let image := table.1.imageTakes r.station r.func o r.replyData
    (image.1, table.2.map Prod.snd, image.2.map Prod.snd)
  else (s, [], [])

/-- The result with which the exchange's ticket ends: WITHDRAWN where the exchange was discarded (R76, R78). -/
def ExchangeRecord.resultAtEnd (r : ExchangeRecord) (o : AttemptOutcome) : TicketResult :=
  if r.discard then .bare .withdrawn r.attempt else r.ticketResult o

/-- The end of the exchange at the ticket table (R112). -/
def TicketTable.exchangeEnded (t : TicketTable) (r : ExchangeRecord) (o : AttemptOutcome) :
    TicketTable × List ReportRequest :=
  match r.origin with
  | .ticket id => t.complete id (r.resultAtEnd o)
  | .cyclic | .discovery | .resync | .broadcast => (t, [])

/-- The scheduler once the outcome has been counted (R77, R95, R96). -/
def Scheduler.outcomeCounted (c : Scheduler) (r : ExchangeRecord) (o : AttemptOutcome) : Scheduler :=
  if r.discard then c else c.takeOutcome r.origin o

theorem ExchangeRecord.reachesStation_iff (r : ExchangeRecord) :
    r.reachesStation = true ↔ r.discard = false ∧ r.origin ≠ .broadcast := by
  simp [ExchangeRecord.reachesStation]

/-- A PROBE's end leaves the areas as they are (R27, R32). -/
theorem Areas.exchangeEnded_probe (ar : Areas) (o : AttemptOutcome) (bytes : List Byte) :
    ar.exchangeEnded .probe o bytes = ar := by
  simp [Areas.exchangeEnded]

/-- Areas written back as they stand change nothing. -/
theorem State.setAreas_self (s : State) (a : Nat) : s.setAreas a (s.areas a) = s := by
  unfold State.setAreas State.areas
  split
  · have himg : s.image.setIfInBounds (a - 1) ((s.image[a - 1]?).getD none) = s.image := by
      refine Vector.ext (fun i hi => ?_)
      rw [Vector.getElem_setIfInBounds]
      split
      · rename_i h
        subst h
        simp [hi]
      · rfl
    rw [himg]
  · rfl

/-- An entry written back as it stands changes nothing. -/
theorem State.setEntry_self (s : State) (a : Nat) : s.setEntry a (s.entry a) = s := by
  unfold State.setEntry State.entry
  split
  · have hst : s.stations.setIfInBounds (a - 1) ((s.stations[a - 1]?).getD .unused) = s.stations := by
      refine Vector.ext (fun i hi => ?_)
      rw [Vector.getElem_setIfInBounds]
      split
      · rename_i h
        subst h
        simp [hi]
      · rfl
    rw [hst]
  · rfl

/-- The image takes nothing from the end of a PROBE, and asks for nothing (R27, R32). -/
theorem State.imageTakes_probe (s : State) (a : Nat) (o : AttemptOutcome) (bytes : List Byte) :
    s.imageTakes a .probe o bytes = (s, []) := by
  unfold State.imageTakes
  split
  · rfl
  · rename_i ar har
    rw [Areas.exchangeEnded_probe, ← har, State.setAreas_self]
    simp

/-- An outcome counts at the scheduler only for a slot or a discovery probe (R77, R95). -/
theorem Scheduler.takeOutcome_of_not_counted (c : Scheduler) {origin : Origin} {o : AttemptOutcome}
    (h : countsAsFailed origin o = false) : c.takeOutcome origin o = c := by
  simp [Scheduler.takeOutcome, h]

theorem State.stationTakes_of_reaches (s : State) {r : ExchangeRecord} (h : r.reachesStation = true) (o : AttemptOutcome) :
    s.stationTakes r o =
      (((s.tableTakes r.station (r.outcomeRecord o)).1.imageTakes r.station r.func o r.replyData).1,
        (s.tableTakes r.station (r.outcomeRecord o)).2.map Prod.snd,
        ((s.tableTakes r.station (r.outcomeRecord o)).1.imageTakes r.station r.func o r.replyData).2.map Prod.snd) :=
  if_pos h

theorem State.stationTakes_of_not_reaches (s : State) {r : ExchangeRecord} (h : r.reachesStation = false)
    (o : AttemptOutcome) : s.stationTakes r o = (s, [], []) :=
  if_neg (by simp [h])

/-- At the end of a PROBE the entry alone takes part (R27, R32). -/
theorem State.stationTakes_of_probe (s : State) {r : ExchangeRecord} (h : r.reachesStation = true) (hf : r.func = .probe)
    (o : AttemptOutcome) :
    s.stationTakes r o = ((s.tableTakes r.station (r.outcomeRecord o)).1,
      (s.tableTakes r.station (r.outcomeRecord o)).2.map Prod.snd, []) := by
  rw [State.stationTakes_of_reaches s h, hf, State.imageTakes_probe]
  rfl

@[simp] theorem State.stationTakes_tickets (s : State) (r : ExchangeRecord) (o : AttemptOutcome) :
    (s.stationTakes r o).1.tickets = s.tickets := by
  unfold State.stationTakes; split <;> simp

@[simp] theorem State.stationTakes_sched (s : State) (r : ExchangeRecord) (o : AttemptOutcome) :
    (s.stationTakes r o).1.sched = s.sched := by
  unfold State.stationTakes; split <;> simp

/-- A state with its own tickets and its own scheduler written back. -/
theorem State.eq_with_tickets_sched {t : State} {tk : TicketTable} {c : Scheduler} (h1 : t.tickets = tk) (h2 : t.sched = c) :
    t = { t with tickets := tk, sched := c } := by
  subst h1 h2; rfl

/-- The deliveries of an exchange that is not discarded, block by block (R74). -/
theorem State.deliverOutcome_eq (s : State) {r : ExchangeRecord} (h : r.ShapeLaw) (hr : r.reachesStation = true)
    (o : AttemptOutcome) :
    (s.deliverOutcome r o).1 =
        { (s.stationTakes r o).1 with
          tickets := (s.tickets.exchangeEnded r o).1
          sched := s.sched.takeOutcome r.origin o } ∧
      (s.deliverOutcome r o).2.map Prod.snd =
        (s.stationTakes r o).2.1 ++ (s.stationTakes r o).2.2 ++ (s.tickets.exchangeEnded r o).2 := by
  obtain ⟨hd, hb⟩ := r.reachesStation_iff.1 hr
  unfold ExchangeRecord.ShapeLaw at h
  unfold State.deliverOutcome TicketTable.exchangeEnded
  dsimp only
  cases ho : r.origin with
  | broadcast => exact absurd ho hb
  | resync =>
    rw [ho] at h
    rw [State.stationTakes_of_probe s hr h]
    have hs := s.sched.takeOutcome_of_not_counted (origin := .resync) (o := o) rfl
    exact ⟨State.eq_with_tickets_sched (by simp) (by rw [hs]; simp), by simp⟩
  | discovery =>
    rw [ho] at h
    rw [State.stationTakes_of_probe s hr h]
    refine ⟨?_, by simp⟩
    rw [State.tableTakes_sched]
    exact State.eq_with_tickets_sched (by simp) rfl
  | cyclic =>
    rw [State.stationTakes_of_reaches s hr]
    refine ⟨?_, by simp⟩
    rw [State.imageTakes_sched, State.tableTakes_sched]
    exact State.eq_with_tickets_sched (by simp) rfl
  | ticket id =>
    rw [State.stationTakes_of_reaches s hr]
    have hs := s.sched.takeOutcome_of_not_counted (origin := .ticket id) (o := o) rfl
    unfold State.ticketTakes ExchangeRecord.resultAtEnd
    rw [hd, State.imageTakes_tickets, State.tableTakes_tickets]
    exact ⟨State.eq_with_tickets_sched rfl (by rw [hs]; simp), by simp [Function.comp_def]⟩

/-- The deliveries at the end of an exchange or broadcast, block by block (R74, R78). -/
theorem State.deliverEnd_eq (s : State) {r : ExchangeRecord} (h : r.ShapeLaw) (o : AttemptOutcome) :
    (s.deliverEnd r o).1 =
        { (s.stationTakes r o).1 with
          tickets := (s.tickets.exchangeEnded r o).1
          sched := s.sched.outcomeCounted r o } ∧
      (s.deliverEnd r o).2.map Prod.snd =
        (s.stationTakes r o).2.1 ++ (s.stationTakes r o).2.2 ++ (s.tickets.exchangeEnded r o).2 := by
  unfold State.deliverEnd Scheduler.outcomeCounted
  cases hr : r.reachesStation with
  | true =>
    obtain ⟨hd, hb⟩ := r.reachesStation_iff.1 hr
    rw [if_neg hb, hd]
    exact s.deliverOutcome_eq h hr o
  | false =>
    rw [State.stationTakes_of_not_reaches s hr]
    split
    · rename_i hb
      rw [hb, Scheduler.takeOutcome_of_not_counted _ rfl]
      simp [TicketTable.exchangeEnded, hb]
    · rename_i hb
      have hd : r.discard = true := by simpa [ExchangeRecord.reachesStation, hb] using hr
      rw [if_pos hd, if_pos hd]
      unfold State.deliverDiscarded TicketTable.exchangeEnded
      cases r.origin with
      | ticket id => simp [State.ticketTakes, ExchangeRecord.resultAtEnd, hd, Function.comp_def]
      | _ => exact ⟨rfl, rfl⟩

/-- The end of an exchange or broadcast, block by block (R74, R78, R87). -/
theorem State.concludeExchange_eq (s : State) {r : ExchangeRecord} (h : r.ShapeLaw) (o : AttemptOutcome) :
    (s.concludeExchange r o).1 =
        { (s.stationTakes r o).1 with
          tickets := (s.tickets.exchangeEnded r o).1
          sched := (s.sched.outcomeCounted r o).slotEnded.1 } ∧
      (s.concludeExchange r o).2.map Prod.snd =
        (s.stationTakes r o).2.1 ++ (s.stationTakes r o).2.2 ++ (s.tickets.exchangeEnded r o).2 ++
          (s.sched.outcomeCounted r o).slotEnded.2.map Prod.snd := by
  obtain ⟨h1, h2⟩ := s.deliverEnd_eq h o
  unfold State.concludeExchange State.slotEnded
  dsimp only
  rw [List.map_append, h2, h1]
  exact ⟨rfl, rfl⟩

end Sys2Proof.Machine
end

section
/-! The end of an exchange in the words of the statements: its station's entry and areas, its ticket, the scheduler, and the
reports they ask for. -/

namespace Sys2Proof.Machine

/-! ## The row that ends an exchange (R71, R74) -/

/-- The state once the end of the exchange has reached every block, its reports are placed and the engine is IDLE (R71). -/
def State.exchangeOver (s : State) (r : ExchangeRecord) (o : AttemptOutcome) (order : List ReportSource) : State :=
  { (interleave order (s.concludeExchange r o).2).foldl State.place (s.concludeExchange r o).1 with engine := .empty .idle }

/-- QUIET_TIMER_EXPIRY in the last guard of an exchange ends it; the arbiter's choice follows (R71, R74, R100). -/
theorem State.exec_quietTimerExpiry {s : State} {r : ExchangeRecord} {o : AttemptOutcome} (h : s.lastGuardOf r o)
    (order : IdleOrder) :
    exec (.quietTimerExpiry order) s =
      thenChoose ((s.takeDueReport.exchangeOver r o order.reports).beforeChoice order.before) := by
  obtain ⟨hs, hq, hr, ho, -, hlast⟩ := h
  have hguard : (s.takeDueReport.engine.state.isGuard && s.takeDueReport.engine.quietTimer.isSome) = true := by
    simp [hs, hq, EngineState.isGuard]
  have hend : s.takeDueReport.guardEnds order.reports = s.takeDueReport.exchangeOver r o order.reports :=
    State.guardEnds_of_last (by simpa using hr) ho (ExchangeRecord.mayRetry_of_last ho hlast) order.reports
  change (s.takeDueReport.quietExpiry order) = _
  unfold State.quietExpiry State.quietExpires
  dsimp only
  rw [if_pos hguard, hend]
  exact if_pos rfl

/-- The end of an exchange leads to the state in which its blocks have been told, in the words of the statements. -/
theorem State.endsIn_concludeExchange {s : State} {r : ExchangeRecord} {o : AttemptOutcome} (h : s.lastGuardOf r o)
    (order : IdleOrder) : s.endsIn (s.takeDueReport.concludeExchange r o).1 order := by
  obtain ⟨hnone, hdue⟩ := s.takeDueReport_spec
  refine ⟨s.takeDueReport, interleave order.reports (s.takeDueReport.concludeExchange r o).2, hnone, hdue,
    State.concludeExchange_frame _ r o, ?_⟩
  rw [State.exec_quietTimerExpiry h]
  exact State.choiceFollows_thenChoose (s.takeDueReport.exchangeOver r o order.reports) order.before

/-! ## The station's entry (R4 to R9) -/

/-- The table after the end of an exchange that reaches its station is that after the outcome record (R4). -/
theorem State.concludeExchange_stations_of_reaches (s : State) {r : ExchangeRecord} (h : r.reachesStation = true)
    (o : AttemptOutcome) :
    (s.concludeExchange r o).1.stations = (s.tableTakes r.station (r.outcomeRecord o)).1.stations := by
  obtain ⟨hd, hb⟩ := r.reachesStation_iff.1 h
  unfold State.concludeExchange State.slotEnded State.deliverEnd State.deliverOutcome State.ticketTakes
  dsimp only
  rw [if_neg hb, if_neg (by simp [hd]), State.imageTakes_frame]
  split <;> rfl

theorem State.concludeExchange_entry_self (s : State) {r : ExchangeRecord} (h : r.reachesStation = true)
    (o : AttemptOutcome) :
    (s.concludeExchange r o).1.entry r.station = (s.entry r.station).take (r.outcomeRecord o) := by
  rw [State.entry_congr (s.concludeExchange_stations_of_reaches h o), State.entry_tableTakes_self]

/-- The end of an exchange leaves every other entry (R4, R78). -/
theorem State.concludeExchange_entry_other (s : State) (r : ExchangeRecord) (o : AttemptOutcome) {b : Nat}
    (hb : b ≠ r.station) : (s.concludeExchange r o).1.entry b = s.entry b := by
  rcases State.concludeExchange_stations s r o with he | ⟨-, -, he⟩ <;> rw [State.entry_congr he]
  exact State.entry_tableTakes_other s hb _

/-- An exchange that does not reach its station leaves the whole table and the image (R78). -/
theorem State.concludeExchange_of_not_reaches (s : State) {r : ExchangeRecord} (hs : r.ShapeLaw)
    (h : r.reachesStation = false) (o : AttemptOutcome) :
    (s.concludeExchange r o).1.stations = s.stations ∧ (s.concludeExchange r o).1.image = s.image := by
  obtain ⟨he, -⟩ := s.concludeExchange_eq hs o
  rw [he, State.stationTakes_of_not_reaches s h]
  exact ⟨rfl, rfl⟩

/-- The entry's state after the end of an exchange, and the reports of the table (R11). -/
theorem State.concludeExchange_tableAsks (s : State) {r : ExchangeRecord} (hs : r.ShapeLaw) (o : AttemptOutcome) :
    s.tableAsks (s.concludeExchange r o).1 r.station (s.stationTakes r o).2.1 := by
  unfold State.tableAsks
  cases hr : r.reachesStation with
  | true =>
    rw [s.concludeExchange_entry_self hr, State.stationTakes_of_reaches s hr]
    unfold State.tableTakes
    dsimp only
    exact ⟨fun hne => by rw [if_pos hne]; rfl, fun heq => by rw [if_neg (not_not.2 heq)]; rfl⟩
  | false =>
    obtain ⟨hst, -⟩ := s.concludeExchange_of_not_reaches hs hr o
    rw [State.entry_congr hst, State.stationTakes_of_not_reaches s hr]
    exact ⟨fun hne => absurd rfl hne, fun _ => rfl⟩

/-! ## The station's areas (R12, R27 to R33) -/

/-- The areas of any address after the end of an exchange that reaches its station. -/
theorem State.concludeExchange_areas (s : State) {r : ExchangeRecord} (hs : r.ShapeLaw) (h : r.reachesStation = true)
    (o : AttemptOutcome) (b : Nat) :
    (s.concludeExchange r o).1.areas b =
      if b = r.station then
        ((s.tableTakes r.station (r.outcomeRecord o)).1.areas b).map (fun ar => ar.exchangeEnded r.func o r.replyData)
      else s.areas b := by
  obtain ⟨he, -⟩ := s.concludeExchange_eq hs o
  have himg : (s.concludeExchange r o).1.image = (s.stationTakes r o).1.image := by rw [he]
  rw [State.areas_congr himg, State.stationTakes_of_reaches s h, State.areas_imageTakes]
  split
  · rfl
  · rename_i hb
    rw [State.areas_tableTakes, if_neg (fun hc => hb hc.1)]

/-- The end of an exchange leaves every other station's areas (R27, R29, R32, R78). -/
theorem State.concludeExchange_areas_other (s : State) {r : ExchangeRecord} (hs : r.ShapeLaw) (o : AttemptOutcome) {b : Nat}
    (hb : b ≠ r.station) : (s.concludeExchange r o).1.areas b = s.areas b := by
  cases hr : r.reachesStation with
  | true => rw [s.concludeExchange_areas hs hr, if_neg hb]
  | false =>
    obtain ⟨-, himg⟩ := s.concludeExchange_of_not_reaches hs hr o
    exact State.areas_congr himg b

/-- An output area once its EXCHANGE has ended, in the words of the statements (R32, R33). -/
theorem OutputArea.resolve_eq (a : OutputArea) (good : Bool) :
    a.resolve good = if a.state = .sending then { a with state := if good then .clean else .dirty } else a := by
  unfold OutputArea.resolve
  split <;> rfl

/-- The input area marked STALE, in the words of the statements (R29). -/
theorem Areas.markStale_input (ar : Areas) :
    ar.markStale.input = if ar.input.state = .fresh then { ar.input with state := .stale } else ar.input := by
  unfold Areas.markStale
  split <;> rfl

/-- The areas of the station at the end of its exchange, in the words of the statements (R12, R27, R29, R32, R33). -/
theorem State.concludeExchange_areas_self (s : State) {r : ExchangeRecord} (hs : r.ShapeLaw) (h : r.reachesStation = true)
    (o : AttemptOutcome) {ar : Areas} (har : s.areas r.station = some ar) :
    (s.concludeExchange r o).1.areas r.station = some
      { input :=
          if (r.func = .exchange ∨ r.func = .sample) ∧ o = .good then
            { bytes := r.replyData, state := .fresh, gen := ar.input.gen + 1 }
          else if (s.entry r.station).state = .online ∧
              ((s.concludeExchange r o).1.entry r.station).state ≠ .online ∧ ar.input.state = .fresh then
            { ar.input with state := .stale }
          else ar.input
        output :=
          if r.func = .exchange ∧ ar.output.state = .sending then
            { ar.output with state := if o = .good then .clean else .dirty }
          else ar.output } := by
  rw [s.concludeExchange_areas hs h, if_pos rfl, State.areas_tableTakes, har, s.concludeExchange_entry_self h]
  have hout : (if r.func = .exchange then ar.output.resolve (o == .good) else ar.output) =
      if r.func = .exchange ∧ ar.output.state = .sending then
        { ar.output with state := if o = .good then .clean else .dirty }
      else ar.output := by
    rw [OutputArea.resolve_eq, ite_and]
    simp only [beq_iff_eq]
  by_cases hstale : (s.entry r.station).state = .online ∧
      ((s.entry r.station).take (r.outcomeRecord o)).state ≠ .online
  · rw [if_pos ⟨rfl, hstale⟩]
    simp only [Option.map_some, Areas.exchangeEnded, ← and_assoc, hstale, true_and, Option.some.injEq, Areas.mk.injEq]
    refine ⟨?_, hout⟩
    rw [Areas.markStale_input]
    by_cases hdel : (r.func = .exchange ∨ r.func = .sample) ∧ o = .good
    · rw [if_pos hdel, if_pos hdel]
      split <;> rfl
    · rw [if_neg hdel, if_neg hdel]
      simp [hstale.2]
  · rw [if_neg (fun hc => hstale hc.2)]
    simp only [Option.map_some, Areas.exchangeEnded, Option.some.injEq, Areas.mk.injEq]
    refine ⟨?_, hout⟩
    rw [if_neg (c := _ ∧ _ ∧ _) (fun hc => hstale ⟨hc.1, hc.2.1⟩)]
    rfl

/-! ## INPUT_CHANGE (R28) -/

/-- When a delivery asks for an INPUT_CHANGE report, in the words of the statements (R28). -/
theorem Notify.asks_iff (n : Notify) (before : InputArea) (bytes : List Byte) :
    n.asks before bytes = true ↔
      n = .every ∨ (n = .onChange ∧ (bytes ≠ before.bytes ∨ before.state = .none ∨ before.state = .stale)) := by
  cases n <;> cases hs : before.state <;> simp [Notify.asks, hs]

/-- A success of EXCHANGE or SAMPLE leaves areas and profile as the delivery finds them (R5, R29). -/
theorem State.tableTakes_of_good (s : State) {r : ExchangeRecord} (hf : r.func = .exchange ∨ r.func = .sample) :
    (s.tableTakes r.station (r.outcomeRecord .good)).1.areas r.station = s.areas r.station ∧
      (s.tableTakes r.station (r.outcomeRecord .good)).1.notifyOf r.station = s.notifyOf r.station := by
  have hsame : ((s.entry r.station).take (r.outcomeRecord .good)).state = (s.entry r.station).state :=
    StationEntry.take_success (by rcases hf with hf | hf <;> simp [ExchangeRecord.outcomeRecord, hf]) rfl
  refine ⟨?_, ?_⟩
  · rw [State.areas_tableTakes, if_neg]
    rintro ⟨-, hon, hne⟩
    exact hne (hsame.trans hon)
  · unfold State.notifyOf
    rw [State.entry_tableTakes_self, StationEntry.take_profile]

/-- An exchange of EXCHANGE or SAMPLE that is not discarded reaches its station (R61). -/
theorem ExchangeRecord.reachesStation_of_delivers {r : ExchangeRecord} (hs : r.ShapeLaw) (hd : r.discard = false)
    (hf : r.func = .exchange ∨ r.func = .sample) : r.reachesStation = true := by
  refine r.reachesStation_iff.2 ⟨hd, fun hb => ?_⟩
  unfold ExchangeRecord.ShapeLaw at hs
  rw [hb] at hs
  obtain ⟨hf', -⟩ := hs
  rcases hf with hf | hf <;> simp [hf] at hf'

/-- The reports of the image at the end of an exchange (R28). -/
theorem State.concludeExchange_imageAsks (s : State) {r : ExchangeRecord} (hs : r.ShapeLaw) (o : AttemptOutcome) :
    (s.deliveryAsks r o → (s.stationTakes r o).2.2 = [.inputChange r.station]) ∧
      (¬s.deliveryAsks r o → (s.stationTakes r o).2.2 = []) := by
  unfold State.deliveryAsks
  by_cases hdel : r.discard = false ∧ (r.func = .exchange ∨ r.func = .sample) ∧ o = .good
  · obtain ⟨hd, hf, rfl⟩ := hdel
    obtain ⟨har, hnt⟩ := s.tableTakes_of_good hf
    rw [State.stationTakes_of_reaches s (ExchangeRecord.reachesStation_of_delivers hs hd hf)]
    unfold State.imageTakes
    dsimp only
    rw [har, hnt]
    unfold State.notifyOf
    cases s.areas r.station with
    | none => simp
    | some ar =>
      cases (s.entry r.station).profile with
      | none => simp [Notify.asks]
      | some p =>
        simp only [hd, hf, true_and, and_true, Option.some.injEq, exists_and_left, exists_eq_left', Notify.asks_iff]
        refine ⟨fun h => ?_, fun h => ?_⟩
        · rw [if_pos h, List.map_singleton]
        · rw [if_neg h, List.map_nil]
  · refine ⟨fun ⟨hd, hf, ho, _⟩ => absurd ⟨hd, hf, ho⟩ hdel, fun _ => ?_⟩
    cases hr : r.reachesStation with
    | true =>
      obtain ⟨hd, -⟩ := r.reachesStation_iff.1 hr
      rw [State.stationTakes_of_reaches s hr]
      unfold State.imageTakes
      dsimp only
      split
      · rfl
      · rw [if_neg (fun hc => hdel ⟨hd, hc.1⟩)]
        rfl
    | false => rw [State.stationTakes_of_not_reaches s hr]

/-! ## The ticket (R76, R78, R112 to R114) -/

/-- A live ticket that is not DONE becomes DONE, and asks for its report (R112 to R114). -/
theorem TicketTable.complete_of_mem {t : TicketTable} (hn : (t.queue.map Ticket.id).Nodup) {u : Ticket} (hu : u ∈ t.queue)
    (hd : u.isDone = false) (res : TicketResult) :
    t.complete u.id res = (t.setState u.id (.done res), [.demandDone (u.report res)]) := by
  simp [TicketTable.complete, TicketTable.find_of_mem hn hu, hd]

/-- The result of the exchange's ticket, in the words of the statements (R76, R78). -/
theorem ExchangeRecord.resultAtEnd_spec (r : ExchangeRecord) (o : AttemptOutcome) :
    (r.resultAtEnd o).attempts = r.attempt ∧
      (r.discard = true → (r.resultAtEnd o).outcome = .withdrawn ∧ (r.resultAtEnd o).status = none ∧
        (r.resultAtEnd o).data = []) ∧
      (r.discard = false → r.resultAtEnd o = r.ticketResult o) := by
  unfold ExchangeRecord.resultAtEnd
  cases r.discard with
  | true => exact ⟨rfl, fun _ => ⟨rfl, rfl, rfl⟩, nofun⟩
  | false => exact ⟨rfl, nofun, fun _ => rfl⟩

/-- The end of an exchange at the ticket table, in the words of the statements. -/
theorem State.concludeExchange_ticketEnds {s : State} (ht : TicketLaw s) {r : ExchangeRecord} (hs : r.ShapeLaw)
    (o : AttemptOutcome) :
    s.ticketEnds (s.concludeExchange r o).1 r o (s.tickets.exchangeEnded r o).2 := by
  obtain ⟨he, -⟩ := s.concludeExchange_eq hs o
  have htk : (s.concludeExchange r o).1.tickets = (s.tickets.exchangeEnded r o).1 := by rw [he]
  unfold State.ticketEnds
  rw [htk]
  refine ⟨fun hno => ?_, fun id tk ho hmem hid hst => ?_⟩
  · unfold TicketTable.exchangeEnded
    split
    · rename_i id ho
      exact absurd ho (hno id)
    all_goals exact ⟨rfl, rfl⟩
  · obtain ⟨-, hn, -⟩ := ht
    have hend : s.tickets.exchangeEnded r o = (s.tickets.setState id (.done (r.resultAtEnd o)),
        [.demandDone (tk.report (r.resultAtEnd o))]) := by
      unfold TicketTable.exchangeEnded
      rw [ho, ← hid]
      exact TicketTable.complete_of_mem hn hmem (by simp [Ticket.isDone, hst]) _
    obtain ⟨hatt, hdis, hkept⟩ := r.resultAtEnd_spec o
    rw [hend]
    refine ⟨r.resultAtEnd o, rfl, by rw [← hid]; rfl, hatt, hdis, fun hd => ?_⟩
    rw [hkept hd]
    refine ⟨rfl, ?_, ?_, ?_, ?_, ?_, ?_, ?_⟩ <;> rintro rfl <;> exact ⟨rfl, rfl⟩

/-! ## The scheduler (R77, R87, R95 to R97) -/

/-- Which outcomes count as failed in the summary, in the words of the statements (R95). -/
theorem countsAsFailed_iff (origin : Origin) (o : AttemptOutcome) :
    countsAsFailed origin o = true ↔
      (origin = .cyclic ∧ (o = .noReply ∨ o = .broken ∨ o = .wrongStation ∨ o = .desync)) ∨
        (origin = .discovery ∧ o ≠ .good) := by
  cases origin
  case cyclic => cases o <;> simp [countsAsFailed, AttemptOutcome.isFailure]
  all_goals simp [countsAsFailed]

/-- A failure counted in the summary (R77, R95, R96). -/
theorem State.outcomeCounted_of_counts {s : State} {r : ExchangeRecord} {o : AttemptOutcome} (h : s.countsFailure r o) :
    s.sched.outcomeCounted r o =
      { s.sched with summary := { s.sched.summary with failed := satInc8 s.sched.summary.failed } } := by
  obtain ⟨hd, ha, hc⟩ := h
  unfold Scheduler.outcomeCounted Scheduler.takeOutcome
  rw [if_neg (by simp [hd]), if_pos ⟨(countsAsFailed_iff _ _).2 hc, ha⟩]

/-- Any other outcome leaves the scheduler (R77, R95, R96). -/
theorem State.outcomeCounted_of_not_counts {s : State} {r : ExchangeRecord} {o : AttemptOutcome}
    (h : ¬s.countsFailure r o) : s.sched.outcomeCounted r o = s.sched := by
  unfold Scheduler.outcomeCounted Scheduler.takeOutcome
  split
  · rfl
  · rename_i hd
    rw [if_neg (fun hc => h ⟨by simpa using hd, hc.2, (countsAsFailed_iff _ _).1 hc.1⟩)]

/-- Without a slot in flight the scheduler goes on as it is (R87). -/
theorem Scheduler.slotEnded_of_none {c : Scheduler} (h : c.slotInFlight = false) : c.slotEnded = (c, []) := by
  simp [Scheduler.slotEnded, h]

/-- With a slot in flight its markers are cleared (R87). -/
theorem Scheduler.slotEnded_of_slot {c : Scheduler} (h : c.slotInFlight = true)
    (hs : ¬(c.state = .active ∧ c.stopRequest = .afterSlot)) :
    c.slotEnded = ({ c with slotInFlight := false, slotAbandoned := false }, []) := by
  simp only [Scheduler.slotEnded, h, if_true]
  rw [if_neg hs]

/-- A standing AFTER_SLOT request stops the scheduler with its slot (R97). -/
theorem Scheduler.slotEnded_of_afterSlot {c : Scheduler} (h : c.slotInFlight = true) (hs : c.state = .active)
    (ha : c.stopRequest = .afterSlot) :
    c.slotEnded = ({ c with
      slotInFlight := false, slotAbandoned := false, state := .stopped, periodTimer := none, stopRequest := .none
      summary := { c.summary with abandoned := true } },
      [(.scheduler, .cycleDone { c.summary with abandoned := true })]) := by
  simp only [Scheduler.slotEnded, h, if_true]
  rw [if_pos ⟨hs, ha⟩]
  rfl

/-- The scheduler with the number of failures given in its summary. -/
def Scheduler.withFailed (c : Scheduler) (failed : Byte) : Scheduler :=
  { c with summary := { c.summary with failed := failed } }

/-- The outcome counts in the summary's failures alone (R95). -/
theorem State.outcomeCounted_frame (s : State) (r : ExchangeRecord) (o : AttemptOutcome) :
    s.sched.outcomeCounted r o = s.sched.withFailed (s.sched.outcomeCounted r o).summary.failed := by
  unfold Scheduler.withFailed
  by_cases h : s.countsFailure r o
  · rw [State.outcomeCounted_of_counts h]
  · rw [State.outcomeCounted_of_not_counts h]

/-- The end of an exchange at the scheduler, in the words of the statements. -/
theorem State.concludeExchange_slotEnds (s : State) {r : ExchangeRecord} (hs : r.ShapeLaw) (o : AttemptOutcome) :
    s.slotEnds (s.concludeExchange r o).1 r o ((s.sched.outcomeCounted r o).slotEnded.2.map Prod.snd) := by
  obtain ⟨he, -⟩ := s.concludeExchange_eq hs o
  have hsched : (s.concludeExchange r o).1.sched = (s.sched.outcomeCounted r o).slotEnded.1 := by rw [he]
  unfold State.slotEnds
  rw [hsched]
  refine ⟨(s.sched.outcomeCounted r o).summary.failed, fun hc => by rw [State.outcomeCounted_of_counts hc],
    fun hc => by rw [State.outcomeCounted_of_not_counts hc], ?_⟩
  rw [s.outcomeCounted_frame r o]
  generalize (s.sched.outcomeCounted r o).summary.failed = failed
  refine ⟨fun hn => ?_, fun hf hn => ?_, fun hf ha hn => ?_⟩
  · rw [Scheduler.slotEnded_of_none (c := s.sched.withFailed failed) hn]
    exact ⟨rfl, rfl⟩
  · rw [Scheduler.slotEnded_of_slot (c := s.sched.withFailed failed) hf hn]
    exact ⟨rfl, rfl⟩
  · rw [Scheduler.slotEnded_of_afterSlot (c := s.sched.withFailed failed) hf ha hn]
    exact ⟨rfl, rfl⟩

end Sys2Proof.Machine
end

section
/-! The obligations on the end of an exchange: O18, O19, O23, O35, O36. -/

namespace Sys2Proof.Machine

/-! ## The guard's end -/

/-- Settles O18: the entry after the end of a data exchange is that after the outcome record, by success or failure. -/
theorem dataOutcomeAtTheStationTable : Obligations.DataOutcomeAtTheStationTable := by
  intro s r o order p hg hd hf hp
  obtain ⟨-, -, -, -, hb, -⟩ := id hg
  have hreach := r.reachesStation_iff.2 ⟨hd, hb⟩
  have hself : (s.takeDueReport.concludeExchange r o).1.entry r.station = (s.entry r.station).take (r.outcomeRecord o) :=
    State.concludeExchange_entry_self s.takeDueReport hreach o
  have hfunc : (r.outcomeRecord o).func ≠ .probe := by
    rcases hf with hf | hf | hf | hf <;> simp [ExchangeRecord.outcomeRecord, hf]
  refine ⟨_, _, State.endsIn_concludeExchange hg order, fun b hbne => State.concludeExchange_entry_other _ r o hbne,
    Counters.count_countedFrom (s.entry r.station).counters (r.outcomeRecord o), fun ho => ?_, fun ho => ?_⟩
  · have hsucc : o.isFailure = false := by rcases ho with rfl | rfl | rfl <;> rfl
    exact hself.trans (StationEntry.take_data_success hp hfunc hsucc)
  · have hfail : o.isFailure = true := by rcases ho with rfl | rfl | rfl | rfl <;> rfl
    exact hself.trans (StationEntry.take_data_failure hp hfunc hfail)

/-- A two-byte field read as it was written, low byte first (section 5.2 of the scope). -/
theorem half_le16 (h : Half) : half (h.setWidth 8) ((h >>> 8).setWidth 8) = h := by
  apply BitVec.eq_of_getLsbD_eq
  intro i hi
  simp only [half, BitVec.getLsbD_or, BitVec.getLsbD_shiftLeft, BitVec.getLsbD_setWidth, BitVec.getLsbD_ushiftRight]
  by_cases h8 : i < 8
  · simp [h8, hi]
  · have hlow : i - 8 < 8 := by omega
    have hsum : 8 + (i - 8) = i := by omega
    simp [h8, hi, hlow, hsum]
    omega

/-- The identity that four data bytes carry (R50). -/
theorem identityOf_le16 (kind : Half) (inLen outLen : Byte) :
    identityOf (le16 kind ++ [inLen, outLen]) = { kind := kind, inLen := inLen, outLen := outLen } := by
  simp [identityOf, le16, half_le16]

/-- An identity matches a profile, in the words of the statements (R7). -/
theorem Identity.matchesProfile_iff (i : Identity) (p : Profile) :
    i.matchesProfile p = true ↔
      (p.kind = 0 ∨ p.kind = i.kind) ∧ p.inLen = i.inLen.toNat ∧ p.outLen = i.outLen.toNat := by
  simp [Identity.matchesProfile, and_assoc]

/-- Settles O19: the entry after the end of a PROBE is that after the outcome record, by the outcome and the state before. -/
theorem probeOutcomeAtTheStationTable : Obligations.ProbeOutcomeAtTheStationTable := by
  intro s r o order p hg hd hf hp
  obtain ⟨-, -, -, -, hb, -⟩ := id hg
  have hreach := r.reachesStation_iff.2 ⟨hd, hb⟩
  have hself : (s.takeDueReport.concludeExchange r o).1.entry r.station = (s.entry r.station).take (r.outcomeRecord o) :=
    State.concludeExchange_entry_self s.takeDueReport hreach o
  refine ⟨_, _, State.endsIn_concludeExchange hg order, fun b hbne => State.concludeExchange_entry_other _ r o hbne,
    Counters.count_countedFrom (s.entry r.station).counters (r.outcomeRecord o), fun kind inLen outLen ho hdata => ?_,
    fun ho hs => ?_, fun ho h1 h2 => ?_⟩
  · have hid : (r.outcomeRecord o).identity = { kind := kind, inLen := inLen, outLen := outLen } := by
      rw [ExchangeRecord.outcomeRecord, hdata, identityOf_le16]
    have htake := hself.trans (StationEntry.take_probe_good (o := r.outcomeRecord o) hp hf ho)
    simp only [hid, Identity.matchesProfile_iff] at htake
    exact htake
  · exact hself.trans (StationEntry.take_probe_failed hp hf ho hs)
  · exact hself.trans (StationEntry.take_probe_other hp hf ho h1 h2)

/-- Settles O23: the areas after the end of an exchange are those the table and the image leave. -/
theorem exchangeEndAtTheImage : Obligations.ExchangeEndAtTheImage := by
  intro s r o order ar hg hd hs har
  obtain ⟨-, -, -, -, hb, -⟩ := id hg
  exact ⟨_, State.endsIn_concludeExchange hg order, fun b hbne => State.concludeExchange_areas_other _ hs o hbne,
    State.concludeExchange_areas_self s.takeDueReport hs (r.reachesStation_iff.2 ⟨hd, hb⟩) o har⟩

/-- The requests at the end of an exchange, in whatever order they are placed, are those of its four blocks (R121). -/
theorem State.interleave_concludeExchange (s : State) {r : ExchangeRecord} (hs : r.ShapeLaw) (o : AttemptOutcome)
    (order : List ReportSource) :
    (interleave order (s.concludeExchange r o).2).Perm
      ((s.stationTakes r o).2.1 ++ (s.stationTakes r o).2.2 ++ (s.tickets.exchangeEnded r o).2 ++
        (s.sched.outcomeCounted r o).slotEnded.2.map Prod.snd) := by
  obtain ⟨-, hreq⟩ := s.concludeExchange_eq hs o
  exact hreq ▸ interleave_perm order _

/-- Settles O36: the ticket, the scheduler and the requests at the end of an exchange, block by block. -/
theorem exchangeEndAtTicketsAndScheduler : Obligations.ExchangeEndAtTicketsAndScheduler := by
  intro s r o order hn ht hs hg
  have hdue := State.takeDueReport_of_not_stands hn
  obtain ⟨hask, hnotask⟩ := s.concludeExchange_imageAsks hs o
  refine ⟨(s.concludeExchange r o).1, interleave order.reports (s.concludeExchange r o).2, _, _, _, _, ?_,
    State.concludeExchange_frame s r o, fun hd => ?_, s.interleave_concludeExchange hs o order.reports,
    s.concludeExchange_tableAsks hs o, hask, hnotask, State.concludeExchange_ticketEnds ht hs o,
    s.concludeExchange_slotEnds hs o⟩
  · rw [State.exec_quietTimerExpiry hg, hdue]
    exact State.choiceFollows_thenChoose (s.exchangeOver r o order.reports) order.before
  · exact s.concludeExchange_of_not_reaches hs (by simp [ExchangeRecord.reachesStation, hd]) o

/-! ## The jam limit (R72) -/

/-- The jam leaves what the record's laws read of its origin (R61). -/
theorem ExchangeRecord.jammed_shapeLaw {r : ExchangeRecord} (h : r.ShapeLaw) : r.jammed.ShapeLaw := by
  rw [ExchangeRecord.jammed_eq]
  exact h

@[simp] theorem ExchangeRecord.jammed_station (r : ExchangeRecord) : r.jammed.station = r.station := by
  rw [ExchangeRecord.jammed_eq]

@[simp] theorem ExchangeRecord.jammed_func (r : ExchangeRecord) : r.jammed.func = r.func := by
  rw [ExchangeRecord.jammed_eq]

@[simp] theorem ExchangeRecord.jammed_reachesStation (r : ExchangeRecord) :
    r.jammed.reachesStation = r.reachesStation := by
  rw [ExchangeRecord.jammed_eq]
  rfl

/-- The failed attempts of a jammed exchange: its last attempt counts, if it did not count before (R72, item 3). -/
theorem ExchangeRecord.jammed_failedAttempts (r : ExchangeRecord) :
    r.jammed.failedAttempts = r.failedAttempts +
      if r.lastOutcome = some .good ∨ r.lastOutcome = some .refused ∨ r.lastOutcome = some .notReady ∨
        r.lastOutcome = some .desync then 1 else 0 := by
  unfold ExchangeRecord.jammed
  cases r.lastOutcome with
  | none => simp
  | some o => cases o <;> simp [AttemptOutcome.isFailedAttempt]

/-- The jam counted, the ticket and the scheduler are told as at any exchange's end (R72, item 3). -/
theorem State.ticketEnds_of_jammed {s u : State} {r : ExchangeRecord} {o : AttemptOutcome} {asked : List ReportRequest}
    (h : s.jamCounted.ticketEnds u r.jammed o asked) : s.ticketEnds u r o asked := by
  rw [ExchangeRecord.jammed_eq] at h
  exact h

theorem State.slotEnds_of_jammed {s u : State} {r : ExchangeRecord} {o : AttemptOutcome} {asked : List ReportRequest}
    (h : s.jamCounted.slotEnds u r.jammed o asked) : s.slotEnds u r o asked := by
  rw [ExchangeRecord.jammed_eq] at h
  exact h

/-- JAM_TIMER_EXPIRY with an exchange in flight (R72, R73). -/
theorem State.exec_jamTimerExpiry {s : State} {r : ExchangeRecord} {k : GuardKind} (hn : ¬s.standsReport)
    (hs : s.engine.state = .guard k) (hj : s.engine.jamTimer.isSome = true) (hr : s.engine.record = some r)
    (order : List ReportSource) :
    exec (.jamTimerExpiry order) s = .next
      { (interleave order ((.engine, .lineFault r.station) :: (s.jamCounted.concludeExchange r.jammed .broken).2)).foldl
          State.place (s.jamCounted.concludeExchange r.jammed .broken).1 with
        engine := { s.engine with record := none, jamTimer := none } } := by
  change s.takeDueReport.jamExpires order = _
  rw [State.takeDueReport_of_not_stands hn]
  unfold State.jamExpires
  rw [guarded_of (by simp [hs, hj, EngineState.isGuard]), State.lineJams_of_record hr]
  rfl

/-- The entry that takes the failure of a jammed exchange (R4, R6, R9). -/
theorem StationEntry.take_broken {e : StationEntry} {p : Profile} {r : ExchangeRecord} (hp : e.profile = some p)
    (h : r.func ≠ .probe ∨ e.state = .suspect ∨ e.state = .online) :
    e.take (r.outcomeRecord .broken) = { e with
      failRun := e.failRun + 1, state := if p.failLimit ≤ e.failRun + 1 then .offline else .suspect
      counters := e.counters.count (r.outcomeRecord .broken) } := by
  by_cases hf : r.func = .probe
  · exact StationEntry.take_probe_failed hp hf nofun (h.resolve_left (not_not.2 hf))
  · exact StationEntry.take_data_failure hp hf rfl

/-- Settles O35: the jam limit ends the exchange BROKEN, block by block. -/
theorem jamEndsTheExchangeBroken : Obligations.JamEndsTheExchangeBroken := by
  intro s r k order hn ht hs hst hj hr
  have hjs := ExchangeRecord.jammed_shapeLaw hs
  have htj : TicketLaw s.jamCounted := ht
  have himage : (s.jamCounted.stationTakes r.jammed .broken).2.2 = [] := by
    obtain ⟨-, hnot⟩ := s.jamCounted.concludeExchange_imageAsks hjs .broken
    exact hnot (fun ⟨_, _, ho, _⟩ => by cases ho)
  have hreach : r.discard = false → r.origin ≠ .broadcast → r.jammed.reachesStation = true := fun hd hb => by
    rw [ExchangeRecord.jammed_reachesStation]
    exact r.reachesStation_iff.2 ⟨hd, hb⟩
  have hself : r.jammed.reachesStation = true →
      (s.jamCounted.concludeExchange r.jammed .broken).1.entry r.station =
        (s.entry r.station).take (r.jammed.outcomeRecord .broken) := fun h => by
    have he := s.jamCounted.concludeExchange_entry_self h .broken
    rw [ExchangeRecord.jammed_station] at he
    exact he
  have hasks := s.jamCounted.concludeExchange_tableAsks hjs .broken
  rw [ExchangeRecord.jammed_station] at hasks
  refine ⟨_, (s.entry r.station).counters.count (r.jammed.outcomeRecord .broken), _, _, _, _,
    State.exec_jamTimerExpiry hn hst hj hr order, State.concludeExchange_frame s.jamCounted r.jammed .broken,
    ?_, hasks, State.ticketEnds_of_jammed (State.concludeExchange_ticketEnds htj hjs .broken),
    State.slotEnds_of_jammed (s.jamCounted.concludeExchange_slotEnds hjs .broken),
    fun b hb => ⟨?_, ?_⟩, fun hdead => ?_, fun p hd hb hp => ⟨?_, fun hf => ?_, fun hf h1 h2 => ?_⟩,
    fun ar hd hb har => ?_⟩
  · refine (interleave_perm order _).trans ?_
    obtain ⟨-, hreq⟩ := s.jamCounted.concludeExchange_eq hjs .broken
    rw [List.map_cons, hreq, himage, List.append_nil]
  · exact s.jamCounted.concludeExchange_entry_other r.jammed .broken (by simpa using hb)
  · exact s.jamCounted.concludeExchange_areas_other hjs .broken (by simpa using hb)
  · have hnot : r.jammed.reachesStation = false := by
      rw [ExchangeRecord.jammed_reachesStation]
      rcases hdead with h | h <;> simp [ExchangeRecord.reachesStation, h]
    obtain ⟨h1, h2⟩ := s.jamCounted.concludeExchange_of_not_reaches hjs hnot .broken
    exact ⟨State.entry_congr h1 _, State.areas_congr h2 _⟩
  · rw [← ExchangeRecord.jammed_failedAttempts]
    exact Counters.count_countedFrom (s.entry r.station).counters (r.jammed.outcomeRecord .broken)
  · rw [hself (hreach hd hb)]
    exact StationEntry.take_broken hp (by simpa using hf)
  · rw [hself (hreach hd hb)]
    exact StationEntry.take_probe_other hp (by simpa [ExchangeRecord.outcomeRecord] using hf) nofun h1 h2
  · have ha := s.jamCounted.concludeExchange_areas_self (ar := ar) hjs (hreach hd hb) .broken
      (by rw [ExchangeRecord.jammed_station]; exact har)
    rw [ExchangeRecord.jammed_station, ExchangeRecord.jammed_func, if_neg (by simp)] at ha
    exact ha

end Sys2Proof.Machine
end

section
/-! Pin reset, a WARM restart, and the laws right after reset: O11, O12, O60. -/

namespace Sys2Proof.Machine

/-! ## The choice with nothing to choose (R100) -/

/-- With no request, no claim, no ticket and a scheduler that is not ACTIVE, a choice does nothing (R100). -/
theorem State.arbiterChoice_of_nothing {s : State} (h1 : s.sup.handover ≠ .requested) (h2 : s.sup.claim = .none)
    (h3 : s.tickets.queue = []) (h4 : s.sched.state ≠ .active) : s.arbiterChoice = s := by
  have hitem : State.ticketItem s.ticketTurns s = (s, false) := by
    simp [State.ticketTurns, State.ticketItem, State.eligibleTicket, firstEligible, h3, h4]
  have hask : State.ask 3 s = (s, .nothing) := by
    simp [State.ask, h4]
  unfold State.arbiterChoice State.chooseWork
  split
  · rfl
  · rw [h2]
    dsimp only
    rw [hitem]
    dsimp only
    rw [hask]

/-- The state after a reset whose handover follows LREQ, in the words of the statements: lent at once with LREQ asserted, and
as it was otherwise (R84, R161). -/
theorem State.followLreq_eq {s : State} (h0 : s.engine = .empty .idle) (h1 : s.sup.handover = .none)
    (h2 : s.sup.claim = .none) (h3 : s.tickets.queue = []) (h4 : s.sched.state ≠ .active) (h5 : s.sup.limitTimer = none) :
    s.followLreq = { s with
      engine := .empty (if s.lreq then .released else .idle)
      line := { s.line with rx := if s.lreq then .off else s.line.rx }
      sup := { s.sup with
        handover := if s.lreq then .granted else .none
        limitTimer := if s.lreq then timerFor s.sup.handoverLimit else none } } := by
  unfold State.followLreq
  cases hl : s.lreq with
  | true => exact congrArg (fun b => { s.lendLine with lreq := b }) hl
  | false =>
    have hsame := State.arbiterChoice_of_nothing (s := s) (by simp [h1]) h2 h3 h4
    simp only [Bool.false_eq_true, if_false, ← h0, ← h1, ← h5]
    rw [hsame, ← hl]

/-! ## Pin reset (R21, R148) -/

/-- A table of UNUSED entries takes nothing of the image store (R23). -/
theorem State.allocated_of_unused {s : State} (h : ∀ a, s.entry a = .unused) : s.allocated = 0 := by
  unfold State.allocated
  rw [List.sum_eq_zero]
  intro x hx
  obtain ⟨a, -, rfl⟩ := List.mem_map.1 hx
  simp [State.allocationOf, h a, StationEntry.unused]

/-- The state after pin reset (R148, R161). -/
theorem State.pinReset_eq (s : State) (hrate1 hrate0 : Bool) :
    s.pinReset hrate1 hrate0 = { s.initialised (strapValue hrate1 hrate0) with
      engine := .empty (if s.lreq then .released else .idle)
      line := { LinePort.initial with rx := if s.lreq then .off else .turnedOn }
      sup := { Supervision.initial with handover := if s.lreq then .granted else .none } } := by
  have h := State.followLreq_eq (s := s.initialised (strapValue hrate1 hrate0)) rfl rfl rfl rfl nofun rfl
  unfold State.pinReset
  rw [h]
  cases hl : s.lreq <;> simp [State.initialised, State.reset, Supervision.initial, LinePort.initial, timerFor, hl]

/-- Settles O11: the values of every block after pin reset, the line lent at once where LREQ is asserted. -/
theorem pinResetLeavesEveryBlockAtItsResetValue : Obligations.PinResetLeavesEveryBlockAtItsResetValue := by
  intro s hrate1 hrate0
  have hent : ∀ a, (s.pinReset hrate1 hrate0).entry a = .unused := fun a =>
    State.entry_of_reset (by rw [State.pinReset_eq]; rfl) a
  have hlde : (s.pinReset hrate1 hrate0).lde = false := by
    rw [State.pinReset_eq]
    cases hl : s.lreq <;> rfl
  have hfree : (s.pinReset hrate1 hrate0).host.tx = .free := by
    rw [State.pinReset_eq]
    rfl
  refine ⟨s.pinReset hrate1 hrate0, rfl, hent, fun a => State.areas_of_reset (by rw [State.pinReset_eq]; rfl) a,
    State.allocated_of_unused hent, ?_, ?_, ?_, ?_, ?_, ?_, ?_, ?_, ?_, ?_, hlde,
    fun k => ⟨State.ltxd_of_lde_false hlde k, State.htxd_of_free hfree k⟩⟩ <;> rw [State.pinReset_eq] <;> rfl

/-! ## A WARM restart (R22, R41, R105, R160) -/

/-- A WARM restart keeps an entry's profile and makes its station ABSENT (R22). -/
theorem StationEntry.warm_eq (e : StationEntry) : e.warm = { StationEntry.unused with
    profile := e.profile
    state := if e.profile.isSome then .absent else .unused } := by
  unfold StationEntry.warm
  cases e.profile <;> rfl

/-- Settles O12: the values of every block after a WARM restart, the line lent at once where LREQ is asserted. -/
theorem warmRestartKeepsWhatTheHostHasSet : Obligations.WarmRestartKeepsWhatTheHostHasSet := by
  intro s ⟨hrestart, htx⟩
  have hending : s.host.responseEnding = true := by
    unfold HostLink.responseEnding
    rcases htx with ⟨f, hf⟩ | ⟨hf, hresp⟩
    · rw [hf]
    · rw [hf, hresp]
      rfl
  have hexec : exec (.restartTakesEffect none) s = .next s.warmRestart := by
    change execRestartTakesEffect none s = _
    unfold execRestartTakesEffect
    rw [hrestart]
    exact if_pos hending
  have heq := State.followLreq_eq (s := { s with
      line := { s.line with rx := .turnedOn, stats := .zero }
      engine := .empty .idle
      arbiter := { s.arbiter with demandAllowance := 0 }
      sched := s.sched.warm
      stations := s.stations.map StationEntry.warm
      image := s.image.map (fun ar => ar.map Areas.warm)
      tickets := { s.tickets with queue := [] }
      reports := .initial
      host := s.host.restarted
      sup := s.sup.warm }) rfl rfl rfl rfl nofun rfl
  change s.warmRestart = _ at heq
  have hent (a) : s.warmRestart.entry a = (s.entry a).warm := State.entry_map rfl (by rw [heq]) a
  have hareas (a) : s.warmRestart.areas a = (s.areas a).map Areas.warm :=
    State.areas_map (f := fun ar => ar.map Areas.warm) rfl (by rw [heq]) a
  have hsup : s.warmRestart.sup = { s.sup with
      hold := .notHeld
      claim := .none
      holdTimer := timerFor s.sup.holdTime
      handover := if s.lreq then .granted else .none
      limitTimer := if s.lreq = true ∧ s.sup.handoverLimit ≠ 0 then some s.sup.handoverLimit else none } := by
    rw [heq]
    by_cases hlimit : s.sup.handoverLimit = 0 <;> cases s.lreq <;>
      simp [Supervision.warm, Supervision.initial, timerFor, hlimit]
  refine ⟨s.warmRestart, hexec, fun a => (hent a).trans (StationEntry.warm_eq _), hareas,
    ?_, ?_, ?_, ?_, ?_, ?_, ?_, hsup, ?_, ?_⟩ <;> rw [heq]
  all_goals rfl

/-! ## The laws right after reset -/

/-- Settles O60: the table is UNUSED, no exchange is in flight, and every other law reads blocks at their initial values. -/
theorem resetHasEveryLaw : Obligations.ResetHasEveryLaw := by
  have hent (a) : State.reset.entry a = .unused := State.entry_of_reset rfl a
  have hareas (a) : State.reset.areas a = none := State.areas_of_reset rfl a
  have hhost : HostLaw State.reset := ⟨by decide, nofun, rfl, trivial, nofun⟩
  have hline : LineLaw State.reset := by
    have hengine : EngineLaw State.reset.engine := rfl
    exact ⟨hengine, by decide, by decide, by decide⟩
  have hrecord : RecordLaw State.reset := ⟨by decide, nofun⟩
  have hstation : StationLaw State.reset :=
    StationLaw.ofEntries (fun a => by rw [hent a]; exact StationEntry.law_unused) rfl
  have himage : ImageLaw State.reset := by
    refine ImageLaw.ofIdle ⟨fun a => ?_, ?_⟩ rfl
    · rw [hent a, hareas a]
      exact AreasLaw.unused _
    · rw [State.allocated_of_unused hent]
      exact Nat.zero_le _
  have hcycle : CycleLaw State.reset := by
    unfold CycleLaw CycleRanges CycleConsistent
    decide
  have hticket : TicketLaw State.reset := ⟨by decide, by decide, by decide⟩
  have hreport : ReportLaw State.reset := ⟨by decide, by decide⟩
  have hsup : SupervisionLaw State.reset := ⟨.inl rfl, by decide, rfl, nofun⟩
  exact ⟨hhost, hline, hrecord, hstation, himage, hcycle, hticket, Nat.zero_le _, hreport, hsup, nofun⟩

end Sys2Proof.Machine
end

section
/-! The commands of the station table: STATION_DEFINE, STATION_REMOVE and STATION_QUERY (R15 to R20): O14 to O17. -/

namespace Sys2Proof.Machine

/-! ## What the commands read -/

/-- The byte of a byte's own value. -/
@[simp] theorem byte_toNat (b : Byte) : byte b.toNat = b := by simp [byte]

/-- A flag is the byte of its value (R162). -/
theorem flag_eq_byte (b : Bool) : flag b = byte b.toNat := by cases b <;> rfl

/-- An address that names an entry (R1). -/
theorem validAddress_iff (a : Nat) : validAddress a = true ↔ 1 ≤ a ∧ a ≤ 63 := decide_eq_true_iff

theorem validAddress_of_outside {a : Nat} (h : a = 0 ∨ 63 < a) : validAddress a = false :=
  decide_eq_false (by omega)

/-- A flag above 1 is reserved (R162). -/
theorem decodeFlag_of_reserved {b : Byte} (h : 1 < b.toNat) : decodeFlag b = none := by
  unfold decodeFlag
  rw [if_neg (by rintro rfl; simp at h), if_neg (by rintro rfl; simp at h)]

/-- A flag of 0 or 1 reads as set where it is 1 (R162). -/
theorem decodeFlag_of_le {b : Byte} (h : b.toNat ≤ 1) : decodeFlag b = some (decide (b.toNat = 1)) := by
  have hb : b = 0 ∨ b = 1 := by bv_omega
  rcases hb with rfl | rfl <;> rfl

/-- A notify value above 2 is reserved (R162). -/
theorem decodeNotify_of_reserved {b : Byte} (h : 2 < b.toNat) : decodeNotify b = none := by
  unfold decodeNotify
  rw [if_neg (by rintro rfl; simp at h), if_neg (by rintro rfl; simp at h), if_neg (by rintro rfl; simp at h)]

/-- A notify value of 0, 1 or 2 has a meaning (R162). -/
theorem decodeNotify_of_le {b : Byte} (h : b.toNat ≤ 2) : ∃ n, decodeNotify b = some n := by
  have hb : b = 0 ∨ b = 1 ∨ b = 2 := by bv_omega
  rcases hb with rfl | rfl | rfl
  · exact ⟨.none, rfl⟩
  · exact ⟨.onChange, rfl⟩
  · exact ⟨.every, rfl⟩

theorem decodeNotify_code (n : Notify) : decodeNotify n.code = some n := by cases n <;> rfl

theorem decodeFlag_byte (b : Bool) : decodeFlag (byte b.toNat) = some b := by cases b <;> rfl

/-! ## The checks of STATION_DEFINE in their order (R15) -/

section
variable {s : State} {f : DefineFields}

theorem State.checkDefine_of_badAddress (h : validAddress f.address = false) : s.checkDefine f = .error .range := by
  simp [State.checkDefine, h]

theorem State.checkDefine_of_badEncoding (hv : validAddress f.address = true)
    (h : decodeNotify f.notify = none ∨ decodeFlag f.probeEnable = none) : s.checkDefine f = .error .badField := by
  unfold State.checkDefine
  rw [hv]
  rcases h with h | h
  · rw [h]
    rfl
  · rw [h]
    cases decodeNotify f.notify <;> rfl

/-- With a valid address and known encodings, the ranges and then the image budget decide. -/
theorem State.checkDefine_of_encoded {n : Notify} {pe : Bool} (hv : validAddress f.address = true)
    (hn : decodeNotify f.notify = some n) (hp : decodeFlag f.probeEnable = some pe) :
    s.checkDefine f =
      if !f.inRange then .error .range
      else if Config.imageStoreSize < s.allocatedExcept f.address + (f.inLen + f.outLen) then .error .noSpace
      else .ok (f.profile n pe) := by
  unfold State.checkDefine
  rw [hv, hn, hp]
  rfl

theorem State.stationDefine_of_error {r : Result} (h : s.checkDefine f = .error r) : s.stationDefine f = (s, .refuse r) := by
  unfold State.stationDefine
  rw [h]

theorem State.stationDefine_of_ok {p : Profile} (h : s.checkDefine f = .ok p) :
    s.stationDefine f = (s.define f.address p, .ok ((s.define f.address p).freeBody f.address)) := by
  unfold State.stationDefine
  rw [h]

/-- The message taken has no part in a define. -/
theorem State.define_taking (m : Message) (rest : List Message) (a : Nat) (p : Profile) :
    (s.taking m rest).define a p = (s.define a p).taking m rest := by
  rw [State.define_frame, State.define_frame s]
  unfold State.setEntry State.setAreas
  split <;> rfl

/-- A STATION_DEFINE whose checks fail is refused (R15). -/
theorem State.offers.refusesDefine {m : Message} {rest : List Message} {r : Result} (h : s.offers m rest 0x10)
    (hp : parseDefine m.payload = some f) (hc : s.checkDefine f = .error r) :
    exec .stationDefine s = .next (s.answered m rest r []) :=
  h.refuses (mine := (· == typeStationDefine)) (decide := fun f s => s.stationDefine f) rfl hp
    (State.stationDefine_of_error (s := s.taking m rest) hc)

/-- A STATION_DEFINE whose checks pass is answered with the free bytes it leaves (R16). -/
theorem State.offers.acceptsDefine {m : Message} {rest : List Message} {p : Profile} (h : s.offers m rest 0x10)
    (hp : parseDefine m.payload = some f) (hc : s.checkDefine f = .ok p) :
    exec .stationDefine s =
      .next ((s.define f.address p).answered m rest .ok ((s.define f.address p).freeBody f.address)) := by
  refine h.answers (mine := (· == typeStationDefine)) (decide := fun f s => s.stationDefine f) rfl hp
    (r := .ok ((s.define f.address p).freeBody f.address)) ?_
  rw [State.stationDefine_of_ok (s := s.taking m rest) hc, State.define_taking]
  rfl

end

/-- Settles O14: each of the four clauses is the first check that fails. -/
theorem stationDefineIsCheckedInOrder : Obligations.StationDefineIsCheckedInOrder := by
  intro s m rest a k0 k1 il ol fl dv nt pe h hpay
  have hparse := congrArg parseDefine hpay
  have encoded (h1 : nt.toNat ≤ 2) (h2 : pe.toNat ≤ 1) : ∃ n b, decodeNotify nt = some n ∧ decodeFlag pe = some b := by
    obtain ⟨n, hn⟩ := decodeNotify_of_le h1
    exact ⟨n, _, hn, decodeFlag_of_le h2⟩
  refine ⟨fun ha => ?_, fun h1 h63 he => ?_, fun h1 h63 hnt hpe hr => ?_, fun h1 h63 hnt hpe hil hol hd1 hd16 hfl hs => ?_⟩
  · exact h.refusesDefine hparse (State.checkDefine_of_badAddress (validAddress_of_outside ha))
  · exact h.refusesDefine hparse (State.checkDefine_of_badEncoding ((validAddress_iff _).2 ⟨h1, h63⟩)
      (he.imp decodeNotify_of_reserved decodeFlag_of_reserved))
  · obtain ⟨n, b, hn, hb⟩ := encoded hnt hpe
    refine h.refusesDefine hparse ((State.checkDefine_of_encoded ((validAddress_iff _).2 ⟨h1, h63⟩) hn hb).trans (if_pos ?_))
    simp only [DefineFields.inRange, Bool.not_eq_true', decide_eq_false_iff_not]
    omega
  · obtain ⟨n, b, hn, hb⟩ := encoded hnt hpe
    refine h.refusesDefine hparse ((State.checkDefine_of_encoded ((validAddress_iff _).2 ⟨h1, h63⟩) hn hb).trans ?_)
    rw [if_neg (by simp [DefineFields.inRange, *])]
    exact if_pos hs

/-! ## The effects of STATION_DEFINE (R16, R17) -/

/-- The notices dropped are those that do not stay (R129). -/
theorem ReportEntry.staysWithout_eq (a : Nat) (e : ReportEntry) : e.staysWithout a = !e.isStationNotice a := by
  cases e <;> rfl

theorem ReportUnit.dropStation_eq (u : ReportUnit) (a : Nat) :
    u.dropStation a = { u with queue := u.queue.filter (ReportEntry.staysWithout a) } := by
  rw [ReportUnit.dropStation, funext (ReportEntry.staysWithout_eq a)]

/-- The discard flag of the exchange in flight for the station, in the words of the statements (R79). -/
theorem State.discardExchange_record (s : State) (a : Nat) :
    (s.discardExchange a).engine = { s.engine with
      record := s.engine.record.map (fun r => { r with discard := r.discard || r.station == a }) } := by
  simp [State.discardExchange, ExchangeRecord.discarded_eq]

theorem State.entry_define (s : State) {a : Nat} (ha : 1 ≤ a ∧ a ≤ 63) (b : Nat) (p : Profile) :
    (s.define a p).entry b = if b = a then .defined p else s.entry b := by
  rw [State.entry_congr (s := s.setEntry a (.defined p)) (by rw [State.define_frame]), State.entry_setEntry]
  simp [ha]

theorem State.areas_define (s : State) {a : Nat} (ha : 1 ≤ a ∧ a ≤ 63) (b : Nat) (p : Profile) :
    (s.define a p).areas b = if b = a then some p.freshAreas else s.areas b := by
  rw [State.areas_congr (s := s.setAreas a (some p.freshAreas)) (by rw [State.define_frame]), State.areas_setAreas]
  simp [ha]

/-- The free bytes once an address holds the allocation given and no other entry changed (R23). -/
theorem State.freeBytes_of_entry {s t : State} {a : Nat} (ha : 1 ≤ a ∧ a ≤ 63)
    (h : ∀ b, b ≠ a → t.entry b = s.entry b) :
    t.freeBytes = 2048 - (s.allocatedExcept a + t.allocationOf a) := by
  unfold State.freeBytes
  rw [State.allocated_eq t ((validAddress_iff a).2 ha), State.allocatedExcept_congr (s := s) (fun b hb => by rw [h b hb])]
  rfl

/-- The fields of a STATION_DEFINE whose encodings have a meaning. -/
def fieldsOf (a il ol fl dv : Byte) (kind : Half) (notify : Notify) (probe : Bool) : DefineFields :=
  { address := a.toNat, kind := kind, inLen := il.toNat, outLen := ol.toNat, failLimit := fl.toNat, divisor := dv.toNat,
    notify := notify.code, probeEnable := byte probe.toNat }

theorem parseDefine_fieldsOf (a il ol fl dv : Byte) (kind : Half) (notify : Notify) (probe : Bool) :
    parseDefine ([a] ++ le16 kind ++ [il, ol, fl, dv, notify.code, byte probe.toNat]) =
      some (fieldsOf a il ol fl dv kind notify probe) := by
  simp [le16, parseDefine, half_le16, fieldsOf]

/-- Settles O15: the checks pass, and the state after is that of `State.define`, read entry by entry and block by block. -/
theorem stationDefineStartsTheStationAfresh : Obligations.StationDefineStartsTheStationAfresh := by
  intro s m rest a il ol fl dv kind notify probe h hpay h1 h63 hil hol hd1 hd16 hfl hspace
  have ha : 1 ≤ a.toNat ∧ a.toNat ≤ 63 := ⟨h1, h63⟩
  have hparse := (congrArg parseDefine hpay).trans (parseDefine_fieldsOf a il ol fl dv kind notify probe)
  have hcheck : s.checkDefine (fieldsOf a il ol fl dv kind notify probe) =
      .ok ((fieldsOf a il ol fl dv kind notify probe).profile notify probe) := by
    rw [State.checkDefine_of_encoded ((validAddress_iff _).2 ha) (decodeNotify_code notify) (decodeFlag_byte probe),
      if_neg (by simp [DefineFields.inRange, fieldsOf, *])]
    exact if_neg (Nat.not_lt.2 hspace)
  have hexec := h.acceptsDefine hparse hcheck
  generalize hp : (fieldsOf a il ol fl dv kind notify probe).profile notify probe = p at hexec
  change exec _ s = .next ((s.define a.toNat p).answered m rest .ok ((s.define a.toNat p).freeBody a.toNat)) at hexec
  have hent (b) : (s.define a.toNat p).entry b = if b = a.toNat then .defined p else s.entry b := s.entry_define ha b p
  have hareas (b) : (s.define a.toNat p).areas b = if b = a.toNat then some p.freshAreas else s.areas b :=
    s.areas_define ha b p
  have hbody : (s.define a.toNat p).freeBody a.toNat =
      [a] ++ le16 (BitVec.ofNat 16 (2048 - (s.allocatedExcept a.toNat + (il.toNat + ol.toNat)))) := by
    unfold State.freeBody
    rw [byte_toNat, State.freeBytes_of_entry (s := s) ha (fun b hb => by rw [hent, if_neg hb]), State.allocationOf, hent,
      if_pos rfl, ← hp]
    rfl
  refine ⟨s.define a.toNat p, hbody ▸ hexec, ?_, ?_, fun b hb => ⟨?_, ?_⟩, ?_⟩
  · rw [hent, if_pos rfl, ← hp]
    rfl
  · rw [hareas, if_pos rfl, ← hp]
    rfl
  · rw [hent, if_neg hb]
  · rw [hareas, if_neg hb]
  · rw [State.define_frame, State.discardExchange_record, ReportUnit.dropStation_eq]
    by_cases hdef : (s.entry a.toNat).state = .unused <;> simp [State.isDefined, hdef]

/-! ## STATION_REMOVE and the tickets it withdraws (R18, R19, R113) -/

/-- A ticket's completion merges with nothing (R120). -/
theorem ReportUnit.place_demandDone (u : ReportUnit) (d : DemandDone) :
    u.place (.demandDone d) = { u with queue := u.queue ++ [.demandDone d] } := by
  have hm : mergeInto u.queue (.demandDone d) = none := by
    cases h : mergeInto u.queue (.demandDone d) with
    | none => rfl
    | some q =>
      obtain ⟨hc, -⟩ := mergeInto_some h
      cases hc
  unfold ReportUnit.place
  rw [hm]
  rfl

/-- Where the processor is deciding a command, the completion of a ticket is placed at the tail of the queue (R113). -/
theorem State.completeTicket_of_deciding {s : State} (h : s.host.processor ≠ .idle) (hn : (s.tickets.queue.map Ticket.id).Nodup)
    {u : Ticket} (hu : u ∈ s.tickets.queue) (hd : u.isDone = false) (res : TicketResult) :
    s.completeTicket u.id res = { s with
      tickets := s.tickets.setState u.id (.done res)
      reports := { s.reports with queue := s.reports.queue ++ [.demandDone (u.report res)] } } := by
  unfold State.completeTicket
  rw [TicketTable.complete_of_mem hn hu hd]
  refine (State.place_of_none (State.dueReport_of_deciding ?_) _).trans ?_
  · exact h
  · rw [ReportUnit.place_demandDone]

/-- A ticket after the withdrawal of a station's QUEUED tickets (R19). -/
def Ticket.withdrawnFrom (a : Nat) (u : Ticket) : Ticket :=
  if u.station = a ∧ u.state = .queued then
    { u with state := .done { outcome := .withdrawn, status := none, data := [], attempts := 0 } }
  else u

/-- A ticket that the withdrawal of a station's tickets reaches (R19). -/
def Ticket.isWithdrawnFrom (a : Nat) (u : Ticket) : Bool := u.station == a && u.state == .queued

/-- The entry its withdrawal places (R113, R125). -/
def Ticket.withdrawal (u : Ticket) : ReportEntry :=
  .demandDone { id := u.id, hostTag := u.hostTag, outcome := .withdrawn, status := none, attempts := 0, data := [] }

theorem Ticket.withdrawnFrom_of_not {a : Nat} {u : Ticket} (h : u.isWithdrawnFrom a = false) : u.withdrawnFrom a = u := by
  unfold Ticket.withdrawnFrom
  rw [if_neg]
  simpa [Ticket.isWithdrawnFrom] using h

theorem Ticket.withdrawnFrom_of_reached {a : Nat} {u : Ticket} (h : u.isWithdrawnFrom a = true) :
    u.withdrawnFrom a = { u with state := .done (.bare .withdrawn 0) } := by
  unfold Ticket.withdrawnFrom
  rw [if_pos]
  · rfl
  · simpa [Ticket.isWithdrawnFrom] using h

/-- The withdrawal of the tickets of a tail of the queue, in queue order. -/
theorem State.withdrawTail {a : Nat} (ahead tail : List Ticket) {s : State} (h : s.host.processor ≠ .idle)
    (hq : s.tickets.queue = ahead ++ tail) (hn : (s.tickets.queue.map Ticket.id).Nodup) :
    ((tail.filter (Ticket.isWithdrawnFrom a)).map Ticket.id).foldl
        (fun s id => s.completeTicket id (.bare .withdrawn 0)) s =
      { s with
        tickets := { s.tickets with queue := ahead ++ tail.map (Ticket.withdrawnFrom a) }
        reports := { s.reports with
          queue := s.reports.queue ++ (tail.filter (Ticket.isWithdrawnFrom a)).map Ticket.withdrawal } } := by
  induction tail generalizing s ahead with
  | nil => simp [← hq]
  | cons u tail ih =>
    cases hu : u.isWithdrawnFrom a with
    | false =>
      rw [List.filter_cons_of_neg (by simp [hu]), ih (ahead ++ [u]) h (by simp [hq]) hn, List.map_cons,
        Ticket.withdrawnFrom_of_not hu, List.append_assoc]
      rfl
    | true =>
      have hdone : u.isDone = false := by
        have hstate : u.state = .queued := by simpa [Ticket.isWithdrawnFrom] using (Bool.and_eq_true_iff.1 hu).2
        simp [Ticket.isDone, hstate]
      have hset : (s.tickets.setState u.id (.done (.bare .withdrawn 0))).queue =
          (ahead ++ [u.withdrawnFrom a]) ++ tail := by
        have hids : (ahead.map Ticket.id ++ u.id :: tail.map Ticket.id).Nodup := by simpa [hq] using hn
        obtain ⟨-, htail, hdis⟩ := List.nodup_append.1 hids
        have hne : s.tickets = ⟨ahead ++ u :: tail, s.tickets.idCounter⟩ := by rw [← hq]
        rw [hne, setState_split, Ticket.withdrawnFrom_of_reached hu, List.append_assoc]
        · rfl
        · exact fun x hx => hdis x.id (List.mem_map_of_mem hx) u.id List.mem_cons_self
        · exact fun x hx heq => (List.nodup_cons.1 htail).1 (heq ▸ List.mem_map_of_mem hx)
      rw [List.filter_cons_of_pos hu, List.map_cons, List.foldl_cons,
        State.completeTicket_of_deciding h hn (by simp [hq]) hdone, ih (ahead ++ [u.withdrawnFrom a])]
      · simp [TicketTable.setState, Ticket.withdrawal, Ticket.report, TicketResult.bare]
      · exact h
      · exact hset
      · simpa using hn

/-- What a STATION_REMOVE leaves: the entry empty, the areas free, the discard flag set, the station's notices dropped and its
QUEUED tickets withdrawn (R18, R19, R25, R79, R129). -/
def State.removed (s : State) (a : Nat) : State :=
  { s with
    stations := (s.setEntry a .unused).stations
    image := (s.setAreas a none).image
    engine := { s.engine with
      record := s.engine.record.map (fun r => { r with discard := r.discard || r.station == a }) }
    tickets := { s.tickets with queue := s.tickets.queue.map (Ticket.withdrawnFrom a) }
    reports := { s.reports with
      queue := s.reports.queue.filter (ReportEntry.staysWithout a) ++
        (s.tickets.queue.filter (Ticket.isWithdrawnFrom a)).map Ticket.withdrawal } }

/-- What a STATION_REMOVE does ahead of the tickets (R18, R25, R79, R129). -/
def State.cleared (s : State) (a : Nat) : State :=
  (((s.setEntry a .unused).setAreas a none).discardExchange a).dropNotices a

theorem State.cleared_eq (s : State) (a : Nat) : s.cleared a = { s with
    stations := (s.setEntry a .unused).stations
    image := (s.setAreas a none).image
    engine := (s.discardExchange a).engine
    reports := s.reports.dropStation a } := by
  unfold State.cleared State.discardExchange State.setEntry State.setAreas State.dropNotices
  split <;> rfl

/-- Where the processor is deciding a command, no report becomes due between the withdrawals (R141). -/
theorem State.remove_of_deciding {s : State} (h : s.host.processor ≠ .idle) (hn : (s.tickets.queue.map Ticket.id).Nodup)
    (a : Nat) : s.remove a = s.removed a := by
  have hwithdrawn := State.withdrawTail (a := a) [] (s.cleared a).tickets.queue (s := s.cleared a)
    (by rw [s.cleared_eq]; exact h) rfl (by rw [s.cleared_eq]; exact hn)
  refine Eq.trans hwithdrawn ?_
  rw [s.cleared_eq, State.discardExchange_record, ReportUnit.dropStation_eq]
  rfl

theorem State.entry_removed (s : State) {a : Nat} (ha : 1 ≤ a ∧ a ≤ 63) (b : Nat) :
    (s.removed a).entry b = if b = a then .unused else s.entry b := by
  rw [State.entry_congr (s := s.setEntry a .unused) (t := s.removed a) rfl, State.entry_setEntry]
  simp [ha]

theorem State.areas_removed (s : State) {a : Nat} (ha : 1 ≤ a ∧ a ≤ 63) (b : Nat) :
    (s.removed a).areas b = if b = a then none else s.areas b := by
  rw [State.areas_congr (s := s.setAreas a none) (t := s.removed a) rfl, State.areas_setAreas]
  simp [ha]

@[simp] theorem State.isDefined_taking (s : State) (m : Message) (rest : List Message) (a : Nat) :
    (s.taking m rest).isDefined a = s.isDefined a := rfl

/-- Settles O16: while the command is being decided no report becomes due, so the withdrawals are placed one after the other. -/
theorem stationRemoveReachesItsBlocks : Obligations.StationRemoveReachesItsBlocks := by
  intro s m rest a ⟨_, hn, _⟩ h hpay
  have hparse := congrArg parseOne hpay
  have refused {r : Result} (hr : (s.taking m rest).stationRemove a.toNat = (s.taking m rest, .refuse r)) :
      exec .stationRemove s = .next (s.answered m rest r []) :=
    h.refuses (mine := (· == typeStationRemove)) (decide := fun (f : Byte) s => s.stationRemove f.toNat) rfl hparse hr
  refine ⟨fun ha => refused ?_, fun h1 h63 hs => refused ?_, fun h1 h63 hs => ?_⟩
  · simp [State.stationRemove, validAddress_of_outside ha]
  · have hundef : s.isDefined a.toNat = false := by simp [State.isDefined, hs]
    simp [State.stationRemove, (validAddress_iff _).2 ⟨h1, h63⟩, hundef]
  · have ha : 1 ≤ a.toNat ∧ a.toNat ≤ 63 := ⟨h1, h63⟩
    have hremove : (s.taking m rest).remove a.toNat = (s.removed a.toNat).taking m rest := by
      refine (State.remove_of_deciding (s := s.taking m rest) nofun hn a.toNat).trans ?_
      unfold State.removed State.setEntry State.setAreas
      split <;> rfl
    have hdecide : (s.taking m rest).stationRemove a.toNat =
        ((s.removed a.toNat).taking m rest, .ok ((s.removed a.toNat).freeBody a.toNat)) := by
      unfold State.stationRemove
      rw [if_neg (by simp [(validAddress_iff _).2 ha]), if_neg, hremove]
      · rfl
      · rw [State.isDefined_taking]
        simpa [State.isDefined] using hs
    have hbody : (s.removed a.toNat).freeBody a.toNat =
        [a] ++ le16 (BitVec.ofNat 16 (2048 - s.allocatedExcept a.toNat)) := by
      unfold State.freeBody
      rw [byte_toNat, State.freeBytes_of_entry (s := s) ha (fun b hb => by rw [s.entry_removed ha, if_neg hb]),
        State.allocationOf, s.entry_removed ha, if_pos rfl]
      rfl
    refine ⟨s.removed a.toNat, ?_, ?_, ?_, fun b hb => ⟨?_, ?_⟩, rfl⟩
    · rw [← hbody]
      exact h.answers (mine := (· == typeStationRemove))
        (decide := fun (f : Byte) s => s.stationRemove f.toNat) rfl hparse hdecide
    · rw [s.entry_removed ha, if_pos rfl]
    · rw [s.areas_removed ha, if_pos rfl]
    · rw [s.entry_removed ha, if_neg hb]
    · rw [s.areas_removed ha, if_neg hb]

/-! ## STATION_QUERY (R20, R164) -/

/-- The 26 bytes of an entry, in the words of the statements (R164). -/
theorem StationEntry.bytes_eq (e : StationEntry) (a : Byte) : e.bytes a.toNat =
    [a, e.state.code] ++
      (match e.profile with
        | some p => [1] ++ le16 p.kind ++ [byte p.inLen, byte p.outLen, byte p.failLimit, byte p.divisor, p.notify.code,
            byte p.probeEnable.toNat]
        | none => [0, 0, 0, 0, 0, 0, 0, 0, 0]) ++
      [byte e.toggle.toNat, byte e.failRun] ++
      (match e.identity with
        | some i => [1] ++ le16 i.kind ++ [i.inLen, i.outLen]
        | none => [0, 0, 0, 0, 0]) ++
      le16 e.counters.good ++ le16 e.counters.failedAttempts ++ le16 e.counters.refusals ++ le16 e.counters.desyncs := by
  unfold StationEntry.bytes
  rw [byte_toNat, flag_eq_byte]
  cases e.profile <;> cases e.identity <;>
    simp [profileBytes, identityBytes, flag_eq_byte, List.replicate]

/-- An entry in state UNUSED is empty (R1). -/
theorem StationEntry.Law.eq_unused {e : StationEntry} (h : e.Law) (hs : e.state = .unused) : e = .unused := by
  unfold StationEntry.Law at h
  cases hp : e.profile with
  | none =>
    rw [hp] at h
    exact h
  | some p =>
    rw [hp] at h
    obtain ⟨-, hne, -⟩ := h
    exact absurd hs hne

/-- Settles O17: an UNUSED entry is empty by the station law, so that clearing its counters changes nothing. -/
theorem stationQueryAnswersTheEntry : Obligations.StationQueryAnswersTheEntry := by
  intro s m rest a clear h hpay
  have hparse := congrArg parseStationQuery hpay
  have refused {r : Result} (hr : (s.taking m rest).stationQuery a.toNat clear = (s.taking m rest, .refuse r)) :
      exec .stationQuery s = .next (s.answered m rest r []) :=
    h.refuses (mine := (· == typeStationQuery)) (decide := fun (f : Nat × Byte) s => s.stationQuery f.1 f.2) rfl hparse hr
  have queried (hc : clear.toNat ≤ 1) (h1 : 1 ≤ a.toNat) (h63 : a.toNat ≤ 63) {body : List Byte}
      (hbody : (s.entry a.toNat).bytes a.toNat = body) : exec .stationQuery s = .next (State.answered
        (if clear.toNat = 1 then s.setEntry a.toNat { s.entry a.toNat with counters := ⟨0, 0, 0, 0⟩ } else s) m rest .ok
        body) := by
    subst hbody
    refine h.answers (mine := (· == typeStationQuery)) (decide := fun (f : Nat × Byte) s => s.stationQuery f.1 f.2) rfl hparse
      (r := .ok ((s.entry a.toNat).bytes a.toNat)) ?_
    dsimp only
    unfold State.stationQuery
    rw [decodeFlag_of_le hc]
    dsimp only
    rw [if_neg (by simp [(validAddress_iff _).2 ⟨h1, h63⟩])]
    by_cases hset : clear.toNat = 1
    · rw [if_pos hset, if_pos (decide_eq_true hset)]
      unfold State.clearCounters State.setEntry
      rw [if_pos h1, if_pos h1]
      rfl
    · rw [if_neg hset, if_neg (by simpa using hset)]
      rfl
  refine ⟨fun hc => refused ?_, fun hc ha => refused ?_, fun hc h1 h63 => ?_, fun hlaw hc h1 h63 hstate => ?_⟩
  · simp [State.stationQuery, decodeFlag_of_reserved hc]
  · simp [State.stationQuery, decodeFlag_of_le hc, validAddress_of_outside ha]
  · exact queried hc h1 h63 (StationEntry.bytes_eq _ a)
  · have hent : s.entry a.toNat = .unused := by
      obtain ⟨hentries, -⟩ := hlaw
      exact StationEntry.Law.eq_unused (hentries a.toNat) hstate
    have hsame : s.setEntry a.toNat { s.entry a.toNat with counters := ⟨0, 0, 0, 0⟩ } = s := by
      have hself := s.setEntry_self a.toNat
      rw [hent] at hself ⊢
      exact hself
    have hbytes : (s.entry a.toNat).bytes a.toNat = [a] ++ List.replicate 25 0 := by
      rw [hent, StationEntry.bytes, byte_toNat]
      rfl
    rw [queried hc h1 h63 hbytes, hsame, ite_self]

end Sys2Proof.Machine
end

section
/-! LREQ: its assertion and negation, the return of the line, and the handover limit (R10 to R12, R82, R155 to R158): O57. -/

namespace Sys2Proof.Machine

/-! ## The order of the requests of one event (R121; log entry 5) -/

/-- The requests of one block keep their order. -/
theorem interleave_oneSource (order : List ReportSource) (src : ReportSource) (xs : List ReportRequest) :
    interleave order (xs.map (fun x => (src, x))) = xs := by
  induction order generalizing xs with
  | nil => simp [interleave, Function.comp_def]
  | cons k order ih =>
    by_cases hk : src = k
    · subst hk
      cases xs with
      | nil => exact ih []
      | cons x xs => simp [interleave, ih]
    · rw [interleave, List.find?_eq_none.2 (by simp [hk])]
      exact ih xs

/-- One request of a second block falls somewhere among those of a first, which keep their order. -/
theorem interleave_secondSource (order : List ReportSource) {src other : ReportSource} (hne : src ≠ other)
    (xs : List ReportRequest) (y : ReportRequest) :
    ∃ early late, interleave order (xs.map (fun x => (src, x)) ++ [(other, y)]) = early ++ y :: late ∧
      early ++ late = xs := by
  induction order generalizing xs with
  | nil => exact ⟨xs, [], by simp [interleave, Function.comp_def], List.append_nil xs⟩
  | cons k order ih =>
    by_cases hother : other = k
    · subst hother
      have hfind : (xs.map (fun x => (src, x)) ++ [(other, y)]).find? (fun r => r.1 == other) = some (other, y) := by
        rw [List.find?_append, List.find?_eq_none.2 (by simp [hne])]
        simp
      have herase : (xs.map (fun x => (src, x)) ++ [(other, y)]).eraseP (fun r => r.1 == other) =
          xs.map (fun x => (src, x)) := by
        rw [List.eraseP_append_right _ (by simp [hne])]
        simp
      refine ⟨[], xs, ?_, rfl⟩
      rw [interleave, hfind]
      dsimp only
      rw [herase, interleave_oneSource]
      rfl
    · by_cases hsrc : src = k
      · subst hsrc
        cases xs with
        | nil =>
          obtain ⟨early, late, heq, hcat⟩ := ih []
          refine ⟨early, late, ?_, hcat⟩
          rw [interleave, List.find?_eq_none.2 (by simp [hother])]
          exact heq
        | cons x xs =>
          obtain ⟨early, late, heq, hcat⟩ := ih xs
          exact ⟨x :: early, late, by simp [interleave, heq], by simp [hcat]⟩
      · obtain ⟨early, late, heq, hcat⟩ := ih xs
        refine ⟨early, late, ?_, hcat⟩
        have hnone : ∀ r ∈ xs.map (fun x => (src, x)) ++ [(other, y)], ¬(r.1 == k) = true := by
          simp only [List.mem_append, List.mem_map, List.mem_singleton, beq_iff_eq]
          rintro r (⟨x, -, rfl⟩ | rfl)
          · exact hsrc
          · exact hother
        rw [interleave, List.find?_eq_none.2 hnone]
        exact heq

/-! ## The line's return at the station table and the image (R10 to R12, R29) -/

/-- The line taken back, before the station table and the image are told (R82, R158). -/
def State.takeLine (s : State) : State :=
  { s with
    lreq := false
    engine := .empty .idle
    line := { s.line with rx := .turnedOn }
    sup := { s.sup with handover := .none, limitTimer := none } }

/-- The state in which the line has returned, before the reports asked for are placed (R10, R82, R158). -/
def State.lineBack (s : State) : State := s.takeLine.tableLineReturned.1

/-- The reports that the line's return asks for, in the order given (R11, R121, R158). -/
def State.lineBackRequests (s : State) (order : List ReportSource) : List ReportRequest :=
  interleave order (s.tableLineReturned.2 ++ [(.supervision, .supervision .other)])

theorem State.returnLine_eq (s : State) (order : List ReportSource) :
    s.returnLine order = (s.lineBackRequests order).foldl State.place s.lineBack := rfl

theorem State.lineBackRequests_eq (s : State) (order : List ReportSource) :
    ∃ early late : List ReportRequest, s.lineBackRequests order = early ++ .supervision .other :: late ∧
      early ++ late = s.onlineAddresses.map (fun a => .stationState a .online) := by
  have h := interleave_secondSource order (src := .stationTable) (other := .supervision) nofun
    (s.onlineAddresses.map (fun a => .stationState a .online)) (.supervision .other)
  rwa [List.map_map] at h

theorem StationEntry.lineReturned_eq (e : StationEntry) :
    e.lineReturned = { e with state := if e.state = .online then .suspect else e.state } := by
  unfold StationEntry.lineReturned
  split <;> rfl

theorem State.entry_lineBack (s : State) (a : Nat) : s.lineBack.entry a = (s.entry a).lineReturned :=
  State.entry_map (f := StationEntry.lineReturned) rfl rfl a

/-- An ONLINE station's address is one of the table's (R1). -/
theorem State.mem_onlineAddresses (s : State) (a : Nat) : a ∈ s.onlineAddresses ↔ (s.entry a).state = .online := by
  have hin : (s.entry a).state = .online → a ∈ addresses := by
    intro h
    by_contra hout
    have hbad : ¬(1 ≤ a ∧ a ≤ 63) := by
      simp only [addresses, List.mem_range'_1] at hout
      omega
    rw [s.entry_of_invalid (by simpa [validAddress] using hbad)] at h
    cases h
  simp only [State.onlineAddresses, List.mem_filter, beq_iff_eq]
  exact ⟨fun h => h.2, fun h => ⟨hin h, h⟩⟩

theorem State.areas_lineBack (s : State) (a : Nat) :
    s.lineBack.areas a = (s.areas a).map (fun ar =>
      if (s.entry a).state = .online ∧ ar.input.state = .fresh then { ar with input := { ar.input with state := .stale } }
      else ar) := by
  have hfold : s.lineBack.areas a =
      if a ∈ s.onlineAddresses then (s.areas a).map Areas.markStale else s.areas a :=
    (State.areas_congr (s := s.onlineAddresses.foldl State.markStale s.takeLine) rfl a).trans
      (State.areas_foldMarkStale s.onlineAddresses s.takeLine a)
  rw [hfold]
  by_cases hon : (s.entry a).state = .online
  · rw [if_pos ((s.mem_onlineAddresses a).2 hon)]
    refine congrArg (fun f => (s.areas a).map f) (funext fun ar => ?_)
    by_cases hf : ar.input.state = .fresh <;> simp [Areas.markStale, hon, hf]
  · rw [if_neg (fun h => hon ((s.mem_onlineAddresses a).1 h))]
    simp [hon]

/-! ## LREQ and the handover limit -/

/-- A request stands, and the arbiter chooses, where LREQ is asserted with the line the part's own (R155). -/
theorem State.lreqRises_eq {s : State} (h : s.lreq = false) (hn : s.sup.handover = .none) :
    s.lreqRises = .next (State.arbiterChoice { s with lreq := true, sup := { s.sup with handover := .requested } }) := by
  unfold State.lreqRises guarded State.assertLreq
  rw [h, hn]
  rfl

/-- LREQ's negation, where no report is due (R155, R158). -/
theorem State.exec_lreqNegated {s : State} (hn : ¬s.standsReport) (h : s.lreq = true) (order : IdleOrder) :
    exec (.lreqNegated order) s = s.releaseLreq order := by
  change execLreqNegated order s = _
  unfold execLreqNegated State.lreqFalls
  rw [State.takeDueReport_of_not_stands hn, if_pos h]

/-- Where the line was lent, it returns, and the choice follows, with the event that falls before it (R158). -/
theorem State.exec_lreqNegated_of_granted {s : State} (hn : ¬s.standsReport) (h : s.lreq = true)
    (hg : s.sup.handover = .granted) (order : IdleOrder) :
    exec (.lreqNegated order) s = thenChoose ((s.returnLine order.reports).beforeChoice order.before) := by
  rw [State.exec_lreqNegated hn h, State.releaseLreq, State.negateLreq, hg]
  rfl

/-- The state in which a request for the line was withdrawn (R155). -/
def State.withdrawRequest (s : State) : State := { s with lreq := false, sup := { s.sup with handover := .none } }

/-- Where a request stood, it is withdrawn, and no choice follows of itself (R155). -/
theorem State.exec_lreqNegated_of_requested {s : State} (hn : ¬s.standsReport) (h : s.lreq = true)
    (hr : s.sup.handover = .requested) (order : IdleOrder) :
    exec (.lreqNegated order) s = s.withdrawRequest.beforeChoice order.before := by
  rw [State.exec_lreqNegated hn h, State.releaseLreq, State.negateLreq, hr]
  rfl

/-- Settles O57: the line's return is `State.lineBack`, the placing of its requests and the choice that follows. -/
theorem lreqAsksForTheLineAndReturnsIt : Obligations.LreqAsksForTheLineAndReturnsIt := by
  intro s order hn
  refine ⟨fun hl hh => ?_, fun hl hh hb => ?_, fun hl hh hb => ?_, fun hl hh => ?_, fun hlimit hh => ?_⟩
  · change s.takeDueReport.lreqRises = _
    rw [State.takeDueReport_of_not_stands hn]
    exact State.lreqRises_eq hl hh
  · rw [State.exec_lreqNegated_of_requested hn hl hh, hb]
    rfl
  · rw [State.exec_lreqNegated_of_requested hn hl hh, hb]
    change s.withdrawRequest.takeDueReport.lreqRises = _
    rw [State.takeDueReport_of_not_stands (s := s.withdrawRequest) hn, State.lreqRises_eq rfl rfl]
    simp only [State.withdrawRequest, ← hl, ← hh]
  · have hexec := (State.exec_lreqNegated_of_granted hn hl hh order).trans
      (by rw [State.returnLine_eq])
    refine ⟨s.lineBack, s.lineBackRequests order.reports, ?_, fun v hb h1 h2 => ?_, rfl,
      s.lineBackRequests_eq order.reports, fun a => ⟨?_, s.areas_lineBack a⟩⟩
    · rw [hexec]
      exact State.choiceFollows_thenChoose _ _
    · rw [hexec, hb, State.eq_takeDueReport h1 h2]
      change State.chosenAt _ (thenChoose (State.lreqRises (State.takeDueReport _)))
      rw [State.lreqRises_eq]
      · exact State.chosenAt_choose _
      · exact State.placeAll_lreq s.lineBack _
      · exact congrArg Supervision.handover (State.placeAll_sup s.lineBack _)
    · rw [s.entry_lineBack, StationEntry.lineReturned_eq]
  · change s.takeDueReport.limitExpiry = _
    rw [State.takeDueReport_of_not_stands hn, State.limitExpiry, hlimit, hh]
    refine congrArg Host.Outcome.next (State.place_of_none (State.dueReport_none_of_not ?_) _)
    exact hn

end Sys2Proof.Machine
end

section
/-! The law of the engine, the receiver and the handover (section 4.2, R44, R61, R155 to R158) over every effect a command can
have. -/

namespace Sys2Proof.Machine

/-! ## What the law says of the engine's states -/

/-- The receiver is on in every state of the engine but SENDING and RELEASED (R44). -/
theorem LineLaw.rx_on {s : State} (h : LineLaw s) (h1 : s.engine.state ≠ .sending) (h2 : s.engine.state ≠ .released) :
    s.line.rx ≠ .off := by
  obtain ⟨-, hoff, -⟩ := h
  exact fun hrx => (hoff.1 hrx).elim h1 h2

/-- An attempt in progress has a record, and no outcome before it but those that allow a retry (R61, R69). -/
theorem LineLaw.record_of_attempt {s : State} (h : LineLaw s)
    (hs : s.engine.state = .sending ∨ s.engine.state = .awaiting ∨ s.engine.state = .receiving) :
    ∃ r, s.engine.record = some r ∧ r.lastOutcome.all AttemptOutcome.allowsRetry = true := by
  obtain ⟨hengine, -⟩ := h
  unfold EngineLaw at hengine
  rcases hs with hs | hs | hs <;> rw [hs] at hengine <;> exact hengine.1

/-- A state that is a guard is neither SENDING nor RELEASED. -/
theorem EngineState.ne_of_isGuard {st : EngineState} (h : st.isGuard = true) : st ≠ .sending ∧ st ≠ .released := by
  constructor <;> rintro rfl <;> cases h

/-- The table of engine states reads only the outcome of the record. -/
theorem EngineLaw.mapRecord {g : Engine} (h : EngineLaw g) (F : ExchangeRecord → ExchangeRecord)
    (hF : ∀ r, (F r).lastOutcome = r.lastOutcome) : EngineLaw { g with record := g.record.map F } := by
  obtain ⟨st, rec, reply, gap, quiet, jam⟩ := g
  unfold EngineLaw at h ⊢
  have attempt : (∃ r, rec = some r ∧ r.lastOutcome.all AttemptOutcome.allowsRetry = true) →
      ∃ r, rec.map F = some r ∧ r.lastOutcome.all AttemptOutcome.allowsRetry = true := by
    rintro ⟨r, rfl, hr⟩
    exact ⟨F r, rfl, by rw [hF]; exact hr⟩
  cases st with
  | idle | released =>
    simp only [Engine.empty, Engine.mk.injEq, true_and] at h ⊢
    obtain ⟨rfl, h⟩ := h
    exact ⟨rfl, h⟩
  | sending | awaiting | receiving => exact ⟨attempt h.1, h.2⟩
  | guard k =>
    obtain ⟨h1, h2, h3⟩ := h
    exact ⟨h1, h2, fun hn => h3 (by simpa using hn)⟩

/-! ## The law over changes of the engine -/

/-- The engine changed in its own table, its state kept. -/
theorem LineLaw.sameState {s t : State} (h : LineLaw s) (he : EngineLaw t.engine) (h1 : t.engine.state = s.engine.state)
    (h2 : t.line.rx = s.line.rx) (h3 : t.sup.handover = s.sup.handover) (h4 : t.lreq = s.lreq) : LineLaw t := by
  obtain ⟨-, hrest⟩ := h
  refine ⟨he, ?_⟩
  rw [h1, h2, h3, h4]
  exact hrest

/-- The record changed in fields that the law does not read. -/
theorem LineLaw.mapRecord {s t : State} (h : LineLaw s) (F : ExchangeRecord → ExchangeRecord)
    (hF : ∀ r, (F r).lastOutcome = r.lastOutcome) (h1 : t.engine = { s.engine with record := s.engine.record.map F })
    (h2 : t.line.rx = s.line.rx) (h3 : t.sup.handover = s.sup.handover) (h4 : t.lreq = s.lreq) : LineLaw t := by
  refine h.sameState ?_ (by rw [h1]) h2 h3 h4
  obtain ⟨hengine, -⟩ := h
  rw [h1]
  exact hengine.mapRecord F hF

/-- The engine in a state other than SENDING and RELEASED, the receiver on before and after. -/
theorem LineLaw.listening {s t : State} (h : LineLaw s) (hs : s.engine.state ≠ .released) (he : EngineLaw t.engine)
    (hne : t.engine.state ≠ .sending ∧ t.engine.state ≠ .released) (h2 : t.line.rx ≠ .off)
    (h3 : t.sup.handover = s.sup.handover) (h4 : t.lreq = s.lreq) : LineLaw t := by
  obtain ⟨-, -, hlent, hlreq⟩ := h
  obtain ⟨hsend, hrel⟩ := hne
  refine ⟨he, ?_, ?_, ?_⟩
  · simp [h2, hsend, hrel]
  · rw [h3, ← hlent]
    simp [hs, hrel]
  · rw [h3, h4]
    exact hlreq

/-- The engine IDLE again, the line not lent (R63, R71). -/
theorem LineLaw.becomesIdle {s t : State} (h : LineLaw s) (hs : s.engine.state.isGuard = true)
    (h1 : t.engine = .empty .idle) (h2 : t.line.rx = s.line.rx) (h3 : t.sup.handover = s.sup.handover)
    (h4 : t.lreq = s.lreq) : LineLaw t := by
  obtain ⟨hsend, hrel⟩ := EngineState.ne_of_isGuard hs
  refine h.listening hrel ?_ ?_ (h2 ▸ h.rx_on hsend hrel) h3 h4 <;> rw [h1]
  · rfl
  · exact ⟨nofun, nofun⟩

/-! ## The events of the line -/

/-- A start bit moves the engine from AWAITING to RECEIVING, or stops a timer (R65, R66, R70). -/
theorem EngineLaw.startDetected {g : Engine} (h : EngineLaw g) : EngineLaw g.startDetected := by
  obtain ⟨st, rec, reply, gap, quiet, jam⟩ := g
  cases st with
  | awaiting =>
    obtain ⟨⟨r, rfl, hall⟩, -, -, hquiet, hjam⟩ := h
    exact ⟨⟨{ r with reply := [] }, rfl, hall⟩, rfl, hquiet, hjam⟩
  | idle | sending | receiving | guard | released => exact h

/-- A start bit leaves the engine's state, or moves it from AWAITING to RECEIVING (R65). -/
theorem Engine.startDetected_state (g : Engine) :
    g.startDetected.state = if g.state = .awaiting then .receiving else g.state := by
  obtain ⟨st, rec, reply, gap, quiet, jam⟩ := g
  cases st <;> rfl

theorem LineLaw.startBit {s : State} (h : LineLaw s) (hrx : s.line.rx ≠ .off) (b : BitSamples) :
    LineLaw (s.startBit b) := by
  obtain ⟨hengine, hoff, -⟩ := id h
  have hne : s.engine.state ≠ .sending ∧ s.engine.state ≠ .released :=
    ⟨fun he => hrx (hoff.2 (Or.inl he)), fun he => hrx (hoff.2 (Or.inr he))⟩
  unfold State.startBit
  split
  · exact h.listening hne.2 hengine hne nofun rfl rfl
  · refine h.listening hne.2 hengine.startDetected ?_ nofun rfl rfl
    dsimp only [State.setLineRx]
    rw [Engine.startDetected_state]
    split
    · exact ⟨nofun, nofun⟩
    · exact hne

/-- The receiver on before and after. -/
theorem LineLaw.setLineRx {s : State} {rx : LineRx} (h : LineLaw s) (h1 : s.line.rx ≠ .off) (h2 : rx ≠ .off) :
    LineLaw (s.setLineRx rx) := by
  obtain ⟨hengine, hoff, hrest⟩ := h
  exact ⟨hengine, by simpa [h1, h2] using hoff, hrest⟩

/-- A character taken into a reply classifies the attempt, or leaves the engine RECEIVING (R66). -/
theorem LineLaw.receiveChar {s : State} (h : LineLaw s) (hs : s.engine.state = .receiving) (c : RxChar) :
    LineLaw (s.receiveChar c) := by
  obtain ⟨r, hr, hall⟩ := h.record_of_attempt (Or.inr (Or.inr hs))
  have hrx : s.line.rx ≠ .off := h.rx_on (by simp [hs]) (by simp [hs])
  obtain ⟨hengine, -⟩ := id h
  have appended (gap : Option Nat) : LineLaw (s.withReplyChar r c gap) := by
    refine h.sameState ?_ rfl rfl rfl rfl
    unfold EngineLaw at hengine ⊢
    simp only [State.withReplyChar, hs] at hengine ⊢
    obtain ⟨-, hrest⟩ := hengine
    exact ⟨⟨_, rfl, hall⟩, hrest⟩
  rcases State.receiveChar_eq hr c with he | ⟨n, o, he, -⟩ <;> rw [he]
  · exact appended _
  · exact LineLaw.classify (s := { s.withReplyChar r c none with freeDraws := n }) (appended none) hrx o nofun

/-- A finished character keeps the law in every state of the engine (R63, R65, R66, R70). -/
theorem LineLaw.deliverChar {s : State} (h : LineLaw s) (hrx : s.line.rx ≠ .off) (c : RxChar) :
    LineLaw (s.deliverChar c) := by
  have counted (f : LineStats → LineStats) : LineLaw (s.countLine f) := h
  unfold State.deliverChar
  dsimp only
  split
  · exact h
  · rename_i hs
    obtain ⟨r, hr, -⟩ := (counted (fun st => st.countClass c)).record_of_attempt (Or.inr (Or.inl hs))
    exact (counted _).classify hrx _ (by rw [hr]; nofun)
  · rename_i hs
    exact (counted _).receiveChar hs c
  · rename_i k hs
    have hs : s.engine.state = .guard k := hs
    obtain ⟨hengine, -⟩ := id h
    refine h.sameState ?_ rfl rfl rfl rfl
    unfold EngineLaw at hengine ⊢
    dsimp only [State.countLine]
    rw [hs] at hengine ⊢
    exact hengine
  · exact h
  · exact h

/-- The end of a frame: AWAITING with the reply timer running, or the broadcast guard (R64, R70). -/
theorem LineLaw.frameEnds {s : State} (h : LineLaw s) {r : ExchangeRecord} (hs : s.engine.state = .sending)
    (hr : s.engine.record = some r) : LineLaw (s.frameEnds r) := by
  obtain ⟨hengine, -⟩ := id h
  unfold EngineLaw at hengine
  rw [hs] at hengine
  obtain ⟨hrec, -, hgap, hquiet, hjam⟩ := hengine
  have hrel : s.engine.state ≠ .released := by simp [hs]
  unfold State.frameEnds
  dsimp only
  split
  · exact h.listening hrel ⟨rfl, rfl, fun hn => by cases hr.symm.trans hn⟩ ⟨nofun, nofun⟩ nofun rfl rfl
  · exact h.listening hrel ⟨hrec, rfl, hgap, hquiet, hjam⟩ ⟨nofun, nofun⟩ nofun rfl rfl

/-! ## The events of a guard -/

/-- A guard's end: a further attempt after one that allows it, or IDLE (R69, R71, R73). -/
theorem LineLaw.guardEnds {s : State} (h : LineLaw s) (hs : s.engine.state.isGuard = true) (order : List ReportSource) :
    LineLaw (s.guardEnds order) := by
  unfold State.guardEnds
  split
  · exact h.becomesIdle hs rfl rfl rfl rfl
  · rename_i r hr
    split
    · rename_i hretry
      obtain ⟨-, hmay⟩ := hretry
      simp only [ExchangeRecord.mayRetry, Bool.and_eq_true] at hmay
      obtain ⟨⟨⟨hallow, -⟩, -⟩, -⟩ := hmay
      refine h.sending (EngineState.ne_of_isGuard hs).2 { r with attempt := r.attempt + 1 } ?_ rfl rfl rfl rfl
      cases ho : r.lastOutcome with
      | none => rfl
      | some o => simpa [ho] using hallow
    · exact h.becomesIdle hs rfl (by simp) (by simp [State.endExchange]) (by simp [State.endExchange])

/-- The jam limit with no exchange in flight: the jam is counted, and the jam timer stopped (R72, R73). -/
theorem State.lineJams_of_none {s : State} (hr : s.engine.record = none) (order : List ReportSource) :
    s.lineJams order = { s.jamCounted with engine := { s.engine with jamTimer := none } } := by
  unfold State.lineJams
  dsimp only [State.countLine_engine]
  rw [hr]
  rfl

/-- The jam limit: the engine stays in its guard, without a record and without a jam timer (R72, R73). -/
theorem LineLaw.lineJams {s : State} (h : LineLaw s) (hs : s.engine.state.isGuard = true) (order : List ReportSource) :
    LineLaw (s.lineJams order) := by
  have emptied : EngineLaw { s.engine with record := none, jamTimer := none } := by
    obtain ⟨hengine, -⟩ := h
    unfold EngineLaw at hengine ⊢
    cases hst : s.engine.state with
    | guard k =>
      rw [hst] at hengine
      obtain ⟨hreply, hgap, -⟩ := hengine
      exact ⟨hreply, hgap, fun _ => rfl⟩
    | idle | sending | awaiting | receiving | released => rw [hst] at hs; cases hs
  cases hr : s.engine.record with
  | none =>
    rw [State.lineJams_of_none hr]
    rw [← hr] at emptied
    exact h.sameState emptied rfl rfl rfl rfl
  | some r =>
    rw [State.lineJams_of_record hr]
    exact h.sameState emptied rfl (by simp [State.jamCounted]) (by simp [State.jamCounted]) (by simp [State.jamCounted])

/-! ## Every effect -/

/-- Every effect of a command keeps the law of the line. -/
theorem lineLaw_execClosed : ExecClosed LineLaw where
  choice := fun _ h => h.choice
  host := fun _ _ h => h
  lineSetup := fun _ _ _ _ h _ _ _ => h
  clearLine := fun _ h => h
  draw := fun _ _ h => h
  define := fun s f p h _ => by
    rw [State.define_frame]
    exact h.mapRecord _ (fun r => by split <;> rfl) rfl rfl rfl rfl
  remove := fun s a h _ _ => by
    rw [State.remove_frame]
    exact h.mapRecord _ (fun r => by split <;> rfl) rfl rfl rfl rfl
  clearCounters := fun s a h _ => h.congr (by simp) (by simp) (by simp) (by simp)
  installList := fun _ _ h _ _ _ => h
  pendList := fun _ _ h _ _ => h
  beginCycling := fun s mode f h _ _ => by
    unfold State.beginCycling
    rw [State.abandonCycle_frame]
    exact h
  stopAfterSlot := fun s h => by
    unfold State.stopAfterSlot
    split
    · exact h
    · exact h
    · split <;> exact h
  stopAfterCycle := fun s h => by
    unfold State.stopAfterCycle
    split
    · exact h
    · exact h
    · split <;> exact h
  applyItems := fun s items h _ => by
    rw [State.applyItems_frame]
    exact h
  placeTicket := fun _ _ _ _ h _ => h
  cancelTicket := fun s id t h _ _ => by
    rw [State.completeTicket_frame]
    exact h
  credit := fun _ _ h _ => h
  takeReport := fun _ _ _ h _ _ => h
  holdSetup := fun _ _ _ _ h => h
  restartHoldTimer := fun _ h => h
  endHold := fun _ h _ => h
  enterHold := fun s h => h.mapRecord (fun r => if r.func.heldForbidden then { r with noRetry := true } else r)
    (fun r => by split <;> rfl) rfl rfl rfl rfl
  limitExpires := fun _ h => h
  lreqAsserted := fun s h hl => by
    obtain ⟨hengine, hoff, hlent, hlreq⟩ := h
    have hnone : s.sup.handover = .none := by simpa [hl] using hlreq
    exact ⟨hengine, hoff, by simpa [hnone] using hlent, by simp [hnone]⟩
  lreqNegated := fun s h hl hg => by
    obtain ⟨hengine, hoff, hlent, -⟩ := h
    exact ⟨hengine, hoff, by simpa [hg] using hlent, by simp⟩
  returnLine := fun s order h _ _ => by
    unfold State.returnLine
    refine LineLaw.idle (by rw [State.placeAll_engine]; rfl) ?_ ?_ ?_ <;>
      simp [State.tableLineReturned]
  initialised := fun s strap _ => State.followLreq_lineLaw rfl nofun rfl
  warm := fun s h => State.followLreq_lineLaw rfl nofun rfl
  startBit := fun _ b h hrx => h.startBit hrx b
  char := fun s rx c h h1 h2 => (h.setLineRx h1 h2).deliverChar h2 c
  frameEnds := fun _ _ h hs hr => h.frameEnds hs hr
  noReply := fun s h hs => by
    obtain ⟨r, hr, -⟩ := h.record_of_attempt (Or.inr (Or.inl hs))
    exact h.classify (h.rx_on (by simp [hs]) (by simp [hs])) _ (by simp [hr])
  gap := fun s h hs => by
    obtain ⟨r, hr, -⟩ := h.record_of_attempt (Or.inr (Or.inr hs))
    exact h.classify (h.rx_on (by simp [hs]) (by simp [hs])) _ (by simp [hr])
  quiet := fun _ order h hs => h.guardEnds hs order
  jam := fun _ order h hs _ => h.lineJams hs order
  period := fun s h _ => by
    unfold State.periodExpires
    split
    · exact h
    · exact h
    · dsimp only
      split
      · exact LineLaw.choice (s := { s with sched := s.sched.nextCycle }) h
      · exact h

end Sys2Proof.Machine
end

section
/-! The law of the process image (R23 to R33) over every effect a command can have, and over every step: O24. -/

namespace Sys2Proof.Machine

/-! ## The whole image, with no exchange in flight -/

/-- An image idle before, each address changed lawfully and no profile changed, is idle after. -/
theorem ImageIdle.mapEntries {s t : State} (h : ImageIdle s) (h1 : ∀ a, (t.entry a).profile = (s.entry a).profile)
    (h2 : ∀ a, AreasLaw (s.entry a) (s.areas a) False → AreasLaw (t.entry a) (t.areas a) False) : ImageIdle t := by
  obtain ⟨hareas, hstore⟩ := h
  exact ⟨fun a => h2 a (hareas a), by rw [State.allocated_congr h1]; exact hstore⟩

/-- The image right after a reset holds nothing (R39, R40). -/
theorem ImageIdle.ofReset {s : State} (h1 : s.stations = State.reset.stations) (h2 : s.image = State.reset.image) :
    ImageIdle s := by
  have hent : ∀ a, s.entry a = .unused := State.entry_of_reset h1
  refine ⟨fun a => ?_, ?_⟩
  · rw [hent, State.areas_of_reset h2]
    exact AreasLaw.unused _
  · rw [State.allocated_of_unused hent]
    exact Nat.zero_le _

/-- A WARM restart keeps every profile (R22). -/
@[simp] theorem StationEntry.warm_profile (e : StationEntry) : e.warm.profile = e.profile := by
  rw [StationEntry.warm_eq]

/-- The line's return keeps every profile (R10). -/
@[simp] theorem StationEntry.lineReturned_profile (e : StationEntry) : e.lineReturned.profile = e.profile := by
  rw [StationEntry.lineReturned_eq]

/-- The image after a WARM restart (R22, R41). -/
theorem ImageIdle.warm {s t : State} (h : ImageLaw s) (h1 : t.stations = s.stations.map StationEntry.warm)
    (h2 : t.image = s.image.map (fun ar => ar.map Areas.warm)) : ImageIdle t := by
  obtain ⟨hareas, hstore, -⟩ := h
  have entry (a) : t.entry a = (s.entry a).warm := State.entry_map (f := StationEntry.warm) rfl h1 a
  refine ⟨fun a => ?_, ?_⟩
  · rw [entry, State.areas_map (f := fun ar => ar.map Areas.warm) rfl h2]
    exact (hareas a).warm False
  · rw [State.allocated_congr (s := s) (fun a => by rw [entry, StationEntry.warm_profile])]
    exact hstore

/-- The line's return at one address: FRESH inputs become STALE where the station leaves ONLINE (R10, R12, R29). -/
theorem AreasLaw.lineReturned {e : StationEntry} {ar : Option Areas} {p : Prop} (h : AreasLaw e ar p) :
    AreasLaw e.lineReturned (ar.map (fun ar =>
      if e.state = .online ∧ ar.input.state = .fresh then { ar with input := { ar.input with state := .stale } } else ar))
      p := by
  by_cases hon : e.state = .online
  · have hstale := h.markStale e.lineReturned_profile
    convert hstale using 3 with ar
    by_cases hf : ar.input.state = .fresh <;> simp [Areas.markStale, hon, hf]
  · simpa [hon] using h.entry e.lineReturned_profile (fun h => absurd h hon)

/-- The line's return (R10, R12, R29). -/
theorem ImageIdle.lineBack {s : State} (h : ImageIdle s) : ImageIdle s.lineBack := by
  refine h.mapEntries (fun a => by rw [State.entry_lineBack, StationEntry.lineReturned_profile]) (fun a ha => ?_)
  rw [State.entry_lineBack, State.areas_lineBack]
  exact ha.lineReturned

/-! ## The record in flight -/

/-- An outcome that allows a retry is not GOOD. -/
theorem ExchangeRecord.ne_good_of_allowsRetry {r : ExchangeRecord}
    (h : r.lastOutcome.all AttemptOutcome.allowsRetry = true) : r.lastOutcome ≠ some .good := by
  intro hg
  rw [hg] at h
  cases h

/-- A reply judged GOOD has as many data as its profile's in_len (R27, R67, test 6). -/
theorem ExchangeRecord.replyLaw_of_judge {r : ExchangeRecord} {s : State} {absent : Bool}
    (hc : r.replyComplete = true)
    (hj : r.judge (lengthSuits r.func (s.entry r.station).profile absent (r.replyByte 2).toNat) = .good) :
    (r.func = .exchange ∨ r.func = .sample) → ∀ p, (s.entry r.station).profile = some p → r.replyData.length = p.inLen := by
  intro hf p hp
  have hsuits := ExchangeRecord.judge_good hj
  rw [hp] at hsuits
  rw [ExchangeRecord.replyData_length hc]
  rcases hf with hf | hf <;> simpa [lengthSuits, hf] using hsuits

/-- A start bit keeps the law: it clears a reply only before its outcome is known (R45, R65). -/
theorem ImageLaw.startBit {s : State} (hl : LineLaw s) (h : ImageLaw s) (b : BitSamples) : ImageLaw (s.startBit b) := by
  unfold State.startBit
  split
  · exact h
  · by_cases hs : s.engine.state = .awaiting
    · obtain ⟨r, hr, hall⟩ := hl.record_of_attempt (Or.inr (Or.inl hs))
      refine h.record hr (q := { r with reply := [] }) ?_ ⟨rfl, rfl, rfl⟩ rfl rfl
        (ExchangeRecord.replyLaw_of_ne (ExchangeRecord.ne_good_of_allowsRetry (r := r) hall))
      simp [State.setLineRx, Engine.startDetected, hs, hr]
    · refine h.same rfl rfl ?_
      dsimp only [State.setLineRx]
      unfold Engine.startDetected
      split <;> first | rfl | exact absurd ‹_› hs

/-- A character taken into a reply keeps the law: one that completes a GOOD reply makes it in_len data long (R66, R67). -/
theorem ImageLaw.receiveChar {s : State} (hl : LineLaw s) (h : ImageLaw s) (hs : s.engine.state = .receiving) (c : RxChar) :
    ImageLaw (s.receiveChar c) := by
  obtain ⟨r, hr, hall⟩ := hl.record_of_attempt (Or.inr (Or.inr hs))
  rcases State.receiveChar_eq hr c with he | ⟨n, o, he, hgood⟩ <;> rw [he]
  · exact h.record hr (q := r.append c) rfl ⟨rfl, rfl, rfl⟩ rfl rfl
      (ExchangeRecord.replyLaw_of_ne (ExchangeRecord.ne_good_of_allowsRetry (r := r) hall))
  · refine h.record hr (q := (r.append c).classified o) rfl ⟨rfl, rfl, rfl⟩ rfl rfl ?_
    intro _ ho
    obtain ⟨hc, hj⟩ := hgood (by simpa [ExchangeRecord.classified] using ho)
    exact ExchangeRecord.replyLaw_of_judge hc hj

/-- A finished character keeps the law in every state of the engine (R63, R65, R66, R70). -/
theorem ImageLaw.deliverChar {s : State} (hl : LineLaw s) (h : ImageLaw s) (c : RxChar) : ImageLaw (s.deliverChar c) := by
  unfold State.deliverChar
  dsimp only
  split
  · exact h
  · exact ImageLaw.classify (s := s.countLine (fun st => st.countClass c)) h _ nofun
  · rename_i hs
    exact ImageLaw.receiveChar (s := s.countLine (fun st => st.countClass c)) hl h hs c
  · exact h.same rfl rfl rfl
  · exact h
  · exact h

/-- A guard's end keeps the law: a further attempt carries no GOOD outcome, and an end leaves the image idle (R32, R33, R69,
R71). -/
theorem ImageLaw.guardEnds {s : State} (hrec : RecordLaw s) (hst : StationLaw s) (h : ImageLaw s)
    (order : List ReportSource) : ImageLaw (s.guardEnds order) := by
  unfold State.guardEnds
  split
  · rename_i hr
    exact ImageLaw.ofIdle (h.idle hr) rfl
  · rename_i r hr
    split
    · rename_i hretry
      obtain ⟨-, hmay⟩ := hretry
      refine h.record hr (q := { r with attempt := r.attempt + 1 }) rfl ⟨rfl, rfl, rfl⟩ rfl rfl
        (ExchangeRecord.replyLaw_of_ne fun (hg : r.lastOutcome = some .good) => ?_)
      simp [ExchangeRecord.mayRetry, hg, AttemptOutcome.allowsRetry] at hmay
    · obtain ⟨-, hrecords⟩ := hrec
      obtain ⟨hshape, -⟩ := hrecords r hr
      obtain ⟨-, hdata⟩ := hst
      refine ImageLaw.ofIdle (ImageIdle.congr (s := (s.concludeExchange r (r.lastOutcome.getD .broken)).1) ?_
        (by simp [State.endExchange]) (by simp [State.endExchange])) rfl
      refine h.concludeExchange ⟨r, hr, rfl, rfl, rfl⟩ hshape (hdata r hr) (fun hg hd hf => ?_)
      obtain ⟨-, -, hreply⟩ := h
      refine hreply r hr hd ?_ hf
      cases ho : r.lastOutcome with
      | none => rw [ho] at hg; cases hg
      | some o => rw [ho] at hg; exact congrArg some hg

/-- The jam limit keeps the law: an exchange that it ends leaves the image idle (R33, R72). -/
theorem ImageLaw.lineJams {s : State} (hrec : RecordLaw s) (hst : StationLaw s) (h : ImageLaw s)
    (order : List ReportSource) : ImageLaw (s.lineJams order) := by
  refine ImageLaw.ofIdle ?_ (State.lineJams_record s order)
  cases hr : s.engine.record with
  | none =>
    rw [State.lineJams_of_none hr]
    exact h.idle hr
  | some r =>
    obtain ⟨-, hrecords⟩ := hrec
    obtain ⟨hshape, -⟩ := hrecords r hr
    obtain ⟨-, hdata⟩ := hst
    rw [State.lineJams_of_record hr, ExchangeRecord.jammed_eq]
    refine ImageIdle.congr (s := (s.jamCounted.concludeExchange { r with failedAttempts := r.jammed.failedAttempts } .broken).1)
      ?_ (State.placeAll_stations _ _) (State.placeAll_image _ _)
    exact ImageLaw.concludeExchange (s := s.jamCounted) h ⟨r, hr, rfl, rfl, rfl⟩ hshape (hdata r hr) nofun

/-! ## Every effect -/

/-- Cleared counters keep the law (R20). -/
theorem ImageLaw.clearCounters {s : State} (h : ImageLaw s) (a : Nat) : ImageLaw (s.clearCounters a) := by
  have entry : ∀ b, ((s.clearCounters a).entry b).profile = (s.entry b).profile ∧
      ((s.clearCounters a).entry b).state = (s.entry b).state := fun b => by
    unfold State.clearCounters
    rw [State.entry_setEntry]
    split
    · rename_i hb
      rw [hb.1]
      exact ⟨rfl, rfl⟩
    · exact ⟨rfl, rfl⟩
  have heng : (s.clearCounters a).engine = s.engine := State.clearCounters_engine s a
  obtain ⟨hareas, hstore, hreply⟩ := h
  refine ⟨fun b => ?_, by rw [State.allocated_congr (fun b => (entry b).1)]; exact hstore, fun r hr hd hg hf p hp => ?_⟩
  · obtain ⟨hprofile, hstate⟩ := entry b
    rw [State.areas_congr (State.clearCounters_image s a)]
    unfold State.exchangeInFlight
    rw [heng]
    exact (hareas b).entry hprofile (fun hon => hstate.trans hon)
  · rw [heng] at hr
    exact hreply r hr hd hg hf p ((entry _).1 ▸ hp)

/-- An IMAGE_WRITE whose items all pass keeps the law (R34, R35). -/
theorem ImageLaw.applyItems {s : State} (h : ImageLaw s) {items : List WriteItem}
    (hf : items.findSome? s.itemFault = none) : ImageLaw (s.applyItems items) := by
  have hst : (s.applyItems items).stations = s.stations := by rw [State.applyItems_frame]
  have heng : (s.applyItems items).engine = s.engine := by rw [State.applyItems_frame]
  obtain ⟨hareas, hstore, hreply⟩ := h
  refine ⟨?_, ?_, fun r hr hd hg hf p hp => ?_⟩
  · unfold State.exchangeInFlight
    rw [heng]
    exact State.applyItems_areasLaw items hf s.exchangeInFlight hareas
  · rw [State.allocated_congr (s := s) (fun a => by rw [State.entry_congr hst])]
    exact hstore
  · rw [heng] at hr
    rw [State.entry_congr hst] at hp
    exact hreply r hr hd hg hf p hp

/-- What a define or remove of a station leaves allocated by the others is within the store (R15, check 4; R23). -/
theorem ImageLaw.allocatedExcept_le {s : State} (h : ImageLaw s) {a : Nat} (ha : validAddress a = true) :
    s.allocatedExcept a ≤ Config.imageStoreSize := by
  obtain ⟨-, hstore, -⟩ := h
  rw [State.allocated_eq s ha] at hstore
  omega

/-- The law of the image with the laws it leans on: those of the line, of the record and of the station table. -/
def ImageContext (s : State) : Prop := LineLaw s ∧ (RecordLaw s ∧ StationLaw s) ∧ ImageLaw s

/-- Every effect of a command keeps the law of the image, the laws it leans on being kept beside it. -/
theorem imageContext_execClosed : ExecClosed ImageContext where
  choice := fun s ⟨hl, hs, hi⟩ => ⟨hl.choice, stationLaw_execClosed.choice s hs, (ImageLaw.choice ⟨hl, hi⟩).2⟩
  host := fun _ _ h => h
  lineSetup := fun s a b c ⟨hl, hs, hi⟩ h1 h2 h3 => ⟨hl, stationLaw_execClosed.lineSetup s a b c hs h1 h2 h3, hi⟩
  clearLine := fun _ h => h
  draw := fun _ _ h => h
  define := fun s f p ⟨hl, hs, hi⟩ hc => by
    obtain ⟨hv, -, hin, hout, hroom⟩ := State.checkDefine_ok hc
    refine ⟨lineLaw_execClosed.define s f p hl hc, stationLaw_execClosed.define s f p hs hc,
      hi.redefine f.address (.defined p) (some p.freshAreas) hv ?_ ?_ ?_ (AreasLaw.defined p False) ?_⟩
    · rw [State.define_frame]
    · rw [State.define_frame]
    · rw [State.define_frame]
    · rw [← hin, ← hout] at hroom
      exact hroom
  remove := fun s a ⟨hl, hs, hi⟩ hv hd => by
    refine ⟨lineLaw_execClosed.remove s a hl hv hd, stationLaw_execClosed.remove s a hs hv hd,
      hi.redefine a .unused none hv ?_ ?_ ?_ (AreasLaw.unused False) (hi.allocatedExcept_le hv)⟩ <;>
      rw [State.remove_frame]
  clearCounters := fun s a ⟨hl, hs, hi⟩ hv =>
    ⟨lineLaw_execClosed.clearCounters s a hl hv, stationLaw_execClosed.clearCounters s a hs hv, hi.clearCounters a⟩
  installList := fun _ _ h _ _ _ => h
  pendList := fun _ _ h _ _ => h
  beginCycling := fun s mode f h _ _ => by
    unfold State.beginCycling
    rw [State.abandonCycle_frame]
    exact h
  stopAfterSlot := fun s h => by
    unfold State.stopAfterSlot
    split
    · exact h
    · exact h
    · split <;> exact h
  stopAfterCycle := fun s h => by
    unfold State.stopAfterCycle
    split
    · exact h
    · exact h
    · split <;> exact h
  applyItems := fun s items ⟨hl, hs, hi⟩ hf =>
    ⟨lineLaw_execClosed.applyItems s items hl hf, stationLaw_execClosed.applyItems s items hs hf, hi.applyItems hf⟩
  placeTicket := fun _ _ _ _ h _ => h
  cancelTicket := fun s id t h _ _ => by
    rw [State.completeTicket_frame]
    exact h
  credit := fun _ _ h _ => h
  takeReport := fun _ _ _ h _ _ => h
  holdSetup := fun _ _ _ _ h => h
  restartHoldTimer := fun _ h => h
  endHold := fun _ h _ => h
  enterHold := fun s ⟨hl, hs, hi⟩ => ⟨lineLaw_execClosed.enterHold s hl, stationLaw_execClosed.enterHold s hs,
    hi.mapRecord (fun r => if r.func.heldForbidden then { r with noRetry := true } else r)
      (fun r => by split <;> exact ⟨rfl, rfl, rfl, id⟩) rfl rfl rfl⟩
  limitExpires := fun _ h => h
  lreqAsserted := fun s ⟨hl, hs, hi⟩ h => ⟨lineLaw_execClosed.lreqAsserted s hl h, hs, hi⟩
  lreqNegated := fun s ⟨hl, hs, hi⟩ h1 h2 => ⟨lineLaw_execClosed.lreqNegated s hl h1 h2, hs, hi⟩
  returnLine := fun s order ⟨hl, hs, hi⟩ h1 h2 => by
    refine ⟨lineLaw_execClosed.returnLine s order hl h1 h2, stationLaw_execClosed.returnLine s order hs h1 h2, ?_⟩
    obtain ⟨-, -, hlent, -⟩ := id hl
    have hidle : ImageIdle s := hi.idle (hl.record_of_released (hlent.2 h2))
    exact ImageLaw.ofIdle (hidle.lineBack.congr (State.placeAll_stations _ _) (State.placeAll_image _ _))
      (by rw [State.returnLine_eq]; exact congrArg Engine.record (State.placeAll_engine _ _))
  initialised := fun s strap ⟨hl, hs, _⟩ => ⟨lineLaw_execClosed.initialised s strap hl,
    stationLaw_execClosed.initialised s strap hs, State.followLreq_imageLaw rfl nofun rfl (ImageIdle.ofReset rfl rfl)⟩
  warm := fun s ⟨hl, hs, hi⟩ => ⟨lineLaw_execClosed.warm s hl, stationLaw_execClosed.warm s hs,
    State.followLreq_imageLaw rfl nofun rfl (ImageIdle.warm hi rfl rfl)⟩
  startBit := fun s b ⟨hl, hs, hi⟩ hrx => ⟨lineLaw_execClosed.startBit s b hl hrx,
    stationLaw_execClosed.startBit s b hs hrx, hi.startBit hl b⟩
  char := fun s rx c ⟨hl, hs, hi⟩ h1 h2 => ⟨lineLaw_execClosed.char s rx c hl h1 h2,
    stationLaw_execClosed.char s rx c hs h1 h2, ImageLaw.deliverChar (s := s.setLineRx rx) (hl.setLineRx h1 h2) hi c⟩
  frameEnds := fun s r ⟨hl, hs, hi⟩ h1 h2 => ⟨lineLaw_execClosed.frameEnds s r hl h1 h2,
    stationLaw_execClosed.frameEnds s r hs h1 h2, by
      unfold State.frameEnds
      dsimp only
      split <;> exact hi.same rfl rfl rfl⟩
  noReply := fun s ⟨hl, hs, hi⟩ h => ⟨lineLaw_execClosed.noReply s hl h, stationLaw_execClosed.noReply s hs h,
    hi.classify _ nofun⟩
  gap := fun s ⟨hl, hs, hi⟩ h => ⟨lineLaw_execClosed.gap s hl h, stationLaw_execClosed.gap s hs h, hi.classify _ nofun⟩
  quiet := fun s order ⟨hl, ⟨hr, hst⟩, hi⟩ h => ⟨lineLaw_execClosed.quiet s order hl h,
    stationLaw_execClosed.quiet s order ⟨hr, hst⟩ h, hi.guardEnds hr hst order⟩
  jam := fun s order ⟨hl, ⟨hr, hst⟩, hi⟩ h1 h2 => ⟨lineLaw_execClosed.jam s order hl h1 h2,
    stationLaw_execClosed.jam s order ⟨hr, hst⟩ h1 h2, hi.lineJams hr hst order⟩
  period := fun s ⟨hl, hs, hi⟩ hp => ⟨lineLaw_execClosed.period s hl hp, stationLaw_execClosed.period s hs hp, by
    unfold State.periodExpires
    split
    · exact hi
    · exact hi
    · dsimp only
      split
      · exact (ImageLaw.choice (s := { s with sched := s.sched.nextCycle }) ⟨hl, hi⟩).2
      · exact hi⟩

/-- Settles O24: every effect of a command keeps the law of the image; outputs are SENDING only from a hand-over to the end of
its exchange, and inputs FRESH only from a delivery to the station's leaving ONLINE. -/
theorem everyStepKeepsTheImageLaw : Obligations.EveryStepKeepsTheImageLaw := by
  intro s t hline hrec hst himage ht
  obtain ⟨-, -, h⟩ := imageContext_execClosed.step (fun _ _ h => h) ht ⟨hline, ⟨hrec, hst⟩, himage⟩
  exact h

end Sys2Proof.Machine
end

section
/-! The commands of the process image: IMAGE_READ and IMAGE_WRITE (R34 to R38): O21, O22. -/

namespace Sys2Proof.Machine

/-- The first element of a list that a search accepts decides it. -/
theorem findSome?_of_first {α β : Type} {f : α → Option β} {before after : List α} {a : α} {r : β}
    (hbefore : ∀ x ∈ before, f x = none) (ha : f a = some r) : (before ++ a :: after).findSome? f = some r :=
  List.findSome?_eq_some_iff.2 ⟨before, a, after, rfl, ha, hbefore⟩

/-- A count of at most 255 is the value of its byte. -/
theorem toNat_byte {n : Nat} (h : n ≤ 255) : (byte n).toNat = n := by
  simp only [byte, BitVec.toNat_ofNat]
  omega

/-- The areas an address reads as, where it has some. -/
theorem State.areasOrEmpty_of_areas {s : State} {a : Nat} {ar : Areas} (h : s.areas a = some ar) :
    s.areasOrEmpty a = ar := by
  rw [State.areasOrEmpty, h]
  rfl

/-! ## IMAGE_READ (R37, R38) -/

section
variable {s : State} {a : Nat}

theorem State.readFault_of_outside (h : a = 0 ∨ 63 < a) : s.readFault a = some .range := by
  simp [State.readFault, validAddress_of_outside h]

theorem State.readFault_of_unused (h1 : 1 ≤ a) (h63 : a ≤ 63) (hs : (s.entry a).state = .unused) :
    s.readFault a = some .noStation := by
  simp [State.readFault, (validAddress_iff a).2 ⟨h1, h63⟩, State.isDefined, hs]

theorem State.readFault_of_defined (h1 : 1 ≤ a) (h63 : a ≤ 63) (hs : (s.entry a).state ≠ .unused) :
    s.readFault a = none := by
  simp [State.readFault, (validAddress_iff a).2 ⟨h1, h63⟩, State.isDefined, hs]

theorem State.imageRead_of_fault {addrs : List Nat} {r : Result} (h : addrs.findSome? s.readFault = some r) :
    s.imageRead addrs = (s, .refuse r) := by
  rw [State.imageRead, h]

theorem State.imageRead_of_noFault {addrs : List Nat} (h : addrs.findSome? s.readFault = none) :
    s.imageRead addrs = (s, .ok (addrs.flatMap s.readBytes)) := by
  rw [State.imageRead, h]

end

/-- The bytes IMAGE_READ answers for one address (R164). -/
theorem State.readBytes_of_areas {s : State} {a : Byte} {ar : Areas} (h : s.areas a.toNat = some ar) :
    s.readBytes a.toNat =
      [a, byte ar.input.bytes.length] ++ ar.input.bytes ++ [ar.input.state.code] ++ le16 ar.input.gen ++
        [ar.output.state.code] ++ le16 ar.output.gen := by
  rw [State.readBytes, State.areasOrEmpty_of_areas h, InputArea.bytesFor, byte_toNat]

/-- The payload of an IMAGE_READ names its addresses (R163). -/
theorem parseImageRead_addresses {addrs : List Byte} (h : addrs.length = 1 ∨ addrs.length = 2) :
    parseImageRead (byte addrs.length :: addrs) = some (addrs.map BitVec.toNat) := by
  have hlen : (byte addrs.length).toNat = addrs.length := toNat_byte (by omega)
  rw [parseImageRead, hlen, if_pos ⟨h, rfl⟩]

/-- Settles O22: the search for a fault stops at the first address that has one, and without one every address is read. -/
theorem imageReadAnswersTheAreas : Obligations.ImageReadAnswersTheAreas := by
  intro s m rest addrs h hlen hpay
  have hparse : parseImageRead m.payload = some (addrs.map BitVec.toNat) := hpay ▸ parseImageRead_addresses hlen
  have read {res : Result} {body : List Byte} (hread : (s.taking m rest).imageRead (addrs.map BitVec.toNat) =
      (s.taking m rest, { result := res, body := body })) : exec .imageRead s = .next (s.answered m rest res body) :=
    h.answers (mine := (· == typeImageRead)) (decide := fun f s => s.imageRead f) rfl hparse hread
  refine ⟨fun a before after hsplit hbefore => ?_, fun areas hareas => ?_⟩
  · have refused {res : Result} (ha : s.readFault a.toNat = some res) : exec .imageRead s = .next (s.answered m rest res []) := by
      refine read ?_
      have hfirst : (addrs.map BitVec.toNat).findSome? s.readFault = some res := by
        rw [hsplit, List.map_append, List.map_cons]
        refine findSome?_of_first (fun x hx => ?_) ha
        obtain ⟨b, hb, rfl⟩ := List.mem_map.1 hx
        obtain ⟨h1, h63, hs⟩ := hbefore b hb
        exact State.readFault_of_defined h1 h63 hs
      exact State.imageRead_of_fault (s := s.taking m rest) hfirst
    exact ⟨fun ha => refused (State.readFault_of_outside ha),
      fun h1 h63 hs => refused (State.readFault_of_unused h1 h63 hs)⟩
  · refine read ?_
    have hnone : (addrs.map BitVec.toNat).findSome? s.readFault = none := by
      refine List.findSome?_eq_none_iff.2 (fun x hx => ?_)
      obtain ⟨a, ha, rfl⟩ := List.mem_map.1 hx
      obtain ⟨h1, h63, hs, -⟩ := hareas a ha
      exact State.readFault_of_defined h1 h63 hs
    have hbody : (addrs.map BitVec.toNat).flatMap s.readBytes = addrs.flatMap (fun a =>
        [a, byte (areas a).input.bytes.length] ++ (areas a).input.bytes ++ [(areas a).input.state.code] ++
          le16 (areas a).input.gen ++ [(areas a).output.state.code] ++ le16 (areas a).output.gen) := by
      rw [List.flatMap_map]
      refine List.flatMap_congr (fun a ha => ?_)
      obtain ⟨-, -, -, har⟩ := hareas a ha
      exact State.readBytes_of_areas har
    rw [← hbody]
    exact State.imageRead_of_noFault (s := s.taking m rest) hnone

/-! ## The items of an IMAGE_WRITE (R34, R163) -/

/-- An item of IMAGE_WRITE (address, offset, bytes) as the command reads it. -/
def writeItemOf (i : Byte × Byte × List Byte) : WriteItem :=
  { address := i.1.toNat, offset := i.2.1.toNat, data := i.2.2 }

/-- An item of IMAGE_WRITE as it stands in the payload (R163). -/
def itemBytes (i : Byte × Byte × List Byte) : List Byte := [i.1, i.2.1, byte i.2.2.length] ++ i.2.2

theorem parseItems_itemBytes {items : List (Byte × Byte × List Byte)}
    (h : ∀ i ∈ items, 1 ≤ i.2.2.length ∧ i.2.2.length ≤ 32) :
    parseItems items.length (items.flatMap itemBytes) = some (items.map writeItemOf) := by
  induction items with
  | nil => rfl
  | cons i items ih =>
    obtain ⟨h1, h32⟩ := h i List.mem_cons_self
    have hlen : (byte i.2.2.length).toNat = i.2.2.length := toNat_byte (by omega)
    have hcons : (i :: items).flatMap itemBytes =
        i.1 :: i.2.1 :: byte i.2.2.length :: (i.2.2 ++ items.flatMap itemBytes) := by
      simp [itemBytes]
    rw [hcons, List.length_cons, parseItems, hlen, if_pos ⟨h1, h32, by simp⟩, List.drop_left, List.take_left,
      ih (fun j hj => h j (List.mem_cons_of_mem _ hj))]
    rfl

/-- The payload of an IMAGE_WRITE names its items (R163). -/
theorem parseImageWrite_items {items : List (Byte × Byte × List Byte)} (h1 : 1 ≤ items.length) (h4 : items.length ≤ 4)
    (h : ∀ i ∈ items, 1 ≤ i.2.2.length ∧ i.2.2.length ≤ 32) :
    parseImageWrite (byte items.length :: items.flatMap itemBytes) = some (items.map writeItemOf) := by
  have hlen : (byte items.length).toNat = items.length := toNat_byte (by omega)
  rw [parseImageWrite, hlen, if_pos ⟨h1, h4⟩, parseItems_itemBytes h]

section
variable {s : State} {i : Byte × Byte × List Byte}

theorem State.itemFault_of_outside (h : i.1.toNat = 0 ∨ 63 < i.1.toNat) : s.itemFault (writeItemOf i) = some .range := by
  simp [State.itemFault, writeItemOf, validAddress_of_outside h]

theorem State.itemFault_of_noProfile (h1 : 1 ≤ i.1.toNat) (h63 : i.1.toNat ≤ 63)
    (hp : (s.entry i.1.toNat).profile = none) : s.itemFault (writeItemOf i) = some .noStation := by
  simp [State.itemFault, writeItemOf, (validAddress_iff _).2 ⟨h1, h63⟩, hp]

theorem State.itemFault_of_profile {p : Profile} (h1 : 1 ≤ i.1.toNat) (h63 : i.1.toNat ≤ 63)
    (hp : (s.entry i.1.toNat).profile = some p) :
    s.itemFault (writeItemOf i) = if p.outLen < i.2.1.toNat + i.2.2.length then some .range else none := by
  unfold State.itemFault writeItemOf
  rw [if_neg (by simp [(validAddress_iff _).2 ⟨h1, h63⟩]), hp]

theorem State.takesItem.itemFault (h : s.takesItem i) : s.itemFault (writeItemOf i) = none := by
  obtain ⟨h1, h63, p, hp, hle⟩ := h
  rw [State.itemFault_of_profile h1 h63 hp, if_neg (by omega)]

theorem State.imageWrite_of_fault {ws : List WriteItem} {r : Result} (h : ws.findSome? s.itemFault = some r) :
    s.imageWrite ws = (s, .refuse r) := by
  rw [State.imageWrite, h]

theorem State.imageWrite_of_noFault {ws : List WriteItem} (h : ws.findSome? s.itemFault = none) :
    s.imageWrite ws = (s.applyItems ws, .ok (ws.flatMap (fun w => (s.applyItems ws).outGenBytes w.address))) := by
  rw [State.imageWrite, h]

end

/-! ## The items applied (R35) -/

/-- The message taken has no part in what is written to the image. -/
theorem State.setAreas_taking (s : State) (m : Message) (rest : List Message) (a : Nat) (ar : Option Areas) :
    (s.taking m rest).setAreas a ar = (s.setAreas a ar).taking m rest := by
  unfold State.setAreas
  split <;> rfl

theorem State.writeItem_taking (s : State) (m : Message) (rest : List Message) (w : WriteItem) :
    (s.taking m rest).writeItem w = (s.writeItem w).taking m rest := s.setAreas_taking m rest _ _

theorem State.touch_taking (s : State) (m : Message) (rest : List Message) (a : Nat) :
    (s.taking m rest).touch a = (s.touch a).taking m rest := s.setAreas_taking m rest _ _

theorem State.applyItems_taking (s : State) (m : Message) (rest : List Message) (ws : List WriteItem) :
    (s.taking m rest).applyItems ws = (s.applyItems ws).taking m rest := by
  unfold State.applyItems
  rw [List.foldl_hom (fun t : State => t.taking m rest) (fun t w => t.writeItem_taking m rest w),
    List.foldl_hom (fun t : State => t.taking m rest) (fun t a => t.touch_taking m rest a)]

/-- The items' bytes written one after the other over the bytes of the area at `a`. -/
def writtenBytes (ws : List WriteItem) (a : Nat) (bytes : List Byte) : List Byte :=
  (ws.filter (fun w => w.address == a)).foldl (fun bs w => overlay bs w.offset w.data) bytes

/-- The areas of any address after several items were written (R35). -/
theorem State.areas_writeItems (ws : List WriteItem) (s : State) (a : Nat) :
    (ws.foldl State.writeItem s).areas a = (s.areas a).map (fun ar =>
      { ar with output := { ar.output with bytes := writtenBytes ws a ar.output.bytes } }) := by
  induction ws generalizing s with
  | nil => simp [writtenBytes]
  | cons w ws ih =>
    rw [List.foldl_cons, ih, State.areas_writeItem]
    by_cases ha : a = w.address
    · subst ha
      simp [writtenBytes, Function.comp_def]
    · rw [if_neg ha]
      simp [writtenBytes, Ne.symm ha]

/-- No address is left twice. -/
theorem nodup_eraseDups (l : List Nat) : l.eraseDups.Nodup := by
  cases l with
  | nil => exact List.nodup_nil
  | cons a l =>
    rw [List.eraseDups_cons]
    exact List.nodup_cons.2 ⟨by simp, nodup_eraseDups _⟩
termination_by l.length
decreasing_by exact Nat.lt_succ_of_le (List.length_filter_le _ _)

/-- The areas of any address after several, none of them twice, were touched (R35). -/
theorem State.areas_touchAll {l : List Nat} (hl : l.Nodup) (s : State) (a : Nat) :
    (l.foldl State.touch s).areas a =
      if a ∈ l then (s.areas a).map (fun ar => { ar with output := ar.output.touched }) else s.areas a := by
  induction l generalizing s with
  | nil => simp
  | cons b l ih =>
    obtain ⟨hb, hl⟩ := List.nodup_cons.1 hl
    rw [List.foldl_cons, ih hl, State.areas_touch]
    by_cases ha : a = b
    · subst ha
      simp [hb]
    · simp [ha]

/-- The areas of any address after an IMAGE_WRITE (R35). -/
theorem State.areas_applyItems (s : State) (ws : List WriteItem) (a : Nat) :
    (s.applyItems ws).areas a = (s.areas a).map (fun ar =>
      if a ∈ ws.map WriteItem.address then
        { ar with output := { state := .dirty, gen := ar.output.gen + 1, bytes := writtenBytes ws a ar.output.bytes } }
      else ar) := by
  unfold State.applyItems
  rw [State.areas_touchAll (nodup_eraseDups _), State.areas_writeItems]
  by_cases ha : a ∈ ws.map WriteItem.address
  · simp only [List.mem_eraseDups, ha, if_true, Option.map_map]
    rfl
  · have hnone : ws.filter (fun w => w.address == a) = [] := by
      refine List.filter_eq_nil_iff.2 (fun w hw he => ha ?_)
      exact List.mem_map.2 ⟨w, hw, beq_iff_eq.1 he⟩
    simp [ha, writtenBytes, hnone]

/-- The bytes written, in the words of the statements. -/
theorem writtenBytes_map (items : List (Byte × Byte × List Byte)) (a : Nat) (bytes : List Byte) :
    writtenBytes (items.map writeItemOf) a bytes =
      (items.filter (fun i => i.1.toNat == a)).foldl
        (fun bs i => bs.take i.2.1.toNat ++ i.2.2 ++ bs.drop (i.2.1.toNat + i.2.2.length)) bytes := by
  unfold writtenBytes
  rw [List.filter_map, List.foldl_map]
  rfl

/-- An address and its generation in the answer, in the words of the statements (R35, R164). -/
theorem State.outGenBytes_eq (t : State) (a : Byte) :
    t.outGenBytes a.toNat = [a] ++ le16 ((t.areas a.toNat).elim 0 (fun ar => ar.output.gen)) := by
  rw [State.outGenBytes, byte_toNat, State.areasOrEmpty]
  cases t.areas a.toNat <;> rfl

/-- Settles O21: the search for a fault stops at the first item that has one, and without one the items are applied. -/
theorem imageWriteChecksAllThenApplies : Obligations.ImageWriteChecksAllThenApplies := by
  intro s m rest items h h1 h4 hitems hpay
  have hparse : parseImageWrite m.payload = some (items.map writeItemOf) := hpay ▸ parseImageWrite_items h1 h4 hitems
  refine ⟨fun i before after hsplit hbefore => ?_, fun htakes => ?_⟩
  · have refused {res : Result} (hi : s.itemFault (writeItemOf i) = some res) :
        exec .imageWrite s = .next (s.answered m rest res []) := by
      refine h.refuses (mine := (· == typeImageWrite)) (decide := fun f s => s.imageWrite f) rfl hparse ?_
      have hfirst : (items.map writeItemOf).findSome? s.itemFault = some res := by
        rw [hsplit, List.map_append, List.map_cons]
        refine findSome?_of_first (fun w hw => ?_) hi
        obtain ⟨j, hj, rfl⟩ := List.mem_map.1 hw
        exact (hbefore j hj).itemFault
      exact State.imageWrite_of_fault (s := s.taking m rest) hfirst
    exact ⟨fun ha => refused (State.itemFault_of_outside ha),
      fun h1 h63 hp => refused (State.itemFault_of_noProfile h1 h63 hp),
      fun p h1 h63 hp hlt => refused ((State.itemFault_of_profile h1 h63 hp).trans (if_pos hlt))⟩
  · have hnone : (items.map writeItemOf).findSome? s.itemFault = none := by
      refine List.findSome?_eq_none_iff.2 (fun w hw => ?_)
      obtain ⟨i, hi, rfl⟩ := List.mem_map.1 hw
      exact (htakes i hi).itemFault
    refine ⟨s.applyItems (items.map writeItemOf), ?_, State.applyItems_frame s _, fun a => ?_⟩
    · have hbody : items.flatMap (fun i => [i.1] ++ le16
          (((s.applyItems (items.map writeItemOf)).areas i.1.toNat).elim 0 (fun ar => ar.output.gen))) =
          (items.map writeItemOf).flatMap (fun w => (s.applyItems (items.map writeItemOf)).outGenBytes w.address) := by
        rw [List.flatMap_map]
        exact List.flatMap_congr (fun i _ => (State.outGenBytes_eq _ i.1).symm)
      rw [hbody]
      refine h.answers (mine := (· == typeImageWrite)) (decide := fun f s => s.imageWrite f) rfl hparse
        (r := .ok _) ?_
      rw [State.imageWrite_of_noFault (s := s.taking m rest) hnone, State.applyItems_taking]
      rfl
    · simp only [State.areas_applyItems, writtenBytes_map, List.map_map]
      rfl

end Sys2Proof.Machine
end

section
/-! The arbiter's take of the next slot that yields an exchange (R31, R62, R87, R90, R95, R100 to R102): O46. -/

namespace Sys2Proof.Machine

/-! ## A choice that comes to the scheduler (R100) -/

/-- With no ticket to take, item 3 of a choice does nothing (R100, R110). -/
theorem State.ticketItem_of_noTicketNow {s : State} (h : s.noTicketNow) (n : Nat) : State.ticketItem n s = (s, false) := by
  cases n with
  | zero => rfl
  | succ n =>
    unfold State.ticketItem
    split
    · rfl
    · rename_i hspent
      rw [h.resolve_right hspent]

/-- With the line free and no ticket to take, the choice takes the scheduler's exchange, if it answers one (R100). -/
theorem State.arbiterChoice_of_take {s t : State} {offer : Offer} (h : s.lineFree) (hn : s.noTicketNow)
    (hask : State.ask 3 s = (t, .take offer)) : s.arbiterChoice = t.takeOffer offer := by
  obtain ⟨hidle, hhandover, hclaim⟩ := h
  unfold State.arbiterChoice
  rw [if_neg (not_not.2 hidle), if_neg hhandover, hclaim]
  dsimp only
  rw [State.chooseWork, State.ticketItem_of_noTicketNow hn]
  dsimp only
  rw [hask]

/-- A cycle whose slots yield an exchange answers the question with it (R87). -/
theorem State.ask_of_slot {s t : State} {offer : Offer} (hactive : s.sched.state = .active)
    (hstop : s.sched.stopRequest ≠ .afterSlot) (hphase : s.sched.phase = .slots)
    (hslot : State.stepSlots (s.sched.cycleList.drop s.sched.slotCursor) s = (t, some offer)) (n : Nat) :
    State.ask (n + 1) s = (t, .take offer) := by
  have hcycle : s.stepCycle = (t, some offer) := by
    unfold State.stepCycle
    rw [hphase]
    dsimp only
    rw [hslot]
  unfold State.ask
  rw [if_neg (by simp [hactive, hstop]), hcycle]

/-! ## The slots passed (R87, R90) -/

/-- The scheduler's part of slots passed, each counted as skipped. -/
def State.passSlots (s : State) (n : Nat) : State :=
  { s with sched := { s.sched with
      slotCursor := s.sched.slotCursor + n
      summary := { s.sched.summary with skipped := satInc8^[n] s.sched.summary.skipped } } }

theorem State.passSlots_succ (s : State) (n : Nat) : s.passSlots (n + 1) = s.skipSlot.passSlots n := by
  simp [State.passSlots, State.skipSlot, Nat.add_assoc, Nat.add_comm 1]

/-- Slots that yield nothing are passed. -/
theorem State.stepSlots_passed {passed : List Nat} {s : State} (h : ∀ b ∈ passed, s.judgeSlot b = none)
    (rest : List Nat) : State.stepSlots (passed ++ rest) s = State.stepSlots rest (s.passSlots passed.length) := by
  induction passed generalizing s with
  | nil => rfl
  | cons b passed ih =>
    have hb : s.judgeSlot b = none := h b List.mem_cons_self
    rw [List.length_cons, State.passSlots_succ, ← ih (s := s.skipSlot) (fun c hc => h c (List.mem_cons_of_mem _ hc)),
      List.cons_append, State.stepSlots, hb]
    rfl

/-- The first slot that yields ends the question (R87). -/
theorem State.stepSlots_of_yield {s : State} {a : Nat} {f : LineFunction} {origin : Origin}
    (h : s.judgeSlot a = some (f, origin)) (later : List Nat) :
    State.stepSlots (a :: later) s = (s.yieldSlot f, some (a, f, origin)) := by
  rw [State.stepSlots, h]
  rfl

/-- Counts that stop at 255 (R95). -/
theorem toNat_satInc8_iterate (n : Nat) (c : Byte) : (satInc8^[n] c).toNat = min (c.toNat + n) 255 := by
  induction n generalizing c with
  | zero =>
    have := c.isLt
    simp only [Function.iterate_zero, id_eq]
    omega
  | succ n ih =>
    have hinc : (satInc8 c).toNat = min (c.toNat + 1) 255 := by
      unfold satInc8
      split
      · rename_i hc
        rw [hc]
        rfl
      · bv_omega
    rw [Function.iterate_succ_apply, ih, hinc]
    omega

/-! ## The slot taken (R31, R62, R87, R102) -/

/-- The state in which the slot's exchange is handed over: the slots before it passed, itself counted and marked in flight, and
the allowance back at demand_share (R87, R90, R95, R102). -/
def State.slotTaken (s : State) (n : Nat) (f : LineFunction) : State :=
  let t := (s.passSlots n).yieldSlot f
  { t with
    sched := { t.sched with slotInFlight := true }
    arbiter := { t.arbiter with demandAllowance := t.sched.demandShare } }

/-- The first attempt of an exchange that is no broadcast, in the words of the statements (R61, R62). -/
theorem State.startAttempt_buildRecord (s : State) {origin : Origin} (ho : origin ≠ .broadcast) (a : Nat) (f : LineFunction)
    (data : List Byte) : s.startAttempt (s.buildRecord a f origin data) = s.sendingFirst a f origin data := by
  unfold State.buildRecord
  rw [if_neg ho]
  rfl

/-- A hand-over that captures nothing sends the data handed over (R62). -/
theorem State.handOver_eq_sendingFirst {s : State} {f : LineFunction} {origin : Origin} (hf : f ≠ .exchange)
    (ho : origin ≠ .broadcast) (a : Nat) (data : List Byte) :
    s.handOver a f origin data = s.sendingFirst a f origin data :=
  (if_neg hf).trans (s.startAttempt_buildRecord ho a f data)

/-- A hand-over of an EXCHANGE sends what it captures (R31, R62). -/
theorem State.handOver_exchange_eq_sendingFirst {s : State} {origin : Origin} (ho : origin ≠ .broadcast) (a : Nat)
    (data : List Byte) :
    s.handOver a .exchange origin data = (s.capture a).1.sendingFirst a .exchange origin (s.capture a).2 :=
  (s.capture a).1.startAttempt_buildRecord ho a .exchange (s.capture a).2

/-- A capture gives the bytes of the output area, which becomes SENDING if it was DIRTY, and changes no other area (R31). -/
theorem State.capture_of_areas {s : State} {a : Nat} {ar : Areas} (h : s.areas a = some ar) :
    (s.capture a).2 = ar.output.bytes ∧ (s.capture a).1.areas a = some { ar with output := ar.output.capture } ∧
      ∀ b, b ≠ a → (s.capture a).1.areas b = s.areas b := by
  have hvalid : 1 ≤ a ∧ a ≤ 63 := by
    by_contra hout
    rw [s.areas_of_invalid (decide_eq_false hout)] at h
    cases h
  unfold State.capture
  rw [h]
  refine ⟨rfl, ?_, fun b hb => ?_⟩
  · exact (State.areas_setAreas ..).trans (if_pos ⟨rfl, hvalid⟩)
  · exact (State.areas_setAreas ..).trans (if_neg (fun hc => hb hc.1))

/-- Settles O46: the slots that yield nothing are passed, and the exchange of the first that yields is handed over. -/
theorem arbiterTakesTheNextSlot : Obligations.ArbiterTakesTheNextSlot := by
  intro s passed a later f origin hfree hticket hactive hstop hphase hdrop hpassed hyield
  have hslot : State.stepSlots (s.sched.cycleList.drop s.sched.slotCursor) s =
      ((s.passSlots passed.length).yieldSlot f, some (a, f, origin)) := by
    rw [hdrop, State.stepSlots_passed hpassed]
    exact State.stepSlots_of_yield (s := s.passSlots passed.length) hyield later
  have hchoice : s.arbiterChoice = (s.slotTaken passed.length f).handOver a f origin [] :=
    State.arbiterChoice_of_take hfree hticket (State.ask_of_slot hactive hstop hphase hslot 2)
  have horigin : origin ≠ .broadcast := by
    rcases State.judgeSlot_origin hyield with ⟨rfl, -⟩ | ⟨rfl, -⟩ <;> nofun
  have htaken (image : Vector (Option Areas) 63) : { s.slotTaken passed.length f with image := image } =
      { s with
        image := image
        arbiter := { s.arbiter with demandAllowance := s.sched.demandShare }
        sched := { s.sched with
          slotCursor := s.sched.slotCursor + passed.length + 1
          slotInFlight := true
          summary := { s.sched.summary with
            skipped := satInc8^[passed.length] s.sched.summary.skipped
            exchanged := if f = .probe then s.sched.summary.exchanged else satInc8 s.sched.summary.exchanged
            probed := if f = .probe then satInc8 s.sched.summary.probed else s.sched.summary.probed } } } := by
    by_cases hf : f = .probe <;>
      simp [State.slotTaken, State.yieldSlot, State.passSlots, CycleSummary.countYield, hf]
  by_cases hf : f = .exchange
  · subst hf
    refine ⟨_, ((s.slotTaken passed.length .exchange).capture a).1, toNat_satInc8_iterate _ _, ?_,
      fun hne => absurd rfl hne, fun ar _ har => ?_⟩
    · exact (State.capture_frame _ _).trans (htaken _)
    · obtain ⟨hbytes, hself, hother⟩ := State.capture_of_areas (s := s.slotTaken passed.length .exchange) har
      rw [hchoice, State.handOver_exchange_eq_sendingFirst horigin, hbytes]
      exact ⟨rfl, hself, hother⟩
  · refine ⟨_, s.slotTaken passed.length f, toNat_satInc8_iterate _ _, htaken s.image, fun _ => ⟨rfl, ?_⟩,
      fun ar he => absurd he hf⟩
    rw [hchoice, State.handOver_eq_sendingFirst hf horigin]

end Sys2Proof.Machine
end

section
/-! The station line: the laws of line and record over every step, the bits and samples of characters, the start bit, characters
that no reply awaits, the frame sent, and LINE_SETUP (R42 to R48, R57, R59, R63 to R73): O25, O26, O27, O28, O31, O37. -/

namespace Sys2Proof.Machine

/-- Settles O37: every effect of a command keeps both laws, and so does every step. -/
theorem everyStepKeepsTheLawsOfLineAndRecord : Obligations.EveryStepKeepsTheLawsOfLineAndRecord :=
  fun _ _ ht => ⟨lineLaw_execClosed.step (fun _ _ h => h) ht, recordLaw_execClosed.step (fun _ _ h => h) ht⟩

/-! ## Bits and samples (R42, R45, R46) -/

/-- Three samples are read as their majority, and as nothing else (R45). -/
theorem samplesRead_iff (b : BitSamples) (level : Bool) : samplesRead b level ↔ b.majority = level := by
  obtain ⟨x, y, z⟩ := b
  unfold samplesRead BitSamples.majority
  revert x y z level
  decide

/-- Samples agree exactly if all three are the same (R46). -/
theorem BitSamples.agree_iff (b : BitSamples) : b.agree = true ↔ b.first = b.second ∧ b.second = b.third := by
  simp [BitSamples.agree]

/-- The number that bits spell, bit 0 first, has them as its binary digits. -/
theorem testBit_foldr_bits (bits : List Bool) (k : Nat) :
    (bits.foldr (fun (b : Bool) n => b.toNat + 2 * n) 0).testBit k = bits.getD k false := by
  induction bits generalizing k with
  | nil => simp
  | cons b bits ih =>
    rw [List.foldr_cons, show ∀ n : Nat, b.toNat + 2 * n = Nat.bit b n from fun n => by
      cases b <;> simp [Nat.bit]
      omega]
    cases k with
    | zero => simp
    | succ k => rw [Nat.testBit_bit_succ, ih, List.getD_cons_succ]

/-- The bits of the byte that eight bits spell are those bits (R42). -/
theorem getLsbD_byteOfBits (bits : List Bool) {k : Nat} (hk : k < 8) : (byteOfBits bits).getLsbD k = bits.getD k false := by
  rw [byteOfBits, BitVec.getLsbD_ofNat, testBit_foldr_bits]
  simp [hk]

/-- The value bits of a finished character are the majorities of their samples (R45, R46). -/
theorem getLsbD_classify (x : CharSamples) (k : Fin 8) : (classify x).value.getLsbD k = x.value[k].majority := by
  change (byteOfBits (x.value.toList.map BitSamples.majority)).getLsbD k = _
  rw [getLsbD_byteOfBits _ k.2]
  simp

/-- A finished character is noisy exactly if the samples of one of its bits disagree (R46; log entry 19). -/
theorem classify_noisy_iff (x : CharSamples) : (classify x).noisy = true ↔
    ∃ b : BitSamples, ((∃ k : Fin 8, x.value[k] = b) ∨ x.mark = b ∨ x.stop = b) ∧ b.agree = false := by
  have hvalue : x.value.toList.all BitSamples.agree = false ↔ ∃ k : Fin 8, x.value[k].agree = false := by
    simp only [List.all_eq_false, Vector.mem_toList_iff, Vector.mem_iff_getElem, Bool.not_eq_true]
    exact ⟨fun ⟨_, ⟨k, hk, rfl⟩, h⟩ => ⟨⟨k, hk⟩, h⟩, fun ⟨k, h⟩ => ⟨_, ⟨k, k.2, rfl⟩, h⟩⟩
  simp only [classify, Bool.not_eq_true', Bool.and_eq_false_iff, hvalue]
  constructor
  · rintro ((⟨k, hk⟩ | h) | h)
    · exact ⟨_, Or.inl ⟨k, rfl⟩, hk⟩
    · exact ⟨_, Or.inr (Or.inl rfl), h⟩
    · exact ⟨_, Or.inr (Or.inr rfl), h⟩
  · rintro ⟨_, ⟨k, rfl⟩ | rfl | rfl, h⟩
    · exact Or.inl (Or.inl ⟨k, h⟩)
    · exact Or.inl (Or.inr h)
    · exact Or.inr h

/-- Settles O26. -/
theorem samplesDecideTheCharacter : Obligations.SamplesDecideTheCharacter := by
  intro x
  refine ⟨fun k => ?_, ?_, ?_, ?_⟩
  · rw [samplesRead_iff, getLsbD_classify]
  · rw [samplesRead_iff]
    rfl
  · rw [samplesRead_iff]
    exact (Bool.not_not _).symm
  · simp only [classify_noisy_iff, ← Bool.not_eq_true, BitSamples.agree_iff]

/-! ## The start bit (R45, R63, R65, R66, R70) -/

/-- The receiver sees an edge exactly where it is on with no character in reception (R44, R45). -/
theorem State.seesEdges_iff (s : State) : s.seesEdges ↔ s.line.rx.seesEdge = true := by
  unfold State.seesEdges
  cases s.line.rx <;> simp [LineRx.seesEdge]

/-- START_DETECTED with no report due: the start bit is read where the receiver sees an edge. -/
theorem State.exec_startDetected {s : State} (hn : ¬s.standsReport) (start : BitSamples) :
    exec (.startDetected start) s = .next (if s.line.rx.seesEdge then s.startBit start else s) := by
  change execStartDetected start s = _
  unfold execStartDetected
  rw [State.takeDueReport_of_not_stands hn]

/-- Settles O25: the start bit is read by its majority, and the engine is told of one that is 0 in each of its states. -/
theorem startBitReachesTheEngine : Obligations.StartBitReachesTheEngine := by
  intro s start hn
  rw [State.exec_startDetected hn, State.seesEdges_iff]
  refine ⟨fun h => by rw [if_neg h], fun h hb => ?_, fun h hb => ?_⟩ <;>
    rw [samplesRead_iff] at hb <;> rw [if_pos h, State.startBit, hb]
  · rfl
  · refine ⟨s.engine.startDetected, rfl, ?_, ?_, ?_, ?_⟩ <;> intros <;> simp [Engine.startDetected, *]

/-! ## A character that no reply awaits (R46, R59, R63, R65, R70, R73) -/

/-- A classification, in the words of the statements (R68, R70). -/
theorem State.classifyAttempt_eq {s : State} {r : ExchangeRecord} (hr : s.engine.record = some r) (o : AttemptOutcome) :
    s.classifyAttempt o = s.afterAttempt r o := by
  unfold State.classifyAttempt
  dsimp only
  rw [State.countLine_engine, hr]
  cases o <;> rfl

/-- A character handed to the engine, with no report due: it is finished, classified and delivered (R44 to R46). -/
theorem State.hears.exec {s : State} {i : Instr} {c : RxChar} (h : s.hears i c) (hn : ¬s.standsReport) :
    Machine.exec i s = .next ((s.setLineRx (.afterChar c)).deliverChar c) := by
  rcases h with ⟨x, n, rfl, hrx, rfl⟩ | ⟨rfl, hrx, rfl⟩
  · change s.takeDueReport.finishChar x = _
    rw [State.takeDueReport_of_not_stands hn, State.finishChar, hrx]
  · change s.takeDueReport.lowLine = _
    rw [State.takeDueReport_of_not_stands hn, State.lowLine]
    rcases hrx with hrx | hrx <;> rw [hrx] <;> rfl

/-- A finished character counted by its class, in the words of the statements (R46). -/
theorem State.withHeard_eq (s : State) (c : RxChar) :
    s.withHeard c = (s.setLineRx (.afterChar c)).countLine (fun st => st.countClass c) := rfl

/-- A character delivered in IDLE is stray (R63). -/
theorem State.deliverChar_of_idle {s : State} (hs : s.engine.state = .idle) (c : RxChar) :
    s.deliverChar c = (s.countLine (fun st => st.countClass c)).countLine (fun st => { st with stray := satInc st.stray }) := by
  unfold State.deliverChar
  simp only [State.countLine_engine, hs]

/-- A character delivered in a guard counts by the guard's kind and starts the quiet timer again (R70, R73). -/
theorem State.deliverChar_of_guard {s : State} {k : GuardKind} (hs : s.engine.state = .guard k) (c : RxChar) :
    s.deliverChar c = { (s.countLine (fun st => st.countClass c)).countLine (fun st => st.countUnawaited k) with
      engine := { s.engine with quietTimer := some k.length } } := by
  unfold State.deliverChar
  simp only [State.countLine_engine, hs]

/-- A character delivered in AWAITING breaks the attempt (R65). -/
theorem State.deliverChar_of_awaiting {s : State} (hs : s.engine.state = .awaiting) (c : RxChar) :
    s.deliverChar c = (s.countLine (fun st => st.countClass c)).classifyAttempt .broken := by
  unfold State.deliverChar
  simp only [State.countLine_engine, hs]

/-- A receiver that is off delivers nothing and counts nothing (R44). -/
theorem State.exec_character_of_off {s : State} (hn : ¬s.standsReport) (h : s.line.rx = .off) (x : CharSamples) :
    exec (.characterDelivered x) s = .next s ∧ exec .lowLineBrokenCharacter s = .next s := by
  constructor
  · change s.takeDueReport.finishChar x = _
    rw [State.takeDueReport_of_not_stands hn, State.finishChar, h]
  · change s.takeDueReport.lowLine = _
    rw [State.takeDueReport_of_not_stands hn, State.lowLine, h]

/-- Settles O27: the delivery of a character in IDLE, in each guard and in AWAITING. -/
theorem characterOutsideAReplyIsCounted : Obligations.CharacterOutsideAReplyIsCounted := by
  refine ⟨fun s x hn h => State.exec_character_of_off hn h x, fun s i c hn h => ?_⟩
  rw [h.exec hn]
  refine ⟨fun he => ?_, fun he => ?_, fun he => ?_, fun he => ?_, fun r he hr => ?_⟩
  · exact congrArg _ (State.deliverChar_of_idle (s := s.setLineRx (.afterChar c)) he c)
  · exact congrArg _ (State.deliverChar_of_guard (s := s.setLineRx (.afterChar c)) he c)
  · exact congrArg _ (State.deliverChar_of_guard (s := s.setLineRx (.afterChar c)) he c)
  · exact congrArg _ (State.deliverChar_of_guard (s := s.setLineRx (.afterChar c)) he c)
  · rw [State.deliverChar_of_awaiting (s := s.setLineRx (.afterChar c)) he, ← State.withHeard_eq,
      State.classifyAttempt_eq (s := s.withHeard c) hr]

/-! ## LINE_SETUP (R57) -/

/-- The engine is in an exchange or broadcast, its guard included, unless it is IDLE or RELEASED (R57). -/
theorem EngineState.inExchange_iff (st : EngineState) : st.inExchange = true ↔ st ≠ .idle ∧ st ≠ .released := by
  cases st <;> simp [EngineState.inExchange]

/-- Settles O28: the two checks in their order, and the settings replaced. -/
theorem lineSetupReplacesTheSettings : Obligations.LineSetupReplacesTheSettings := by
  intro s m rest rate timeout retries h hpay
  have hparse : parseLineSetup m.payload = some (rate.toNat, timeout.toNat, retries.toNat) := congrArg parseLineSetup hpay
  have decided {t : State} {r : Reply}
      (hd : (s.taking m rest).lineSetup rate.toNat timeout.toNat retries.toNat = (t.taking m rest, r)) :
      exec .lineSetup s = .next (t.answered m rest r.result r.body) :=
    h.answers (mine := (· == typeLineSetup)) (decide := fun (f : Nat × Nat × Nat) s => s.lineSetup f.1 f.2.1 f.2.2) rfl hparse hd
  refine ⟨fun hr => ?_, fun h1 h2 h3 h4 => ?_⟩
  · exact decided (t := s) (r := .refuse .range) (if_pos hr)
  · have hr : ¬(7 < rate.toNat ∨ timeout.toNat < 2 ∨ 250 < timeout.toNat ∨ 3 < retries.toNat) := by omega
    refine ⟨fun hw => ?_, fun hs he => ?_⟩
    · rw [← EngineState.inExchange_iff] at hw
      exact decided (t := s) (r := .refuse .wrongState) (by rw [State.lineSetup, if_neg hr]; exact if_pos hw)
    · have hw : ¬(s.sched.state ≠ .stopped ∨ s.engine.state.inExchange = true) := by
        rw [EngineState.inExchange_iff]
        tauto
      have hb : [byte rate.toNat, byte timeout.toNat, byte retries.toNat] = [rate, timeout, retries] := by simp
      exact decided (r := .ok [rate, timeout, retries]) (by rw [State.lineSetup, if_neg hr, hb]; exact if_neg hw)

/-! ## The frame sent (R42, R44, R48, R64, R70) -/

@[simp] theorem length_bitsOfByte (b : Byte) : (bitsOfByte b).length = 8 := by simp [bitsOfByte]

/-- A line character is eleven bits (R42). -/
@[simp] theorem LineChar.length_bits (c : LineChar) : c.bits.length = 11 := by simp [LineChar.bits]

/-- The bits of characters are eleven for each (R42). -/
theorem length_flatMap_bits (chars : List LineChar) : (chars.flatMap LineChar.bits).length = 11 * chars.length := by
  induction chars with
  | nil => rfl
  | cons c chars ih =>
    rw [List.flatMap_cons, List.length_append, ih, LineChar.length_bits, List.length_cons]
    ring

/-- A request's frame: address and T, function, length, data and check, the first with the mark bit (R48, R51). -/
theorem ExchangeRecord.frame_eq (r : ExchangeRecord) :
    r.frame = LineChar.mk (byte (r.station + 64 * r.toggle.toNat)) true ::
      ([r.func.code, byte r.data.length] ++ r.data ++
        [crc8 ([byte (r.station + 64 * r.toggle.toNat), r.func.code, byte r.data.length] ++ r.data)]).map
          (fun b => ⟨b, false⟩) := rfl

/-- A request's frame has four characters beside its data (R48). -/
theorem ExchangeRecord.length_frame (r : ExchangeRecord) : r.frame.length = r.data.length + 4 := by
  simp [ExchangeRecord.frame_eq]

/-- FRAME_SENT with no report due: the frame in progress ends (R64). -/
theorem State.exec_frameSent {s : State} {r : ExchangeRecord} (hn : ¬s.standsReport) (hs : s.engine.state = .sending)
    (hr : s.engine.record = some r) : exec .frameSent s = .next (s.frameEnds r) := by
  change s.takeDueReport.endFrame = _
  rw [State.takeDueReport_of_not_stands hn, State.endFrame, hs, hr]

/-- Settles O31: the frame of the record stands on the line in SENDING alone, and its end leads to AWAITING or a guard. -/
theorem frameIsSentWhole : Obligations.FrameIsSentWhole := by
  intro s
  refine ⟨fun hs => ?_, fun r hs hr => ?_⟩
  · have hlde : s.lde = false := beq_false_of_ne hs
    exact ⟨hlde, State.ltxd_of_lde_false hlde⟩
  · have hlde : s.lde = true := beq_iff_eq.2 hs
    have hframe : s.frameOnLine = r.frame := by
      rw [State.frameOnLine, if_pos hlde, hr]
    refine ⟨hlde, hframe.trans r.frame_eq, rfl, ?_, fun k bit hbit => ?_, fun hn ho => ?_, fun hn ho => ?_⟩
    · rw [State.ltxdBits, hframe, length_flatMap_bits, r.length_frame]
    · rw [State.ltxd, if_pos hlde, hbit]
      rfl
    · rw [State.exec_frameSent hn hs hr, State.frameEnds, if_neg ho]
      rfl
    · rw [State.exec_frameSent hn hs hr, State.frameEnds, if_pos ho]
      dsimp only
      rw [State.countLine_engine, State.setLineRx_engine, Engine.enterGuard, hr]
      rfl

end Sys2Proof.Machine
end

section
/-! The checks and the encodings, with what reads them back (R49 to R51, R134, R139, R162): O6. -/

namespace Sys2Proof.Machine

/-! ## The encodings read back (R49, R162) -/

theorem decodeNotify_eq_some {b : Byte} {v : Notify} : decodeNotify b = some v ↔ b = v.code := by
  cases v <;> grind [decodeNotify, Notify.code]

theorem decodeFlag_eq_some {b : Byte} {v : Bool} : decodeFlag b = some v ↔ b = flag v := by
  cases v <;> grind [decodeFlag, flag]

theorem decodeTicketFunction_eq_some {b : Byte} {v : TicketFunction} :
    decodeTicketFunction b = some v ↔ b = v.onLine.code := by
  cases v <;> grind [decodeTicketFunction, TicketFunction.onLine, LineFunction.code]

theorem decodePriority_eq_some {b : Byte} {v : Priority} : decodePriority b = some v ↔ b = v.code := by
  cases v <;> grind [decodePriority, Priority.code]

theorem decodeStatus_eq_some {b : Byte} {v : ReplyStatus} : decodeStatus b = some v ↔ b = v.code := by
  cases v <;> grind [decodeStatus, ReplyStatus.code]

theorem decodeMode_eq_some {b : Byte} {v : CycleMode} : decodeMode b = some v ↔ b = v.code := by
  cases v <;> grind [decodeMode, CycleMode.code]

theorem decodeWhen_eq_some {b : Byte} {v : StopRequest} :
    decodeWhen b = some v ↔ (b = 0 ∧ v = .afterSlot) ∨ (b = 1 ∧ v = .afterCycle) := by
  cases v <;> grind [decodeWhen]

theorem decodeLevel_eq_some {b : Byte} {v : RestartLevel} : decodeLevel b = some v ↔ b = v.code := by
  cases v <;> grind [decodeLevel, RestartLevel.code]

/-- Settles O6: the checks and the tables by evaluation, and every decoder as the inverse of its encoding. -/
theorem checksGiveTheValuesWrittenOut : Obligations.ChecksGiveTheValuesWrittenOut := by
  refine ⟨by decide +kernel, by decide +kernel, by decide +kernel, by decide +kernel, by decide +kernel, rfl, rfl, rfl, rfl,
    ⟨rfl, rfl, fun _ => rfl⟩, rfl, rfl, rfl, rfl, rfl, rfl, rfl, rfl, rfl, rfl, rfl, rfl, rfl, rfl, fun b => ?_⟩
  exact ⟨fun _ => decodeNotify_eq_some, fun _ => decodeFlag_eq_some, fun _ => decodeTicketFunction_eq_some,
    fun _ => decodePriority_eq_some, fun _ => decodeStatus_eq_some, fun _ => decodeMode_eq_some,
    fun _ => decodeWhen_eq_some, fun _ => decodeLevel_eq_some⟩

end Sys2Proof.Machine
end

section
/-! The frames of the station line, and the conforming station that hears a request (R48 to R56): O29. -/

namespace Sys2Proof.Machine

/-! ## Frames (R48, R49, R51) -/

/-- The station, T and direction that an address character carries (R48, R49). -/
theorem addressByte_fields {a : Nat} (ha : a ≤ 63) (t d : Bool) :
    (byte (a + 64 * t.toNat + 128 * d.toNat)).toNat % 64 = a ∧ (byte (a + 64 * t.toNat + 128 * d.toNat)).getLsbD 6 = t ∧
      (byte (a + 64 * t.toNat + 128 * d.toNat)).getLsbD 7 = d := by
  simp only [byte, BitVec.getLsbD, BitVec.toNat_ofNat, Nat.testBit_eq_decide_div_mod_eq]
  cases t <;> cases d <;> simp only [Bool.toNat_true, Bool.toNat_false, decide_eq_true_eq, decide_eq_false_iff_not] <;> omega

/-- A request's address character (R48). -/
theorem requestAddress_fields {a : Nat} (ha : a ≤ 63) (t : Bool) :
    (requestAddress a t).toNat % 64 = a ∧ (requestAddress a t).getLsbD 6 = t ∧ (requestAddress a t).getLsbD 7 = false :=
  addressByte_fields ha t false

/-- A reply's address character (R49). -/
theorem replyAddress_fields {a : Nat} (ha : a ≤ 63) (t : Bool) :
    (replyAddress a t).toNat % 64 = a ∧ (replyAddress a t).getLsbD 6 = t ∧ (replyAddress a t).getLsbD 7 = true :=
  addressByte_fields ha t true

/-- The values of a frame's characters: its bytes and their check (R51). -/
theorem values_frameOfBytes (first : Byte) (rest : List Byte) :
    (frameOfBytes (first :: rest)).map LineChar.value = (first :: rest) ++ [crc8 (first :: rest)] := by
  simp [frameOfBytes, Function.comp_def]

/-- A frame heard whole is read as the request it carries (R48, R53). -/
theorem hearFrame_frameOfBytes (a f : Byte) {data : List Byte} (h : data.length ≤ 255) :
    hearFrame (frameOfBytes ([a, f, byte data.length] ++ data)) = some { address := a, func := f, data := data } := by
  have hsplit : frameOfBytes ([a, f, byte data.length] ++ data) =
      ⟨a, true⟩ :: ⟨f, false⟩ :: ⟨byte data.length, false⟩ ::
        (data ++ [crc8 ([a, f, byte data.length] ++ data)]).map (fun b => ⟨b, false⟩) := rfl
  have hvalues : (frameOfBytes ([a, f, byte data.length] ++ data)).map LineChar.value =
      ([a, f, byte data.length] ++ data) ++ [crc8 ([a, f, byte data.length] ++ data)] := values_frameOfBytes _ _
  rw [hearFrame.eq_def, hsplit]
  dsimp only
  rw [← hsplit, hvalues, List.dropLast_concat, List.getLastD_concat]
  simp [toNat_byte h, Function.comp_def]

/-! ## A conforming station (R53 to R56) -/

/-- Functions have the same code only where they are the same (R50). -/
theorem LineFunction.code_inj {f g : LineFunction} : f.code = g.code ↔ f = g := by
  cases f <;> cases g <;> decide

section
variable {st : ConformingStation} {r : ExchangeRecord}

/-- The frame of a record, heard whole, is its request (R48, R53). -/
theorem ExchangeRecord.hearFrame_frame (h : r.data.length ≤ 32) :
    hearFrame r.frame = some { address := requestAddress r.station r.toggle, func := r.func.code, data := r.data } :=
  hearFrame_frameOfBytes _ _ (by omega)

/-- A station answers a request for itself that it hears whole (R53). -/
theorem ConformingStation.hear_request (h1 : 1 ≤ st.address) (h63 : st.address ≤ 63) (hst : r.station = st.address)
    (hd : r.data.length ≤ 32) (answer : StationAnswer) :
    st.hear r.frame true answer =
      ((st.answerRequest r.toggle r.func.code r.data answer).1, some (st.answerRequest r.toggle r.func.code r.data answer).2) := by
  obtain ⟨haddr, htoggle, hdir⟩ := requestAddress_fields h63 r.toggle
  unfold ConformingStation.hear
  rw [ExchangeRecord.hearFrame_frame hd, hst]
  dsimp only
  rw [haddr, htoggle, hdir, if_neg (by simp), if_neg (by omega), if_pos rfl]

/-- A station takes a broadcast that it hears whole, and does not answer it (R53, R56). -/
theorem ConformingStation.hear_broadcast (hst : r.station = 0) (hd : r.data = []) (answer : StationAnswer) :
    st.hear r.frame true answer = (st.takeBroadcast r.func.code, none) := by
  obtain ⟨haddr, -, hdir⟩ := requestAddress_fields (Nat.zero_le 63) r.toggle
  unfold ConformingStation.hear
  rw [ExchangeRecord.hearFrame_frame (by simp [hd]), hst]
  dsimp only
  rw [haddr, hdir, if_neg (by simp), if_pos rfl]

/-- A station does nothing with a frame that it does not hear whole (R53). -/
theorem ConformingStation.hear_broken (chars : List LineChar) (answer : StationAnswer) :
    st.hear chars false answer = (st, none) := by
  unfold ConformingStation.hear
  split <;> rfl

/-- A request that the memory holds, other than PROBE, is answered from it (R54, R55). -/
theorem ConformingStation.answerRequest_of_memory {mem : StationMemory} (hm : st.memory = some mem) (ht : mem.toggle = r.toggle)
    (hf : mem.func = r.func.code) (hp : r.func ≠ .probe) (data : List Byte) (answer : StationAnswer) :
    st.answerRequest r.toggle r.func.code data answer = (st, mem.reply) := by
  unfold ConformingStation.answerRequest
  rw [hm]
  exact if_pos ⟨ht, hf, fun h => hp (LineFunction.code_inj.1 h)⟩

/-- Any other request is executed (R54, R55). -/
theorem ConformingStation.answerRequest_of_new
    (hm : ∀ mem, st.memory = some mem → mem.toggle ≠ r.toggle ∨ mem.func ≠ r.func.code ∨ r.func = .probe)
    (data : List Byte) (answer : StationAnswer) :
    st.answerRequest r.toggle r.func.code data answer = st.execute r.toggle r.func.code data answer := by
  unfold ConformingStation.answerRequest
  split
  · rename_i mem hmem
    refine if_neg (fun ⟨ht, hf, hp⟩ => ?_)
    rcases hm mem hmem with h | h | h
    · exact h ht
    · exact h hf
    · exact hp (congrArg LineFunction.code h)
  · rfl

/-- A station keeps its address. -/
theorem ConformingStation.answerRequest_address (st : ConformingStation) (toggle : Bool) (func : Byte) (data : List Byte)
    (answer : StationAnswer) : (st.answerRequest toggle func data answer).1.address = st.address := by
  unfold ConformingStation.answerRequest
  split
  · split <;> rfl
  · rfl

/-- After a request has been answered the memory holds it (R54). -/
theorem ConformingStation.memory_answerRequest (hp : r.func ≠ .probe) (data : List Byte) (answer : StationAnswer) :
    ∃ mem, (st.answerRequest r.toggle r.func.code data answer).1.memory = some mem ∧ mem.toggle = r.toggle ∧
      mem.func = r.func.code ∧ mem.reply = (st.answerRequest r.toggle r.func.code data answer).2 := by
  by_cases h : ∃ mem, st.memory = some mem ∧ mem.toggle = r.toggle ∧ mem.func = r.func.code
  · obtain ⟨mem, hm, ht, hf⟩ := h
    rw [ConformingStation.answerRequest_of_memory hm ht hf hp]
    exact ⟨mem, hm, ht, hf, rfl⟩
  · rw [ConformingStation.answerRequest_of_new (fun mem hm => by
      by_contra hc
      simp only [not_or, ne_eq, not_not] at hc
      exact h ⟨mem, hm, hc.1, hc.2.1⟩)]
    exact ⟨_, rfl, rfl, rfl, rfl⟩

end

/-- An EXCHANGE suits a station whose outputs it numbers (R50). -/
theorem ConformingStation.suits_exchange (st : ConformingStation) (data : List Byte) :
    st.suits LineFunction.exchange.code data = true ↔ data.length = st.safe.length := beq_iff_eq

/-- The data of an ACCEPT reply are what R50 gives for the function (R50, R55). -/
theorem ConformingStation.acceptData_fits (st : ConformingStation) (f : LineFunction) (answer : StationAnswer) :
    (f = .exchange ∨ f = .sample → st.acceptData f.code answer = st.inputs) ∧
      (f = .probe → st.acceptData f.code answer = le16 st.kind ++ [byte st.inputs.length, byte st.safe.length]) ∧
      (f = .paramRead → 1 ≤ (st.acceptData f.code answer).length ∧ (st.acceptData f.code answer).length ≤ 16) ∧
      (f = .paramWrite → st.acceptData f.code answer = []) := by
  refine ⟨?_, ?_, ?_, ?_⟩
  · rintro (rfl | rfl) <;> rfl
  · rintro rfl
    rfl
  · rintro rfl
    change 1 ≤ answer.value.bytes.length ∧ answer.value.bytes.length ≤ 16
    simp [ParamValue.bytes]
  · rintro rfl
    rfl

/-- Settles O29: a request in the memory is replayed, any other is executed and then remembered. -/
theorem conformingStationExecutesARequestOnce : Obligations.ConformingStationExecutesARequestOnce := by
  intro st r answer h1 h63 _ _ hst hd _ _
  have heard (st' : ConformingStation) (ha : st'.address = st.address) (ans : StationAnswer) :=
    ConformingStation.hear_request (st := st') (r := r) (ha ▸ h1) (ha ▸ h63) (hst.trans ha.symm) hd ans
  refine ⟨fun mem hm ht hf hp => ?_, fun hnew => ?_, fun hp again => ?_, fun q hq _ hqd => ⟨?_, ?_, ?_⟩,
    ConformingStation.hear_broken _ _⟩
  · rw [heard st rfl, ConformingStation.answerRequest_of_memory hm ht hf hp]
  · rw [heard st rfl, ConformingStation.answerRequest_of_new hnew]
    obtain ⟨hinputs, hident, hvalue, hnone⟩ := st.acceptData_fits r.func answer
    refine ⟨st.statusFor r.func.code r.data answer,
      if st.statusFor r.func.code r.data answer = .accept then st.acceptData r.func.code answer else [],
      (st.execute r.toggle r.func.code r.data answer).1.outputs, ?_, fun h => if_neg h, fun h => ?_, fun hf hl _ => ?_,
      fun hf hl hh => ?_, fun hno => ?_, fun hf hh ha => ?_⟩
    · simp only [ConformingStation.execute, ConformingStation.replyTo, LineFunction.code_inj]
    · rw [if_pos h]
      exact ⟨hinputs, hident, hvalue, hnone⟩
    · have hs : st.suits LineFunction.exchange.code r.data = false := by
        rw [← Bool.not_eq_true, ConformingStation.suits_exchange]
        exact hl
      simp [ConformingStation.statusFor, hf, hs]
    · have hs := (ConformingStation.suits_exchange st r.data).2 hl
      simp [ConformingStation.statusFor, hf, hs, hh]
    · refine if_neg (fun ⟨hf, hh, ha⟩ => ?_)
      rcases hno with h | h | h
      · exact h (LineFunction.code_inj.1 hf)
      · rw [hh] at h
        cases h
      · exact h ha
    · exact if_pos ⟨congrArg LineFunction.code hf, hh, ha⟩
  · obtain ⟨mem, hm, ht, hf, hr⟩ := ConformingStation.memory_answerRequest (st := st) hp r.data answer
    rw [heard st rfl, heard _ (ConformingStation.answerRequest_address ..),
      ConformingStation.answerRequest_of_memory hm ht hf hp, hr]
  · intro hf hh
    rw [ConformingStation.hear_broadcast hq hqd, hf, ConformingStation.takeBroadcast, if_pos rfl, hh]
    rfl
  · intro hf hh
    rw [ConformingStation.hear_broadcast hq hqd, hf, ConformingStation.takeBroadcast, if_pos rfl, if_pos hh]
  · intro hf
    rw [ConformingStation.hear_broadcast hq hqd, hf, ConformingStation.takeBroadcast, if_neg (by decide), if_pos rfl]

end Sys2Proof.Machine
end

section
/-! A reply received whole, character by character, and its classification (R45, R46, R49, R65 to R68): O30. -/

namespace Sys2Proof.Machine

/-! ## Characters of a reply in assembly (R45, R46, R65, R66) -/

/-- Samples that agree on the bits of a character are read as that character, whole and clean (R45, R46). -/
theorem classify_cleanSamples (c : LineChar) :
    classify (cleanSamples c) = { value := c.value, mark := c.mark, broken := false, noisy := false } := by
  have hmaj (b : Bool) : BitSamples.majority ⟨b, b, b⟩ = b := by cases b <;> rfl
  have hvalue : (classify (cleanSamples c)).value = c.value := by
    refine BitVec.eq_of_getLsbD_eq (fun i hi => ?_)
    rw [getLsbD_classify (cleanSamples c) ⟨i, hi⟩]
    simp [cleanSamples, hmaj, -BitVec.getLsbD_eq_getElem]
  have hnoisy : (classify (cleanSamples c)).noisy = false := by
    rw [← Bool.not_eq_true, classify_noisy_iff]
    rintro ⟨_, ⟨k, rfl⟩ | rfl | rfl, h⟩
    · simp [cleanSamples, BitSamples.agree] at h
    · simp [cleanSamples, BitSamples.agree] at h
    · cases h
  have hmark : (classify (cleanSamples c)).mark = c.mark := hmaj c.mark
  unfold classify
  rw [RxChar.mk.injEq]
  exact ⟨hvalue, hmark, rfl, hnoisy⟩

/-- A clean character as the receiver hands it to the engine. -/
def LineChar.received (c : LineChar) : RxChar := { value := c.value, mark := c.mark, broken := false, noisy := false }

/-- The record with the characters given as its reply. -/
def ExchangeRecord.withReply (r : ExchangeRecord) (reply : List LineChar) : ExchangeRecord := { r with reply := reply }

/-- The state in RECEIVING with the characters given in the reply in assembly, the gap timer as given, and the receiver seeking
the next edge (R66). -/
def State.assembling (s : State) (r : ExchangeRecord) (reply : List LineChar) (gap : Option Nat) : State :=
  { s with
    line := { s.line with rx := .seeking }
    engine := { s.engine with
      state := .receiving, record := some (r.withReply reply), replyTimer := none, gapTimer := gap } }

/-- Commands run behind those that come to a next state. -/
theorem runCommands_append {cs ds : List Instr} {s t : State} (h : runCommands cs s = .next t) :
    runCommands (cs ++ ds) s = runCommands ds t := by
  induction cs generalizing s with
  | nil =>
    cases h
    rfl
  | cons c cs ih =>
    rw [List.cons_append, runCommands]
    rw [runCommands] at h
    split at h
    · exact ih h
    · cases h
    · cases h

section
variable {s u : State} {r : ExchangeRecord} {reply : List LineChar} {c : LineChar} {gap : Option Nat}

/-- A start bit and the clean bits behind it, where the start bit brings the engine to a reply in assembly: the engine judges the
character there (R65, R66). -/
theorem State.run_character (hn : ¬u.standsReport) (he : u.seesEdges)
    (hu : { u with line := { u.line with rx := .seeking }, engine := u.engine.startDetected } = s.assembling r reply gap) :
    runCommands (lineReceptionOf [c]) u = .next ((s.assembling r reply gap).receiveChar c.received) := by
  have hstart : exec (.startDetected ⟨false, false, false⟩) u =
      .next { u with line := { u.line with rx := .receiving u.line.rateIndex }, engine := u.engine.startDetected } := by
    rw [State.exec_startDetected hn, if_pos (u.seesEdges_iff.1 he)]
    rfl
  have hheard : State.hears
      { u with line := { u.line with rx := .receiving u.line.rateIndex }, engine := u.engine.startDetected }
      (.characterDelivered (cleanSamples c)) (classify (cleanSamples c)) := Or.inl ⟨_, _, rfl, rfl, rfl⟩
  have hchar := hheard.exec hn
  have hstate : u.engine.startDetected.state = .receiving := congrArg (fun v : State => v.engine.state) hu
  have hdeliver (v : State) (hv : v.engine.state = .receiving) : v.deliverChar c.received = v.receiveChar c.received := by
    unfold State.deliverChar
    simp only [State.countLine_engine, hv]
    rfl
  rw [classify_cleanSamples] at hchar
  change runCommands [.startDetected ⟨false, false, false⟩, .characterDelivered (cleanSamples c)] u = _
  rw [runCommands, hstart]
  dsimp only
  rw [runCommands, hchar, ← hu]
  exact congrArg _ (hdeliver _ hstate)

/-- A character received in RECEIVING is judged there, the gap timer having been stopped by its start bit (R66). -/
theorem State.run_next (hn : ¬s.standsReport) :
    runCommands (lineReceptionOf [c]) (s.assembling r reply gap) =
      .next ((s.assembling r reply none).receiveChar c.received) :=
  State.run_character (u := s.assembling r reply gap) hn (by simp [State.seesEdges, State.assembling]) rfl

/-- A character that neither spoils nor completes the reply is added to it (R66). -/
theorem State.receiveChar_assembling (hb : c.received.breaksReply reply.length = false)
    (hc : (r.withReply (reply ++ [c])).replyComplete = false) :
    (s.assembling r reply gap).receiveChar c.received = s.assembling r (reply ++ [c]) (some Config.gapLimitCT) := by
  unfold State.receiveChar
  change (if c.received.breaksReply reply.length = true then _ else
    if (r.withReply (reply ++ [c])).replyComplete = true then _ else _) = _
  rw [hb, hc]
  rfl

/-- The character that completes the reply has it classified (R66, R67). -/
theorem State.receiveChar_completing (hb : c.received.breaksReply reply.length = false)
    (hc : (r.withReply (reply ++ [c])).replyComplete = true) :
    (s.assembling r reply gap).receiveChar c.received =
      (s.assembling r (reply ++ [c]) none).classifyReply (r.withReply (reply ++ [c])) := by
  unfold State.receiveChar
  change (if c.received.breaksReply reply.length = true then _ else
    if (r.withReply (reply ++ [c])).replyComplete = true then _ else _) = _
  rw [hb, hc]
  rfl

/-- The value of a reply's character does not depend on what follows it. -/
theorem ExchangeRecord.replyByte_append {i : Nat} (more : List LineChar) (h : i < reply.length) :
    (r.withReply (reply ++ more)).replyByte i = (r.withReply reply).replyByte i := by
  unfold ExchangeRecord.replyByte
  exact congrArg (fun x => (Option.map LineChar.value x).getD 0) (List.getElem?_append_left h)

/-- The characters are a reply of the length that their third says, at most 32 (R49, R66). -/
def ExchangeRecord.WholeReply (r : ExchangeRecord) (chars : List LineChar) : Prop :=
  chars.length = ((r.withReply chars).replyByte 2).toNat + 4 ∧ ((r.withReply chars).replyByte 2).toNat ≤ 32

section
variable {more : List LineChar}

/-- A beginning of a whole reply is complete where it is all of it (R66). -/
theorem ExchangeRecord.WholeReply.replyComplete_iff (h : r.WholeReply (reply ++ c :: more)) :
    (r.withReply (reply ++ [c])).replyComplete = true ↔ more = [] := by
  obtain ⟨hlen, -⟩ := h
  have hlength : (reply ++ c :: more).length = (reply ++ [c]).length + more.length := by simp; omega
  unfold ExchangeRecord.replyComplete
  change (decide (3 ≤ (reply ++ [c]).length) && (reply ++ [c]).length == _) = true ↔ _
  rw [Bool.and_eq_true, decide_eq_true_eq, beq_iff_eq, ← List.length_eq_zero_iff]
  by_cases h3 : 3 ≤ (reply ++ [c]).length
  · rw [List.append_cons, ExchangeRecord.replyByte_append more h3, ← List.append_cons] at hlen
    omega
  · omega

/-- A character of a whole reply behind its first, with no mark bit, spoils nothing (R66). -/
theorem ExchangeRecord.WholeReply.breaksReply_eq_false (h : r.WholeReply (reply ++ c :: more)) (hr : reply ≠ [])
    (hm : c.mark = false) : c.received.breaksReply reply.length = false := by
  obtain ⟨-, hle⟩ := h
  have hpos := List.length_pos_iff.2 hr
  have hthird (h2 : reply.length = 2) : c.value.toNat ≤ 32 := by
    have hc : (r.withReply (reply ++ c :: more)).replyByte 2 = c.value := by
      simp [ExchangeRecord.replyByte, ExchangeRecord.withReply, ← h2]
    rwa [hc] at hle
  simpa [RxChar.breaksReply, LineChar.received, Nat.ne_of_gt hpos, hm] using hthird

/-- The clean characters behind the first of a whole reply, each within the gap limit: it is classified at its last (R66). -/
theorem State.run_rest {full : List LineChar} (hn : ¬s.standsReport) (hfull : reply ++ c :: more = full)
    (hw : r.WholeReply full) (hr : reply ≠ []) (hm : ∀ d ∈ c :: more, d.mark = false) :
    runCommands (lineReceptionOf (c :: more)) (s.assembling r reply (some Config.gapLimitCT)) =
      .next ((s.assembling r full none).classifyReply (r.withReply full)) := by
  induction more generalizing reply c with
  | nil =>
    subst hfull
    rw [State.run_next hn,
      State.receiveChar_completing (hw.breaksReply_eq_false hr (hm c List.mem_cons_self)) (hw.replyComplete_iff.2 rfl)]
  | cons d more ih =>
    have hw' : r.WholeReply (reply ++ c :: d :: more) := hfull ▸ hw
    have hc : (r.withReply (reply ++ [c])).replyComplete = false := by
      rw [← Bool.not_eq_true, hw'.replyComplete_iff]
      nofun
    have hrun : runCommands (lineReceptionOf [c]) (s.assembling r reply (some Config.gapLimitCT)) =
        .next (s.assembling r (reply ++ [c]) (some Config.gapLimitCT)) := by
      rw [State.run_next hn,
        State.receiveChar_assembling (hw'.breaksReply_eq_false hr (hm c List.mem_cons_self)) hc]
    have happend : lineReceptionOf (c :: d :: more) = lineReceptionOf [c] ++ lineReceptionOf (d :: more) := rfl
    rw [happend, runCommands_append hrun]
    exact ih (by rw [← hfull, List.append_assoc, List.singleton_append]) (by simp)
      (fun e he => hm e (List.mem_cons_of_mem _ he))

end

/-- The clean characters of a whole reply, awaited, each within the gap limit: it is classified at its last (R65, R66). -/
theorem State.run_reply {first second : LineChar} {more full : List LineChar} (hn : ¬s.standsReport) (he : s.seesEdges)
    (hs : s.engine.state = .awaiting) (hr : s.engine.record = some r) (hfull : full = first :: second :: more)
    (hw : r.WholeReply full) (hmark : first.mark = true) (hunmarked : ∀ d ∈ second :: more, d.mark = false) :
    runCommands (lineReceptionOf full) s = .next ((s.assembling r full none).classifyReply (r.withReply full)) := by
  have hfirst : runCommands (lineReceptionOf [first]) s = .next (s.assembling r [first] (some Config.gapLimitCT)) := by
    have hstart : { s with line := { s.line with rx := .seeking }, engine := s.engine.startDetected } =
        s.assembling r [] s.engine.gapTimer := by
      simp [State.assembling, Engine.startDetected, hs, hr, ExchangeRecord.withReply]
    rw [State.run_character hn he hstart,
      State.receiveChar_assembling (by simp [RxChar.breaksReply, LineChar.received, hmark]) rfl]
    rfl
  have happend : lineReceptionOf full = lineReceptionOf [first] ++ lineReceptionOf (second :: more) := by
    rw [hfull]
    rfl
  rw [happend, runCommands_append hfirst]
  exact State.run_rest hn hfull.symm hw (by simp) hunmarked

/-- A reply classified where its station's profile stands, in the words of the statements (R67, R68). -/
theorem State.classifyReply_assembling {p : Profile} (hp : (s.entry r.station).profile = some p) :
    (s.assembling r reply none).classifyReply (r.withReply reply) =
      State.afterAttempt { s with line := { s.line with rx := .seeking } } (r.withReply reply)
        ((r.withReply reply).judge (lengthSuits r.func (some p) (Config.absentProfileSuits s.freeDraws)
          ((r.withReply reply).replyByte 2).toNat)) := by
  have hreads : (s.assembling r reply none).readsAbsentProfile (r.withReply reply) = false := by
    change (_ && (s.entry r.station).profile.isNone) = false
    rw [hp, Option.isNone_some, Bool.and_false]
  rw [← hp]
  unfold State.classifyReply
  dsimp only
  rw [hreads, State.classifyAttempt_eq (r := r.withReply reply) rfl]
  rfl

end

/-! ## The judgement of a whole reply (R50, R67, R68) -/

/-- The outcome that a reply of the status given brings an attempt, its length suiting the function (R67). -/
def ReplyStatus.outcome : ReplyStatus → AttemptOutcome
  | .accept => .good
  | .refuse => .refused
  | .notReady => .notReady

/-- A reply frame: address, status, length, data and check, the first with the mark bit (R49, R51). -/
theorem replyFrame_eq (a : Nat) (t : Bool) (status : ReplyStatus) (data : List Byte) :
    replyFrame a t status data = ⟨replyAddress a t, true⟩ :: ⟨status.code, false⟩ :: ⟨byte data.length, false⟩ ::
      (data ++ [crc8 ([replyAddress a t, status.code, byte data.length] ++ data)]).map (fun b => ⟨b, false⟩) := rfl

/-- A reply frame is a whole reply (R49). -/
theorem ExchangeRecord.wholeReply_replyFrame (r : ExchangeRecord) (a : Nat) (t : Bool) (status : ReplyStatus)
    {data : List Byte} (h : data.length ≤ 32) : r.WholeReply (replyFrame a t status data) := by
  have hbyte : ((r.withReply (replyFrame a t status data)).replyByte 2).toNat = data.length := toNat_byte (by omega)
  refine ⟨?_, ?_⟩
  · rw [hbyte, replyFrame_eq]
    simp
  · rw [hbyte]
    exact h

/-- The length that R50 gives the reply of a function suits it (R67, test 6). -/
theorem lengthSuits_of_fits {f : LineFunction} {p : Profile} {n : Nat} (h : replyLengthFits f p n) (absent : Bool) :
    lengthSuits f (some p) absent n = true := by
  cases f <;> simp only [replyLengthFits] at h <;> simp [lengthSuits, h]

/-- A reply frame of the station asked, echoing its T, of a length that suits, is judged by its status (R67). -/
theorem ExchangeRecord.judge_replyFrame {r : ExchangeRecord} (hst : r.station ≤ 63) {status : ReplyStatus} (data : List Byte)
    {suits : Bool} (hsuits : status = .accept → suits = true) :
    (r.withReply (replyFrame r.station r.toggle status data)).judge suits = status.outcome := by
  obtain ⟨haddr, htoggle, hdir⟩ := replyAddress_fields hst r.toggle
  have hvalues : (replyFrame r.station r.toggle status data).map LineChar.value =
      ([replyAddress r.station r.toggle, status.code, byte data.length] ++ data) ++
        [crc8 ([replyAddress r.station r.toggle, status.code, byte data.length] ++ data)] := values_frameOfBytes _ _
  have hstatus : (r.withReply (replyFrame r.station r.toggle status data)).replyStatus = some status :=
    decodeStatus_eq_some.2 rfl
  have hbyte : (r.withReply (replyFrame r.station r.toggle status data)).replyByte 0 = replyAddress r.station r.toggle := rfl
  unfold ExchangeRecord.judge
  dsimp only
  rw [show (r.withReply (replyFrame r.station r.toggle status data)).reply = replyFrame r.station r.toggle status data from rfl,
    hvalues, List.dropLast_concat, List.getLastD_concat, if_neg (not_not.2 rfl), hbyte, if_neg (by simp [haddr, hdir]; rfl),
    hstatus]
  dsimp only
  rw [htoggle]
  refine (if_neg (not_not.2 rfl)).trans ?_
  cases status with
  | accept => exact if_pos (hsuits rfl)
  | refuse => rfl
  | notReady => rfl

/-- Settles O30: the reply is classified at its last character, and its length suits where it must. -/
theorem replyOfTheStationIsClassifiedByItsStatus : Obligations.ReplyOfTheStationIsClassifiedByItsStatus := by
  intro s r p status data hn he hs hr hp hdata hfits
  obtain ⟨-, h63⟩ := State.valid_of_profile hp
  have hw := r.wholeReply_replyFrame r.station r.toggle status hdata
  have hrun := State.run_reply hn he hs hr (replyFrame_eq ..) hw rfl (by simp +contextual [or_imp])
  have houtcome := r.judge_replyFrame h63 data
    (suits := lengthSuits r.func (some p) (Config.absentProfileSuits s.freeDraws) data.length)
    (fun ha => lengthSuits_of_fits (hfits ha) _)
  have hbyte : ((r.withReply (replyFrame r.station r.toggle status data)).replyByte 2).toNat = data.length :=
    toNat_byte (by omega)
  rw [hrun, State.classifyReply_assembling hp, hbyte, houtcome]
  cases status <;> rfl

end Sys2Proof.Machine
end

section
/-! HELLO and STATUS, block by block (R59, R60, R138, R143 to R145, R164; log entries 4, 13, 17): O8. -/

namespace Sys2Proof.Machine

/-! ## What a message reads, in the words of the statements -/

/-- The message of a kind of reading: HELLO with no payload, STATUS with its clear flag (R163). -/
def ReadKind.readBy (k : ReadKind) (m : Message) : Prop :=
  match k with
  | .hello => m.type = 0x01 ∧ m.payload = []
  | .status clear => m.type = 0x03 ∧ m.payload = [flag clear]

theorem Message.readKind_eq_some {m : Message} {k : ReadKind} : m.readKind = some k ↔ k.readBy m := by
  have hhello : (parseEmpty m.payload).map (fun _ => ReadKind.hello) = some k ↔ k = .hello ∧ m.payload = [] := by
    cases m.payload <;> simp [parseEmpty, eq_comm]
  have hflag (clear : Bool) : (parseOne m.payload).bind decodeFlag = some clear ↔ m.payload = [flag clear] := by
    rcases m.payload with _ | ⟨b, _ | ⟨c, more⟩⟩ <;> simp [parseOne, decodeFlag_eq_some]
  have hstatus : ((parseOne m.payload).bind decodeFlag).map ReadKind.status = some k ↔
      ∃ clear, m.payload = [flag clear] ∧ .status clear = k := by
    simp only [Option.map_eq_some_iff, hflag]
  unfold Message.readKind ReadKind.readBy
  by_cases h1 : m.type = typeHello
  · rw [if_pos h1, hhello]
    cases k <;> simp [h1, typeHello]
  · rw [if_neg h1]
    by_cases h3 : m.type = typeStatus
    · rw [if_pos h3, hstatus]
      cases k <;> simp [h3, typeStatus]
    · rw [if_neg h3]
      cases k
      · exact ⟨nofun, fun h => absurd h.1 h1⟩
      · exact ⟨nofun, fun h => absurd h.1 h3⟩

/-- A message is decided by reading several blocks exactly if it reads some (R138). -/
theorem Message.readsBlocks_iff (m : Message) : m.readsBlocks ↔ ∃ k : ReadKind, k.readBy m := by
  constructor
  · rintro (h | ⟨ht, hp | hp⟩)
    · exact ⟨.hello, h⟩
    · exact ⟨.status false, ht, hp⟩
    · exact ⟨.status true, ht, hp⟩
  · rintro ⟨k, h⟩
    match k, h with
    | .hello, h => exact Or.inl h
    | .status false, ⟨ht, hp⟩ => exact Or.inr ⟨ht, Or.inl hp⟩
    | .status true, ⟨ht, hp⟩ => exact Or.inr ⟨ht, Or.inr hp⟩

section
variable {s : State} {m : Message} {k : ReadKind} {reads : List (ReadBlock × List Byte)}

/-- The readings are those of the blocks, in their order (R144, R145, R164). -/
theorem ReadKind.readBy.readings (h : k.readBy m) (s : State) :
    s.readings m = k.blocks.map (fun b => (b, s.blockBytes k b)) := by
  cases k with
  | hello =>
    rw [State.readings, if_pos h.1]
    rfl
  | status clear =>
    rw [State.readings, if_neg (by rw [h.1]; decide)]
    simp [ReadKind.blocks, State.blockBytes, LineStats.bytes, LinkStats.bytes]

/-- The body of the readings made and of those left (R144, R145, R164). -/
theorem ReadKind.readBy.body (h : k.readBy m) (s : State) (reads : List (ReadBlock × List Byte)) :
    k.body (reads ++ (k.left reads).map (fun b => (b, s.blockBytes k b))) = s.readBody m reads := by
  unfold ReadKind.body State.readBody
  rw [h.readings, List.flatMap_map]
  congr 1
  · cases k with
    | hello =>
      rw [if_pos h.1]
      rfl
    | status clear =>
      rw [if_neg (by rw [h.1]; decide)]
      rfl
  · exact List.flatMap_congr (fun b hb => k.lookup_left reads _ hb)

/-- A message clears as it reads exactly if it is a clearing STATUS (R60, R145). -/
theorem ReadKind.readBy.clears (h : k.readBy m) : m.type = 0x03 ∧ m.payload = [1] ↔ k = .status true := by
  cases k with
  | hello => simp [h.1]
  | status clear => cases clear <;> simp [h.1, h.2, flag]

/-- What is cleared in reading the blocks given, of which `reads` holds some already (R60, R145). -/
theorem ReadKind.readBy.clearedBy (h : k.readBy m) {blocks bs : List ReadBlock}
    (hb : ∀ b, b = .linePort ∨ b = .hostLink → k = .status true → (b ∈ bs ↔ b ∈ blocks ∧ b ∉ reads.map Prod.fst))
    (s : State) :
    s.clearedBy m blocks reads = s.clearedOf k bs := by
  have hcond (b : ReadBlock) (hl : b = .linePort ∨ b = .hostLink) :
      (m.type = 0x03 ∧ m.payload = [1] ∧ b ∈ blocks ∧ b ∉ reads.map Prod.fst) ↔ (k = .status true ∧ b ∈ bs) := by
    rw [← and_assoc, h.clears]
    exact and_congr_right (fun hk => (hb b hl hk).symm)
  unfold State.clearedBy State.clearedOf
  simp only [hcond .linePort (Or.inl rfl), hcond .hostLink (Or.inr rfl)]

/-- What is left to be read: the blocks that no reading made names. -/
theorem ReadKind.mem_left (k : ReadKind) (reads : List (ReadBlock × List Byte)) (b : ReadBlock) :
    b ∈ k.left reads ↔ b ∈ k.blocks ∧ b ∉ reads.map Prod.fst := by
  simp [ReadKind.left, List.mem_filter]

/-- A message that is no clearing STATUS clears nothing. -/
theorem State.clearedBy_of_not_clearing (h : ¬(m.type = 0x03 ∧ m.payload = [1])) (s : State) (blocks : List ReadBlock) :
    s.clearedBy m blocks reads = s := by
  have hno (p : Prop) : ¬(m.type = 0x03 ∧ m.payload = [1] ∧ p) := fun ⟨ht, hp, _⟩ => h ⟨ht, hp⟩
  unfold State.clearedBy
  rw [if_neg (hno _), if_neg (hno _)]

/-- A clearing STATUS that has read nothing yet sets both sets of statistics to 0 (R60, R145). -/
theorem State.clearedBy_of_clearing (ht : m.type = 0x03) (hp : m.payload = [1]) (s : State) :
    s.clearedBy m [.linePort, .hostLink] [] =
      { s with line := { s.line with stats := .zero }, host := { s.host with stats := .zero } } := by
  simp [State.clearedBy, ht, hp]

/-! ## The events of a reading (R138, R139) -/

/-- The blocks left read with no event between, and the response placed (R138, R139). -/
theorem State.readRest_answered (h : k.readBy m) (hp : s.host.processor = .deciding m reads) :
    (s.readRest k).1.placeResponse m (s.readRest k).2 =
      (s.clearedBy m [.linePort, .hostLink] reads).answered m s.host.inbound .ok (s.readBody m reads) := by
  have hcleared : s.clearedBy m [.linePort, .hostLink] reads = s.clearedOf k (k.left reads) :=
    h.clearedBy (fun b hb hk => by
      rw [k.mem_left, hk]
      rcases hb with rfl | rfl <;> simp [ReadKind.blocks]) s
  unfold State.readRest
  rw [hp, Processor.reads, State.foldl_readOne k m _ s reads hp (k.left_nodup reads), hcleared, ← h.body s reads]
  rfl

/-- HELLO or STATUS with its message being decided reads the blocks left (R138; log entry 17). -/
theorem State.finishReading_eq (h : k.readBy m) (hp : s.host.processor = .deciding m reads) :
    s.finishReading m.type =
      some ((s.clearedBy m [.linePort, .hostLink] reads).answered m s.host.inbound .ok (s.readBody m reads)) := by
  unfold State.finishReading
  rw [hp]
  dsimp only
  rw [if_pos rfl, Message.readKind_eq_some.2 h, Option.map_some]
  exact congrArg some (State.readRest_answered h hp)

theorem State.finishReading_of_idle (hp : s.host.processor = .idle) (type : Byte) : s.finishReading type = none := by
  unfold State.finishReading
  rw [hp]

/-- HELLO or STATUS offered is taken, every block is read, and the response placed (R138, R144, R145). -/
theorem State.offers.answersReading {α : Type} {mine : Byte → Bool} {parse : List Byte → Option α}
    {decide : α → State → State × Reply} {f : α} {rest : List Message} {type : Byte} (h : s.offers m rest type)
    (hm : mine type = true) (hp : parse m.payload = some f) (hd : ∀ u, decide f u = u.readRest k) (hk : k.readBy m) :
    takeCommand mine parse decide s =
      .next ((s.clearedBy m [.linePort, .hostLink] []).answered m rest .ok (s.readBody m [])) := by
  have hb := h.beginCommand
  obtain ⟨hin, rfl, hproc, hresp, hrst, hn⟩ := h
  have hfree : s.processorFree = true := by simp [State.processorFree, hproc, hresp, hrst]
  rw [takeCommand_of_parse hin hm hfree (State.dueReport_none_of_not hn) hp, hb, hd]
  exact congrArg _ (State.readRest_answered (s := s.taking m rest) hk rfl)

/-- The processor decides its command with no report taken (R141). -/
theorem State.takeDueReport_of_deciding (hp : s.host.processor = .deciding m reads) : s.takeDueReport = s :=
  State.takeDueReport_of_none (State.dueReport_of_deciding (by rw [hp]; nofun))

/-- A tick while HELLO or STATUS is being decided is the next event of its reading (R138). -/
theorem State.tick_of_deciding (h : k.readBy m) (hp : s.host.processor = .deciding m reads) : s.tick = s.readNext m k := by
  unfold State.tick State.processorTurn
  rw [State.takeDueReport_of_deciding hp, hp]
  dsimp only
  rw [Message.readKind_eq_some.2 h]

/-- With no block left the response is placed (R139). -/
theorem State.readNext_of_none_left (h : k.readBy m) (hp : s.host.processor = .deciding m reads) (hl : k.left reads = []) :
    s.readNext m k = s.answered m s.host.inbound .ok (s.readBody m reads) := by
  have hbody := h.body s reads
  rw [hl, List.map_nil, List.append_nil] at hbody
  unfold State.readNext
  rw [hp, Processor.reads, hl, ← hbody]
  rfl

/-- With blocks left one of them is read, and in reading it a clearing STATUS clears it (R138, R145). -/
theorem State.readNext_of_left (h : k.readBy m) (hp : s.host.processor = .deciding m reads) (hl : k.left reads ≠ []) :
    ∃ b ∈ k.left reads, s.readNext m k = { s.clearedBy m [b] reads with
      freeDraws := s.freeDraws + 1
      host := { (s.clearedBy m [b] reads).host with processor := .deciding m (reads ++ [(b, s.blockBytes k b)]) } } := by
  have hlt := Nat.mod_lt (Config.readChoice s.freeDraws) (List.length_pos_iff.2 hl)
  obtain ⟨b, hb⟩ : ∃ b, (k.left reads)[Config.readChoice s.freeDraws % (k.left reads).length]? = some b :=
    ⟨_, List.getElem?_eq_getElem hlt⟩
  have hmem := List.mem_of_getElem? hb
  have hnew := ((k.mem_left reads b).1 hmem).2
  have hone := State.foldl_readOne k m [b] s reads hp (List.nodup_singleton b)
  have hcleared : s.clearedBy m [b] reads = s.clearedOf k [b] :=
    h.clearedBy (fun c _ _ => by
      rw [List.mem_singleton]
      exact ⟨fun hc => ⟨hc, hc ▸ hnew⟩, And.left⟩) s
  refine ⟨b, hmem, ?_⟩
  unfold State.readNext
  rw [hp, Processor.reads]
  dsimp only
  rw [hb, hcleared]
  dsimp only
  rw [show s.readOne k b = [b].foldl (State.readOne k) s from rfl, hone]
  rfl

/-- Nothing is left exactly where every reading has been made. -/
theorem ReadKind.readBy.left_eq_nil (h : k.readBy m) (s : State) (reads : List (ReadBlock × List Byte)) :
    k.left reads = [] ↔ ∀ x ∈ s.readings m, x.1 ∈ reads.map Prod.fst := by
  rw [h.readings, List.forall_mem_map, List.eq_nil_iff_forall_not_mem]
  refine forall_congr' (fun b => ?_)
  rw [k.mem_left, not_and, not_not]

/-- The idle processor takes a message that reads blocks, and nothing else (R138). -/
theorem State.tick_of_idle (hn : ¬s.standsReport) (hp : s.host.processor = .idle) : s.tick = s.beginReading := by
  unfold State.tick State.processorTurn
  rw [State.takeDueReport_of_not_stands hn, hp]

theorem State.beginReading_of_offers {rest : List Message} (h : s.offers m rest m.type) (hk : k.readBy m) :
    s.beginReading = s.taking m rest := by
  have hb := h.beginCommand
  obtain ⟨hin, -, hproc, hresp, hrst, -⟩ := h
  unfold State.beginReading
  rw [hin]
  simp [State.processorFree, hproc, hresp, hrst, Message.readKind_eq_some.2 hk, hb]

theorem State.beginReading_of_none (hn : ¬s.standsReport) (hno : ∀ q qs, s.offers q qs q.type → ¬q.readsBlocks) :
    s.beginReading = s := by
  unfold State.beginReading
  split
  · rfl
  · rename_i q qs hin
    refine if_neg (fun hc => ?_)
    simp only [Bool.and_eq_true, State.processorFree, beq_iff_eq, Option.isNone_iff_eq_none] at hc
    obtain ⟨⟨⟨hproc, hresp⟩, hrst⟩, hkind⟩ := hc
    obtain ⟨k, hk⟩ := Option.isSome_iff_exists.1 hkind
    exact hno q qs ⟨hin, rfl, hproc, hresp, hrst, hn⟩ (q.readsBlocks_iff.2 ⟨k, Message.readKind_eq_some.1 hk⟩)

/-- A tick takes the report that is due first (R141). -/
theorem State.tick_takeDueReport (s : State) : s.takeDueReport.tick = s.tick := by
  unfold State.tick
  rw [State.takeDueReport_of_none s.takeDueReport_dueReport]

end

/-! ## The two rows (R144, R145) -/

theorem exec_hello_of_idle {s : State} (hp : s.host.processor = .idle) :
    exec .hello s = takeCommand (· == typeHello) parseEmpty (fun _ s => s.readRest .hello) s := by
  change execHello s = _
  rw [execHello, State.finishReading_of_idle hp]

theorem exec_hello_of_deciding {s t : State} (h : s.finishReading 0x01 = some t) : exec .hello s = .next t := by
  change execHello s = _
  rw [execHello, typeHello, h]

theorem exec_status_of_idle {s : State} (hp : s.host.processor = .idle) :
    exec .status s = takeCommand (· == typeStatus) parseOne (fun f s => s.status f) s := by
  change execStatus s = _
  rw [execStatus, State.finishReading_of_idle hp]

theorem exec_status_of_deciding {s t : State} (h : s.finishReading 0x03 = some t) : exec .status s = .next t := by
  change execStatus s = _
  rw [execStatus, typeStatus, h]

section
variable {s : State} {m : Message} {rest : List Message}

/-- STATUS with an assigned flag reads its blocks (R145, R162). -/
theorem State.offers.answersStatus {clear : Bool} (h : s.offers m rest 0x03) (hpay : m.payload = [flag clear]) :
    exec .status s =
      .next ((s.clearedBy m [.linePort, .hostLink] []).answered m rest .ok (s.readBody m [])) := by
  obtain ⟨-, ht, hproc, -⟩ := id h
  rw [exec_status_of_idle hproc]
  refine h.answersReading (mine := (· == typeStatus)) (decide := fun (f : Byte) s => s.status f) (f := flag clear)
    (k := .status clear) rfl (by rw [hpay]; rfl) (fun u => ?_) ⟨ht, hpay⟩
  simp only [State.status, decodeFlag_eq_some.2 rfl]

end

/-- Settles O8: the row makes every reading that is left and a tick makes one, and what each reads and clears is the block's. -/
theorem helloAndStatusAnswerWhatTheyRead : Obligations.HelloAndStatusAnswerWhatTheyRead := by
  intro s m rest
  refine ⟨fun h hpay => ?_, fun clear h hpay => ⟨fun hc => ?_, fun hc => ?_, fun hc => ?_⟩, fun h hm => ?_,
    fun reads hp hm => ?_, fun hn hp hno => ?_, fun t hs ht => ?_⟩
  · obtain ⟨-, ht, hproc, -⟩ := id h
    rw [exec_hello_of_idle hproc, h.answersReading (mine := (· == typeHello)) (decide := fun _ s => s.readRest .hello)
      (k := .hello) rfl (by rw [hpay]; rfl) (fun _ => rfl) ⟨ht, hpay⟩, State.clearedBy_of_not_clearing (by simp [ht])]
  · obtain rfl : clear = 0 := by bv_omega
    rw [h.answersStatus (clear := false) hpay, State.clearedBy_of_not_clearing (by simp [hpay])]
  · obtain rfl : clear = 1 := by bv_omega
    obtain ⟨-, ht, -⟩ := id h
    rw [h.answersStatus (clear := true) hpay, State.clearedBy_of_clearing ht hpay]
  · obtain ⟨-, -, hproc, -⟩ := id h
    rw [exec_status_of_idle hproc]
    refine h.refuses (f := clear) rfl (by rw [hpay]; rfl) ?_
    simp only [State.status, decodeFlag_of_reserved hc]
  · obtain ⟨k, hk⟩ := m.readsBlocks_iff.1 hm
    obtain ⟨-, -, hproc, -, -, hn⟩ := id h
    rw [State.tick_of_idle hn hproc, State.beginReading_of_offers h hk]
  · obtain ⟨k, hk⟩ := m.readsBlocks_iff.1 hm
    refine ⟨?_, fun hall => ?_, fun hsome => ?_⟩
    · have hread := State.finishReading_eq hk hp
      cases k with
      | hello =>
        rw [if_pos hk.1]
        exact exec_hello_of_deciding (hk.1 ▸ hread)
      | status clear =>
        rw [if_neg (by rw [hk.1]; decide)]
        exact exec_status_of_deciding (hk.1 ▸ hread)
    · rw [State.tick_of_deciding hk hp, State.readNext_of_none_left hk hp ((hk.left_eq_nil s reads).2 hall)]
    · have hl : k.left reads ≠ [] := fun hnil => by
        obtain ⟨x, hx, hnot⟩ := hsome
        exact hnot ((hk.left_eq_nil s reads).1 hnil x hx)
      obtain ⟨b, hb, hnext⟩ := State.readNext_of_left hk hp hl
      obtain ⟨hblocks, hnew⟩ := (k.mem_left reads b).1 hb
      refine ⟨(b, s.blockBytes k b), _, ?_, hnew, rfl, (State.tick_of_deciding hk hp).trans hnext⟩
      rw [hk.readings]
      exact List.mem_map_of_mem hblocks
  · rw [State.tick_of_idle hn hp, State.beginReading_of_none hn hno]
  · rw [State.eq_takeDueReport (fun hn => absurd hs hn) (fun _ => ht), State.tick_takeDueReport]

end Sys2Proof.Machine
end

section
/-! The laws of hold and handover (R80, R149, R150, R153, R156 to R158) over every effect a command can have, and over every
step: O58. -/

namespace Sys2Proof.Machine

/-! ## The exchange in flight goes on -/

/-- `t` has the supervision unit of `s` and, if an exchange is in flight, one that is in flight in `s`, of the same function and
with the same no-retry flag. -/
def State.GoesOnIn (s t : State) : Prop :=
  t.sup = s.sup ∧
    ∀ r, t.engine.record = some r → ∃ q, s.engine.record = some q ∧ q.func = r.func ∧ q.noRetry = r.noRetry

theorem State.GoesOnIn.ofSame {s t : State} (h1 : t.sup = s.sup) (h2 : t.engine.record = s.engine.record) : s.GoesOnIn t :=
  ⟨h1, fun r hr => ⟨r, h2 ▸ hr, rfl, rfl⟩⟩

theorem State.GoesOnIn.ofNone {s t : State} (h1 : t.sup = s.sup) (h2 : t.engine.record = none) : s.GoesOnIn t :=
  ⟨h1, fun r hr => by rw [h2] at hr; cases hr⟩

theorem State.GoesOnIn.trans {s t u : State} (h : s.GoesOnIn t) (h' : t.GoesOnIn u) : s.GoesOnIn u := by
  obtain ⟨hsup, hrec⟩ := h
  obtain ⟨hsup', hrec'⟩ := h'
  refine ⟨hsup'.trans hsup, fun r hr => ?_⟩
  obtain ⟨q, hq, hfunc, hflag⟩ := hrec' r hr
  obtain ⟨p, hp, hfunc', hflag'⟩ := hrec q hq
  exact ⟨p, hp, hfunc'.trans hfunc, hflag'.trans hflag⟩

/-- The record rewritten in other fields than its function and its no-retry flag. -/
theorem State.GoesOnIn.mapRecord {s t : State} (F : ExchangeRecord → ExchangeRecord)
    (hF : ∀ r, (F r).func = r.func ∧ (F r).noRetry = r.noRetry) (h1 : t.sup = s.sup)
    (h2 : t.engine.record = s.engine.record.map F) : s.GoesOnIn t := by
  refine ⟨h1, fun r hr => ?_⟩
  rw [h2, Option.map_eq_some_iff] at hr
  obtain ⟨q, hq, rfl⟩ := hr
  exact ⟨q, hq, (hF q).1.symm, (hF q).2.symm⟩

/-- An attempt classified (R68). -/
theorem State.goesOn_classifyAttempt (s : State) (o : AttemptOutcome) : s.GoesOnIn (s.classifyAttempt o) :=
  .mapRecord (fun r => r.classified o) (fun _ => ⟨rfl, rfl⟩) rfl rfl

/-- A character taken into a reply (R66). -/
theorem State.goesOn_receiveChar (s : State) (c : RxChar) : s.GoesOnIn (s.receiveChar c) := by
  cases hq : s.engine.record with
  | none => rw [State.receiveChar, hq]; exact .ofSame rfl rfl
  | some q =>
    have append (n gap) : s.GoesOnIn { s.withReplyChar q c gap with freeDraws := n } :=
      ⟨rfl, fun r hr => ⟨q, hq, by cases hr; exact ⟨rfl, rfl⟩⟩⟩
    rcases State.receiveChar_eq hq c with he | ⟨n, o, he, -⟩ <;> rw [he]
    · exact append _ _
    · exact (append n none).trans (State.goesOn_classifyAttempt _ o)

/-- A finished character (R63, R65, R66, R70). -/
theorem State.goesOn_deliverChar (s : State) (c : RxChar) : s.GoesOnIn (s.deliverChar c) := by
  unfold State.deliverChar
  dsimp only
  split
  · exact .ofSame rfl rfl
  · exact State.goesOn_classifyAttempt (s.countLine _) .broken
  · exact State.goesOn_receiveChar (s.countLine _) c
  · exact .ofSame rfl rfl
  · exact .ofSame rfl rfl
  · exact .ofSame rfl rfl

/-- A start bit (R45, R65). -/
theorem State.goesOn_startBit (s : State) (b : BitSamples) : s.GoesOnIn (s.startBit b) := by
  unfold State.startBit Engine.startDetected
  split
  · exact .ofSame rfl rfl
  · dsimp only
    split
    · exact .mapRecord (fun r => { r with reply := [] }) (fun _ => ⟨rfl, rfl⟩) rfl rfl
    all_goals exact .ofSame rfl rfl

/-- The end of a frame (R64). -/
theorem State.goesOn_frameEnds (s : State) (r : ExchangeRecord) : s.GoesOnIn (s.frameEnds r) := by
  unfold State.frameEnds
  dsimp only
  split <;> exact .ofSame rfl rfl

/-- The end of a guard: the next attempt of the same exchange, or none in flight (R69, R71). -/
theorem State.goesOn_guardEnds (s : State) (order : List ReportSource) : s.GoesOnIn (s.guardEnds order) := by
  unfold State.guardEnds
  split
  · exact .ofNone rfl rfl
  · rename_i r hr
    split
    · exact ⟨rfl, fun q hq => ⟨r, hr, by cases hq; exact ⟨rfl, rfl⟩⟩⟩
    · exact .ofNone (by simp [State.endExchange]) rfl

/-- The jam limit: none is in flight behind it (R72). -/
theorem State.goesOn_lineJams (s : State) (order : List ReportSource) : s.GoesOnIn (s.lineJams order) := by
  cases hr : s.engine.record with
  | none => rw [State.lineJams_of_none hr]; exact .ofSame rfl rfl
  | some r => rw [State.lineJams_of_record hr]; exact .ofNone (by simp [State.jamCounted]) rfl

/-- A define and a remove set the discard flag of an exchange with the station alone (R79). -/
theorem State.goesOn_define (s : State) (a : Nat) (p : Profile) : s.GoesOnIn (s.define a p) := by
  rw [State.define_frame]
  exact .mapRecord _ (fun r => by split <;> exact ⟨rfl, rfl⟩) rfl rfl

theorem State.goesOn_remove (s : State) (a : Nat) : s.GoesOnIn (s.remove a) := by
  rw [State.remove_frame]
  exact .mapRecord _ (fun r => by split <;> exact ⟨rfl, rfl⟩) rfl rfl

/-- The commands of scheduler, image and ticket table touch neither the exchange in flight nor the supervision unit. -/
theorem State.goesOn_beginCycling (s : State) (mode : CycleMode) (f : StartFields) : s.GoesOnIn (s.beginCycling mode f) := by
  unfold State.beginCycling
  rw [State.abandonCycle_frame]
  exact .ofSame rfl rfl

theorem State.goesOn_stopAfterSlot (s : State) : s.GoesOnIn s.stopAfterSlot := by
  unfold State.stopAfterSlot
  split
  · exact .ofSame rfl rfl
  · exact .ofSame rfl rfl
  · split <;> exact .ofSame rfl rfl

theorem State.goesOn_stopAfterCycle (s : State) : s.GoesOnIn s.stopAfterCycle := by
  unfold State.stopAfterCycle
  split
  · exact .ofSame rfl rfl
  · exact .ofSame rfl rfl
  · split <;> exact .ofSame rfl rfl

theorem State.goesOn_applyItems (s : State) (items : List WriteItem) : s.GoesOnIn (s.applyItems items) := by
  rw [State.applyItems_frame]
  exact .ofSame rfl rfl

theorem State.goesOn_completeTicket (s : State) (id : Byte) (res : TicketResult) : s.GoesOnIn (s.completeTicket id res) := by
  rw [State.completeTicket_frame]
  exact .ofSame rfl rfl

/-! ## Hold forbids the retry (R80, R153) -/

/-- An exchange that goes on keeps the law of hold. -/
theorem HoldLaw.goesOn {s t : State} (h : HoldLaw s) (hst : s.GoesOnIn t) : HoldLaw t := by
  obtain ⟨hsup, hrec⟩ := hst
  intro hheld r hr hf
  obtain ⟨q, hq, hfunc, hflag⟩ := hrec r hr
  rw [State.isHeld_congr hsup] at hheld
  exact hflag ▸ h hheld q hq (by rw [hfunc]; exact hf)

/-- With no exchange in flight the law of hold says nothing. -/
theorem HoldLaw.ofNone {t : State} (h : t.engine.record = none) : HoldLaw t :=
  fun _ r hr => by rw [h] at hr; cases hr

/-- A hand-over of a function that may be started keeps the law of hold (R153). -/
theorem HoldLaw.handOver {s : State} {a : Nat} {f : LineFunction} {o : Origin} {d : List Byte}
    (hf : s.isHeld = true → f.heldForbidden = false) : HoldLaw (s.handOver a f o d) := by
  intro hheld r hr hforbidden
  rw [State.isHeld_congr (State.handOver_sup ..)] at hheld
  rw [State.handOver_engine] at hr
  cases hr
  rw [show (s.buildRecord a f o _).func = f from rfl, hf hheld] at hforbidden
  cases hforbidden

/-- A slot yields no EXCHANGE while the part is held (R91). -/
theorem State.judgeSlot_of_held {s : State} {a : Nat} {f : LineFunction} {o : Origin} (h : s.judgeSlot a = some (f, o))
    (hheld : s.isHeld = true) : f.heldForbidden = false := by
  unfold State.judgeSlot at h
  simp only [hheld, Bool.not_true, Bool.and_false, Bool.false_eq_true, if_false] at h
  split at h
  · cases h
  · split at h
    · split at h <;> cases h
      rfl
    · split at h <;> cases h
      rfl
    all_goals cases h

/-- The eligible ticket carries no PARAM_WRITE while the part is held (R110). -/
theorem State.eligibleTicket_of_held {s : State} {t : Ticket} (h : s.eligibleTicket = some t) (hheld : s.isHeld = true) :
    t.func.onLine.heldForbidden = false := by
  have hfree := (firstEligible_some h).2.2
  cases hf : t.func with
  | paramWrite => rw [hfree hf] at hheld; cases hheld
  | sample | probe | paramRead => rfl

/-- Entry into hold forbids the retry of an EXCHANGE or PARAM_WRITE in flight (R80, R151). -/
theorem HoldLaw.enterHold (s : State) : HoldLaw s.enterHold := by
  intro _ r hr hf
  change s.engine.record.map _ = some r at hr
  obtain ⟨q, -, rfl⟩ := Option.map_eq_some_iff.1 hr
  split at hf
  · rename_i hq; rw [if_pos hq]
  · rename_i hq; exact absurd hf hq

/-- A choice hands over no EXCHANGE and no PARAM_WRITE while the part is held (R100, R153). -/
theorem holdLaw_closed : ChoiceClosed HoldLaw where
  grant := fun _ _ _ _ => .ofNone rfl
  broadcast := fun s f _ _ hf =>
    have h : HoldLaw (s.handOver 0 f .broadcast []) := HoldLaw.handOver (fun _ => by rcases hf with rfl | rfl <;> rfl)
    h
  own := fun s t _ _ ht _ => HoldLaw.handOver (fun hheld =>
    State.eligibleTicket_of_held ht (by rwa [State.isHeld_congr (s := s) (by simp)] at hheld))
  resync := fun _ _ _ _ _ _ => HoldLaw.handOver (fun _ => rfl)
  down := fun s t h _ _ => by
    rw [State.completeTicket_frame]
    exact h
  skip := fun _ _ h _ _ _ _ => h
  slot := fun s a f o _ _ _ _ hj => HoldLaw.handOver (State.judgeSlot_of_held hj)
  enter := fun _ h _ _ => h
  probe := fun _ _ _ _ _ _ _ => HoldLaw.handOver (fun _ => rfl)
  complete := fun _ h _ _ => h

theorem HoldLaw.followLreq {s : State} (h : s.engine.record = none) : HoldLaw s.followLreq := by
  unfold State.followLreq
  split
  · exact .ofNone rfl
  · exact holdLaw_closed.choice s (.ofNone h)

/-- Every effect of a command keeps the law of hold. -/
theorem holdLaw_execClosed : ExecClosed HoldLaw where
  choice := holdLaw_closed.choice
  host := fun _ _ h => h
  lineSetup := fun _ _ _ _ h _ _ _ => h
  clearLine := fun _ h => h
  draw := fun _ _ h => h
  define := fun s f p h _ => h.goesOn (s.goesOn_define f.address p)
  remove := fun s a h _ _ => h.goesOn (s.goesOn_remove a)
  clearCounters := fun s a h _ => h.goesOn (.ofSame (by simp) (by simp))
  installList := fun _ _ h _ _ _ => h
  pendList := fun _ _ h _ _ => h
  beginCycling := fun s mode f h _ _ => h.goesOn (s.goesOn_beginCycling mode f)
  stopAfterSlot := fun s h => h.goesOn s.goesOn_stopAfterSlot
  stopAfterCycle := fun s h => h.goesOn s.goesOn_stopAfterCycle
  applyItems := fun s items h _ => h.goesOn (s.goesOn_applyItems items)
  placeTicket := fun _ _ _ _ h _ => h
  cancelTicket := fun s id t h _ _ => h.goesOn (s.goesOn_completeTicket id _)
  credit := fun _ _ h _ => h
  takeReport := fun _ _ _ h _ _ => h
  holdSetup := fun _ _ _ _ h => h
  restartHoldTimer := fun _ h => h
  endHold := fun _ _ _ => nofun
  enterHold := fun s _ => HoldLaw.enterHold s
  limitExpires := fun _ h => h
  lreqAsserted := fun s h _ => by
    split
    · exact h
    · exact h
  lreqNegated := fun _ h _ _ => h
  returnLine := fun s order _ _ _ => .ofNone (by rw [State.returnLine, State.placeAll_engine]; rfl)
  initialised := fun _ _ _ => HoldLaw.followLreq rfl
  warm := fun _ _ => HoldLaw.followLreq rfl
  startBit := fun s b h _ => h.goesOn (s.goesOn_startBit b)
  char := fun s rx c h _ _ => h.goesOn (State.goesOn_deliverChar (s.setLineRx rx) c)
  frameEnds := fun s r h _ _ => h.goesOn (s.goesOn_frameEnds r)
  noReply := fun s h _ => h.goesOn (s.goesOn_classifyAttempt _)
  gap := fun s h _ => h.goesOn (s.goesOn_classifyAttempt _)
  quiet := fun s order h _ => h.goesOn (s.goesOn_guardEnds order)
  jam := fun s order h _ _ => h.goesOn (s.goesOn_lineJams order)
  period := fun s h _ => by
    unfold State.periodExpires
    split
    · exact h
    · exact h
    · dsimp only
      split
      · exact holdLaw_closed.choice { s with sched := s.sched.nextCycle } h
      · exact h

/-! ## The ranges and timers of the supervision unit (R149, R150, R156 to R158) -/

/-- The law reads the supervision unit alone. -/
theorem SupervisionLaw.ofSup {s t : State} (h : SupervisionLaw s) (hsup : t.sup = s.sup) : SupervisionLaw t := by
  unfold SupervisionLaw
  rw [State.isHeld_congr hsup, hsup]
  exact h

theorem SupervisionLaw.goesOn {s t : State} (h : SupervisionLaw s) (hst : s.GoesOnIn t) : SupervisionLaw t := h.ofSup hst.1

/-- A choice keeps the law: it starts the limit timer as it grants the line (R156). -/
theorem supervisionLaw_closed : ChoiceClosed SupervisionLaw where
  grant := fun _ ⟨htime, hlimit, htimer, _⟩ _ _ => ⟨htime, hlimit, htimer, fun _ => rfl⟩
  broadcast := fun s f h _ _ =>
    have h' : SupervisionLaw (s.handOver 0 f .broadcast []) := h.ofSup (by simp)
    h'
  own := fun s t h _ _ _ => h.ofSup (by simp [State.putOnLine])
  resync := fun s t h _ _ _ => h.ofSup (by simp)
  down := fun s t h _ _ => h.ofSup (by simp)
  skip := fun _ _ h _ _ _ _ => h
  slot := fun s a f o h _ _ _ _ => h.ofSup (by simp [State.takeOffer, State.yieldSlot])
  enter := fun _ h _ _ => h
  probe := fun s a h _ _ _ _ => h.ofSup (by simp [State.takeOffer, State.issueProbe])
  complete := fun _ h _ _ => h

theorem SupervisionLaw.choice {s : State} (h : SupervisionLaw s) : SupervisionLaw s.arbiterChoice :=
  supervisionLaw_closed.choice s h

/-- HOLD_SETUP takes a hold time and a handover limit in their ranges, and the timer follows the hold time (R149). -/
theorem SupervisionLaw.holdSetup {s : State} (h : SupervisionLaw s) (time limit : Nat) :
    SupervisionLaw (s.holdSetup time limit).1 := by
  unfold State.holdSetup
  split
  · exact h
  · rename_i hrange
    simp only [not_or, not_and, not_lt] at hrange
    obtain ⟨hlow, hhigh, hlim⟩ := hrange
    obtain ⟨-, -, -, hlent⟩ := h
    refine ⟨?_, hlim, ?_, hlent⟩
    · change time = 0 ∨ Config.holdTimeLow ≤ time ∧ time ≤ Config.holdTimeHigh
      rcases Nat.eq_zero_or_pos time with h0 | hpos
      · exact Or.inl h0
      · exact Or.inr ⟨hlow hpos, hhigh⟩
    · change (if s.isHeld then none else timerFor time) = if s.isHeld ∨ time = 0 then none else some time
      unfold timerFor
      split_ifs <;> simp_all

/-- A CRC-good message starts the hold timer again where it runs, for the hold time (R137, R150). -/
theorem SupervisionLaw.restartHoldTimer {s : State} (h : SupervisionLaw s) : SupervisionLaw s.restartHoldTimer := by
  obtain ⟨htime, hlimit, htimer, hlent⟩ := h
  refine ⟨htime, hlimit, ?_, hlent⟩
  change s.sup.holdTimer.map (fun _ => s.sup.holdTime) = if s.isHeld ∨ s.sup.holdTime = 0 then none else some s.sup.holdTime
  rw [htimer]
  split <;> rfl

/-- The end of hold starts the hold timer (R154). -/
theorem SupervisionLaw.endHold {s : State} (h : SupervisionLaw s) : SupervisionLaw s.endHold := by
  obtain ⟨htime, hlimit, -, hlent⟩ := h
  refine ⟨htime, hlimit, ?_, hlent⟩
  change timerFor s.sup.holdTime = if false = true ∨ s.sup.holdTime = 0 then none else some s.sup.holdTime
  simp [timerFor]

/-- Entry into hold stops the hold timer (R151). -/
theorem SupervisionLaw.enterHold {s : State} (h : SupervisionLaw s) : SupervisionLaw s.enterHold := by
  obtain ⟨htime, hlimit, -, hlent⟩ := h
  exact ⟨htime, hlimit, (if_pos (Or.inl rfl)).symm, hlent⟩

/-- The limit's expiry stops the limit timer (R157). -/
theorem SupervisionLaw.limitExpires {s : State} (h : SupervisionLaw s) : SupervisionLaw s.limitExpires := by
  obtain ⟨htime, hlimit, htimer, -⟩ := h
  exact ⟨htime, hlimit, htimer, nofun⟩

/-- LREQ asserted ends no handover (R155). -/
theorem SupervisionLaw.assertLreq {s : State} (h : SupervisionLaw s) : SupervisionLaw s.assertLreq := by
  refine SupervisionLaw.choice ?_
  obtain ⟨htime, hlimit, htimer, hlent⟩ := h
  split
  · rename_i hnone
    refine ⟨htime, hlimit, htimer, fun hrun => ?_⟩
    rw [hlent hrun] at hnone
    cases hnone
  · exact ⟨htime, hlimit, htimer, hlent⟩

/-- LREQ negated stops the limit timer with the handover (R155, R158). -/
theorem SupervisionLaw.negateLreq {s : State} (h : SupervisionLaw s) (order : List ReportSource) :
    SupervisionLaw (s.negateLreq order) := by
  obtain ⟨htime, hlimit, htimer, hlent⟩ := h
  unfold State.negateLreq
  split
  · exact ⟨htime, hlimit, htimer, hlent⟩
  · rename_i hrequested
    refine ⟨htime, hlimit, htimer, fun hrun => ?_⟩
    rw [hlent hrun] at hrequested
    cases hrequested
  · have h' : SupervisionLaw { s with sup := { s.sup with handover := .none, limitTimer := none } } :=
      ⟨htime, hlimit, htimer, nofun⟩
    exact h'.ofSup (by rw [State.returnLine, State.placeAll_sup]; rfl)

/-- The handover state follows LREQ after a reset (R84, R161). -/
theorem SupervisionLaw.followLreq {s : State} (h : SupervisionLaw s) : SupervisionLaw s.followLreq := by
  unfold State.followLreq
  split
  · obtain ⟨htime, hlimit, htimer, -⟩ := h
    exact ⟨htime, hlimit, htimer, fun _ => rfl⟩
  · exact h.choice

/-- A restart sets the supervision unit to its initial values; a WARM one keeps hold time and handover limit, and starts the hold
timer (R159, R160). -/
theorem SupervisionLaw.initialised (s : State) (strap : BitVec 2) : SupervisionLaw (s.initialised strap).followLreq :=
  SupervisionLaw.followLreq ⟨Or.inl rfl, Nat.zero_le _, rfl, nofun⟩

theorem SupervisionLaw.warmRestart {s : State} (h : SupervisionLaw s) : SupervisionLaw s.warmRestart := by
  obtain ⟨htime, hlimit, -, -⟩ := h
  refine SupervisionLaw.followLreq ⟨htime, hlimit, ?_, nofun⟩
  change timerFor s.sup.holdTime = if false = true ∨ s.sup.holdTime = 0 then none else some s.sup.holdTime
  simp [timerFor]

theorem SupervisionLaw.takeRestart {s : State} (h : SupervisionLaw s) (level : RestartLevel) :
    SupervisionLaw (s.takeRestart level) := by
  cases level with
  | warm => exact h.warmRestart
  | cold => exact SupervisionLaw.initialised s s.host.strap

/-- A message received whole touches the supervision unit by its restart of the hold timer alone (R137). -/
theorem SupervisionLaw.checkMessage {s : State} (h : SupervisionLaw s) (len : Byte) (got : List Byte) (lo hi : Byte) :
    SupervisionLaw (s.checkMessage len got lo hi) := by
  have hrestart : SupervisionLaw s.hostRxHunt.restartHoldTimer := SupervisionLaw.restartHoldTimer (s := s.hostRxHunt) h
  unfold State.checkMessage State.acceptMessage
  split
  · dsimp only
    split <;> exact hrestart
  · exact h

theorem SupervisionLaw.hostByte {s : State} (h : SupervisionLaw s) (b : Byte) (stopBit : Bool) :
    SupervisionLaw (s.hostByte b stopBit) := by
  unfold State.hostByte
  split
  · unfold State.takeHostByte
    split
    · split <;> exact h
    · split <;> exact h
    · split <;> exact h
    · exact h
    · exact SupervisionLaw.checkMessage (s := s.setWaitHigh false) h _ _ _ _
  · split <;> exact h

/-- The reading of blocks by HELLO and STATUS leaves the supervision unit alone (R144, R145). -/
@[simp] theorem State.readOne_sup (k : ReadKind) (s : State) (b : ReadBlock) : (s.readOne k b).sup = s.sup := by
  unfold State.readOne State.clearRead
  split
  · rfl
  · split <;> rfl

@[simp] theorem State.readRest_sup (s : State) (k : ReadKind) : (s.readRest k).1.sup = s.sup := by
  unfold State.readRest
  dsimp only
  generalize k.left s.host.processor.reads = l
  induction l generalizing s with
  | nil => rfl
  | cons b l ih => rw [List.foldl_cons, ih, State.readOne_sup]

theorem SupervisionLaw.finishReading {s t : State} (h : SupervisionLaw s) {type : Byte} (ht : s.finishReading type = some t) :
    SupervisionLaw t := by
  unfold State.finishReading at ht
  split at ht
  · cases ht
  · split at ht
    · obtain ⟨k, -, rfl⟩ := Option.map_eq_some_iff.1 ht
      exact h.ofSup (State.readRest_sup s k)
    · cases ht

theorem SupervisionLaw.tick {s : State} (h : SupervisionLaw s) : SupervisionLaw s.tick := by
  unfold State.tick State.processorTurn State.beginReading State.readNext
  split
  · split
    · exact h
    · split <;> exact h
  · split
    · dsimp only
      split
      · exact h.ofSup (State.readOne_sup _ s.takeDueReport _)
      · exact h
    · exact h

/-! ## What the commands leave of the supervision unit (R138) -/

section
variable (s : State)

theorem State.status_sup (clear : Byte) : (s.status clear).1.sup = s.sup := by
  unfold State.status
  split
  · rfl
  · exact s.readRest_sup _

theorem State.lineSetup_sup (rate timeout retries : Nat) : (s.lineSetup rate timeout retries).1.sup = s.sup := by
  unfold State.lineSetup
  split
  · rfl
  · split <;> rfl

theorem State.stationDefine_sup (f : DefineFields) : (s.stationDefine f).1.sup = s.sup := by
  unfold State.stationDefine
  split
  · rfl
  · exact (s.goesOn_define _ _).1

theorem State.stationRemove_sup (a : Nat) : (s.stationRemove a).1.sup = s.sup := by
  unfold State.stationRemove
  split
  · rfl
  · split
    · rfl
    · exact (s.goesOn_remove _).1

theorem State.stationQuery_sup (a : Nat) (clear : Byte) : (s.stationQuery a clear).1.sup = s.sup := by
  unfold State.stationQuery
  split
  · rfl
  · split
    · rfl
    · dsimp only
      split <;> simp

theorem State.cycleSet_sup (slots : List Nat) : (s.cycleSet slots).1.sup = s.sup := by
  unfold State.cycleSet
  split
  · rfl
  · split <;> rfl

theorem State.imageWrite_sup (items : List WriteItem) : (s.imageWrite items).1.sup = s.sup := by
  unfold State.imageWrite
  split
  · rfl
  · exact (s.goesOn_applyItems _).1

theorem State.addCredit_sup (n : Nat) : (s.addCredit n).1.sup = s.sup := by
  unfold State.addCredit
  split <;> rfl

theorem State.arrangeRestart_sup (level : Byte) : (s.arrangeRestart level).1.sup = s.sup := by
  unfold State.arrangeRestart
  split <;> rfl

theorem State.cycleQuery_state (selector : Byte) : (s.cycleQuery selector).1 = s := by
  unfold State.cycleQuery
  split <;> rfl

theorem State.imageRead_state (addrs : List Nat) : (s.imageRead addrs).1 = s := by
  unfold State.imageRead
  split <;> rfl

theorem State.ticketQuery_state (id : Byte) : (s.ticketQuery id).1 = s := by
  unfold State.ticketQuery
  split <;> rfl

end

section
variable {s : State}

theorem SupervisionLaw.cycleStart (h : SupervisionLaw s) (f : StartFields) : SupervisionLaw (s.cycleStart f).1 := by
  unfold State.cycleStart
  split
  · exact h
  · split
    · exact h
    · split
      · exact h
      · exact SupervisionLaw.choice (h.goesOn (s.goesOn_beginCycling _ f))

theorem SupervisionLaw.cycleStop (h : SupervisionLaw s) (when_ : Byte) : SupervisionLaw (s.cycleStop when_).1 := by
  have hchoice : ∀ {u : State} b, SupervisionLaw u → SupervisionLaw (u.choiceAfterStop b) := by
    intro u b hu
    unfold State.choiceAfterStop
    split
    · exact hu.choice
    · exact hu
  unfold State.cycleStop
  split
  · exact h
  · split
    · exact h
    · refine hchoice _ ?_
      split
      · exact h.goesOn s.goesOn_stopAfterSlot
      · exact h.goesOn s.goesOn_stopAfterCycle

theorem SupervisionLaw.submit (h : SupervisionLaw s) (f : SubmitFields) : SupervisionLaw (s.submit f).1 := by
  unfold State.submit
  split
  · exact h
  · exact SupervisionLaw.choice h

theorem SupervisionLaw.cancel (h : SupervisionLaw s) (id : Byte) : SupervisionLaw (s.cancel id).1 := by
  have hcancel := h.goesOn (s.goesOn_completeTicket id (.bare .cancelled 0))
  unfold State.cancel State.choiceIfUnblocked
  split
  · exact h
  · split
    · dsimp only
      split
      · exact hcancel.choice
      · exact hcancel
    · exact h
    · exact h

theorem SupervisionLaw.resume (h : SupervisionLaw s) : SupervisionLaw s.resume.1 := by
  unfold State.resume
  split
  · exact h.endHold.choice
  · exact h

end

/-! ## Every row -/

section
variable {s t : State}

/-- A message taken keeps the law if the owning block's event does. -/
theorem SupervisionLaw.command {α : Type} {mine : Byte → Bool} {parse : List Byte → Option α}
    {decide : α → State → State × Reply} (h : SupervisionLaw s)
    (hdec : ∀ f s, SupervisionLaw s → SupervisionLaw (decide f s).1) (ht : takeCommand mine parse decide s = .next t) :
    SupervisionLaw t :=
  takeHead_keeps (s := s.takeDueReport) (fun _ _ h => h) (fun _ f s _ => hdec f s) ht h

/-- The end of a HELLO or STATUS, taken already or not. -/
theorem SupervisionLaw.execHello (h : SupervisionLaw s) (ht : execHello s = .next t) : SupervisionLaw t := by
  unfold Machine.execHello at ht
  split at ht
  · rename_i hf
    cases ht
    exact h.finishReading hf
  · exact h.command (fun _ s h => h.ofSup (s.readRest_sup _)) ht

theorem SupervisionLaw.execStatus (h : SupervisionLaw s) (ht : execStatus s = .next t) : SupervisionLaw t := by
  unfold Machine.execStatus at ht
  split at ht
  · rename_i hf
    cases ht
    exact h.finishReading hf
  · exact h.command (fun f s h => h.ofSup (s.status_sup f)) ht

theorem SupervisionLaw.execRestartTakesEffect (h : SupervisionLaw s) {crcByte : Option Byte}
    (ht : execRestartTakesEffect crcByte s = .next t) : SupervisionLaw t := by
  unfold Machine.execRestartTakesEffect State.restartWith at ht
  split at ht
  · cases ht
  · split at ht
    · split at ht
      · cases ht
        exact h.takeRestart _
      · split at ht <;> cases ht
        exact (h.takeRestart _).checkMessage _ _ _ _
    · cases ht

/-- The events of the transmitter change the host link alone (R131, R140 to R142). -/
theorem SupervisionLaw.execResponseTaken (h : SupervisionLaw s) (ht : execResponseTaken s = .next t) : SupervisionLaw t := by
  unfold Machine.execResponseTaken State.takeResponse at ht
  split at ht
  · cases ht
  · split at ht <;> cases ht
    exact h

theorem SupervisionLaw.execReportTaken (h : SupervisionLaw s) (ht : execReportTaken s = .next t) : SupervisionLaw t := by
  unfold Machine.execReportTaken at ht
  split at ht
  · cases ht
  · split at ht <;> cases ht
    exact h

theorem SupervisionLaw.execTransmitEnd (h : SupervisionLaw s) (ht : execTransmitEnd s = .next t) : SupervisionLaw t := by
  obtain ⟨-, rfl⟩ := guarded_next ht
  unfold State.transmitEnds
  split <;> exact h

theorem SupervisionLaw.periodExpires (h : SupervisionLaw s) : SupervisionLaw s.periodExpires := by
  unfold State.periodExpires
  split
  · exact h
  · exact h
  · dsimp only
    split
    · exact SupervisionLaw.choice (s := { s with sched := s.sched.nextCycle }) h
    · exact h

theorem SupervisionLaw.execStartDetected (h : SupervisionLaw s) {b : BitSamples} (ht : execStartDetected b s = .next t) :
    SupervisionLaw t := by
  cases ht
  split
  · exact h.goesOn (State.goesOn_startBit s.takeDueReport b)
  · exact h

theorem SupervisionLaw.heard (h : SupervisionLaw s) (rx : LineRx) (c : RxChar) :
    SupervisionLaw ((s.setLineRx rx).deliverChar c) :=
  h.goesOn (State.goesOn_deliverChar (s.setLineRx rx) c)

theorem SupervisionLaw.execCharacterDelivered (h : SupervisionLaw s) {x : CharSamples}
    (ht : execCharacterDelivered x s = .next t) : SupervisionLaw t := by
  unfold Machine.execCharacterDelivered State.finishChar at ht
  split at ht <;> cases ht
  · exact SupervisionLaw.heard (s := s.takeDueReport) h _ _
  · exact h

theorem SupervisionLaw.execLowLineBrokenCharacter (h : SupervisionLaw s) (ht : execLowLineBrokenCharacter s = .next t) :
    SupervisionLaw t := by
  unfold Machine.execLowLineBrokenCharacter State.lowLine at ht
  split at ht <;> cases ht
  · exact SupervisionLaw.heard (s := s.takeDueReport) h _ _
  · exact SupervisionLaw.heard (s := s.takeDueReport) h _ _
  · exact h

theorem SupervisionLaw.execFrameSent (h : SupervisionLaw s) (ht : execFrameSent s = .next t) : SupervisionLaw t := by
  unfold Machine.execFrameSent State.endFrame at ht
  split at ht <;> cases ht
  exact h.goesOn (State.goesOn_frameEnds s.takeDueReport _)

/-- Every row keeps the law whose choice no event can precede. A report due that is taken first leaves the supervision unit
alone. -/
theorem SupervisionLaw.plain {c : Instr} (h : SupervisionLaw s) (hc : ¬Instr.leadsToIdle c) (ht : exec c s = .next t) :
    SupervisionLaw t := by
  have hd : SupervisionLaw s.takeDueReport := h
  cases c <;> simp only [exec] at ht
  case hello => exact h.execHello ht
  case lineSetup => exact h.command (fun f s h => h.ofSup (s.lineSetup_sup f.1 f.2.1 f.2.2)) ht
  case status => exact h.execStatus ht
  case stationDefine => exact h.command (fun f s h => h.ofSup (s.stationDefine_sup f)) ht
  case stationRemove => exact h.command (fun f s h => h.ofSup (s.stationRemove_sup _)) ht
  case stationQuery => exact h.command (fun f s h => h.ofSup (s.stationQuery_sup f.1 f.2)) ht
  case cycleSet => exact h.command (fun f s h => h.ofSup (s.cycleSet_sup f)) ht
  case cycleStart => exact h.command (fun f _ h => h.cycleStart f) ht
  case cycleStop => exact h.command (fun f _ h => h.cycleStop f) ht
  case cycleQuery => exact h.command (fun f s h => by rwa [s.cycleQuery_state f]) ht
  case imageWrite => exact h.command (fun f s h => h.ofSup (s.imageWrite_sup f)) ht
  case imageRead => exact h.command (fun f s h => by rwa [s.imageRead_state f]) ht
  case submit => exact h.command (fun f _ h => h.submit f) ht
  case cancel => exact h.command (fun f _ h => h.cancel f) ht
  case ticketQuery => exact h.command (fun f s h => by rwa [s.ticketQuery_state f]) ht
  case credit => exact h.command (fun f s h => h.ofSup (s.addCredit_sup f.toNat)) ht
  case holdSetup => exact h.command (fun f _ h => h.holdSetup f.1 f.2) ht
  case resume => exact h.command (fun _ _ h => h.resume) ht
  case restart => exact h.command (fun f s h => h.ofSup (s.arrangeRestart_sup f)) ht
  case badType => exact h.command (fun _ _ h => h) ht
  case hostByteReceived b stop =>
    cases ht
    exact hd.hostByte b stop
  case hostGapTimeout => obtain ⟨-, rfl⟩ := guarded_next ht; exact hd
  case responseTaken => exact h.execResponseTaken ht
  case reportTaken => exact h.execReportTaken ht
  case transmitEnd => exact h.execTransmitEnd ht
  case restartTakesEffect => exact h.execRestartTakesEffect ht
  case pinReset =>
    cases ht
    exact SupervisionLaw.initialised s _
  case startDetected => exact h.execStartDetected ht
  case characterDelivered => exact h.execCharacterDelivered ht
  case lowLineBrokenCharacter => exact h.execLowLineBrokenCharacter ht
  case frameSent => exact h.execFrameSent ht
  case replyTimeoutExpiry => obtain ⟨-, rfl⟩ := guarded_next ht; exact hd
  case gapTimerExpiry => obtain ⟨-, rfl⟩ := guarded_next ht; exact hd
  case quietTimerExpiry => exact absurd trivial hc
  case jamTimerExpiry order =>
    obtain ⟨-, rfl⟩ := guarded_next ht
    exact hd.goesOn (State.goesOn_lineJams _ order)
  case periodTimerExpiry => obtain ⟨-, rfl⟩ := guarded_next ht; exact hd.periodExpires
  case holdTimerExpiry => obtain ⟨-, rfl⟩ := guarded_next ht; exact SupervisionLaw.choice hd.enterHold
  case lreqAsserted => obtain ⟨-, rfl⟩ := guarded_next ht; exact hd.assertLreq
  case lreqNegated => exact absurd trivial hc
  case limitTimerExpiry => obtain ⟨-, rfl⟩ := guarded_next ht; exact hd.limitExpires
  case hrxdStartBit =>
    cases ht
    exact hd

/-- The event that falls before a choice keeps the law. -/
theorem SupervisionLaw.beforeChoice (h : SupervisionLaw s) {b : BeforeChoice} (ht : s.beforeChoice b = .next t) :
    SupervisionLaw t := by
  cases b with
  | nothing => cases ht; exact h
  | lreqAsserted => exact h.plain (c := .lreqAsserted) id ht
  | holdTimerExpiry => exact h.plain (c := .holdTimerExpiry) id ht
  | command =>
    change s.takeMessage = .next t at ht
    rcases s.takeMessage_eq with hfault | ⟨c, hc, hrow⟩
    · rw [hfault] at ht; cases ht
    · exact h.plain hc (hrow.symm.trans ht)

/-- The choice behind that event keeps it too. -/
theorem SupervisionLaw.chooseBehind (h : SupervisionLaw s) {b : BeforeChoice}
    (ht : thenChoose (s.beforeChoice b) = .next t) : SupervisionLaw t := by
  unfold thenChoose at ht
  split at ht <;> cases ht
  rename_i u hu
  have hafter : SupervisionLaw u := h.beforeChoice hu
  exact SupervisionLaw.choice (s := u.takeDueReport) hafter

theorem SupervisionLaw.execQuietTimerExpiry (h : SupervisionLaw s) {order : IdleOrder}
    (ht : execQuietTimerExpiry order s = .next t) : SupervisionLaw t := by
  have hend : SupervisionLaw (s.takeDueReport.guardEnds order.reports) :=
    SupervisionLaw.goesOn (s := s.takeDueReport) h (State.goesOn_guardEnds _ order.reports)
  unfold Machine.execQuietTimerExpiry State.quietExpiry State.quietExpires at ht
  split at ht
  · dsimp only at ht
    split at ht
    · exact hend.chooseBehind ht
    · split at ht <;> cases ht
      exact hend
  · cases ht

theorem SupervisionLaw.execLreqNegated (h : SupervisionLaw s) {order : IdleOrder}
    (ht : execLreqNegated order s = .next t) : SupervisionLaw t := by
  have hneg : SupervisionLaw (s.takeDueReport.negateLreq order.reports) :=
    SupervisionLaw.negateLreq (s := s.takeDueReport) h order.reports
  unfold Machine.execLreqNegated State.lreqFalls State.releaseLreq at ht
  split at ht
  · dsimp only at ht
    split at ht
    · exact hneg.chooseBehind ht
    · exact hneg.beforeChoice ht
  · cases ht

/-- Every step keeps the law of the supervision unit. -/
theorem SupervisionLaw.step (h : SupervisionLaw s) (ht : step s = .next t) : SupervisionLaw t := by
  unfold Machine.step at ht
  split at ht
  · cases ht
    exact h.tick
  · rename_i c rest _
    have h' : SupervisionLaw { s with pending := rest } := h
    by_cases hc : Instr.leadsToIdle c
    · cases c <;> simp only [Instr.leadsToIdle] at hc
      case quietTimerExpiry => exact h'.execQuietTimerExpiry ht
      case lreqNegated => exact h'.execLreqNegated ht
    · exact h'.plain hc ht

end

/-- Settles O58: every row keeps the ranges and timers of the supervision unit, and every effect of a row the law of hold. -/
theorem everyStepKeepsTheLawsOfHoldAndHandover : Obligations.EveryStepKeepsTheLawsOfHoldAndHandover :=
  fun _ _ ht => ⟨fun h => h.step ht, holdLaw_execClosed.step (fun _ _ h => h) ht⟩

end Sys2Proof.Machine
end

section
/-! The choice's first two items, and hold entered and ended (R80, R82, R100, R104, R151 to R154, R156): O44, O56. -/

namespace Sys2Proof.Machine

/-! ## Handover, then broadcast (R100, items 1 and 2) -/

/-- A handover asked for is granted first (R100, R156). -/
theorem State.arbiterChoice_of_requested {s : State} (hidle : s.engine.state = .idle) (h : s.sup.handover = .requested) :
    s.arbiterChoice = s.grant := by
  unfold State.arbiterChoice
  rw [if_neg (not_not.2 hidle), if_pos h]

/-- The broadcast that a claim asks for. -/
def BroadcastClaim.asksFor (c : BroadcastClaim) (f : LineFunction) : Prop :=
  (c = .hold ∧ f = .hold) ∨ (c = .release ∧ f = .release)

/-- A broadcast claimed goes next (R100, R104). -/
theorem State.arbiterChoice_of_claim {s : State} {f : LineFunction} (hidle : s.engine.state = .idle)
    (hh : s.sup.handover ≠ .requested) (hc : s.sup.claim.asksFor f) : s.arbiterChoice = s.handBroadcast f := by
  unfold State.arbiterChoice
  rw [if_neg (not_not.2 hidle), if_neg hh]
  rcases hc with ⟨hc, rfl⟩ | ⟨hc, rfl⟩ <;> rw [hc]

/-- On the free line the choice is that of tickets and scheduler (R100, items 3 to 5). -/
theorem State.arbiterChoice_of_lineFree {s : State} (h : s.lineFree) : s.arbiterChoice = s.chooseWork := by
  obtain ⟨hidle, hhandover, hclaim⟩ := h
  unfold State.arbiterChoice
  rw [if_neg (not_not.2 hidle), if_neg hhandover, hclaim]

/-- With no ticket to take and a scheduler that is not ACTIVE, a choice on the free line does nothing (R100). -/
theorem State.arbiterChoice_of_noWork {s : State} (hfree : s.lineFree) (hticket : s.noTicketNow)
    (hsched : s.sched.state ≠ .active) : s.arbiterChoice = s := by
  have hask : State.ask 3 s = (s, .nothing) := by
    unfold State.ask
    rw [if_pos (Or.inl hsched)]
  rw [State.arbiterChoice_of_lineFree hfree, State.chooseWork, State.ticketItem_of_noTicketNow hticket]
  dsimp only
  rw [hask]

/-- Settles O44: the items of the choice, each where those before it have nothing to do. -/
theorem arbiterTakesHandoverThenBroadcast : Obligations.ArbiterTakesHandoverThenBroadcast := by
  intro s
  refine ⟨State.arbiterChoice_of_not_idle, fun hidle hh => ?_, fun f hidle hh hc => ?_, fun hfree ht hs => ?_⟩
  · rw [State.arbiterChoice_of_requested hidle hh]
    rfl
  · rw [State.arbiterChoice_of_claim hidle hh hc]
    have hf : f ≠ .exchange := by rcases hc with ⟨-, rfl⟩ | ⟨-, rfl⟩ <;> nofun
    unfold State.handBroadcast State.handOver
    rw [if_neg hf]
    rfl
  · exact State.arbiterChoice_of_noWork hfree (Or.inl ht) hs

/-! ## Hold entered and ended (R151, R154) -/

theorem LineFunction.heldForbidden_eq (f : LineFunction) : f.heldForbidden = (f == .exchange || f == .paramWrite) := by
  cases f <;> rfl

/-- The no-retry flag set by entry into hold, in the words of the statements (R80). -/
theorem ExchangeRecord.forbidden_eq (r : ExchangeRecord) :
    (if r.func.heldForbidden then { r with noRetry := true } else r) =
      { r with noRetry := r.noRetry || r.func == .exchange || r.func == .paramWrite } := by
  rw [Bool.or_assoc, ← LineFunction.heldForbidden_eq]
  cases h : r.func.heldForbidden with
  | true => simp
  | false => simp

/-- Entry into hold with no report due, in the words of the statements (R80, R151). -/
theorem State.enterHold_eq {s : State} (hn : ¬s.standsReport) : s.enterHold = { s with
    sup := { s.sup with hold := .held, holdTimer := none, claim := .hold }
    engine := { s.engine with
      record := s.engine.record.map (fun r =>
        { r with noRetry := r.noRetry || r.func == .exchange || r.func == .paramWrite }) }
    reports := s.reports.place (.supervision .holdEntered) } := by
  refine (State.place_of_none (State.dueReport_none_of_not ?_) _).trans ?_
  · exact hn
  · simp only [State.forbidRetry, ExchangeRecord.forbidden_eq]

/-- The end of hold while a command is being decided, in the words of the statements (R154). -/
theorem State.endHold_of_deciding {s : State} (h : s.host.processor ≠ .idle) : s.endHold = { s with
    sup := { s.sup with
      hold := .notHeld
      claim := .release
      holdTimer := if s.sup.holdTime = 0 then none else some s.sup.holdTime }
    reports := s.reports.place (.supervision .other) } := by
  refine (State.place_of_none (State.dueReport_of_deciding ?_) _).trans rfl
  exact h

/-- A choice made while a message is being decided leaves it so. -/
theorem State.taking_arbiterChoice {s : State} {m : Message} {rest : List Message}
    (h : s.host = { s.host with inbound := rest, processor := .deciding m [] }) :
    s.arbiterChoice.taking m rest = s.arbiterChoice := by
  have hhost : s.arbiterChoice.host = s.host := State.arbiterChoice_host_of_deciding (by rw [h]; nofun)
  unfold State.taking
  rw [hhost, ← h, ← hhost]

/-- Settles O56: entry into hold and its end, each followed by a choice. -/
theorem holdIsEnteredAndEnded : Obligations.HoldIsEnteredAndEnded := by
  intro s
  refine ⟨fun hn htimer => ?_, ?_, fun m rest ho hpay => ⟨fun hh => ?_, fun hh => ?_⟩⟩
  · change State.chosenAt _ s.takeDueReport.holdExpires
    rw [State.takeDueReport_of_not_stands hn, State.holdExpires, guarded_of htimer, State.enterHold_eq hn]
    exact State.chosenAt_choose _
  · simp [State.holdN, State.isHeld]
  · refine ho.refuses (f := ()) (mine := (· == typeResume)) rfl (by rw [hpay]; rfl) ?_
    exact if_neg (by simp [State.isHeld, State.taking, hh])
  · refine ho.answers (f := ()) (mine := (· == typeResume)) (r := .ok [0]) rfl (by rw [hpay]; rfl) ?_
    have hheld : (s.taking m rest).isHeld = true := by simp [State.isHeld, State.taking, hh]
    rw [State.taking_arbiterChoice rfl]
    dsimp only
    rw [State.resume, if_pos hheld, State.endHold_of_deciding (by simp [State.taking])]
    rfl

end Sys2Proof.Machine
end

section
/-! A character delivered in RECEIVING, the judgement of a complete reply, and the timers of attempts and guards (R64 to R73):
O32, O33, O34. -/

namespace Sys2Proof.Machine

/-! ## A character delivered in RECEIVING (R66) -/

/-- A character handed to the engine in RECEIVING, with no report due: counted by its class, and taken into the reply. -/
theorem State.hears.exec_receiving {s : State} {i : Instr} {c : RxChar} (h : s.hears i c) (hn : ¬s.standsReport)
    (hs : s.engine.state = .receiving) : Machine.exec i s = .next ((s.withHeard c).receiveChar c) := by
  rw [h.exec hn, State.withHeard_eq]
  unfold State.deliverChar
  simp only [State.countLine_engine, State.setLineRx_engine, hs]

/-- The characters that make a reply unusable, in the words of the statements (R66). -/
theorem ExchangeRecord.spoiledBy_iff (r : ExchangeRecord) (c : RxChar) :
    r.spoiledBy c ↔ c.breaksReply r.reply.length = true := by
  unfold ExchangeRecord.spoiledBy RxChar.breaksReply
  cases hr : r.reply with
  | nil => simp
  | cons x xs => simp [or_assoc]

/-- The reply is complete with the character that its length makes the last (R66). -/
theorem ExchangeRecord.replyComplete_append (r : ExchangeRecord) (c : RxChar) :
    (r.append c).replyComplete = true ↔ 3 ≤ r.reply.length ∧ r.reply.length = (r.replyByte 2).toNat + 3 := by
  have hlength : (r.append c).reply.length = r.reply.length + 1 := List.length_append
  unfold ExchangeRecord.replyComplete
  rw [Bool.and_eq_true, decide_eq_true_eq, beq_iff_eq, hlength]
  by_cases h3 : 3 ≤ r.reply.length
  · have hbyte : (r.append c).replyByte 2 = r.replyByte 2 :=
      ExchangeRecord.replyByte_append (r := r) [⟨c.value, c.mark⟩] h3
    rw [hbyte]
    omega
  · omega

section
variable {s : State} {r : ExchangeRecord} {c : RxChar}

/-- A character that makes the reply unusable has the attempt classified BROKEN at once (R66). -/
theorem State.receiveChar_of_spoiled (hr : s.engine.record = some r) (hc : c.breaksReply r.reply.length = true) :
    s.receiveChar c = s.afterAttempt (r.append c) .broken := by
  unfold State.receiveChar
  rw [hr]
  dsimp only
  rw [if_pos hc]
  exact State.classifyAttempt_eq (s := s.withReplyChar r c none) rfl .broken

/-- A character that neither spoils nor completes the reply starts the gap timer (R66). -/
theorem State.receiveChar_of_incomplete (hr : s.engine.record = some r) (hc : c.breaksReply r.reply.length = false)
    (hi : (r.append c).replyComplete = false) : s.receiveChar c = s.withReplyChar r c (some Config.gapLimitCT) := by
  unfold State.receiveChar
  rw [hr]
  dsimp only
  rw [hc, hi]
  rfl

/-- The free values drawn by the classification of a reply: one, where test 6 finds no profile to read (log entry 9). -/
def State.drawsAt (s : State) (r : ExchangeRecord) : Nat :=
  s.freeDraws + if (r.func = .exchange ∨ r.func = .sample) ∧ (s.entry r.station).profile = none then 1 else 0

/-- A reply classified, in the words of the statements (R67, R68). -/
theorem State.classifyReply_afterAttempt (hr : s.engine.record = some r) :
    s.classifyReply r = State.afterAttempt { s with freeDraws := s.drawsAt r } r
      (r.judge (lengthSuits r.func (s.entry r.station).profile (Config.absentProfileSuits s.freeDraws)
        (r.replyByte 2).toNat)) := by
  have hdraws : (if s.readsAbsentProfile r then { s with freeDraws := s.freeDraws + 1 } else s) =
      { s with freeDraws := s.drawsAt r } := by
    have hreads : s.readsAbsentProfile r = true ↔
        (r.func = .exchange ∨ r.func = .sample) ∧ (s.entry r.station).profile = none := by
      simp [State.readsAbsentProfile]
    unfold State.drawsAt
    by_cases h : s.readsAbsentProfile r = true
    · rw [if_pos h, if_pos (hreads.1 h)]
    · rw [if_neg h, if_neg (fun hp => h (hreads.2 hp))]
      rfl
  unfold State.classifyReply
  dsimp only
  rw [hdraws]
  exact State.classifyAttempt_eq (s := { s with freeDraws := s.drawsAt r }) hr _

/-- The character that completes the reply has it classified (R66, R67). -/
theorem State.receiveChar_of_complete (hr : s.engine.record = some r) (hc : c.breaksReply r.reply.length = false)
    (hi : (r.append c).replyComplete = true) :
    s.receiveChar c = State.afterAttempt { s with freeDraws := s.drawsAt r } (r.append c)
      ((r.append c).judge (lengthSuits r.func (s.entry r.station).profile (Config.absentProfileSuits s.freeDraws)
        ((r.append c).replyByte 2).toNat)) := by
  unfold State.receiveChar
  rw [hr]
  dsimp only
  rw [hc, hi]
  exact State.classifyReply_afterAttempt (s := s.withReplyChar r c none) rfl

end

/-- Settles O32: the character spoils the reply or is added to it. -/
theorem replyCharacterIsJudgedAsItArrives : Obligations.ReplyCharacterIsJudgedAsItArrives := by
  intro s i c r hn h hs hr
  rw [h.exec_receiving hn hs, r.spoiledBy_iff]
  refine ⟨fun hc => ?_, fun hc hlen => ?_⟩
  · exact congrArg _ (State.receiveChar_of_spoiled (s := s.withHeard c) hr hc)
  · have hi : (r.append c).replyComplete = false := by
      rw [← Bool.not_eq_true, r.replyComplete_append]
      omega
    exact congrArg _ (State.receiveChar_of_incomplete (s := s.withHeard c) hr (by simpa using hc) hi)

/-! ## The tests of a complete reply in their order (R67) -/

/-- The status characters, with the values 0 to 2 (R49). -/
theorem decodeStatus_of_reserved {b : Byte} (h : 2 < b.toNat) : decodeStatus b = none := by
  cases hd : decodeStatus b with
  | none => rfl
  | some status =>
    rw [decodeStatus_eq_some.1 hd] at h
    cases status <;> exact absurd h (by decide)

theorem decodeStatus_of_toNat {b : Byte} {status : ReplyStatus} (h : b.toNat = status.code.toNat) :
    decodeStatus b = some status := decodeStatus_eq_some.2 (BitVec.eq_of_toNat_eq h)

theorem toNat_eq_statusCode {b : Byte} (h : b.toNat ≤ 2) : ∃ status : ReplyStatus, b.toNat = status.code.toNat := by
  rcases Nat.lt_or_ge b.toNat 1 with h0 | h1
  · exact ⟨.accept, Nat.lt_one_iff.1 h0⟩
  · rcases Nat.lt_or_ge b.toNat 2 with h2 | h2
    · exact ⟨.refuse, Nat.le_antisymm (Nat.le_of_lt_succ h2) h1⟩
    · exact ⟨.notReady, Nat.le_antisymm h h2⟩

section
variable {r : ExchangeRecord} {suits : Bool}

/-- Test 1: the check character. -/
theorem ExchangeRecord.judge_of_check
    (h : crc8 (r.reply.map LineChar.value).dropLast ≠ (r.reply.map LineChar.value).getLastD 0) :
    r.judge suits = .broken :=
  if_pos h

/-- Test 2: direction and station. -/
theorem ExchangeRecord.judge_of_station
    (hcheck : crc8 (r.reply.map LineChar.value).dropLast = (r.reply.map LineChar.value).getLastD 0)
    (h : (r.replyByte 0).getLsbD 7 = false ∨ (r.replyByte 0).toNat % 64 ≠ r.station) : r.judge suits = .wrongStation :=
  (if_neg (not_not.2 hcheck)).trans (if_pos h)

/-- A reply passes tests 1 and 2: its check matches, and it is one of the station asked. -/
def ExchangeRecord.Answers (r : ExchangeRecord) : Prop :=
  crc8 (r.reply.map LineChar.value).dropLast = (r.reply.map LineChar.value).getLastD 0 ∧
    (r.replyByte 0).getLsbD 7 = true ∧ (r.replyByte 0).toNat % 64 = r.station

/-- Test 3: the status character. -/
theorem ExchangeRecord.judge_of_noStatus (ha : r.Answers) (h : 2 < (r.replyByte 1).toNat) : r.judge suits = .broken := by
  obtain ⟨hcheck, hdir, hst⟩ := ha
  refine (if_neg (not_not.2 hcheck)).trans ((if_neg (by simp [hdir, hst])).trans ?_)
  rw [ExchangeRecord.replyStatus, decodeStatus_of_reserved h]

/-- Tests 4 to 6: the echo of T, the status, and the length of an ACCEPT. -/
theorem ExchangeRecord.judge_of_status (ha : r.Answers) {status : ReplyStatus}
    (h : (r.replyByte 1).toNat = status.code.toNat) :
    r.judge suits = if (r.replyByte 0).getLsbD 6 ≠ r.toggle then .desync
      else if status = .accept ∧ suits = false then .broken else status.outcome := by
  obtain ⟨hcheck, hdir, hst⟩ := ha
  refine (if_neg (not_not.2 hcheck)).trans ((if_neg (by simp [hdir, hst])).trans ?_)
  rw [ExchangeRecord.replyStatus, decodeStatus_of_toNat h]
  cases status <;> cases suits <;> rfl

/-- Test 4: the echo of T. -/
theorem ExchangeRecord.judge_of_desync (ha : r.Answers) (h : (r.replyByte 1).toNat ≤ 2)
    (ht : (r.replyByte 0).getLsbD 6 ≠ r.toggle) : r.judge suits = .desync := by
  obtain ⟨status, hs⟩ := toNat_eq_statusCode h
  rw [ExchangeRecord.judge_of_status ha hs, if_pos ht]

/-- Test 5: a status that is not ACCEPT. -/
theorem ExchangeRecord.judge_of_notAccept (ha : r.Answers) {status : ReplyStatus}
    (h : (r.replyByte 1).toNat = status.code.toNat) (ht : (r.replyByte 0).getLsbD 6 = r.toggle) (hs : status ≠ .accept) :
    r.judge suits = status.outcome := by
  rw [ExchangeRecord.judge_of_status ha h, if_neg (not_not.2 ht), if_neg (fun hc => hs hc.1)]

/-- Test 6: the length of an ACCEPT. -/
theorem ExchangeRecord.judge_of_accept (ha : r.Answers) (h : (r.replyByte 1).toNat = 0)
    (ht : (r.replyByte 0).getLsbD 6 = r.toggle) : r.judge suits = if suits then .good else .broken := by
  rw [ExchangeRecord.judge_of_status ha (status := .accept) h, if_neg (not_not.2 ht)]
  cases suits <;> rfl

end

/-- What the judgement reads of a reply of which the characters are given. -/
theorem ExchangeRecord.readings_of_reply {r : ExchangeRecord} {a st n check : LineChar} {data : List LineChar}
    (h : r.reply = [a, st, n] ++ data ++ [check]) :
    (r.reply.map LineChar.value).dropLast = ([a, st, n] ++ data).map LineChar.value ∧
      (r.reply.map LineChar.value).getLastD 0 = check.value ∧ r.replyByte 0 = a.value ∧
      r.replyByte 1 = st.value ∧ r.replyByte 2 = n.value := by
  refine ⟨?_, ?_, ?_, ?_, ?_⟩
  · rw [h, List.map_append, List.map_singleton, List.dropLast_concat]
  · rw [h, List.map_append, List.map_singleton, List.getLastD_concat]
  all_goals simp [ExchangeRecord.replyByte, h]

/-- The length of an ACCEPT reply suits exactly where R50 gives it, unless an EXCHANGE or SAMPLE finds no profile (R67, test 6;
log entry 9). -/
theorem lengthSuits_iff {f : LineFunction} {profile : Option Profile} {p : Profile} (absent : Bool) (n : Nat)
    (h : profile = some p ∨ (f ≠ .exchange ∧ f ≠ .sample)) :
    lengthSuits f profile absent n = true ↔ replyLengthFits f p n := by
  cases f <;> simp [lengthSuits, replyLengthFits] <;> simp_all

/-- Settles O33: the reply is complete, and the tests are made in their order. -/
theorem completeReplyIsClassifiedByItsFirstFailingTest : Obligations.CompleteReplyIsClassifiedByItsFirstFailingTest := by
  intro s i c r a st n data hn h hs hr hreply hdata hb hm
  have hlen : r.reply.length = n.value.toNat + 3 := by simp [hreply, hdata]
  have hbyte : r.replyByte 2 = n.value := by simp [ExchangeRecord.replyByte, hreply]
  have hspoils : c.breaksReply r.reply.length = false := by
    rw [hlen]
    simp [RxChar.breaksReply, hb, hm]
  have hcomplete : (r.append c).replyComplete = true := (r.replyComplete_append c).2 ⟨by omega, by rw [hbyte, hlen]⟩
  have happend : r.append c = { r with reply := [a, st, n] ++ data ++ [⟨c.value, c.mark⟩] } := by
    rw [ExchangeRecord.append, hreply]
  obtain ⟨hvalues, hlast, haddress, hstatus, hthird⟩ := ExchangeRecord.readings_of_reply (congrArg ExchangeRecord.reply happend)
  refine ⟨(r.append c).judge (lengthSuits r.func (s.entry r.station).profile (Config.absentProfileSuits s.freeDraws)
    n.value.toNat), s.drawsAt r, ?_, fun hne => ?_, fun hcheck => ⟨fun hst => ?_, fun hdir hst => ?_⟩, rfl⟩
  · rw [h.exec_receiving hn hs, State.receiveChar_of_complete (s := s.withHeard c) hr hspoils hcomplete, hthird, ← happend]
    rfl
  · refine ExchangeRecord.judge_of_check ?_
    rw [hvalues, hlast]
    exact Ne.symm hne
  · refine ExchangeRecord.judge_of_station ?_ ?_
    · rw [hvalues, hlast, hcheck]
    · rw [haddress]
      exact hst
  · have hanswers : (r.append c).Answers := by
      refine ⟨?_, ?_, ?_⟩
      · rw [hvalues, hlast, hcheck]
      · rw [haddress]
        exact hdir
      · rw [haddress]
        exact hst
    rw [← haddress, ← hstatus, ← hthird]
    refine ⟨ExchangeRecord.judge_of_noStatus hanswers, fun hv => ⟨ExchangeRecord.judge_of_desync hanswers hv, fun ht =>
      ⟨fun hv => ?_, fun hv => ?_, fun hv => ?_⟩⟩⟩
    · exact ExchangeRecord.judge_of_notAccept (status := .refuse) hanswers hv ht nofun
    · exact ExchangeRecord.judge_of_notAccept (status := .notReady) hanswers hv ht nofun
    · rw [ExchangeRecord.judge_of_accept hanswers hv ht]
      refine ⟨fun p hp => ⟨fun hfits => ?_, fun hfits => ?_⟩, ?_⟩
      · exact if_pos ((lengthSuits_iff _ _ hp).2 hfits)
      · exact if_neg (fun hsuits => hfits ((lengthSuits_iff _ _ hp).1 hsuits))
      · split
        · exact Or.inl rfl
        · exact Or.inr rfl

/-! ## The timers of attempts and guards (R65, R66, R69, R71, R73) -/

/-- A quiet timer's expiry in a guard, with no report due. -/
theorem State.exec_quietTimerExpiry_of_guard {s : State} {k : GuardKind} (hn : ¬s.standsReport)
    (hq : s.engine.quietTimer.isSome = true) (hs : s.engine.state = .guard k) (order : IdleOrder) :
    exec (.quietTimerExpiry order) s = s.quietExpires order := by
  change s.takeDueReport.quietExpiry order = _
  rw [State.takeDueReport_of_not_stands hn]
  exact if_pos (by simp [hs, hq, EngineState.isGuard])

/-- A guard's end that leaves the engine IDLE leads to the choice, with the event that falls before it (R71, R73, R100). -/
theorem State.quietExpires_of_idle {s u : State} {order : IdleOrder} (h : s.guardEnds order.reports = u)
    (hidle : u.engine.state = .idle) : s.quietExpires order = thenChoose (u.beforeChoice order.before) := by
  unfold State.quietExpires
  dsimp only
  rw [h, if_pos hidle]

/-- A failed attempt below the limit, with neither flag set, is followed by another (R69). -/
theorem ExchangeRecord.mayRetry_of_failed {r : ExchangeRecord}
    (ho : r.lastOutcome = some .noReply ∨ r.lastOutcome = some .broken ∨ r.lastOutcome = some .wrongStation)
    (hlimit : r.attempt < r.attemptLimit) (hd : r.discard = false) (hr : r.noRetry = false) : r.mayRetry = true := by
  rcases ho with ho | ho | ho <;> simp [ExchangeRecord.mayRetry, AttemptOutcome.allowsRetry, ho, hlimit, hd, hr]

/-- With no request there is none to order. -/
theorem interleave_nil (order : List ReportSource) : interleave order [] = [] := by
  induction order with
  | nil => rfl
  | cons src order ih => exact ih

/-- The end of a broadcast's guard, with no slot in flight, delivers nothing (R78). -/
theorem State.guardEnds_of_broadcast {s : State} {r : ExchangeRecord} (hs : s.engine.state = .guard .broadcast)
    (hr : s.engine.record = some r) (ho : r.origin = .broadcast) (hslot : s.sched.slotInFlight = false)
    (order : List ReportSource) : s.guardEnds order = s.becomeIdle := by
  have hconclude (o : AttemptOutcome) : s.concludeExchange r o = (s, []) := by
    simp [State.concludeExchange, State.deliverEnd, ho, State.slotEnded, Scheduler.slotEnded_of_none hslot]
  unfold State.guardEnds
  rw [hr]
  dsimp only
  rw [if_neg (by simp [hs]), State.endExchange]
  rw [hconclude, interleave_nil]
  rfl

/-- Settles O34: each timer's expiry is its event, and the choice follows where the engine becomes IDLE. -/
theorem timersEndAttemptsAndGuards : Obligations.TimersEndAttemptsAndGuards := by
  intro s order hn
  refine ⟨fun r hs hr ht => ?_, fun r hs hr ht => ?_, fun r hq hs hr ho hlimit hd hno => ?_, fun k hq hs hr => ?_,
    fun r hq hs hr ho hslot => ?_⟩
  · change s.takeDueReport.replyTimeoutExpires = _
    rw [State.takeDueReport_of_not_stands hn, ← State.classifyAttempt_eq hr]
    exact guarded_of (by simp [hs, ht])
  · change s.takeDueReport.gapExpires = _
    rw [State.takeDueReport_of_not_stands hn, ← State.classifyAttempt_eq hr]
    exact guarded_of (by simp [hs, ht])
  · have hend : s.guardEnds order.reports = s.startAttempt { r with attempt := r.attempt + 1 } := by
      unfold State.guardEnds
      rw [hr]
      exact if_pos ⟨hs, ExchangeRecord.mayRetry_of_failed ho hlimit hd hno⟩
    have hexpires : s.quietExpires order = if order.before = .nothing then
        .next (s.startAttempt { r with attempt := r.attempt + 1 }) else .fault .noChoiceFollows := by
      unfold State.quietExpires
      dsimp only
      rw [hend]
      exact if_neg (by simp [Engine.empty])
    rw [State.exec_quietTimerExpiry_of_guard hn hq hs, hexpires]
    refine ⟨fun hb => (if_pos hb).trans rfl, fun hb t => ?_⟩
    rw [if_neg hb]
    nofun
  · have hend : s.guardEnds order.reports = s.becomeIdle := by
      unfold State.guardEnds
      rw [hr]
    rw [State.exec_quietTimerExpiry_of_guard hn hq hs, State.quietExpires_of_idle hend rfl]
    exact State.choiceFollows_thenChoose _ _
  · rw [State.exec_quietTimerExpiry_of_guard hn hq hs,
      State.quietExpires_of_idle (State.guardEnds_of_broadcast hs hr ho hslot _) rfl]
    exact State.choiceFollows_thenChoose _ _

end Sys2Proof.Machine
end

section
/-! The discovery phase at the arbiter: the next probe, and the entry into the phase (R62, R87, R90, R92, R95, R102): O47. -/

namespace Sys2Proof.Machine

/-! ## The search (R92) -/

/-- A station that a discovery probe may go to, in the words of the statements. -/
theorem State.isDiscoverable_iff (s : State) (a : Nat) : s.isDiscoverable a ↔ (s.entry a).isCandidate = true := by
  unfold State.isDiscoverable StationEntry.isCandidate
  cases (s.entry a).profile with
  | none => simp
  | some p => simp [and_comm]

/-- The addresses of a search, in its order, are those of the statements. -/
theorem State.searchedAddresses_eq (s : State) :
    (List.range' 1 s.searchLength).map (addressAfter s.arbiter.probeCursor) =
      (List.range' 1 s.searchReach).map s.searched := rfl

/-- The search finds the first station in its order that a probe may go to. -/
theorem State.findCandidate_of_first {s : State} {k : Nat} (h1 : 1 ≤ k) (hk : k ≤ s.searchReach)
    (hfound : s.isDiscoverable (s.searched k)) (hfirst : ∀ j, 1 ≤ j → j < k → ¬s.isDiscoverable (s.searched j)) :
    s.findCandidate = some (s.searched k) := by
  have hsearch : (List.range' 1 s.searchReach).find? (fun j => (s.entry (s.searched j)).isCandidate) = some k := by
    rw [List.find?_range'_eq_some, ← State.isDiscoverable_iff, List.mem_range'_1]
    refine ⟨hfound, by omega, fun j hj hjk => ?_⟩
    rw [Bool.not_eq_true', ← Bool.not_eq_true, ← State.isDiscoverable_iff]
    exact hfirst j hj hjk
  unfold State.findCandidate
  rw [s.searchedAddresses_eq, List.find?_map]
  exact congrArg (Option.map s.searched) hsearch

/-- The discovery phase, its budget not spent, answers a question with the candidate that the search finds (R92). -/
theorem State.discover_of_candidate {s : State} {a : Nat} (hb : s.sched.probesIssued ≠ s.sched.probeBudget)
    (hc : s.findCandidate = some a) : s.discover = (s.issueProbe a, some (a, .probe, .discovery)) := by
  unfold State.discover
  rw [if_neg hb, hc]
  rfl

/-! ## The question (R87) -/

/-- A scheduler that may answer answers with the work that the cycle yields. -/
theorem State.ask_of_offer {s t : State} {offer : Offer} (h : s.mayAnswer) (hcycle : s.stepCycle = (t, some offer)) (n : Nat) :
    State.ask (n + 1) s = (t, .take offer) := by
  obtain ⟨hactive, hstop⟩ := h
  unfold State.ask
  rw [if_neg (by simp [hactive, hstop]), hcycle]

/-- The question depends on the state through the work of the cycle alone. -/
theorem State.ask_congr {s t : State} (h : s.stepCycle = t.stepCycle) (hs : s.mayAnswer) (ht : t.mayAnswer) (n : Nat) :
    State.ask (n + 1) s = State.ask (n + 1) t := by
  obtain ⟨hs1, hs2⟩ := hs
  obtain ⟨ht1, ht2⟩ := ht
  rw [State.ask, State.ask, if_neg (by simp [hs1, hs2]), if_neg (by simp [ht1, ht2]), h]

/-- With no ticket to take, a choice on the free line is the question to the scheduler and what follows it (R100). -/
theorem State.arbiterChoice_congr {s t : State} (hs : s.lineFree) (ht : t.lineFree) (hns : s.noTicketNow) (hnt : t.noTicketNow)
    (h : State.ask 3 s = State.ask 3 t) : s.arbiterChoice = t.arbiterChoice := by
  rw [State.arbiterChoice_of_lineFree hs, State.arbiterChoice_of_lineFree ht, State.chooseWork, State.chooseWork,
    State.ticketItem_of_noTicketNow hns, State.ticketItem_of_noTicketNow hnt]
  dsimp only
  rw [h]

/-- Slots that all yield nothing are passed, and the phase is entered within the same question (R87, R92; log entry 29). -/
theorem State.stepCycle_of_passed {s : State} (hphase : s.sched.phase = .slots)
    (h : ∀ b ∈ s.sched.cycleList.drop s.sched.slotCursor, s.judgeSlot b = none) :
    s.stepCycle =
      (s.passSlots (s.sched.cycleList.length - s.sched.slotCursor)).enterDiscovery.stepCycle := by
  have hslots := State.stepSlots_passed h []
  rw [List.append_nil, List.length_drop] at hslots
  unfold State.stepCycle
  rw [hphase, hslots]
  rfl

/-- Settles O47: the candidate that the search finds is probed, and the phase entered is asked as any discovery phase is. -/
theorem arbiterIssuesADiscoveryProbe : Obligations.ArbiterIssuesADiscoveryProbe := by
  intro s
  refine ⟨fun k hasks hbudget h1 hk hfound hfirst => ?_, fun hfree hticket hactive hstop hphase hnone => ?_⟩
  · obtain ⟨hfree, hticket, hactive, hstop, hphase⟩ := hasks
    have hcycle : s.stepCycle = (s.issueProbe (s.searched k), some (s.searched k, .probe, .discovery)) := by
      unfold State.stepCycle
      rw [hphase]
      exact State.discover_of_candidate hbudget (State.findCandidate_of_first h1 hk hfound hfirst)
    rw [State.arbiterChoice_of_take hfree hticket (State.ask_of_offer ⟨hactive, hstop⟩ hcycle 2)]
    exact State.handOver_eq_sendingFirst (f := .probe) (origin := .discovery) nofun nofun _ _
  · refine ⟨_, toNat_satInc8_iterate (s.sched.cycleList.length - s.sched.slotCursor) s.sched.summary.skipped, ?_⟩
    exact State.arbiterChoice_congr hfree hfree hticket hticket
      (State.ask_congr (State.stepCycle_of_passed hphase hnone) ⟨hactive, hstop⟩ ⟨hactive, hstop⟩ 2)

end Sys2Proof.Machine
end

section
/-! The law of the cycle scheduler and the arbiter (R85 to R98, R102) over every effect a command can have, and over every step:
O49. -/

namespace Sys2Proof.Machine

/-! ## The law over changes of the scheduler -/

/-- The scheduler changed within its law, and nothing else that the law reads. -/
theorem CycleLaw.ofSched {s t : State} (h : CycleLaw s) (h1 : t.arbiter = s.arbiter) (h2 : t.engine = s.engine)
    (hranges : s.sched.Ranges → t.sched.Ranges)
    (hconsistent : s.sched.Consistent s.engine.record.isSome → t.sched.Consistent s.engine.record.isSome) : CycleLaw t := by
  rw [CycleLaw_iff] at h ⊢
  obtain ⟨hr, ha, hc⟩ := h
  rw [h1, h2]
  exact ⟨hranges hr, ha, hconsistent hc⟩

/-- With no exchange in the engine, the law does not see what happens to the engine. -/
theorem CycleLaw.ofNoRecord {s t : State} (h : CycleLaw s) (hr : s.engine.record = none) (h1 : t.sched = s.sched)
    (h2 : t.arbiter = s.arbiter) : CycleLaw t :=
  h.congr h1 h2 (by simp [hr])

/-! ## CYCLE_START and CYCLE_STOP (R88, R89, R97, R98) -/

/-- The scheduler that begins cycle 0, from the one before: the list installed, the settings taken (R88). -/
theorem Scheduler.Ranges.startCycle {c : Scheduler} (h : c.Ranges) (mode : CycleMode) {f : StartFields}
    (hf : f.inRange = true) : (c.startCycle mode f).Ranges := by
  obtain ⟨hperiod, hshare, hshare', hbudget⟩ := of_decide_eq_true hf
  obtain ⟨h1, h2, h3, h4, -, -, -, -, h9⟩ := h.install
  exact ⟨h1, h2, h3, Nat.zero_le _, hperiod, ⟨hshare, hshare'⟩, hbudget, Nat.zero_le _, h9⟩

/-- Cycle 0 begins with no stop request standing and leaves the slot in flight as it is (R88, R89). -/
theorem Scheduler.Consistent.startCycle {c : Scheduler} {b : Bool} (h : c.Consistent b) (mode : CycleMode)
    (f : StartFields) : (c.startCycle mode f).Consistent b := by
  have hi : c.install.Consistent b := by rw [Scheduler.install_frame]; exact h
  obtain ⟨-, -, -, -, h5, h6⟩ := hi
  exact ⟨nofun, nofun, fun hn => absurd rfl hn, nofun, h5, h6⟩

/-- Only a slot in flight is marked abandoned (R89). -/
theorem State.abandonCycle_slotAbandoned (s : State) :
    s.abandonCycle.sched.slotAbandoned =
      (s.sched.slotAbandoned || (s.sched.state != .stopped && s.sched.slotInFlight)) := by
  unfold State.abandonCycle
  cases s.sched.state <;> cases s.sched.slotInFlight <;> simp

/-- The marker of an abandoned slot set for a slot in flight alone (R89). -/
theorem Scheduler.Consistent.markAbandoned {c : Scheduler} {b : Bool} (h : c.Consistent b) {abandoned : Bool}
    (ha : abandoned = (c.slotAbandoned || (c.state != .stopped && c.slotInFlight))) :
    ({ c with slotAbandoned := abandoned } : Scheduler).Consistent b := by
  obtain ⟨h1, h2, h3, h4, h5, h6⟩ := h
  refine ⟨h1, h2, h3, h4, h5, fun hs => ?_⟩
  simp only [ha, Bool.or_eq_true, Bool.and_eq_true] at hs
  exact hs.elim h6 And.right

theorem CycleLaw.beginCycling {s : State} (h : CycleLaw s) (mode : CycleMode) {f : StartFields} (hf : f.inRange = true) :
    CycleLaw (s.beginCycling mode f) := by
  rw [CycleLaw_iff] at h ⊢
  obtain ⟨hranges, ⟨-, hcursor⟩, hconsistent⟩ := h
  obtain ⟨-, -, hshare, -⟩ := of_decide_eq_true hf
  have hmarked : ({ s.sched with slotAbandoned := s.abandonCycle.sched.slotAbandoned } : Scheduler).Ranges := hranges
  unfold State.beginCycling
  rw [State.abandonCycle_frame]
  exact ⟨hmarked.startCycle mode hf, ⟨hshare, hcursor⟩,
    (hconsistent.markAbandoned s.abandonCycle_slotAbandoned).startCycle mode f⟩

/-- AFTER_SLOT stops, or stands as a request while a slot is in flight (R97). -/
theorem CycleLaw.stopAfterSlot {s : State} (h : CycleLaw s) : CycleLaw s.stopAfterSlot := by
  unfold State.stopAfterSlot
  split
  · exact h
  · exact h.ofSched rfl rfl id Scheduler.Consistent.stop
  · rename_i hactive
    split
    · rename_i hslot
      refine h.ofSched rfl rfl id (fun ⟨h1, h2, _, _, h5, h6⟩ => ?_)
      exact ⟨h1, h2, fun _ => hactive, fun _ => hslot, h5, h6⟩
    · exact h.ofSched rfl rfl id Scheduler.Consistent.stop

/-- AFTER_CYCLE stops in RESTING, and stands as a request in ACTIVE (R98). -/
theorem CycleLaw.stopAfterCycle {s : State} (h : CycleLaw s) : CycleLaw s.stopAfterCycle := by
  unfold State.stopAfterCycle
  split
  · exact h
  · exact h.ofSched rfl rfl id Scheduler.Consistent.stop
  · rename_i hactive
    split
    · exact h
    · refine h.ofSched rfl rfl id (fun ⟨h1, h2, _, _, h5, h6⟩ => ?_)
      exact ⟨h1, h2, fun _ => hactive, nofun, h5, h6⟩

/-! ## The period timer (R93, R94) -/

/-- The period timer's expiry, before any choice. -/
theorem CycleLaw.periodExpires {s : State} (hl : LineLaw s) (h : CycleLaw s) : CycleLaw s.periodExpires := by
  unfold State.periodExpires
  split
  · rename_i hs
    refine h.ofSched rfl rfl id (fun ⟨_, _, h3, h4, h5, h6⟩ => ?_)
    exact ⟨fun _ => rfl, by simp [hs], h3, h4, h5, h6⟩
  · rename_i hs
    refine h.ofSched rfl rfl id (fun ⟨_, _, h3, h4, h5, h6⟩ => ?_)
    exact ⟨by simp [Scheduler.overrun, Scheduler.startPeriod, hs], by simp [Scheduler.overrun, Scheduler.startPeriod, hs],
      h3, h4, h5, h6⟩
  · have hnext : CycleLaw { s with sched := s.sched.nextCycle } :=
      h.ofSched rfl rfl Scheduler.Ranges.nextCycle Scheduler.Consistent.nextCycle
    dsimp only
    split
    · exact (CycleLaw.choice (s := { s with sched := s.sched.nextCycle }) ⟨hl, hnext⟩).2
    · exact hnext

/-! ## The events of the line: an exchange in the engine stays there (R45, R64 to R68) -/

/-- A start bit leaves an exchange in the engine. -/
theorem Engine.startDetected_isSome (g : Engine) : g.startDetected.record.isSome = g.record.isSome := by
  unfold Engine.startDetected
  split <;> simp

theorem CycleLaw.startBit {s : State} (h : CycleLaw s) (b : BitSamples) : CycleLaw (s.startBit b) := by
  unfold State.startBit
  split
  · exact h
  · refine h.congr rfl rfl (fun hr => ?_)
    exact (Engine.startDetected_isSome s.engine).trans hr

theorem CycleLaw.classifyAttempt {s : State} (h : CycleLaw s) (o : AttemptOutcome) : CycleLaw (s.classifyAttempt o) :=
  h.congr rfl rfl (fun hr => by rw [State.classifyAttempt_engine, Option.isSome_map]; exact hr)

/-- A character taken into a reply leaves the exchange in the engine (R66). -/
theorem CycleLaw.receiveChar {s : State} (h : CycleLaw s) (c : RxChar) : CycleLaw (s.receiveChar c) := by
  cases hr : s.engine.record with
  | none =>
    unfold State.receiveChar
    rw [hr]
    exact h
  | some r =>
    have appended (gap : Option Nat) : CycleLaw (s.withReplyChar r c gap) := h.congr rfl rfl (fun _ => rfl)
    rcases State.receiveChar_eq hr c with he | ⟨n, o, he, -⟩ <;> rw [he]
    · exact appended _
    · exact CycleLaw.classifyAttempt (s := { s.withReplyChar r c none with freeDraws := n }) (appended none) o

/-- A finished character leaves the exchange in the engine, in each of its states (R63, R65, R66, R70). -/
theorem CycleLaw.deliverChar {s : State} (h : CycleLaw s) (c : RxChar) : CycleLaw (s.deliverChar c) := by
  have counted (f : LineStats → LineStats) : CycleLaw (s.countLine f) := h
  unfold State.deliverChar
  dsimp only
  split
  · exact h
  · exact (counted _).classifyAttempt _
  · exact (counted _).receiveChar c
  · exact h
  · exact h
  · exact h

/-! ## The end of a guard, and the return of the line (R71 to R73, R158) -/

theorem CycleLaw.guardEnds {s : State} (h : CycleLaw s) (order : List ReportSource) : CycleLaw (s.guardEnds order) := by
  unfold State.guardEnds
  split
  · rename_i hr
    exact h.ofNoRecord hr rfl rfl
  · rename_i r hr
    split
    · exact h.congr rfl rfl (fun _ => rfl)
    · exact h.concludeExchange r (r.lastOutcome.getD .broken) (by simp [State.endExchange]) (by simp [State.endExchange])

theorem CycleLaw.lineJams {s : State} (h : CycleLaw s) (order : List ReportSource) : CycleLaw (s.lineJams order) := by
  cases hr : s.engine.record with
  | none =>
    rw [State.lineJams_of_none hr]
    exact h.ofNoRecord hr rfl rfl
  | some r =>
    rw [State.lineJams_of_record hr]
    exact CycleLaw.concludeExchange (s := s.jamCounted) h r.jammed .broken (by simp) (by simp [State.jamCounted])

/-- The line's return finds no exchange in the engine, and so no slot in flight (R82, R158). -/
theorem CycleLaw.returnLine {s : State} (hl : LineLaw s) (h : CycleLaw s) (hg : s.sup.handover = .granted)
    (order : List ReportSource) : CycleLaw (s.returnLine order) := by
  obtain ⟨-, -, hlent, -⟩ := id hl
  refine h.ofNoRecord (hl.record_of_released (hlent.2 hg)) ?_ ?_ <;>
    simp [State.returnLine, State.tableLineReturned]

/-! ## Resets (R105) -/

/-- The handover state that follows LREQ after a reset keeps the law (R84, R105, R161). -/
theorem CycleLaw.followLreq {s : State} (h : CycleLaw s) (h0 : s.engine = .empty .idle) (h1 : s.line.rx ≠ .off)
    (h2 : s.sup.handover = .none) : CycleLaw s.followLreq := by
  unfold State.followLreq
  split
  · exact h.ofNoRecord (by rw [h0]; rfl) rfl rfl
  · rename_i hl
    have hline : LineLaw s := LineLaw.idle h0 h1 (by simp [h2]) (by simpa [h2] using hl)
    exact (CycleLaw.choice ⟨hline, h⟩).2

/-- A WARM restart keeps the list, the settings and the start mark (R105). -/
theorem Scheduler.Ranges.warm {c : Scheduler} (h : c.Ranges) : c.warm.Ranges := by
  obtain ⟨h1, h2, -, -, h5, h6, h7, -, h9⟩ := h
  exact ⟨h1, h2, nofun, Nat.zero_le _, h5, h6, h7, Nat.zero_le _, h9⟩

/-- After a restart the scheduler is STOPPED, with no request, no slot in flight and no timer running (R105). -/
theorem Scheduler.Consistent.warm (c : Scheduler) (b : Bool) : c.warm.Consistent b :=
  ⟨fun _ => rfl, nofun, fun hn => absurd rfl hn, nofun, nofun, nofun⟩

theorem CycleLaw.warmRestart {s : State} (h : CycleLaw s) : CycleLaw s.warmRestart := by
  obtain ⟨hranges, ⟨-, hcursor⟩, -⟩ := (CycleLaw_iff s).1 h
  refine CycleLaw.followLreq ((CycleLaw_iff _).2 ⟨?_, ⟨Nat.zero_le _, hcursor⟩, ?_⟩) rfl nofun rfl
  · exact hranges.warm
  · exact Scheduler.Consistent.warm _ _

theorem CycleLaw.initialised (s : State) (strap : BitVec 2) : CycleLaw (s.initialised strap).followLreq := by
  have hreset : CycleLaw State.reset := by
    obtain ⟨-, -, -, -, -, hcycle, -⟩ := resetHasEveryLaw
    exact hcycle
  exact CycleLaw.followLreq (s := s.initialised strap) (hreset.congr rfl rfl nofun) rfl nofun rfl

/-! ## Every effect -/

/-- Every effect of a command keeps the law of the scheduler and the arbiter, the line keeping its own. -/
theorem cycleLaw_execClosed : ExecClosed (fun s => LineLaw s ∧ CycleLaw s) where
  choice := fun _ h => CycleLaw.choice h
  host := fun _ _ h => h
  lineSetup := fun _ _ _ _ h _ _ _ => h
  clearLine := fun _ h => h
  draw := fun _ _ h => h
  define := fun s f p ⟨hl, hc⟩ hp => ⟨lineLaw_execClosed.define s f p hl hp, by
    rw [State.define_frame]
    exact hc.congr rfl rfl (by simp [State.discardExchange])⟩
  remove := fun s a ⟨hl, hc⟩ hv hd => ⟨lineLaw_execClosed.remove s a hl hv hd, by
    rw [State.remove_frame]
    exact hc.congr rfl rfl (by simp [State.discardExchange])⟩
  clearCounters := fun s a ⟨hl, hc⟩ hv =>
    ⟨lineLaw_execClosed.clearCounters s a hl hv, hc.congr (by simp) (by simp) (by simp)⟩
  installList := fun s l ⟨hl, hc⟩ _ hlen hvalid => ⟨hl, hc.ofSched rfl rfl
    (fun ⟨_, _, _, h⟩ => ⟨hlen, hvalid, nofun, h⟩) id⟩
  pendList := fun s l ⟨hl, hc⟩ hlen hvalid => ⟨hl, hc.ofSched rfl rfl
    (fun ⟨h1, h2, _, h⟩ => ⟨h1, h2, fun _ hp => by cases hp; exact ⟨hlen, hvalid⟩, h⟩) id⟩
  beginCycling := fun s mode f ⟨hl, hc⟩ hf hlist =>
    ⟨lineLaw_execClosed.beginCycling s mode f hl hf hlist, hc.beginCycling mode hf⟩
  stopAfterSlot := fun s ⟨hl, hc⟩ => ⟨lineLaw_execClosed.stopAfterSlot s hl, hc.stopAfterSlot⟩
  stopAfterCycle := fun s ⟨hl, hc⟩ => ⟨lineLaw_execClosed.stopAfterCycle s hl, hc.stopAfterCycle⟩
  applyItems := fun s items h _ => by
    rw [State.applyItems_frame]
    exact h
  placeTicket := fun _ _ _ _ h _ => h
  cancelTicket := fun s id t h _ _ => by
    rw [State.completeTicket_frame]
    exact h
  credit := fun _ _ h _ => h
  takeReport := fun _ _ _ h _ _ => h
  holdSetup := fun _ _ _ _ h => h
  restartHoldTimer := fun _ h => h
  endHold := fun _ h _ => h
  enterHold := fun s ⟨hl, hc⟩ => ⟨lineLaw_execClosed.enterHold s hl,
    hc.congr rfl rfl (by simp [State.enterHold, State.forbidRetry])⟩
  limitExpires := fun _ h => h
  lreqAsserted := fun s ⟨hl, hc⟩ h => ⟨lineLaw_execClosed.lreqAsserted s hl h, hc⟩
  lreqNegated := fun s ⟨hl, hc⟩ h1 h2 => ⟨lineLaw_execClosed.lreqNegated s hl h1 h2, hc⟩
  returnLine := fun s order ⟨hl, hc⟩ h1 h2 => ⟨lineLaw_execClosed.returnLine s order hl h1 h2, hc.returnLine hl h2 order⟩
  initialised := fun s strap ⟨hl, _⟩ => ⟨lineLaw_execClosed.initialised s strap hl, CycleLaw.initialised s strap⟩
  warm := fun s ⟨hl, hc⟩ => ⟨lineLaw_execClosed.warm s hl, hc.warmRestart⟩
  startBit := fun s b ⟨hl, hc⟩ hrx => ⟨lineLaw_execClosed.startBit s b hl hrx, hc.startBit b⟩
  char := fun s rx c ⟨hl, hc⟩ h1 h2 =>
    ⟨lineLaw_execClosed.char s rx c hl h1 h2, CycleLaw.deliverChar (s := s.setLineRx rx) hc c⟩
  frameEnds := fun s r ⟨hl, hc⟩ h1 h2 => ⟨lineLaw_execClosed.frameEnds s r hl h1 h2, by
    unfold State.frameEnds
    dsimp only
    split <;> exact hc.congr rfl rfl id⟩
  noReply := fun s ⟨hl, hc⟩ h => ⟨lineLaw_execClosed.noReply s hl h, hc.classifyAttempt _⟩
  gap := fun s ⟨hl, hc⟩ h => ⟨lineLaw_execClosed.gap s hl h, hc.classifyAttempt _⟩
  quiet := fun s order ⟨hl, hc⟩ h => ⟨lineLaw_execClosed.quiet s order hl h, hc.guardEnds order⟩
  jam := fun s order ⟨hl, hc⟩ h1 h2 => ⟨lineLaw_execClosed.jam s order hl h1 h2, hc.lineJams order⟩
  period := fun s ⟨hl, hc⟩ hp => ⟨lineLaw_execClosed.period s hl hp, hc.periodExpires hl⟩

/-- Settles O49: every effect of a command keeps the ranges and what goes with the scheduler's state, and so does every step. -/
theorem everyStepKeepsTheCycleLaw : Obligations.EveryStepKeepsTheCycleLaw := by
  intro s t hline hcycle ht
  obtain ⟨-, h⟩ := cycleLaw_execClosed.step (fun _ _ h => h) ht ⟨hline, hcycle⟩
  exact h

end Sys2Proof.Machine
end

section
/-! The cycle scheduler's commands and its period timer, and the judgement of a slot (R85, R86, R88 to R91, R93, R94, R97 to
R100): O38 to O43. -/

namespace Sys2Proof.Machine

/-! ## The scheduler in the words of the statements (R85, R88, R93) -/

/-- A pending list, if present, replaces the cycle list (R85). -/
theorem Scheduler.install_eq (c : Scheduler) :
    c.install = { c with cycleList := c.pendingList.getD c.cycleList, pendingList := none } := by
  obtain ⟨list, pending, _⟩ := c
  cases pending <;> rfl

/-- A cycle begun on the list installed (R88, R93). -/
theorem Scheduler.beginCycle_install (c : Scheduler) (number : Half) :
    c.install.beginCycle number = c.withCycle (c.pendingList.getD c.cycleList) number := by
  rw [Scheduler.install_eq]
  rfl

/-- Cycle 0 begun by CYCLE_START, with its settings (R88). -/
theorem Scheduler.startCycle_eq (c : Scheduler) (mode : CycleMode) (f : StartFields) :
    c.startCycle mode f = Scheduler.withCycle
      { c with
        mode := mode, period := f.period, demandShare := f.demandShare, probeBudget := f.probeBudget
        stopRequest := .none, overruns := 0 } (c.pendingList.getD c.cycleList) 0 := by
  unfold Scheduler.startCycle
  rw [Scheduler.install_eq]
  rfl

/-- The next cycle, or the stop at an empty list (R93). -/
theorem Scheduler.nextCycle_eq (c : Scheduler) : c.nextCycle = c.withNextCycle := by
  have hlist : c.install.cycleList = c.pendingList.getD c.cycleList := by rw [Scheduler.install_eq]
  have hnumber : c.install.cycleNumber = c.cycleNumber := by rw [Scheduler.install_eq]
  unfold Scheduler.nextCycle Scheduler.withNextCycle
  dsimp only
  rw [hlist, hnumber, Scheduler.beginCycle_install]
  split
  · rename_i hempty
    rw [Scheduler.install_eq, hempty]
    rfl
  · rfl

/-- At an empty list the cycle start that is due stops the scheduler (R93). -/
theorem Scheduler.withNextCycle_state_of_empty {c : Scheduler} (h : c.pendingList.getD c.cycleList = []) :
    c.withNextCycle.state = .stopped := by
  unfold Scheduler.withNextCycle
  rw [if_pos h]

theorem Scheduler.withNextCycle_of_nonempty {c : Scheduler} (h : c.pendingList.getD c.cycleList ≠ []) :
    c.withNextCycle = c.withCycle (c.pendingList.getD c.cycleList) (c.cycleNumber + 1) := if_neg h

/-! ## CYCLE_SET (R86) -/

section
variable {s : State} {slots : List Nat}

theorem State.cycleSet_of_outside (h : 64 < slots.length ∨ ∃ a ∈ slots, a = 0 ∨ 63 < a) :
    s.cycleSet slots = (s, .refuse .range) := by
  refine if_pos (h.imp id fun ⟨a, ha, hout⟩ => ?_)
  simp only [List.any_eq_true, Bool.not_eq_true']
  exact ⟨a, ha, validAddress_of_outside hout⟩

/-- A list that fits replaces the list in force in STOPPED, and becomes the pending list otherwise (R86). -/
theorem State.cycleSet_of_valid (hlen : slots.length ≤ 64) (hslots : ∀ a ∈ slots, 1 ≤ a ∧ a ≤ 63) :
    s.cycleSet slots =
      if s.sched.state = .stopped then
        ({ s with sched := { s.sched with cycleList := slots, pendingList := none } }, .ok [byte slots.length, 0])
      else ({ s with sched := { s.sched with pendingList := some slots } }, .ok [byte slots.length, 1]) := by
  refine if_neg ?_
  rintro (hlong | hany)
  · exact absurd hlen (Nat.not_le.2 hlong)
  · obtain ⟨a, ha, hbad⟩ := List.any_eq_true.1 hany
    rw [(validAddress_iff a).2 (hslots a ha)] at hbad
    cases hbad

end

/-- The payload of a CYCLE_SET names its slots (R163). -/
theorem parseCycleSet_addresses {addrs : List Byte} (h : addrs.length ≤ 95) :
    parseCycleSet (byte addrs.length :: addrs) = some (addrs.map BitVec.toNat) := by
  have hlen : (byte addrs.length).toNat = addrs.length := toNat_byte (by omega)
  rw [parseCycleSet, hlen, if_pos rfl]

/-- Settles O38: the slots are checked, and then the scheduler's state says which list they replace. -/
theorem cycleSetReplacesOneList : Obligations.CycleSetReplacesOneList := by
  intro s m rest addrs h hlen hpay
  have hparse : parseCycleSet m.payload = some (addrs.map BitVec.toNat) := hpay ▸ parseCycleSet_addresses hlen
  have answer {t : State} {res : Result} {body : List Byte} (hset : (s.taking m rest).cycleSet (addrs.map BitVec.toNat) =
      (t.taking m rest, { result := res, body := body })) : exec .cycleSet s = .next (t.answered m rest res body) :=
    h.answers (mine := (· == typeCycleSet)) (decide := fun f s => s.cycleSet f) rfl hparse hset
  refine ⟨fun hbad => answer (State.cycleSet_of_outside ?_), fun h64 haddrs => ?_⟩
  · rw [List.length_map]
    exact hbad.imp id fun ⟨a, ha, hout⟩ => ⟨a.toNat, List.mem_map_of_mem ha, hout⟩
  · have hvalid : (s.taking m rest).cycleSet (addrs.map BitVec.toNat) = _ :=
      State.cycleSet_of_valid (by rwa [List.length_map]) (List.forall_mem_map.2 haddrs)
    rw [List.length_map] at hvalid
    exact ⟨fun hs => answer (hvalid.trans (if_pos hs)), fun hs => answer (hvalid.trans (if_neg hs))⟩

/-! ## CYCLE_START (R88, R89) -/

theorem decodeMode_of_reserved {b : Byte} (h : 1 < b.toNat) : decodeMode b = none := by
  cases hd : decodeMode b with
  | none => rfl
  | some mode =>
    rw [decodeMode_eq_some.1 hd] at h
    cases mode <;> exact absurd h (by decide)

theorem decodeMode_of_le {b : Byte} (h : b.toNat ≤ 1) : ∃ mode, decodeMode b = some mode := by
  have hb : b = 0 ∨ b = 1 := by bv_omega
  rcases hb with rfl | rfl
  · exact ⟨.single, rfl⟩
  · exact ⟨.continuous, rfl⟩

/-- The flag that tells whether the scheduler is in a state (R162, R164). -/
theorem flag_beq (st st' : SchedState) : flag (st == st') = if st = st' then 1 else 0 := by
  by_cases h : st = st' <;> simp [flag, h]

/-- The fields of a CYCLE_START, from the bytes that spell them (R163). -/
def startFieldsOf (mode : Byte) (period : Half) (share budget : Byte) : StartFields :=
  { mode := mode, period := period.toNat, demandShare := share.toNat, probeBudget := budget.toNat }

theorem parseStart_fields (mode : Byte) (period : Half) (share budget : Byte) :
    parseStart ([mode] ++ le16 period ++ [share, budget]) = some (startFieldsOf mode period share budget) := by
  simp [parseStart, le16, startFieldsOf, half_le16]

section
variable {s : State} {f : StartFields} {mode : CycleMode}

theorem State.cycleStart_of_badField (h : decodeMode f.mode = none) : s.cycleStart f = (s, .refuse .badField) := by
  rw [State.cycleStart, h]

theorem State.cycleStart_of_badRange (hm : decodeMode f.mode = some mode) (h : f.inRange = false) :
    s.cycleStart f = (s, .refuse .range) := by
  rw [State.cycleStart, hm, h]
  rfl

theorem State.cycleStart_of_noList (hm : decodeMode f.mode = some mode) (hr : f.inRange = true)
    (h : s.sched.pendingList.getD s.sched.cycleList = []) : s.cycleStart f = (s, .refuse .wrongState) := by
  rw [State.cycleStart, hm, hr]
  exact if_pos h

/-- An accepted CYCLE_START, followed by the choice (R88, R100). -/
theorem State.cycleStart_of_accepted (hm : decodeMode f.mode = some mode) (hr : f.inRange = true)
    (h : s.sched.pendingList.getD s.sched.cycleList ≠ []) :
    s.cycleStart f = ((s.beginCycling mode f).arbiterChoice,
      .ok [byte (s.beginCycling mode f).sched.cycleList.length, flag (s.sched.state == .active)]) := by
  rw [State.cycleStart, hm, hr]
  exact if_neg h

/-- While a command is being decided no report becomes due: the abandoned cycle's summary is placed, and its slot in flight
marked (R89). -/
theorem State.abandonCycle_of_deciding (h : s.host.processor ≠ .idle) : s.abandonCycle = { s with
    reports :=
      if s.sched.state = .active then s.reports.place (.cycleDone { s.sched.summary with abandoned := true }) else s.reports
    sched := { s.sched with
      slotAbandoned := s.sched.slotAbandoned || (s.sched.state != .stopped && s.sched.slotInFlight) } } := by
  have hplace (r : ReportRequest) : s.place r = { s with reports := s.reports.place r } :=
    State.place_of_none (State.dueReport_of_deciding h) r
  rw [State.abandonCycle_frame, ← State.abandonCycle_slotAbandoned]
  unfold State.abandonCycle
  dsimp only
  rw [hplace]
  split <;> split <;> rfl

/-- Cycle 0 begun while CYCLE_START is being decided, in the words of the statements (R88, R89). -/
theorem State.beginCycling_of_deciding (h : s.host.processor ≠ .idle) (mode : CycleMode) (f : StartFields) :
    s.beginCycling mode f = { s with
      reports :=
        if s.sched.state = .active then s.reports.place (.cycleDone { s.sched.summary with abandoned := true })
        else s.reports
      arbiter := { s.arbiter with demandAllowance := f.demandShare }
      sched := Scheduler.withCycle
        { s.sched with
          mode := mode, period := f.period, demandShare := f.demandShare, probeBudget := f.probeBudget
          stopRequest := .none, overruns := 0
          slotAbandoned := s.sched.slotAbandoned || (s.sched.state != .stopped && s.sched.slotInFlight) }
        (s.sched.pendingList.getD s.sched.cycleList) 0 } := by
  unfold State.beginCycling
  rw [State.abandonCycle_of_deciding h]
  dsimp only
  rw [Scheduler.startCycle_eq]

end

/-- Settles O39: the checks in their order, and then the cycle begun, with the choice. -/
theorem cycleStartBeginsCycleZero : Obligations.CycleStartBeginsCycleZero := by
  intro s m rest mode share budget period h hpay
  have hparse : parseStart m.payload = some (startFieldsOf mode period share budget) := hpay ▸ parseStart_fields ..
  have answer {t : State} {res : Result} {body : List Byte}
      (hstart : (s.taking m rest).cycleStart (startFieldsOf mode period share budget) =
        (t.taking m rest, { result := res, body := body })) : exec .cycleStart s = .next (t.answered m rest res body) :=
    h.answers (mine := (· == typeCycleStart)) (decide := fun f s => s.cycleStart f) rfl hparse hstart
  have inRange_iff : (startFieldsOf mode period share budget).inRange = true ↔
      period.toNat ≤ 60000 ∧ 1 ≤ share.toNat ∧ share.toNat ≤ 4 ∧ budget.toNat ≤ 4 := decide_eq_true_iff
  refine ⟨fun hm => answer (State.cycleStart_of_badField (decodeMode_of_reserved hm)), fun hm hr => ?_,
    fun hm hperiod h1 h4 hbudget => ?_⟩
  · obtain ⟨mode', hmode⟩ := decodeMode_of_le hm
    refine answer (State.cycleStart_of_badRange hmode ?_)
    rw [← Bool.not_eq_true, inRange_iff]
    omega
  · have hr := inRange_iff.2 ⟨hperiod, h1, h4, hbudget⟩
    refine ⟨fun hlist => ?_, fun hlist mode' hmode => ?_⟩
    · obtain ⟨mode', hmode⟩ := decodeMode_of_le hm
      exact answer (State.cycleStart_of_noList hmode hr hlist)
    · have hbegin := State.beginCycling_of_deciding (s := s.taking m rest) nofun mode'
        (startFieldsOf mode period share budget)
      refine answer ?_
      rw [State.taking_arbiterChoice rfl,
        State.cycleStart_of_accepted (s := s.taking m rest) (decodeMode_eq_some.2 hmode) hr hlist, hbegin, flag_beq]
      rfl

/-! ## CYCLE_STOP (R97, R98) -/

theorem decodeWhen_of_reserved {b : Byte} (h : 1 < b.toNat) : decodeWhen b = none := by
  unfold decodeWhen
  rw [if_neg (by rintro rfl; simp at h), if_neg (by rintro rfl; simp at h)]

section
variable {s : State} {w : Byte}

theorem State.cycleStop_of_badField (h : decodeWhen w = none) : s.cycleStop w = (s, .refuse .badField) := by
  rw [State.cycleStop, h]

theorem State.cycleStop_of_stopped {r : StopRequest} (hw : decodeWhen w = some r) (h : s.sched.state = .stopped) :
    s.cycleStop w = (s, .refuse .wrongState) := by
  rw [State.cycleStop, hw]
  exact if_pos h

/-- AFTER_SLOT taken in ACTIVE or RESTING, with the choice if the scheduler leaves ACTIVE (R97, R100). -/
theorem State.cycleStop_afterSlot (hw : w = 0) (h : s.sched.state ≠ .stopped) :
    s.cycleStop w = (s.stopAfterSlot.choiceAfterStop (s.sched.state == .active),
      .ok [flag (s.stopAfterSlot.sched.state == .stopped)]) := by
  subst hw
  exact if_neg h

/-- AFTER_CYCLE taken in ACTIVE or RESTING (R98). -/
theorem State.cycleStop_afterCycle (hw : w = 1) (h : s.sched.state ≠ .stopped) :
    s.cycleStop w = (s.stopAfterCycle.choiceAfterStop (s.sched.state == .active),
      .ok [flag (s.stopAfterCycle.sched.state == .stopped)]) := by
  subst hw
  exact if_neg h

/-- In RESTING either form stops at once (R97, R98). -/
theorem State.cycleStop_of_resting (hw : w = 0 ∨ w = 1) (h : s.sched.state = .resting) :
    s.cycleStop w = ({ s with sched := s.sched.stop }, .ok [1]) := by
  rcases hw with hw | hw
  · rw [State.cycleStop_afterSlot hw (by simp [h]), State.stopAfterSlot, h]
    rfl
  · rw [State.cycleStop_afterCycle hw (by simp [h]), State.stopAfterCycle, h]
    rfl

/-- In ACTIVE with a slot in flight, AFTER_SLOT stands as a request (R97). -/
theorem State.cycleStop_afterSlot_of_inFlight (hw : w = 0) (h : s.sched.state = .active)
    (hslot : s.sched.slotInFlight = true) :
    s.cycleStop w = ({ s with sched := { s.sched with stopRequest := .afterSlot } }, .ok [0]) := by
  rw [State.cycleStop_afterSlot hw (by simp [h]), State.stopAfterSlot, h]
  dsimp only
  rw [if_pos hslot, State.choiceAfterStop]
  simp [h, flag]

/-- In ACTIVE with no slot in flight, AFTER_SLOT stops at once: the summary is placed, and the arbiter chooses (R97, R100). -/
theorem State.cycleStop_afterSlot_of_noSlot (hw : w = 0) (h : s.sched.state = .active) (hslot : s.sched.slotInFlight = false)
    (hproc : s.host.processor ≠ .idle) :
    s.cycleStop w = (State.arbiterChoice { s with
      reports := s.reports.place (.cycleDone { s.sched.summary with abandoned := true })
      sched := { s.sched.stop with summary := { s.sched.summary with abandoned := true } } }, .ok [1]) := by
  rw [State.cycleStop_afterSlot hw (by simp [h]), State.stopAfterSlot, h]
  dsimp only
  rw [hslot, State.place_of_none (State.dueReport_of_deciding hproc)]
  rfl

/-- In ACTIVE, AFTER_CYCLE stands as a request, unless AFTER_SLOT stands (R98). -/
theorem State.cycleStop_afterCycle_of_active (hw : w = 1) (h : s.sched.state = .active) :
    s.cycleStop w = ({ s with sched := { s.sched with
      stopRequest := if s.sched.stopRequest = .afterSlot then .afterSlot else .afterCycle } }, .ok [0]) := by
  have hstop : s.stopAfterCycle = { s with sched := { s.sched with
      stopRequest := if s.sched.stopRequest = .afterSlot then .afterSlot else .afterCycle } } := by
    unfold State.stopAfterCycle
    rw [h]
    dsimp only
    split
    · rename_i hr
      rw [← hr]
    · rfl
  rw [State.cycleStop_afterCycle hw (by simp [h]), hstop, State.choiceAfterStop]
  simp [h, flag]

end

/-- Settles O40: each state of the scheduler, and each form of the request. -/
theorem cycleStopStopsOrStandsAsARequest : Obligations.CycleStopStopsOrStandsAsARequest := by
  intro s m rest w h hpay
  have hparse : parseOne m.payload = some w := by
    rw [hpay]
    rfl
  have answer {t : State} {res : Result} {body : List Byte} (hstop : (s.taking m rest).cycleStop w =
      (t.taking m rest, { result := res, body := body })) : exec .cycleStop s = .next (t.answered m rest res body) :=
    h.answers (mine := (· == typeCycleStop)) (decide := fun f s => s.cycleStop f) rfl hparse hstop
  have hzero : w.toNat = 0 → w = 0 := fun hw => BitVec.eq_of_toNat_eq hw
  have hone : w.toNat = 1 → w = 1 := fun hw => BitVec.eq_of_toNat_eq hw
  have hle : w.toNat ≤ 1 → w = 0 ∨ w = 1 := fun hw => (Nat.le_one_iff_eq_zero_or_eq_one.1 hw).imp hzero hone
  refine ⟨fun hw => answer (State.cycleStop_of_badField (decodeWhen_of_reserved hw)), fun hw hs => ?_,
    fun hw hs => answer (State.cycleStop_of_resting (hle hw) hs),
    fun hw hs => ⟨fun hslot => answer (State.cycleStop_afterSlot_of_inFlight (hzero hw) hs hslot), fun hslot => ?_⟩,
    fun hw hs => answer (State.cycleStop_afterCycle_of_active (hone hw) hs)⟩
  · rcases hle hw with rfl | rfl
    · exact answer (State.cycleStop_of_stopped (r := .afterSlot) rfl hs)
    · exact answer (State.cycleStop_of_stopped (r := .afterCycle) rfl hs)
  · refine answer ?_
    rw [State.taking_arbiterChoice rfl]
    exact State.cycleStop_afterSlot_of_noSlot (s := s.taking m rest) (hzero hw) hs hslot nofun

/-! ## CYCLE_QUERY (R99) -/

/-- The two flags of a summary share a byte (R165). -/
theorem flag_or_flag_shift (a b : Bool) : flag a ||| (flag b <<< 1) = byte (a.toNat + 2 * b.toNat) := by
  cases a <;> cases b <;> rfl

/-- The presence indicator of the pending list (R162). -/
theorem flag_isSome {α : Type} (x : Option α) [Decidable (x = none)] : flag x.isSome = if x = none then 0 else 1 := by
  cases x <;> simp [flag]

/-- Settles O41: the selector names the list, and the answer is the scheduler's body with its slots. -/
theorem cycleQueryAnswersTheScheduler : Obligations.CycleQueryAnswersTheScheduler := by
  intro s m rest selector h hpay
  have hparse : parseOne m.payload = some selector := by
    rw [hpay]
    rfl
  have answer {res : Result} {body : List Byte} (hquery : (s.taking m rest).cycleQuery selector =
      (s.taking m rest, { result := res, body := body })) : exec .cycleQuery s = .next (s.answered m rest res body) :=
    h.answers (mine := (· == typeCycleQuery)) (decide := fun f s => s.cycleQuery f) rfl hparse hquery
  refine ⟨fun hsel => answer ?_, fun slots hslots => answer ?_⟩
  · rw [State.cycleQuery, decodeFlag_of_reserved hsel]
    rfl
  · have hquery : (s.taking m rest).cycleQuery selector = (s.taking m rest, .ok (s.cycleBody slots)) := by
      rw [State.cycleQuery, decodeFlag_of_le (by omega)]
      rcases hslots with ⟨hsel, rfl⟩ | ⟨hsel, rfl⟩ <;> rw [hsel] <;> rfl
    rw [hquery, State.cycleBody, CycleSummary.bytes, flag_or_flag_shift, flag_isSome]
    simp [Reply.ok, List.append_assoc]

/-! ## The period timer (R93, R94) -/

/-- Settles O42: the timer's expiry in RESTING and in ACTIVE. -/
theorem periodExpiryStartsOrOverruns : Obligations.PeriodExpiryStartsOrOverruns := by
  intro s hn htimer
  have hexec : exec .periodTimerExpiry s = .next s.periodExpires := by
    change s.takeDueReport.periodExpiry = _
    rw [State.takeDueReport_of_not_stands hn]
    exact guarded_of htimer
  have hresting (hs : s.sched.state = .resting) : s.periodExpires =
      if s.sched.withNextCycle.state = .active then State.arbiterChoice { s with sched := s.sched.withNextCycle }
      else { s with sched := s.sched.withNextCycle } := by
    rw [State.periodExpires, hs, Scheduler.nextCycle_eq]
  rw [hexec]
  refine ⟨fun hs hlist => ?_, fun hs hlist => ?_, fun hs => ?_⟩
  · rw [hresting hs, if_neg (by rw [Scheduler.withNextCycle_state_of_empty hlist]; nofun)]
  · rw [hresting hs, if_pos (by rw [Scheduler.withNextCycle_of_nonempty hlist]; rfl)]
  · rw [State.periodExpires, hs]
    rfl

/-! ## The judgement of a slot (R90, R91) -/

section
variable {s : State} {a : Nat} {p : Profile}

theorem State.judgeSlot_of_outOfService (h1 : (s.entry a).state ≠ .online) (h2 : (s.entry a).state ≠ .suspect) :
    s.judgeSlot a = none := by
  unfold State.judgeSlot
  dsimp only
  split
  · rfl
  · split
    · rename_i h; exact absurd h h1
    · rename_i h; exact absurd h h2
    all_goals rfl

/-- A cycle whose number is no multiple of the divisor skips the slot (R90). -/
theorem State.judgeSlot_of_inactive (hp : (s.entry a).profile = some p)
    (h : s.sched.cycleNumber.toNat % p.divisor ≠ 0) : s.judgeSlot a = none := by
  unfold State.judgeSlot
  dsimp only
  rw [hp]
  dsimp only
  rw [beq_false_of_ne h]
  split <;> rfl

theorem State.judgeSlot_of_suspect (hp : (s.entry a).profile = some p) (h : s.sched.cycleNumber.toNat % p.divisor = 0)
    (hs : (s.entry a).state = .suspect) : s.judgeSlot a = some (.probe, .resync) := by
  unfold State.judgeSlot
  dsimp only
  rw [hp, hs]
  dsimp only
  rw [h]
  rfl

/-- An ONLINE station is exchanged with if it takes outputs, they have been written, and the part is not held, and sampled
otherwise (R91). -/
theorem State.judgeSlot_of_online {ar : Areas} (hp : (s.entry a).profile = some p)
    (h : s.sched.cycleNumber.toNat % p.divisor = 0) (hs : (s.entry a).state = .online) (har : s.areas a = some ar) :
    s.judgeSlot a = if 0 < p.outLen ∧ ar.output.state ≠ .unset ∧ s.sup.hold = .notHeld then some (.exchange, .cyclic)
      else some (.sample, .cyclic) := by
  have hheld : s.isHeld = false ↔ s.sup.hold = .notHeld := by
    unfold State.isHeld
    cases s.sup.hold <;> decide
  unfold State.judgeSlot
  dsimp only
  rw [hp, hs]
  dsimp only
  rw [h, har]
  simp [and_assoc, hheld]

end

/-- Settles O43: the station's state, the divisor, and then what the station takes. -/
theorem slotIsJudgedAgainstItsStation : Obligations.SlotIsJudgedAgainstItsStation := by
  intro s a
  refine ⟨State.judgeSlot_of_outOfService, fun p hp => ⟨State.judgeSlot_of_inactive hp, fun h =>
    ⟨State.judgeSlot_of_suspect hp h, fun ar hs har => ?_⟩⟩⟩
  rw [State.judgeSlot_of_online hp h hs har]
  exact ⟨fun hc => if_pos hc, fun hc => if_neg hc⟩

end Sys2Proof.Machine
end

section
/-! A cycle that completes, and what the choice goes on with (R92, R93, R100): O48. -/

namespace Sys2Proof.Machine

/-! ## The discovery phase that is over (R92) -/

/-- A search that meets no station a probe may go to finds none. -/
theorem State.findCandidate_of_none {s : State}
    (h : ∀ k, 1 ≤ k → k ≤ s.searchReach → ¬s.isDiscoverable (s.searched k)) : s.findCandidate = none := by
  unfold State.findCandidate
  rw [s.searchedAddresses_eq, List.find?_eq_none]
  intro a ha
  obtain ⟨k, hk, rfl⟩ := List.mem_map.1 ha
  rw [List.mem_range'_1] at hk
  rw [← State.isDiscoverable_iff]
  exact h k (by omega) (by omega)

/-- A discovery phase that is over yields no work, and changes nothing. -/
theorem State.discover_of_over {s : State} (h : s.discoveryOver) : s.discover = (s, none) := by
  unfold State.discover
  rcases h with hbudget | hnone
  · exact if_pos hbudget
  · rw [State.findCandidate_of_none hnone]
    exact ite_self _

/-! ## What follows the completion (R93) -/

section
variable {c : Scheduler}

theorem Scheduler.completed_of_stop (h : c.mode = .single ∨ c.stopRequest = .afterCycle) : c.completed = c.stop := if_pos h

/-- A CONTINUOUS cycle that no AFTER_CYCLE request stops goes on. -/
def Scheduler.GoesOn (c : Scheduler) : Prop := ¬(c.mode = .single ∨ c.stopRequest = .afterCycle)

theorem Scheduler.goesOn_of_continuous (hm : c.mode = .continuous) (hr : c.stopRequest ≠ .afterCycle) : c.GoesOn := by
  simp [Scheduler.GoesOn, hm, hr]

/-- It rests until its period timer expires. -/
theorem Scheduler.completed_of_onTime (h : c.GoesOn) (ho : c.summary.overrun = false) (ht : c.periodTimer.isSome = true) :
    c.completed = { c with state := .resting } := (if_neg h).trans (if_pos ⟨ho, ht⟩)

/-- After an empty pass it rests 1 ms. -/
theorem Scheduler.completed_of_emptyPass (h : c.GoesOn) (hlate : c.summary.overrun = true ∨ c.periodTimer = none)
    (he : c.summary.isEmptyPass = true) : c.completed = { c with state := .resting, periodTimer := some 10 } := by
  refine (if_neg h).trans ((if_neg ?_).trans (if_pos he))
  rcases hlate with hlate | hlate <;> simp [hlate]

/-- Otherwise the next cycle starts. -/
theorem Scheduler.completed_of_next (h : c.GoesOn) (hlate : c.summary.overrun = true ∨ c.periodTimer = none)
    (he : ¬c.summary.isEmptyPass = true) : c.completed = c.withNextCycle := by
  refine (if_neg h).trans ((if_neg ?_).trans ((if_neg he).trans c.nextCycle_eq))
  rcases hlate with hlate | hlate <;> simp [hlate]

/-- A completed cycle is followed by the next at once only where it was no empty pass. -/
theorem Scheduler.completed_cases (c : Scheduler) :
    c.completed.state ≠ .active ∨ (c.summary.isEmptyPass = false ∧ c.completed = c.withNextCycle) := by
  by_cases hgoes : c.GoesOn
  · by_cases htime : c.summary.overrun = false ∧ c.periodTimer.isSome = true
    · left
      rw [Scheduler.completed_of_onTime hgoes htime.1 htime.2]
      nofun
    · have hlate : c.summary.overrun = true ∨ c.periodTimer = none := by
        simpa [or_iff_not_imp_left] using htime
      cases he : c.summary.isEmptyPass with
      | true =>
        left
        rw [Scheduler.completed_of_emptyPass hgoes hlate he]
        nofun
      | false => exact Or.inr ⟨rfl, Scheduler.completed_of_next hgoes hlate (by simp [he])⟩
  · left
    rw [Scheduler.completed_of_stop (not_not.1 hgoes)]
    nofun

/-- A cycle that has handed out nothing, once completed, is not followed by the next at once. -/
theorem Scheduler.completed_not_active (h : c.summary.isEmptyPass = true) : c.completed.state ≠ .active := by
  rcases c.completed_cases with hleft | ⟨hwork, -⟩
  · exact hleft
  · rw [hwork] at h
    cases h

/-- The cycle that follows a completed one at once has handed out nothing yet. -/
theorem Scheduler.completed_emptyPass (h : c.completed.state = .active) : c.completed.summary.isEmptyPass = true := by
  rcases c.completed_cases with hleft | ⟨-, hnext⟩
  · exact absurd h hleft
  · rw [hnext] at h ⊢
    by_cases hlist : c.pendingList.getD c.cycleList = []
    · rw [Scheduler.withNextCycle_state_of_empty hlist] at h
      cases h
    · rw [Scheduler.withNextCycle_of_nonempty hlist]
      rfl

end

/-! ## The question that completes a cycle (R87, R93, R100) -/

/-- Slots that yield nothing leave an empty pass empty. -/
theorem State.stepSlots_emptyPass {slots : List Nat} {s t : State} (h : State.stepSlots slots s = (t, none)) :
    t.sched.summary.isEmptyPass = s.sched.summary.isEmptyPass := by
  induction slots generalizing s with
  | nil =>
    cases h
    rfl
  | cons a slots ih =>
    rw [State.stepSlots] at h
    split at h
    · exact (ih h).trans rfl
    · cases h

theorem State.discover_of_none {s t : State} (h : s.discover = (t, none)) : t = s := by
  unfold State.discover at h
  split at h
  · cases h
    rfl
  · split at h <;> cases h
    rfl

/-- A cycle found to have no more work has handed out nothing if it had handed out nothing before. -/
theorem State.stepCycle_emptyPass {s t : State} (h : s.stepCycle = (t, none)) :
    t.sched.summary.isEmptyPass = s.sched.summary.isEmptyPass := by
  unfold State.stepCycle at h
  split at h
  · rw [State.discover_of_none h]
  · split at h
    · cases h
    · rename_i u hslots
      rw [State.discover_of_none h]
      exact State.stepSlots_emptyPass (t := u) hslots

/-- A question answered with no work completes the cycle, and goes on in the next if that starts at once. -/
theorem State.ask_of_noWork {s t : State} (h : s.mayAnswer) (hcycle : s.stepCycle = (t, none)) (n : Nat) :
    State.ask (n + 1) s = if t.completeCycle.sched.state = .active then State.ask n t.completeCycle
      else (t.completeCycle, .leftActive) := by
  obtain ⟨hactive, hstop⟩ := h
  rw [State.ask, if_neg (by simp [hactive, hstop]), hcycle]

/-- A cycle that has handed out nothing yet is not completed twice in one question: one turn answers as many do (R100). -/
theorem State.ask_of_emptyPass {s : State} (h : s.sched.summary.isEmptyPass = true) (n k : Nat) :
    State.ask (n + 1) s = State.ask (k + 1) s := by
  by_cases hmay : s.mayAnswer
  · cases hcycle : s.stepCycle with
    | mk t offer =>
      cases offer with
      | some offer => rw [State.ask_of_offer hmay hcycle, State.ask_of_offer hmay hcycle]
      | none =>
        have hleft : ¬t.completeCycle.sched.state = .active :=
          Scheduler.completed_not_active ((State.stepCycle_emptyPass hcycle).trans h)
        rw [State.ask_of_noWork hmay hcycle, State.ask_of_noWork hmay hcycle, if_neg hleft, if_neg hleft]
  · have hnot : s.sched.state ≠ .active ∨ s.sched.stopRequest = .afterSlot := by
      simpa [State.mayAnswer, or_iff_not_imp_left] using hmay
    rw [State.ask, State.ask, if_pos hnot, if_pos hnot]

/-! ## The tickets behind a cycle that has left ACTIVE (R100) -/

/-- Item 3 of a choice leaves the scheduler alone. -/
theorem State.ticketItem_sched (n : Nat) (s : State) : (State.ticketItem n s).1.sched = s.sched := by
  induction n generalizing s with
  | zero => rfl
  | succ n ih =>
    rw [State.ticketItem]
    split
    · rfl
    · split
      · rfl
      · split
        · simp [State.putOnLine]
        · simp
        · rw [ih, State.completeTicket_frame]

/-- A scheduler that is not ACTIVE leaves the choice to the tickets. -/
theorem State.chooseWork_of_not_active {s : State} (h : s.sched.state ≠ .active) :
    s.chooseWork = (State.ticketItem s.ticketTurns s).1 := by
  have hsched := State.ticketItem_sched s.ticketTurns s
  unfold State.chooseWork
  split
  · rename_i t hitem
    rw [hitem]
  · rename_i t hitem
    rw [hitem] at hsched ⊢
    have hask : State.ask 3 t = (t, .nothing) := by
      rw [State.ask, if_pos (Or.inl (by rw [hsched]; exact h))]
    rw [hask]

/-- The choice in which the scheduler leaves ACTIVE goes on as one made in the state behind that (R100). -/
theorem State.arbiterChoice_of_leftActive {s t : State} (hs : s.lineFree) (hn : s.noTicketNow) (ht : t.lineFree)
    (hask : State.ask 3 s = (t, .leftActive)) (hleft : t.sched.state ≠ .active) : s.arbiterChoice = t.arbiterChoice := by
  rw [State.arbiterChoice_of_lineFree hs, State.arbiterChoice_of_lineFree ht, State.chooseWork_of_not_active hleft,
    State.chooseWork, State.ticketItem_of_noTicketNow hn]
  dsimp only
  rw [hask]

/-- A choice that completes a cycle goes on as one made in the state behind the completion. -/
theorem State.arbiterChoice_of_completes {s : State} (hlaw : TicketLaw s) (h : s.asksDiscovery) (hover : s.discoveryOver) :
    s.arbiterChoice = s.completeCycle.arbiterChoice := by
  obtain ⟨hfree, hticket, hactive, hstop, hphase⟩ := h
  have hcycle : s.stepCycle = (s, none) := by
    unfold State.stepCycle
    rw [hphase]
    exact State.discover_of_over hover
  have hask := State.ask_of_noWork ⟨hactive, hstop⟩ hcycle 2
  have hfree' : s.completeCycle.lineFree := hfree
  by_cases hnext : s.completeCycle.sched.state = .active
  · have hticket' : s.completeCycle.noTicketNow :=
      hticket.imp (fun hnone => (hlaw.eligibleTicket_place (.cycleDone s.sched.summary)).trans hnone)
        (fun ⟨_, hspent⟩ => ⟨hnext, hspent⟩)
    refine State.arbiterChoice_congr hfree hfree' hticket hticket' ?_
    rw [hask, if_pos hnext]
    exact State.ask_of_emptyPass (Scheduler.completed_emptyPass hnext) 1 2
  · rw [if_neg hnext] at hask
    exact State.arbiterChoice_of_leftActive hfree hticket hfree' hask hnext

/-- A pass is empty exactly if nothing was exchanged and nothing probed (R93). -/
theorem CycleSummary.isEmptyPass_iff (c : CycleSummary) : c.isEmptyPass = true ↔ c.exchanged = 0 ∧ c.probed = 0 := by
  simp [CycleSummary.isEmptyPass]

/-- Settles O48: the choice goes on behind the completion, which stops, rests or starts the next cycle. -/
theorem cycleCompletes : Obligations.CycleCompletes := by
  rintro s u hlaw hasks hover rfl
  have behind {c : Scheduler} (hc : s.sched.completed = c) : s.arbiterChoice =
      State.arbiterChoice { s.place (.cycleDone s.sched.summary) with sched := c } := by
    rw [State.arbiterChoice_of_completes hlaw hasks hover, ← hc]
    rfl
  refine ⟨fun hstop => behind (Scheduler.completed_of_stop hstop), fun hmode hreq => ?_⟩
  have hgoes := Scheduler.goesOn_of_continuous hmode hreq
  refine ⟨fun ho ht => behind (Scheduler.completed_of_onTime hgoes ho ht), fun hlate => ⟨fun he => ?_, fun he => ?_⟩⟩
  · exact behind (Scheduler.completed_of_emptyPass hgoes hlate ((CycleSummary.isEmptyPass_iff _).2 he))
  · exact behind (Scheduler.completed_of_next hgoes hlate (fun h => he ((CycleSummary.isEmptyPass_iff _).1 h)))

end Sys2Proof.Machine
end

section
/-! The arbiter's take of the eligible ticket (R100, R102, R103, R110, R111, R113): O45. -/

namespace Sys2Proof.Machine

/-! ## The eligible ticket (R110) -/

theorem Ticket.isQueued_iff (t : Ticket) : t.isQueued = true ↔ t.state = .queued := beq_iff_eq

theorem Ticket.isWaiting_iff (t : Ticket) : t.isWaiting = true ↔ t.state = .queued ∨ t.state = .onLine := by
  unfold Ticket.isWaiting Ticket.isDone
  cases t.state <;> simp

/-- A ticket that the tickets ahead of it, and hold, let be taken, as the search tests it. -/
theorem State.freeToTake_iff (s : State) (ahead : List Ticket) (t : Ticket) :
    s.freeToTake ahead t ↔ (t.isQueued && !t.blockedBehind ahead s.isHeld) = true := by
  have hheld : s.isHeld = false ↔ s.sup.hold = .notHeld := by
    unfold State.isHeld
    cases s.sup.hold <;> decide
  unfold State.freeToTake Ticket.blockedBehind
  rw [Bool.and_eq_true, Ticket.isQueued_iff, Bool.not_eq_true', Bool.or_eq_false_iff, List.any_eq_false]
  refine and_congr_right fun _ => and_congr (forall₂_congr fun u _ => ?_) ?_
  · rw [Bool.and_eq_true, Ticket.isWaiting_iff, beq_iff_eq]
    tauto
  · rw [Bool.and_eq_false_iff, hheld, beq_eq_false_iff_ne, ← imp_iff_not_or]

/-- The search finds the first ticket that is free to take, given the tickets ahead of the list it looks through. -/
theorem State.firstEligible_eq_some_iff (s : State) (ahead queue : List Ticket) (t : Ticket) :
    firstEligible s.isHeld ahead queue = some t ↔
      ∃ passed behind, queue = passed ++ t :: behind ∧ s.freeToTake (ahead ++ passed) t ∧
        ∀ before x after, passed = before ++ x :: after → ¬s.freeToTake (ahead ++ before) x := by
  induction queue generalizing ahead with
  | nil => simp [firstEligible]
  | cons y queue ih =>
    rw [firstEligible]
    by_cases hy : s.freeToTake ahead y
    · rw [if_pos ((s.freeToTake_iff ahead y).1 hy), Option.some.injEq]
      constructor
      · rintro rfl
        exact ⟨[], queue, rfl, by rwa [List.append_nil], by simp⟩
      · rintro ⟨passed, behind, hqueue, -, hfirst⟩
        cases passed with
        | nil =>
          obtain ⟨rfl, -⟩ := List.cons.inj hqueue
          rfl
        | cons x passed =>
          obtain ⟨rfl, -⟩ := List.cons.inj hqueue
          exact absurd (by rwa [List.append_nil]) (hfirst [] y passed rfl)
    · rw [if_neg (fun h => hy ((s.freeToTake_iff ahead y).2 h)), ih]
      constructor
      · rintro ⟨passed, behind, rfl, hfree, hfirst⟩
        refine ⟨y :: passed, behind, rfl, by simpa using hfree, fun before x after hsplit => ?_⟩
        cases before with
        | nil =>
          obtain ⟨rfl, -⟩ := List.cons.inj hsplit
          rwa [List.append_nil]
        | cons z before =>
          obtain ⟨rfl, htail⟩ := List.cons.inj hsplit
          simpa using hfirst before x after htail
      · rintro ⟨passed, behind, hqueue, hfree, hfirst⟩
        cases passed with
        | nil =>
          obtain ⟨rfl, -⟩ := List.cons.inj hqueue
          exact absurd (by rwa [List.append_nil] at hfree) hy
        | cons z passed =>
          obtain ⟨rfl, rfl⟩ := List.cons.inj hqueue
          refine ⟨passed, behind, rfl, by simpa using hfree, fun before x after hsplit => ?_⟩
          simpa using hfirst (y :: before) x after (congrArg _ hsplit)

/-! ## The take of a ticket (R102, R103, R111) -/

section
variable {f : TicketFunction} {st : Health}

theorem takeOf_of_own (h : f = .probe ∧ st ≠ .unused ∨ st = .online) : takeOf f st = .own := by
  rcases h with ⟨rfl, hst⟩ | rfl
  · cases st with
    | unused => exact absurd rfl hst
    | absent | online | suspect | offline | mismatch => rfl
  · cases f <;> rfl

theorem takeOf_of_suspect (hf : f ≠ .probe) (h : st = .suspect) : takeOf f st = .resync := by
  subst h
  cases f with
  | probe => exact absurd rfl hf
  | sample | paramRead | paramWrite => rfl

theorem takeOf_of_outOfService (hf : f ≠ .probe) (h : st = .absent ∨ st = .offline ∨ st = .mismatch) :
    takeOf f st = .down := by
  cases f with
  | probe => exact absurd rfl hf
  | sample | paramRead | paramWrite => rcases h with rfl | rfl | rfl <;> rfl

end

/-- No ticket carries an EXCHANGE (R106). -/
theorem TicketFunction.onLine_ne_exchange (f : TicketFunction) : f.onLine ≠ .exchange := by
  cases f <;> nofun

/-- A take that places an exchange on the line lowers the allowance of an ACTIVE cycle (R102). -/
theorem State.spendAllowance_eq (s : State) : s.spendAllowance = { s with arbiter := { s.arbiter with
    demandAllowance :=
      if s.sched.state = .active then s.arbiter.demandAllowance - 1 else s.arbiter.demandAllowance } } := by
  unfold State.spendAllowance
  split <;> rfl

section
variable {s : State} {t : Ticket}

/-- An ACTIVE cycle has allowance left for tickets, where there is a cycle (R102). -/
def State.allowsTickets (s : State) : Prop := s.sched.state = .active → 0 < s.arbiter.demandAllowance

theorem State.allowsTickets.not_spent (h : s.allowsTickets) :
    ¬(s.sched.state = .active ∧ s.arbiter.demandAllowance = 0) :=
  fun ⟨hactive, hspent⟩ => absurd (h hactive) (by omega)

/-- A turn of item 3 puts the eligible ticket ON_LINE if its exchange is its own (R103). -/
theorem State.ticketItem_of_own (ht : s.eligibleTicket = some t) (ha : s.allowsTickets)
    (htake : takeOf t.func (s.entry t.station).state = .own) (n : Nat) :
    State.ticketItem (n + 1) s = (s.putOnLine t, true) := by
  rw [State.ticketItem, if_neg ha.not_spent, ht]
  dsimp only
  rw [htake]

/-- A turn of item 3 raises a resync PROBE for an eligible ticket whose station is SUSPECT (R103). -/
theorem State.ticketItem_of_resync (ht : s.eligibleTicket = some t) (ha : s.allowsTickets)
    (htake : takeOf t.func (s.entry t.station).state = .resync) (n : Nat) :
    State.ticketItem (n + 1) s = (s.spendAllowance.handOver t.station .probe .resync [], true) := by
  rw [State.ticketItem, if_neg ha.not_spent, ht]
  dsimp only
  rw [htake]

/-- A turn of item 3 completes an eligible ticket whose station is out of service, and the next turn follows (R100, R103). -/
theorem State.ticketItem_of_down (ht : s.eligibleTicket = some t) (ha : s.allowsTickets)
    (htake : takeOf t.func (s.entry t.station).state = .down) (n : Nat) :
    State.ticketItem (n + 1) s = State.ticketItem n (s.completeTicket t.id (.bare .stationDown 0)) := by
  rw [State.ticketItem, if_neg ha.not_spent, ht]
  dsimp only
  rw [htake]

/-- A ticket that uses the line ends the choice (R100). -/
theorem State.arbiterChoice_of_lineUsed {u : State} (hfree : s.lineFree)
    (hitem : State.ticketItem s.ticketTurns s = (u, true)) : s.arbiterChoice = u := by
  rw [State.arbiterChoice_of_lineFree hfree, State.chooseWork, hitem]

end

/-! ## The turns of item 3 (R103, R113) -/

/-- How many tickets are QUEUED: no choice needs more turns of item 3. -/
def State.queuedCount (s : State) : Nat := s.tickets.queue.countP Ticket.isQueued

theorem State.queuedCount_le (s : State) : s.queuedCount ≤ s.tickets.queue.length := List.countP_le_length

/-- With no ticket QUEUED there is none to take. -/
theorem State.noTicketNow_of_noneQueued {s : State} (h : s.queuedCount ≤ 0) : s.noTicketNow := by
  left
  cases ht : s.eligibleTicket with
  | none => rfl
  | some t =>
    obtain ⟨hmem, hq, -⟩ := State.eligibleTicket_some ht
    exact absurd h (Nat.not_le.2 (List.countP_pos_iff.2 ⟨t, hmem, hq⟩))

/-- A report placed makes no ticket QUEUED. -/
theorem State.queuedCount_place_le (s : State) (r : ReportRequest) : (s.place r).queuedCount ≤ s.queuedCount := by
  refine State.takeDueReport_keeps (P := fun t => t.queuedCount ≤ s.queuedCount) (fun t e rest ht _ _ => ?_) (le_refl _)
  refine le_trans ?_ ht
  cases e with
  | demandDone d => exact List.filter_sublist.countP_le
  | inputChange | stationState | cycleDone | lineFault | supervision => exact le_refl _

/-- A ticket completed is the live one of its id, and has its report placed (R113, R114). -/
theorem State.completeTicket_of_mem {s : State} (hn : (s.tickets.queue.map Ticket.id).Nodup) {t : Ticket}
    (ht : t ∈ s.tickets.queue) (hd : t.isDone = false) (res : TicketResult) :
    s.completeTicket t.id res =
      State.place { s with tickets := s.tickets.setState t.id (.done res) } (.demandDone (t.report res)) := by
  unfold State.completeTicket
  rw [TicketTable.complete_of_mem hn ht hd]
  rfl

/-- A QUEUED ticket completed is QUEUED no more. -/
theorem State.queuedCount_completeTicket_lt {s : State} (hn : (s.tickets.queue.map Ticket.id).Nodup) {t : Ticket}
    (ht : t ∈ s.tickets.queue) (hq : t.isQueued = true) (res : TicketResult) :
    (s.completeTicket t.id res).queuedCount < s.queuedCount := by
  rw [State.completeTicket_of_mem hn ht (Ticket.not_done_of_queued hq)]
  refine lt_of_le_of_lt (State.queuedCount_place_le _ _) ?_
  obtain ⟨ahead, behind, hqueue, hahead, hbehind⟩ := split_of_mem hn ht
  have htable : s.tickets = ⟨ahead ++ t :: behind, s.tickets.idCounter⟩ := by rw [← hqueue]
  have hdone (res : TicketResult) : Ticket.isQueued { t with state := .done res } = false := rfl
  unfold State.queuedCount
  dsimp only
  rw [htable, setState_split hahead hbehind]
  simp [hq, hdone]

/-- With as many turns as QUEUED tickets item 3 comes to its end: more make no difference. -/
theorem State.ticketItem_turns {n k : Nat} {s : State} (h : TicketLaw s) (hn : s.queuedCount ≤ n) (hk : s.queuedCount ≤ k) :
    State.ticketItem n s = State.ticketItem k s := by
  induction n generalizing k s with
  | zero =>
    have hnone := State.noTicketNow_of_noneQueued hn
    rw [State.ticketItem_of_noTicketNow hnone, State.ticketItem_of_noTicketNow hnone]
  | succ n ih =>
    cases k with
    | zero =>
      have hnone := State.noTicketNow_of_noneQueued hk
      rw [State.ticketItem_of_noTicketNow hnone, State.ticketItem_of_noTicketNow hnone]
    | succ k =>
      rw [State.ticketItem, State.ticketItem]
      split
      · rfl
      · split
        · rfl
        · rename_i t ht
          obtain ⟨hmem, hq, -⟩ := State.eligibleTicket_some ht
          obtain ⟨-, hids, -⟩ := id h
          have hless := State.queuedCount_completeTicket_lt hids hmem hq (.bare .stationDown 0)
          split
          · rfl
          · rfl
          · exact ih (h.completeTicket _ _) (by omega) (by omega)

/-- A ticket of a station out of service is completed, and the arbiter looks again (R100, R103). -/
theorem State.arbiterChoice_of_down {s : State} {t : Ticket} (h : TicketLaw s) (hfree : s.lineFree)
    (ht : s.eligibleTicket = some t) (ha : s.allowsTickets) (htake : takeOf t.func (s.entry t.station).state = .down) :
    s.arbiterChoice = (s.completeTicket t.id (.bare .stationDown 0)).arbiterChoice := by
  obtain ⟨hmem, hq, -⟩ := State.eligibleTicket_some ht
  obtain ⟨-, hids, -⟩ := id h
  have hless := State.queuedCount_completeTicket_lt hids hmem hq (.bare .stationDown 0)
  have hcount := s.queuedCount_le
  have hfree' : (s.completeTicket t.id (.bare .stationDown 0)).lineFree := by
    rw [State.completeTicket_frame]
    exact hfree
  have hitem : State.ticketItem s.ticketTurns s = State.ticketItem
      (s.completeTicket t.id (.bare .stationDown 0)).ticketTurns (s.completeTicket t.id (.bare .stationDown 0)) := by
    rw [State.ticketTurns, State.ticketItem_of_down ht ha htake]
    exact State.ticketItem_turns (h.completeTicket _ _) (by omega)
      ((State.queuedCount_le _).trans (Nat.le_succ _))
  rw [State.arbiterChoice_of_lineFree hfree, State.arbiterChoice_of_lineFree hfree', State.chooseWork, State.chooseWork, hitem]

/-- Settles O45: the search for the eligible ticket, and its take by its function and its station's state. -/
theorem arbiterTakesTheEligibleTicket : Obligations.ArbiterTakesTheEligibleTicket := by
  intro s h
  refine ⟨s.firstEligible_eq_some_iff [] s.tickets.queue, fun t allowance hfree ht ha hallowance =>
    ⟨fun htake => ?_, fun hf hst => ?_, fun hf hst => ?_⟩⟩
  · have hitem := State.ticketItem_of_own ht ha (takeOf_of_own htake) s.tickets.queue.length
    rw [State.arbiterChoice_of_lineUsed hfree hitem, State.putOnLine, s.spendAllowance_eq, ← hallowance]
    exact State.handOver_eq_sendingFirst (origin := .ticket t.id) t.func.onLine_ne_exchange nofun _ _
  · have hitem := State.ticketItem_of_resync ht ha (takeOf_of_suspect hf hst) s.tickets.queue.length
    rw [State.arbiterChoice_of_lineUsed hfree hitem, s.spendAllowance_eq, ← hallowance]
    exact State.handOver_eq_sendingFirst (f := .probe) (origin := .resync) nofun nofun _ _
  · obtain ⟨hmem, hq, -⟩ := State.eligibleTicket_some ht
    obtain ⟨-, hids, -⟩ := id h
    rw [State.arbiterChoice_of_down h hfree ht ha (takeOf_of_outOfService hf hst),
      State.completeTicket_of_mem hids hmem (Ticket.not_done_of_queued hq)]
    rfl

end Sys2Proof.Machine
end

section
/-! The law of tickets and completions (R106, R114, R125) over every effect a command can have, and over every step: O52. -/

namespace Sys2Proof.Machine

/-! ## What the line and the scheduler do to tickets and reports -/

/-- Tickets and waiting reports are the same in both states. -/
def State.SameDemand (s t : State) : Prop := t.tickets = s.tickets ∧ t.reports = s.reports

theorem TicketLaw.sameDemand {s t : State} (h : TicketLaw s) (hst : s.SameDemand t) : TicketLaw t := by
  obtain ⟨ht, hr⟩ := hst
  exact h.congr (by rw [ht]) (by rw [hr])

/-- A start bit concerns the line and the engine alone (R45). -/
theorem State.sameDemand_startBit (s : State) (b : BitSamples) : s.SameDemand (s.startBit b) := by
  unfold State.startBit
  split <;> exact ⟨rfl, rfl⟩

/-- A character of a reply concerns the line and the engine alone (R66). -/
theorem State.sameDemand_receiveChar (s : State) (c : RxChar) : s.SameDemand (s.receiveChar c) := by
  cases hr : s.engine.record with
  | none => simp [State.receiveChar, hr, State.SameDemand]
  | some r =>
    rcases State.receiveChar_eq hr c with h | ⟨n, o, h, -⟩
    · rw [h]; exact ⟨rfl, rfl⟩
    · rw [h]; exact ⟨rfl, rfl⟩

/-- A finished character concerns the line and the engine alone (R63, R65, R66, R70). -/
theorem State.sameDemand_deliverChar (s : State) (c : RxChar) : s.SameDemand (s.deliverChar c) := by
  unfold State.deliverChar
  dsimp only
  split
  · exact ⟨rfl, rfl⟩
  · exact ⟨rfl, rfl⟩
  · exact State.sameDemand_receiveChar (s.countLine (fun st => st.countClass c)) c
  · exact ⟨rfl, rfl⟩
  · exact ⟨rfl, rfl⟩
  · exact ⟨rfl, rfl⟩

/-- The end of a frame concerns the line and the engine alone (R64). -/
theorem State.sameDemand_frameEnds (s : State) (r : ExchangeRecord) : s.SameDemand (s.frameEnds r) := by
  unfold State.frameEnds
  dsimp only
  split <;> exact ⟨rfl, rfl⟩

/-- The summary of an abandoned cycle is a notice (R89, R126). -/
theorem TicketLaw.abandonCycle {s : State} (h : TicketLaw s) : TicketLaw s.abandonCycle := by
  have hplaced : TicketLaw (s.place (.cycleDone { s.sched.summary with abandoned := true })) := h.place rfl
  unfold State.abandonCycle
  dsimp only
  split
  · split
    · exact hplaced
    · exact h
  · split
    · exact hplaced
    · exact h

theorem TicketLaw.stopAfterSlot {s : State} (h : TicketLaw s) : TicketLaw s.stopAfterSlot := by
  have hplaced : TicketLaw (s.place (.cycleDone { s.sched.summary with abandoned := true })) := h.place rfl
  unfold State.stopAfterSlot
  split
  · exact h
  · exact h
  · split
    · exact h
    · exact hplaced

theorem TicketLaw.stopAfterCycle {s : State} (h : TicketLaw s) : TicketLaw s.stopAfterCycle := by
  unfold State.stopAfterCycle
  split
  · exact h
  · exact h
  · split <;> exact h

/-- The period timer begins a cycle at most, and a choice may follow (R94). -/
theorem TicketLaw.periodExpires {s : State} (h : TicketLaw s) : TicketLaw s.periodExpires := by
  unfold State.periodExpires
  split
  · exact h
  · exact h
  · dsimp only
    split
    · exact TicketLaw.choice (s := { s with sched := s.sched.nextCycle }) h
    · exact h

/-! ## The stations, the restarts and the submission -/

/-- The notices of a station dropped are no completions (R129). -/
theorem TicketLaw.dropNotices {s t : State} (h : TicketLaw s) {a : Nat} (ht : t.tickets = s.tickets)
    (hr : t.reports = s.reports.dropStation a) : TicketLaw t := by
  obtain ⟨-, -, hcompletions⟩ := s.reports.dropStation_spec a
  exact h.congr (by rw [ht]) (by rw [hr, hcompletions])

/-- A define leaves the tickets, and drops notices alone (R17, R129). -/
theorem TicketLaw.define {s : State} (h : TicketLaw s) (a : Nat) (p : Profile) : TicketLaw (s.define a p) := by
  rw [State.define_frame]
  by_cases hd : s.isDefined a = true
  · exact h.dropNotices rfl (if_pos hd)
  · exact h.congr rfl (by rw [if_neg hd])

/-- A remove drops the station's notices and withdraws its tickets, each with its report (R19, R113, R129). -/
theorem TicketLaw.remove {s : State} (h : TicketLaw s) (a : Nat) : TicketLaw (s.remove a) := by
  have hcleared : TicketLaw (s.cleared a) := by
    rw [s.cleared_eq]
    exact h.dropNotices rfl rfl
  exact hcleared.withdrawTickets a

/-- With no ticket live and no report waiting the law holds. -/
theorem TicketLaw.ofEmpty {s : State} (ht : s.tickets.queue = []) (hr : s.reports.queue = []) : TicketLaw s := by
  unfold TicketLaw
  rw [ht, hr]
  exact ⟨by decide, List.nodup_nil, .nil⟩

/-- After a restart or a pin reset no ticket is live, and a choice finds none (R119, R132, R161). -/
theorem TicketLaw.followLreq {s : State} (ht : s.tickets.queue = []) (hr : s.reports.queue = []) :
    TicketLaw s.followLreq := by
  unfold State.followLreq
  split
  · exact .ofEmpty ht hr
  · exact TicketLaw.choice (.ofEmpty ht hr)

/-- A SUBMIT that passes its checks finds a place for its ticket (R108). -/
theorem State.queue_lt_of_checkSubmit {s : State} {f : SubmitFields} {fn : TicketFunction} {pr : Priority}
    (h : s.checkSubmit f = .ok (fn, pr)) : s.tickets.queue.length < Config.ticketCapacity := by
  by_contra hfull
  unfold State.checkSubmit at h
  split at h
  · rw [if_pos (Nat.le_of_not_lt hfull)] at h
    repeat' split at h
    all_goals cases h
  · cases h

/-- Every effect of a command keeps the law of tickets and completions. -/
theorem ticketLaw_execClosed : ExecClosed TicketLaw where
  choice := fun _ h => h.choice
  host := fun _ _ h => h
  lineSetup := fun _ _ _ _ h _ _ _ => h
  clearLine := fun _ h => h
  draw := fun _ _ h => h
  define := fun _ f p h _ => h.define f.address p
  remove := fun _ a h _ _ => h.remove a
  clearCounters := fun _ _ h _ => h.sameDemand ⟨by simp, by simp⟩
  installList := fun _ _ h _ _ _ => h
  pendList := fun _ _ h _ _ => h
  beginCycling := fun _ _ _ h _ _ => h.abandonCycle.sameDemand ⟨rfl, rfl⟩
  stopAfterSlot := fun _ h => h.stopAfterSlot
  stopAfterCycle := fun _ h => h.stopAfterCycle
  applyItems := fun _ _ h _ => by
    rw [State.applyItems_frame]
    exact h
  placeTicket := fun _ _ _ _ h hc => h.placeTicket rfl rfl (State.queue_lt_of_checkSubmit hc)
  cancelTicket := fun _ id _ h _ _ => h.completeTicket id _
  credit := fun _ _ h _ => h
  takeReport := fun _ _ _ h hq _ => h.takeReport hq
  holdSetup := fun _ _ _ _ h => h
  restartHoldTimer := fun _ h => h
  endHold := fun _ h _ => TicketLaw.place (h.sameDemand ⟨rfl, rfl⟩) rfl
  enterHold := fun _ h => TicketLaw.place (h.sameDemand ⟨rfl, rfl⟩) rfl
  limitExpires := fun _ h => TicketLaw.place (h.sameDemand ⟨rfl, rfl⟩) rfl
  lreqAsserted := fun _ h _ => h
  lreqNegated := fun _ h _ _ => h
  returnLine := fun _ order h _ _ => h.returnLine order
  initialised := fun _ _ _ => TicketLaw.followLreq rfl rfl
  warm := fun _ _ => TicketLaw.followLreq rfl rfl
  startBit := fun s b h _ => h.sameDemand (s.sameDemand_startBit b)
  char := fun s rx c h _ _ => h.sameDemand (State.sameDemand_deliverChar (s.setLineRx rx) c)
  frameEnds := fun s r h _ _ => h.sameDemand (s.sameDemand_frameEnds r)
  noReply := fun _ h _ => h
  gap := fun _ h _ => h
  quiet := fun _ order h _ => h.guardEnds order
  jam := fun _ order h _ _ => h.lineJams order
  period := fun _ h _ => h.periodExpires

/-- Settles O52: every effect of a command keeps the law of tickets and completions, and so does every step. -/
theorem everyStepKeepsTheTicketLaw : Obligations.EveryStepKeepsTheTicketLaw :=
  fun _ _ h ht => ticketLaw_execClosed.step (fun _ _ h => h) ht h

end Sys2Proof.Machine
end

section
/-! The taking of a report (R115, R123 to R128, R130, R131, R141, R165), and what the other rows find of it (log entry 13): O9. -/

namespace Sys2Proof.Machine

/-! ## The report sent (R123 to R128, R131, R165) -/

/-- A report as a message, in the words of the statements. -/
theorem State.reportMessage_eq (s : State) (e : ReportEntry) : s.reportMessage e =
    { type := (reportLayout s e).1, tag := s.reports.sequence,
      payload := 0xFE :: s.reports.lost :: (reportLayout s e).2 } := by
  unfold State.reportMessage
  congr 3
  · cases e <;> rfl
  · cases e with
    | inputChange | stationState | demandDone | lineFault => rfl
    | cycleDone c n =>
      rw [State.reportBody, CycleSummary.bytes, flag_or_flag_shift, List.append_assoc]
      rfl
    | supervision h g l =>
      rw [State.reportBody, flag_eq_byte]
      rfl

/-- The ticket that a completion names leaves with it; a notice takes none (R115). -/
theorem TicketTable.leave_demandDone (t : TicketTable) (d : DemandDone) :
    t.leave (.demandDone d) = { t with queue := t.queue.filter (fun u => u.id != d.id) } := rfl

theorem TicketTable.leave_notice (t : TicketTable) {e : ReportEntry} (h : e.isNotice = true) : t.leave e = t := by
  cases e with
  | demandDone d => cases h
  | inputChange | stationState | cycleDone | lineFault | supervision => rfl

/-- The head of the queue, taken (R131). -/
theorem State.takeDueReport_of_head {s : State} {e : ReportEntry} {q : List ReportEntry} (h : s.standsReport)
    (hq : s.reports.queue = e :: q) : s.takeDueReport = s.takeReport e := by
  obtain ⟨e', he⟩ := s.standsReport_iff.1 h
  obtain ⟨⟨q', hq'⟩, -⟩ := State.dueReport_some he
  obtain ⟨rfl, -⟩ := List.cons.inj (hq.symm.trans hq')
  exact State.takeDueReport_of_due he

/-! ## What the other rows find (R141; log entry 13) -/

/-- Where a report has been taken none is due. -/
theorem State.takeDueReport_takeDueReport (s : State) : s.takeDueReport.takeDueReport = s.takeDueReport :=
  State.takeDueReport_of_none s.takeDueReport_dueReport

/-- Where a report stands every other row answers as it does once the report has been taken. -/
theorem State.exec_takeDueReport {s : State} (h : s.standsReport) {c : Instr} (hc : c ≠ .reportTaken) :
    exec c s.takeDueReport = exec c s := by
  obtain ⟨-, hproc, -, hrestart, -⟩ := h
  have after (f : State → Host.Outcome State Fault Refusal) : f s.takeDueReport.takeDueReport = f s.takeDueReport := by
    rw [s.takeDueReport_takeDueReport]
  have command {α : Type} (mine : Byte → Bool) (parse : List Byte → Option α) (decide : α → State → State × Reply) :
      takeCommand mine parse decide s.takeDueReport = takeCommand mine parse decide s := after (takeHead mine parse decide)
  cases c with
  | reportTaken => exact absurd rfl hc
  | hello =>
    dsimp only [exec]
    rw [execHello, execHello, State.finishReading_of_idle hproc, State.finishReading_of_idle (s := s.takeDueReport) hproc]
    exact command ..
  | status =>
    dsimp only [exec]
    rw [execStatus, execStatus, State.finishReading_of_idle hproc, State.finishReading_of_idle (s := s.takeDueReport) hproc]
    exact command ..
  | lineSetup | stationDefine | stationRemove | stationQuery | cycleSet | cycleStart | cycleStop | cycleQuery | imageWrite
  | imageRead | submit | cancel | ticketQuery | credit | holdSetup | resume | restart | badType =>
    dsimp only [exec]
    exact command ..
  | hostByteReceived b stopBit => exact after (fun t => .next (t.hostByte b stopBit))
  | hrxdStartBit => exact after (fun t => .next t.hostStartBit)
  | hostGapTimeout => exact after State.hostGapExpires
  | responseTaken => exact after State.takeResponse
  | transmitEnd => exact after State.endTransmission
  | restartTakesEffect crcByte =>
    have hrestart' : s.takeDueReport.host.restart = none := hrestart
    dsimp only [exec]
    rw [execRestartTakesEffect, execRestartTakesEffect, hrestart, hrestart']
  | pinReset hrate1 hrate0 => rfl
  | startDetected start => exact after (fun t => .next (if t.line.rx.seesEdge then t.startBit start else t))
  | characterDelivered samples => exact after (fun t => t.finishChar samples)
  | lowLineBrokenCharacter => exact after State.lowLine
  | frameSent => exact after State.endFrame
  | replyTimeoutExpiry => exact after State.replyTimeoutExpires
  | gapTimerExpiry => exact after State.gapExpires
  | quietTimerExpiry order => exact after (fun t => t.quietExpiry order)
  | jamTimerExpiry order => exact after (fun t => t.jamExpires order)
  | periodTimerExpiry => exact after State.periodExpiry
  | holdTimerExpiry => exact after State.holdExpires
  | lreqAsserted => exact after State.lreqRises
  | lreqNegated order => exact after (fun t => t.lreqFalls order)
  | limitTimerExpiry => exact after State.limitExpiry

/-- Without a report that stands there is none to take (R131, R141). -/
theorem State.exec_reportTaken_of_not_stands {s : State} (h : ¬s.standsReport) (t : State) :
    exec .reportTaken s ≠ .next t := by
  change execReportTaken s ≠ _
  unfold execReportTaken
  rw [State.dueReport_none_of_not h]
  split <;> nofun

/-- Settles O9: the report taken is the head of the queue, and every row but REPORT_TAKEN takes it first. -/
theorem reportTakenIsTheHeadOfTheQueue : Obligations.ReportTakenIsTheHeadOfTheQueue := by
  refine ⟨fun _ t h => State.exec_reportTaken_of_not_stands h t, fun s t c h ht hc => ?_, fun s e q h hq => ?_⟩
  · obtain rfl := State.eq_takeDueReport (s := s) (fun hn => absurd h hn) (fun _ => ht)
    exact (State.exec_takeDueReport h hc).symm
  · rw [State.exec_reportTaken h, State.takeDueReport_of_head h hq, State.takeReport, State.reportMessage_eq,
      ReportUnit.taken, hq]
    cases e with
    | demandDone d => rfl
    | inputChange | stationState | cycleDone | lineFault | supervision =>
      rw [TicketTable.leave_notice _ rfl, List.filter_true]
      rfl

end Sys2Proof.Machine
end

section
/-! SUBMIT: its checks, the new ticket's id and its place in queue order (R106 to R109): O50. -/

namespace Sys2Proof.Machine

/-! ## The fields of a SUBMIT and their checks (R108, R163) -/

theorem decodeTicketFunction_of_reserved {b : Byte} (h : b.toNat < 2 ∨ 5 < b.toNat) : decodeTicketFunction b = none := by
  cases hd : decodeTicketFunction b with
  | none => rfl
  | some fn =>
    rw [decodeTicketFunction_eq_some.1 hd] at h
    cases fn <;> exact absurd h (by decide)

theorem decodePriority_of_reserved {b : Byte} (h : 1 < b.toNat) : decodePriority b = none := by
  cases hd : decodePriority b with
  | none => rfl
  | some pr =>
    rw [decodePriority_eq_some.1 hd] at h
    cases pr <;> exact absurd h (by decide)

/-- The fields of a SUBMIT, from the bytes that spell them (R163). -/
def submitFieldsOf (a func priority : Byte) (hostTag : Half) (data : List Byte) : SubmitFields :=
  { address := a.toNat, func := func, priority := priority, hostTag := hostTag, data := data }

theorem parseSubmit_fields (a func priority : Byte) (hostTag : Half) {data : List Byte} (h : data.length ≤ 90) :
    parseSubmit ([a, func, priority] ++ le16 hostTag ++ [byte data.length] ++ data) =
      some (submitFieldsOf a func priority hostTag data) := by
  have hlen : (byte data.length).toNat = data.length := toNat_byte (by omega)
  simp [parseSubmit, le16, submitFieldsOf, half_le16, hlen]

section
variable {s : State} {f : SubmitFields} {fn : TicketFunction} {pr : Priority}

theorem State.checkSubmit_of_badEncoding (h : decodeTicketFunction f.func = none ∨ decodePriority f.priority = none) :
    s.checkSubmit f = .error .badField := by
  unfold State.checkSubmit
  split
  · rename_i hfn hpr
    rcases h with h | h
    · rw [h] at hfn; cases hfn
    · rw [h] at hpr; cases hpr
  · rfl

/-- The checks that follow once the encodings are read, in their order (R108). -/
theorem State.checkSubmit_of_encoded (hfn : decodeTicketFunction f.func = some fn)
    (hpr : decodePriority f.priority = some pr) :
    s.checkSubmit f =
      if !validAddress f.address then .error .range
      else if !s.isDefined f.address then .error .noStation
      else if !fn.suits f.data.length then .error .badField
      else if Config.ticketCapacity ≤ s.tickets.queue.length then .error .queueFull
      else .ok (fn, pr) := by
  rw [State.checkSubmit, hfn, hpr]

theorem State.submit_of_error {r : Result} (h : s.checkSubmit f = .error r) : s.submit f = (s, .refuse r) := by
  rw [State.submit, h]

/-- An accepted SUBMIT places its ticket, and the choice follows (R107 to R109). -/
theorem State.submit_of_ok (h : s.checkSubmit f = .ok (fn, pr)) :
    s.submit f = ((s.placeTicket (s.newTicket f fn pr)).arbiterChoice,
      .ok [s.tickets.nextId, byte (s.tickets.positionFor pr f.address)]) := by
  rw [State.submit, h]
  rfl

end

/-- The least and the most request data of a ticket's function (R108). -/
def TicketFunction.dataLengths : TicketFunction → Nat × Nat
  | .sample | .probe => (0, 0)
  | .paramRead => (1, 1)
  | .paramWrite => (2, 17)

theorem TicketFunction.suits_iff (f : TicketFunction) (n : Nat) :
    f.suits n = true ↔ f.dataLengths.1 ≤ n ∧ n ≤ f.dataLengths.2 := by
  cases f with
  | sample | probe => simp [TicketFunction.suits, TicketFunction.dataLengths]
  | paramRead =>
    rw [TicketFunction.suits, beq_iff_eq, TicketFunction.dataLengths]
    omega
  | paramWrite => simp [TicketFunction.suits, TicketFunction.dataLengths]

/-! ## The id (R107) -/

/-- The id found is the first free one from the counter on, or the last of those tried. -/
theorem TicketTable.firstFree_eq (t : TicketTable) (n : Nat) (id : Byte) :
    ∃ k ≤ n, t.firstFree n id = id + BitVec.ofNat 8 k ∧ ∀ j < k, t.isFree (id + BitVec.ofNat 8 j) = false := by
  induction n generalizing id with
  | zero => exact ⟨0, le_refl _, by simp [TicketTable.firstFree], fun j hj => absurd hj (Nat.not_lt_zero j)⟩
  | succ n ih =>
    rw [TicketTable.firstFree]
    split
    · exact ⟨0, Nat.zero_le _, by simp, fun j hj => absurd hj (Nat.not_lt_zero j)⟩
    · rename_i hheld
      have next (j : Nat) : id + 1 + BitVec.ofNat 8 j = id + BitVec.ofNat 8 (j + 1) := by
        rw [BitVec.add_assoc, Nat.add_comm j 1, BitVec.ofNat_add]
        rfl
      obtain ⟨k, hk, heq, hbefore⟩ := ih (id + 1)
      refine ⟨k + 1, Nat.succ_le_succ hk, heq.trans (next k), fun j hj => ?_⟩
      cases j with
      | zero => simpa using hheld
      | succ j => rw [← next]; exact hbefore j (Nat.lt_of_succ_lt_succ hj)

/-- An id is held exactly where a live ticket has it (R106). -/
theorem TicketTable.isFree_eq_false_iff (t : TicketTable) (id : Byte) :
    t.isFree id = false ↔ ∃ u ∈ t.queue, u.id = id := by
  rw [← Bool.not_eq_true, TicketTable.isFree_iff, not_not, List.mem_map]

/-- The next id, where there is room for a ticket: the first from the counter on that no live ticket holds (R107). -/
theorem TicketTable.nextId_spec (t : TicketTable) (h : t.queue.length < 16) :
    ∃ k < 16, t.nextId = t.idCounter + BitVec.ofNat 8 k ∧ (∀ u ∈ t.queue, u.id ≠ t.nextId) ∧
      ∀ j, j < k → ∃ u ∈ t.queue, u.id = t.idCounter + BitVec.ofNat 8 j := by
  obtain ⟨k, hk, hid, hheld⟩ := t.firstFree_eq 15 t.idCounter
  have hfree := (TicketTable.isFree_iff _ _).1 (t.nextId_free h)
  exact ⟨k, Nat.lt_succ_of_le hk, hid, fun u hu heq => hfree (heq ▸ List.mem_map_of_mem hu),
    fun j hj => (t.isFree_eq_false_iff _).1 (hheld j hj)⟩

/-! ## The place (R109) -/

theorem behindLast_le (p : Ticket → Bool) (q : List Ticket) : behindLast p q ≤ q.length := by
  induction q with
  | nil => exact le_refl _
  | cons t q ih =>
    rw [behindLast, List.length_cons]
    split
    · split <;> omega
    · omega

/-- Every ticket that satisfies the condition stands ahead of the place. -/
theorem lt_behindLast {p : Ticket → Bool} {q : List Ticket} {i : Nat} {u : Ticket} (hi : q[i]? = some u) (hu : p u = true) :
    i < behindLast p q := by
  induction q generalizing i with
  | nil => cases hi
  | cons t q ih =>
    rw [behindLast]
    cases i with
    | zero =>
      obtain rfl : t = u := by simpa using hi
      rw [if_pos hu]
      split <;> omega
    | succ i =>
      have hlt := ih (by simpa using hi)
      rw [if_neg (by omega)]
      omega

/-- The ticket directly ahead of the place satisfies the condition. -/
theorem behindLast_spec {p : Ticket → Bool} {q : List Ticket} (h : behindLast p q ≠ 0) :
    ∃ u, q[behindLast p q - 1]? = some u ∧ p u = true := by
  induction q with
  | nil => exact absurd rfl h
  | cons t q ih =>
    rw [behindLast] at h ⊢
    by_cases hrest : behindLast p q = 0
    · rw [if_pos hrest] at h ⊢
      by_cases ht : p t = true
      · rw [if_pos ht]
        exact ⟨t, rfl, ht⟩
      · rw [if_neg ht] at h
        exact absurd rfl h
    · obtain ⟨u, hu, hp⟩ := ih hrest
      rw [if_neg hrest, Nat.add_sub_cancel]
      obtain ⟨k, hk⟩ := Nat.exists_eq_succ_of_ne_zero hrest
      rw [hk] at hu ⊢
      exact ⟨u, by simpa using hu, hp⟩

/-- A ticket behind which an URGENT one of the station goes: one that waits, and is URGENT or of the station (R109). -/
theorem Ticket.precedesUrgent_iff (u : Ticket) (a : Nat) :
    (u.isWaiting && (u.priority == .urgent || u.station == a)) = true ↔
      (u.state = .queued ∨ u.state = .onLine) ∧ (u.priority = .urgent ∨ u.station = a) := by
  rw [Bool.and_eq_true, Bool.or_eq_true, Ticket.isWaiting_iff, beq_iff_eq, beq_iff_eq]

/-- An URGENT ticket's place: behind every ticket it must not pass, and directly behind one of them unless it is the head
(R109). -/
theorem TicketTable.positionFor_urgent (t : TicketTable) (a : Nat) :
    t.positionFor .urgent a ≤ t.queue.length ∧
      (∀ i u, t.queue[i]? = some u → u.state = .queued ∨ u.state = .onLine → u.priority = .urgent ∨ u.station = a →
        i < t.positionFor .urgent a) ∧
      (t.positionFor .urgent a ≠ 0 → ∃ u, t.queue[t.positionFor .urgent a - 1]? = some u ∧
        (u.state = .queued ∨ u.state = .onLine) ∧ (u.priority = .urgent ∨ u.station = a)) := by
  refine ⟨behindLast_le _ _, fun i u hi hw hp => lt_behindLast hi ((u.precedesUrgent_iff a).2 ⟨hw, hp⟩), fun hplace => ?_⟩
  obtain ⟨u, hu, hp⟩ := behindLast_spec hplace
  exact ⟨u, hu, (u.precedesUrgent_iff a).1 hp⟩

/-- Settles O50: the checks in their order, and then the ticket placed under the id and at the place found, with the choice. -/
theorem submitPlacesATicket : Obligations.SubmitPlacesATicket := by
  intro s m rest a func priority hostTag data h hlen hpay
  have hparse : parseSubmit m.payload = some (submitFieldsOf a func priority hostTag data) :=
    hpay ▸ parseSubmit_fields a func priority hostTag hlen
  have refused {r : Result} (hc : (s.taking m rest).checkSubmit (submitFieldsOf a func priority hostTag data) = .error r) :
      exec .submit s = .next (s.answered m rest r []) :=
    h.refuses (mine := (· == typeSubmit)) (decide := fun f s => s.submit f) rfl hparse (State.submit_of_error hc)
  refine ⟨fun hbad => refused (State.checkSubmit_of_badEncoding ?_), fun f pr hf hpr => ?_⟩
  · rcases hbad with hbad | hbad | hbad
    · exact .inl (decodeTicketFunction_of_reserved (.inl hbad))
    · exact .inl (decodeTicketFunction_of_reserved (.inr hbad))
    · exact .inr (decodePriority_of_reserved hbad)
  have hchecks := State.checkSubmit_of_encoded (s := s.taking m rest) (f := submitFieldsOf a func priority hostTag data)
    (decodeTicketFunction_eq_some.2 hf) (decodePriority_eq_some.2 hpr)
  refine ⟨fun hout => refused (hchecks.trans (if_pos ?_)), fun h1 h63 => ?_⟩
  · simp [submitFieldsOf, validAddress_of_outside hout]
  rw [if_neg (by simp [submitFieldsOf, (validAddress_iff _).2 ⟨h1, h63⟩])] at hchecks
  refine ⟨fun hundef => refused (hchecks.trans (if_pos ?_)), fun hdef least most hrange => ?_⟩
  · rw [State.isDefined_taking]
    simp [submitFieldsOf, State.isDefined, hundef]
  rw [State.isDefined_taking, if_neg (by simpa [submitFieldsOf, State.isDefined] using hdef)] at hchecks
  have hlengths : (least, most) = f.dataLengths := by cases f <;> exact hrange
  have hsuits : f.suits data.length = true ↔ least ≤ data.length ∧ data.length ≤ most := by
    rw [TicketFunction.suits_iff, ← hlengths]
  refine ⟨fun hbad => refused (hchecks.trans (if_pos ?_)), fun hleast hmost => ?_⟩
  · rw [Bool.not_eq_true', ← Bool.not_eq_true, submitFieldsOf, hsuits]
    omega
  rw [if_neg (by simp [submitFieldsOf, hsuits.2 ⟨hleast, hmost⟩])] at hchecks
  refine ⟨fun hfull => refused (hchecks.trans (if_pos hfull)), fun hroom => ?_⟩
  have hok := hchecks.trans (if_neg (Nat.not_le.2 hroom))
  obtain ⟨k, hk, hid, hfree, hheld⟩ := s.tickets.nextId_spec hroom
  refine ⟨s.tickets.nextId, k, s.tickets.positionFor pr a.toNat, ?_, hk, hid, hfree, hheld, ?_, ?_⟩
  · refine h.answers (mine := (· == typeSubmit)) (decide := fun f s => s.submit f)
      (r := .ok [s.tickets.nextId, byte (s.tickets.positionFor pr a.toNat)]) rfl hparse ?_
    rw [State.taking_arbiterChoice rfl, State.submit_of_ok hok]
    rfl
  · rintro rfl
    rfl
  · rintro rfl
    exact s.tickets.positionFor_urgent a.toNat

end Sys2Proof.Machine
end

section
/-! CANCEL and TICKET_QUERY (R100, R110, R113, R114, R117, R118, R164): O51. -/

namespace Sys2Proof.Machine

/-! ## The place of a ticket in its queue (R106) -/

/-- A queue with distinct ids holds a ticket of an id at one place alone. -/
theorem split_unique {q before after before' after' : List Ticket} {x y : Ticket} (hn : (q.map Ticket.id).Nodup)
    (hx : q = before ++ x :: after) (hy : q = before' ++ y :: after') (hid : x.id = y.id) :
    before = before' ∧ x = y ∧ after = after' := by
  have hmem {z : Ticket} {as bs : List Ticket} (hz : q = as ++ z :: bs) : z ∈ q := by simp [hz]
  obtain rfl : x = y := List.inj_on_of_nodup_map hn (hmem hx) (hmem hy) hid
  obtain ⟨as, bs, hq, has, hbs⟩ := split_of_mem hn (hmem hx)
  have hnotin : x ∉ as ∧ x ∉ bs := ⟨fun h => has x h rfl, fun h => hbs x h rfl⟩
  obtain ⟨rfl, -, rfl⟩ := (List.append_cons_inj_of_notMem hnotin.1 hnotin.2).1 (hq.symm.trans hx)
  obtain ⟨rfl, -, rfl⟩ := (List.append_cons_inj_of_notMem hnotin.1 hnotin.2).1 (hq.symm.trans hy)
  exact ⟨rfl, rfl, rfl⟩

/-! ## The blocked tickets (R110) -/

theorem State.mem_blockedIds_iff (s : State) (ahead queue : List Ticket) (id : Byte) :
    id ∈ blockedIds s.isHeld ahead queue ↔
      ∃ before x after, queue = before ++ x :: after ∧ x.id = id ∧ x.state = .queued ∧
        ¬s.freeToTake (ahead ++ before) x := by
  have hhead (ahead : List Ticket) (y : Ticket) : id ∈ (if y.isQueued && y.blockedBehind ahead s.isHeld then [y.id] else []) ↔
      y.id = id ∧ y.state = .queued ∧ ¬s.freeToTake ahead y := by
    rw [s.freeToTake_iff, ← Ticket.isQueued_iff]
    cases y.isQueued <;> cases y.blockedBehind ahead s.isHeld <;> simp [eq_comm]
  induction queue generalizing ahead with
  | nil => simp [blockedIds]
  | cons y queue ih =>
    rw [blockedIds, List.mem_append]
    refine (or_congr (hhead ahead y) (ih (ahead ++ [y]))).trans ⟨?_, ?_⟩
    · rintro (⟨hid, hq, hb⟩ | ⟨before, x, after, rfl, hid, hq, hb⟩)
      · exact ⟨[], y, queue, rfl, hid, hq, by rwa [List.append_nil]⟩
      · exact ⟨y :: before, x, after, rfl, hid, hq, by simpa using hb⟩
    · rintro ⟨before, x, after, hqueue, hid, hq, hb⟩
      cases before with
      | nil =>
        obtain ⟨rfl, -⟩ := List.cons.inj hqueue
        exact .inl ⟨hid, hq, by rwa [List.append_nil] at hb⟩
      | cons z before =>
        obtain ⟨rfl, rfl⟩ := List.cons.inj hqueue
        exact .inr ⟨before, x, after, rfl, hid, hq, by simpa using hb⟩

/-- A QUEUED ticket is among the blocked ones exactly if it is not free to take. -/
theorem State.mem_blockedTickets_iff {s : State} (hn : (s.tickets.queue.map Ticket.id).Nodup) {x : Ticket}
    {before after : List Ticket} (hqueue : s.tickets.queue = before ++ x :: after) (hq : x.state = .queued) :
    x.id ∈ s.blockedTickets ↔ ¬s.freeToTake before x := by
  refine (s.mem_blockedIds_iff [] s.tickets.queue x.id).trans ⟨?_, fun h => ⟨before, x, after, hqueue, rfl, hq, h⟩⟩
  rintro ⟨before', y, after', hqueue', hid, -, hb⟩
  obtain ⟨rfl, rfl, -⟩ := split_unique hn hqueue hqueue' hid.symm
  exact hb

/-- A ticket ceases to be blocked where one blocked before is still QUEUED and no more among the blocked ones. -/
theorem State.unblocks_iff {s u : State} (hs : (s.tickets.queue.map Ticket.id).Nodup)
    (hu : (u.tickets.queue.map Ticket.id).Nodup) (hstay : ∀ y ∈ u.tickets.queue, y.state = .queued → y ∈ s.tickets.queue) :
    s.blockedTickets.any (fun id => (u.tickets.find id).any Ticket.isQueued && !u.blockedTickets.contains id) = true ↔
      s.unblocks u := by
  simp only [List.any_eq_true, Bool.and_eq_true, Option.any_eq_true, Bool.not_eq_true', List.contains_eq_mem,
    decide_eq_false_iff_not, Ticket.isQueued_iff]
  constructor
  · rintro ⟨id, hblocked, ⟨y, hfind, hq⟩, hfree⟩
    obtain ⟨hy, rfl⟩ := TicketTable.find_some hfind
    obtain ⟨before, after, hbefore⟩ := List.append_of_mem (hstay y hy hq)
    obtain ⟨before', after', hbefore'⟩ := List.append_of_mem hy
    rw [State.mem_blockedTickets_iff hs hbefore hq] at hblocked
    rw [State.mem_blockedTickets_iff hu hbefore' hq, not_not] at hfree
    exact ⟨y, before, after, before', after', hbefore, hbefore', hq, hblocked, hfree⟩
  · rintro ⟨y, before, after, before', after', hbefore, hbefore', hq, hblocked, hfree⟩
    refine ⟨y.id, (State.mem_blockedTickets_iff hs hbefore hq).2 hblocked,
      ⟨y, TicketTable.find_of_mem hu (by simp [hbefore']), hq⟩, ?_⟩
    rw [State.mem_blockedTickets_iff hu hbefore' hq, not_not]
    exact hfree

/-! ## CANCEL (R117) -/

section
variable {s : State} {t : Ticket}

theorem State.cancel_of_none {id : Byte} (h : s.tickets.find id = none) :
    s.cancel id = (s, { result := .noTicket, body := [id] }) := by
  rw [State.cancel, h]

theorem State.cancel_of_onLine (h : s.tickets.find t.id = some t) (hs : t.state = .onLine) :
    s.cancel t.id = (s, { result := .tooLate, body := [t.id, 1] }) := by
  rw [State.cancel, h]
  dsimp only
  rw [hs]

theorem State.cancel_of_done {res : TicketResult} (h : s.tickets.find t.id = some t) (hs : t.state = .done res) :
    s.cancel t.id = (s, { result := .alreadyDone, body := [t.id, 2] }) := by
  rw [State.cancel, h]
  dsimp only
  rw [hs]

theorem State.cancel_of_queued (h : s.tickets.find t.id = some t) (hs : t.state = .queued) :
    s.cancel t.id =
      ((s.completeTicket t.id (.bare .cancelled 0)).choiceIfUnblocked s.blockedTickets, .ok [t.id, 2]) := by
  rw [State.cancel, h]
  dsimp only
  rw [hs]

end

/-- The state with a ticket cancelled: DONE with CANCELLED at its place, its report at the tail (R113, R114, R117). -/
def State.cancelled (s : State) (ahead : List Ticket) (t : Ticket) (behind : List Ticket) : State :=
  { s with
    tickets := { s.tickets with queue := ahead ++ { t with state := .done (.bare .cancelled 0) } :: behind }
    reports := { s.reports with queue := s.reports.queue ++ [.demandDone (t.report (.bare .cancelled 0))] } }

section
variable {s : State} {t : Ticket} {ahead behind : List Ticket}

/-- While CANCEL is being decided no report becomes due: the ticket's report is placed at the tail (R114). -/
theorem State.completeTicket_eq_cancelled (hproc : s.host.processor ≠ .idle) (hn : (s.tickets.queue.map Ticket.id).Nodup)
    (hqueue : s.tickets.queue = ahead ++ t :: behind) (hq : t.state = .queued) :
    s.completeTicket t.id (.bare .cancelled 0) = s.cancelled ahead t behind := by
  have hmem : t ∈ s.tickets.queue := by simp [hqueue]
  have hdone : t.isDone = false := by simp [Ticket.isDone, hq]
  have hset : s.tickets.setState t.id (.done (.bare .cancelled 0)) = (s.cancelled ahead t behind).tickets := by
    obtain ⟨as, bs, hsplit, has, hbs⟩ := split_of_mem hn hmem
    obtain ⟨rfl, -, rfl⟩ := split_unique hn hsplit hqueue rfl
    have htable : s.tickets = ⟨as ++ t :: bs, s.tickets.idCounter⟩ := by rw [← hqueue]
    have hstate := setState_split (k := s.tickets.idCounter) (st := .done (.bare .cancelled 0)) has hbs
    rw [State.cancelled, ← hstate, ← htable]
    rfl
  rw [State.completeTicket_of_deciding hproc hn hmem hdone, hset]
  rfl

/-- In the state with a ticket cancelled the ids are those of the state before. -/
theorem State.cancelled_ids (s : State) (hqueue : s.tickets.queue = ahead ++ t :: behind) :
    (s.cancelled ahead t behind).tickets.queue.map Ticket.id = s.tickets.queue.map Ticket.id := by
  rw [hqueue]
  simp [State.cancelled]

/-- The tickets still QUEUED after a ticket's cancelling were live before it. -/
theorem State.mem_of_queued_cancelled (hqueue : s.tickets.queue = ahead ++ t :: behind) {y : Ticket}
    (hy : y ∈ (s.cancelled ahead t behind).tickets.queue) (hq : y.state = .queued) : y ∈ s.tickets.queue := by
  rw [hqueue]
  rcases List.mem_append.1 hy with hy | hy
  · exact List.mem_append_left _ hy
  · rcases List.mem_cons.1 hy with rfl | hy
    · cases hq
    · exact List.mem_append_right _ (List.mem_cons_of_mem _ hy)

/-- A choice follows a ticket's cancelling exactly if that unblocks a ticket (R100; log entry 22). -/
theorem State.choiceIfUnblocked_cancelled (hn : (s.tickets.queue.map Ticket.id).Nodup)
    (hqueue : s.tickets.queue = ahead ++ t :: behind) :
    (s.unblocks (s.cancelled ahead t behind) →
      (s.cancelled ahead t behind).choiceIfUnblocked s.blockedTickets = (s.cancelled ahead t behind).arbiterChoice) ∧
    (¬s.unblocks (s.cancelled ahead t behind) →
      (s.cancelled ahead t behind).choiceIfUnblocked s.blockedTickets = s.cancelled ahead t behind) := by
  have hiff := State.unblocks_iff (u := s.cancelled ahead t behind) hn (by rwa [s.cancelled_ids hqueue])
    (fun _ => State.mem_of_queued_cancelled hqueue)
  exact ⟨fun h => if_pos (hiff.2 h), fun h => if_neg (fun hc => h (hiff.1 hc))⟩

end

/-! ## TICKET_QUERY (R118) -/

theorem State.ticketQuery_of_none {s : State} {id : Byte} (h : s.tickets.find id = none) :
    s.ticketQuery id = (s, .refuse .noTicket) := by
  rw [State.ticketQuery, h]

theorem State.ticketQuery_of_some {s : State} {id : Byte} {t : Ticket} (h : s.tickets.find id = some t) :
    s.ticketQuery id = (s, .ok (s.ticketBody t)) := by
  rw [State.ticketQuery, h]

/-- An id that no live ticket holds finds none (R106). -/
theorem TicketTable.find_of_not_mem {t : TicketTable} {id : Byte} (h : ∀ u ∈ t.queue, u.id ≠ id) : t.find id = none := by
  rw [TicketTable.find, List.find?_eq_none]
  exact fun u hu heq => h u hu (beq_iff_eq.1 heq)

section
variable {s : State} {t : Ticket} {ahead behind : List Ticket}

/-- A ticket's position in queue order counts those ahead of it (R118). -/
theorem Ticket.findIdx_id (hn : ((ahead ++ t :: behind).map Ticket.id).Nodup) :
    (ahead ++ t :: behind).findIdx (fun u => u.id == t.id) = ahead.length := by
  have hahead : ∀ u ∈ ahead, (u.id == t.id) = false := by
    obtain ⟨as, bs, hsplit, has, -⟩ := split_of_mem hn (u := t) (by simp)
    obtain ⟨rfl, -, -⟩ := split_unique hn rfl hsplit rfl
    exact fun u hu => beq_eq_false_iff_ne.2 (has u hu)
  rw [List.findIdx_append, List.findIdx_eq_length.2 hahead]
  simp [List.findIdx_cons]

/-- Whether a ticket is blocked, as TICKET_QUERY answers it (R110, R118). -/
theorem State.blocked_iff (hn : (s.tickets.queue.map Ticket.id).Nodup) (hqueue : s.tickets.queue = ahead ++ t :: behind) :
    (t.isQueued && s.blockedTickets.contains t.id) = true ↔ t.state = .queued ∧ ¬s.freeToTake ahead t := by
  rw [Bool.and_eq_true, Ticket.isQueued_iff, List.contains_iff_mem]
  exact and_congr_right (State.mem_blockedTickets_iff hn hqueue)

/-- What the answer says of a ticket behind its profile: state, position, live tickets, whether it is blocked, and its result
(R118, R164). -/
def State.ticketFields (s : State) (ahead : List Ticket) (t : Ticket) : List Byte :=
  [t.state.code, byte ahead.length, byte s.tickets.queue.length, flag (t.isQueued && s.blockedTickets.contains t.id)] ++
    t.state.resultBytes

/-- The body of the answer, for a ticket at its place in the queue (R118, R164). -/
theorem State.ticketBody_eq (hn : (s.tickets.queue.map Ticket.id).Nodup) (hqueue : s.tickets.queue = ahead ++ t :: behind) :
    s.ticketBody t =
      [t.id, byte t.station, t.func.onLine.code, t.priority.code] ++ le16 t.hostTag ++ s.ticketFields ahead t := by
  have hplace : s.tickets.queue.findIdx (fun u => u.id == t.id) = ahead.length := by
    rw [hqueue] at hn ⊢
    exact Ticket.findIdx_id hn
  rw [State.ticketBody, hplace, List.append_assoc, State.ticketFields]

theorem State.ticketFields_of_free (hn : (s.tickets.queue.map Ticket.id).Nodup)
    (hqueue : s.tickets.queue = ahead ++ t :: behind) (hs : t.state = .queued) (h : s.freeToTake ahead t) :
    s.ticketFields ahead t = [0, byte ahead.length, byte s.tickets.queue.length, 0, 0xFF, 0xFF, 0] := by
  have hflag : (t.isQueued && s.blockedTickets.contains t.id) = false :=
    Bool.eq_false_iff.2 fun hb => ((State.blocked_iff hn hqueue).1 hb).2 h
  rw [State.ticketFields, hflag, hs]
  rfl

theorem State.ticketFields_of_blocked (hn : (s.tickets.queue.map Ticket.id).Nodup)
    (hqueue : s.tickets.queue = ahead ++ t :: behind) (hs : t.state = .queued) (h : ¬s.freeToTake ahead t) :
    s.ticketFields ahead t = [0, byte ahead.length, byte s.tickets.queue.length, 1, 0xFF, 0xFF, 0] := by
  rw [State.ticketFields, (State.blocked_iff hn hqueue).2 ⟨hs, h⟩, hs]
  rfl

theorem State.ticketFields_of_onLine (hs : t.state = .onLine) :
    s.ticketFields ahead t = [1, byte ahead.length, byte s.tickets.queue.length, 0, 0xFF, 0xFF, 0] := by
  rw [State.ticketFields, Ticket.isQueued, hs]
  rfl

theorem State.ticketFields_of_done {res : TicketResult} (hs : t.state = .done res) :
    s.ticketFields ahead t = [2, byte ahead.length, byte s.tickets.queue.length, 0, res.outcome.code,
      statusByte res.status, byte res.attempts] := by
  rw [State.ticketFields, Ticket.isQueued, hs]
  rfl

end

/-- Settles O51: the ticket is found by its id, and answered, or cancelled, by its state. -/
theorem cancelAndTicketQueryFindTheTicket : Obligations.CancelAndTicketQueryFindTheTicket := by
  intro s m rest id hlaw hpay
  obtain ⟨-, hn, -⟩ := hlaw
  have hparse : parseOne m.payload = some id := congrArg parseOne hpay
  have cancels (h : s.offers m rest 0x41) {t : State} {res : Result} {body : List Byte}
      (hc : (s.taking m rest).cancel id = (t.taking m rest, { result := res, body := body })) :
      exec .cancel s = .next (t.answered m rest res body) :=
    h.answers (mine := (· == typeCancel)) (decide := fun f s => s.cancel f) rfl hparse hc
  have queries (h : s.offers m rest 0x42) {res : Result} {body : List Byte}
      (hc : (s.taking m rest).ticketQuery id = (s.taking m rest, { result := res, body := body })) :
      exec .ticketQuery s = .next (s.answered m rest res body) :=
    h.answers (mine := (· == typeTicketQuery)) (decide := fun f s => s.ticketQuery f) rfl hparse hc
  refine ⟨fun hnone => ?_, fun t ahead behind hqueue hid => ?_⟩
  · have hfind : (s.taking m rest).tickets.find id = none := TicketTable.find_of_not_mem hnone
    exact ⟨fun h => cancels h (State.cancel_of_none hfind), fun h => queries h (State.ticketQuery_of_none hfind)⟩
  subst hid
  have hfind : (s.taking m rest).tickets.find t.id = some t := TicketTable.find_of_mem hn (by simp [hqueue])
  refine ⟨fun h => ⟨fun hq => ?_, fun hs => cancels h (State.cancel_of_onLine hfind hs),
    fun res hs => cancels h (State.cancel_of_done hfind hs)⟩, fun h fields hfree hblocked honline hdone => ?_⟩
  · have hcancel := State.cancel_of_queued hfind hq
    rw [State.completeTicket_eq_cancelled (s := s.taking m rest) nofun hn hqueue hq] at hcancel
    obtain ⟨hchosen, hnot⟩ := State.choiceIfUnblocked_cancelled (s := s.taking m rest) hn hqueue
    refine ⟨(s.taking m rest).cancelled ahead t behind, rfl, fun hu => cancels h ?_, fun hu => cancels h ?_⟩
    · rw [State.taking_arbiterChoice rfl, hcancel, hchosen hu]
      rfl
    · rw [hcancel, hnot hu]
      rfl
  · refine queries h ((State.ticketQuery_of_some hfind).trans ?_)
    rw [State.ticketBody_eq (s := s.taking m rest) hn hqueue]
    suffices hfields : fields = s.ticketFields ahead t by
      rw [hfields]
      rfl
    cases hs : t.state with
    | queued =>
      by_cases hnow : s.freeToTake ahead t
      · rw [hfree hs hnow, State.ticketFields_of_free hn hqueue hs hnow]
      · rw [hblocked hs hnow, State.ticketFields_of_blocked hn hqueue hs hnow]
    | onLine => rw [honline hs, State.ticketFields_of_onLine hs]
    | done res => rw [hdone res hs, State.ticketFields_of_done hs]

end Sys2Proof.Machine
end

section
/-! The laws of credits and report queue (R120, R121, R130) over every effect a command can have, and over every step: O54. -/

namespace Sys2Proof.Machine

/-- A property of the report unit that its own events keep: a request taken, the head entry taken for sending, a station's notices
dropped, the credit counter set within its limit, and a reset (R121, R129 to R132). -/
structure ReportClosed (Q : ReportUnit → Prop) : Prop where
  place : ∀ u r, Q u → Q (u.place r)
  taken : ∀ u, u.queue ≠ [] → u.credit ≠ 0 → Q u → Q u.taken
  dropStation : ∀ u a, Q u → Q (u.dropStation a)
  setCredit : ∀ u n, Q u → n ≤ Config.creditLimit → Q { u with credit := n }
  initial : Q .initial

section
variable {Q : ReportUnit → Prop} {s t : State}

/-- What only places requests and takes entries keeps the property. -/
theorem ReportClosed.placed (hQ : ReportClosed Q) (h : Placed s t) (hs : Q s.reports) : Q t.reports :=
  h Q hQ.place hQ.taken hs

/-- A define drops the notices of a station defined before, and places nothing (R17, R129). -/
theorem ReportClosed.define (hQ : ReportClosed Q) (hs : Q s.reports) (a : Nat) (p : Profile) :
    Q (s.define a p).reports := by
  rw [State.define_frame]
  dsimp only
  split
  · exact hQ.dropStation _ a hs
  · exact hs

/-- A remove drops the station's notices, and then places the reports of its tickets (R19, R129). -/
theorem ReportClosed.remove (hQ : ReportClosed Q) (hs : Q s.reports) (a : Nat) : Q (s.remove a).reports := by
  have hcleared : Q (s.cleared a).reports := by
    rw [s.cleared_eq]
    exact hQ.dropStation _ a hs
  exact hQ.placed ((s.cleared a).withdrawTickets_placed a) hcleared

/-- After a restart or a pin reset the line follows LREQ, and the choice only places requests (R161). -/
theorem State.followLreq_placed (s : State) : Placed s s.followLreq := by
  unfold State.followLreq
  split
  · exact .of_eq s.lendLine_reports
  · exact s.arbiterChoice_placed

/-- What leaves the report unit alone keeps the property. -/
theorem State.SameDemand.keepsReports (h : s.SameDemand t) (hs : Q s.reports) : Q t.reports := by
  obtain ⟨-, hreports⟩ := h
  rwa [hreports]

/-- No effect of a command reaches the report unit but through the unit's own events. -/
theorem ReportClosed.execClosed (hQ : ReportClosed Q) : ExecClosed (fun s => Q s.reports) where
  choice := fun s h => hQ.placed s.arbiterChoice_placed h
  host := fun _ _ h => h
  lineSetup := fun _ _ _ _ h _ _ _ => h
  clearLine := fun _ h => h
  draw := fun _ _ h => h
  define := fun _ f p h _ => hQ.define h f.address p
  remove := fun _ a h _ _ => hQ.remove h a
  clearCounters := fun s a h _ => by rwa [s.clearCounters_reports a]
  installList := fun _ _ h _ _ _ => h
  pendList := fun _ _ h _ _ => h
  beginCycling := fun s _ _ h _ _ => hQ.placed s.abandonCycle_placed h
  stopAfterSlot := fun s h => hQ.placed s.stopAfterSlot_placed h
  stopAfterCycle := fun s h => hQ.placed s.stopAfterCycle_placed h
  applyItems := fun _ _ h _ => by rwa [State.applyItems_frame]
  placeTicket := fun _ _ _ _ h _ => h
  cancelTicket := fun s id _ h _ _ => hQ.placed (s.completeTicket_placed id _) h
  credit := fun s n h hn => hQ.setCredit s.reports n h hn
  takeReport := fun _ _ _ h hq hc => hQ.placed (State.takeReport_placed hq hc) h
  holdSetup := fun _ _ _ _ h => h
  restartHoldTimer := fun _ h => h
  endHold := fun _ h _ => hQ.placed (State.place_placed _ _) h
  enterHold := fun _ h => hQ.placed (State.place_placed _ _) h
  limitExpires := fun _ h => hQ.placed (State.place_placed _ _) h
  lreqAsserted := fun _ h _ => h
  lreqNegated := fun _ h _ _ => h
  returnLine := fun s order h _ _ => hQ.placed (s.returnLine_placed order) h
  initialised := fun _ _ _ => hQ.placed (State.followLreq_placed _) hQ.initial
  warm := fun _ _ => hQ.placed (State.followLreq_placed _) hQ.initial
  startBit := fun s b h _ => (s.sameDemand_startBit b).keepsReports h
  char := fun s rx c h _ _ => (State.sameDemand_deliverChar (s.setLineRx rx) c).keepsReports h
  frameEnds := fun s r h _ _ => (s.sameDemand_frameEnds r).keepsReports h
  noReply := fun _ h _ => h
  gap := fun _ h _ => h
  quiet := fun s order h _ => hQ.placed (s.guardEnds_placed order) h
  jam := fun s order h _ _ => hQ.placed (s.lineJams_placed order) h
  period := fun s h _ => hQ.placed s.periodExpires_placed h

/-- A property that the report unit's own events keep is kept by every step. -/
theorem ReportClosed.step (hQ : ReportClosed Q) (ht : step s = .next t) (hs : Q s.reports) : Q t.reports :=
  hQ.execClosed.step (fun _ _ h => h) ht hs

end

/-- Only CREDIT adds to the counter, and it stops at the limit (R130). -/
theorem creditLimit_reportClosed : ReportClosed (fun u => u.credit ≤ Config.creditLimit) where
  place := fun u r h => by
    obtain ⟨-, hcredit, -⟩ := u.place_spec r
    rwa [hcredit]
  taken := fun u _ _ h => (Nat.sub_le u.credit 1).trans h
  dropStation := fun _ _ h => h
  setCredit := fun _ _ _ hn => hn
  initial := Nat.zero_le _

/-- Entries that leave the queue leave no more notices behind, and no two for one thing (R120, R121). -/
theorem reportLaw_reportClosed : ReportClosed ReportUnit.Law where
  place := fun u r h => by
    obtain ⟨hlaw, -⟩ := u.place_spec r
    exact hlaw h
  taken := fun u _ _ ⟨hnotices, hdistinct⟩ =>
    ⟨(List.tail_sublist u.queue).countP_le.trans hnotices, hdistinct.sublist (List.tail_sublist u.queue)⟩
  dropStation := fun u a h => by
    obtain ⟨hlaw, -⟩ := u.dropStation_spec a
    exact hlaw h
  setCredit := fun _ _ h _ => h
  initial := ⟨Nat.zero_le _, List.Pairwise.nil⟩

/-- Settles O54: the report unit's own events keep both laws, and every step reaches the unit through them alone. -/
theorem everyStepKeepsTheReportLaws : Obligations.EveryStepKeepsTheReportLaws :=
  fun _ _ ht => ⟨creditLimit_reportClosed.step ht, reportLaw_reportClosed.step ht⟩

end Sys2Proof.Machine
end

section
/-! CREDIT, and the requests taken at the report unit (R120 to R128, R130, R141): O53. -/

namespace Sys2Proof.Machine

/-! ## CREDIT (R130) -/

theorem State.addCredit_of_outside (s : State) {n : Nat} (h : n = 0 ∨ 32 < n) : s.addCredit n = (s, .refuse .range) :=
  if_pos (by omega)

theorem State.addCredit_of_inside (s : State) {n : Nat} (h1 : 1 ≤ n) (h32 : n ≤ 32) :
    s.addCredit n = ({ s with reports := { s.reports with credit := min (s.reports.credit + n) 32 } },
      .ok [byte (min (s.reports.credit + n) 32)]) :=
  if_neg (by omega)

/-! ## The entry a request merges with (R121) -/

theorem ReportRequest.makes_iff (r : ReportRequest) (e : ReportEntry) : r.makes e ↔ e = r.newEntry := by
  cases r with
  | supervision cause => cases cause <;> rfl
  | inputChange | stationState | demandDone | cycleDone | lineFault => rfl

theorem ReportRequest.isCompletion_iff (r : ReportRequest) : r.isCompletion = true ↔ ∃ d, r = .demandDone d := by
  cases r <;> simp [ReportRequest.isCompletion]

/-- The entry a request merges with concerns what the entry it would make concerns. -/
theorem ReportEntry.sameThing_of_merge {e e' : ReportEntry} {r : ReportRequest} (h : e.merge r = some e')
    (x : ReportEntry) : x.sameThing e = x.sameThing r.newEntry := by
  cases e <;> cases r <;> simp only [ReportEntry.merge, reduceCtorEq] at h
  case inputChange.inputChange =>
    obtain ⟨rfl, -⟩ := Option.ite_none_right_eq_some.1 h
    rfl
  case stationState.stationState =>
    obtain ⟨rfl, -⟩ := Option.ite_none_right_eq_some.1 h
    cases x <;> rfl
  case cycleDone.cycleDone | lineFault.lineFault => cases x <;> rfl
  case supervision.supervision cause => cases cause <;> cases x <;> rfl

/-- A notice concerns what it concerns. -/
theorem ReportEntry.sameThing_self {e : ReportEntry} (h : e.isNotice = true) : e.sameThing e = true := by
  cases e with
  | demandDone => cases h
  | inputChange | stationState => exact beq_self_eq_true _
  | cycleDone | lineFault | supervision => rfl

/-- A request merges with no entry for another thing than the one it concerns. -/
theorem ReportEntry.merge_of_sameThing {e : ReportEntry} {r : ReportRequest} (h : e.sameThing r.newEntry = false) :
    e.merge r = none := by
  cases hm : e.merge r with
  | none => rfl
  | some e' =>
    obtain ⟨hnotice, -⟩ := ReportEntry.merge_some hm
    rw [← ReportEntry.sameThing_of_merge hm, ReportEntry.sameThing_self hnotice] at h
    cases h

/-- Entries for other things than the request's are passed over. -/
theorem mergeInto_append {r : ReportRequest} {ahead : List ReportEntry} (h : ∀ x ∈ ahead, x.sameThing r.newEntry = false)
    (q : List ReportEntry) : mergeInto (ahead ++ q) r = (mergeInto q r).map (ahead ++ ·) := by
  induction ahead with
  | nil => simp
  | cons x ahead ih =>
    obtain ⟨hx, hahead⟩ := List.forall_mem_cons.1 h
    rw [List.cons_append, mergeInto, ReportEntry.merge_of_sameThing hx]
    dsimp only
    rw [ih hahead, Option.map_map]
    rfl

/-! ## What a request does to the report unit (R121, R122) -/

section
variable {u : ReportUnit} {r : ReportRequest}

/-- A request that concerns what no waiting entry concerns merges with none. -/
theorem mergeInto_of_new (h : ∀ e ∈ u.queue, e.sameThing r.newEntry = false) : mergeInto u.queue r = none := by
  have happend := mergeInto_append h []
  rwa [List.append_nil] at happend

theorem ReportUnit.place_of_room (h : ∀ e ∈ u.queue, e.sameThing r.newEntry = false)
    (hroom : (u.queue.filter ReportEntry.isNotice).length < 16 ∨ ∃ d, r = .demandDone d) :
    u.place r = { u with queue := u.queue ++ [r.newEntry] } := by
  rw [← List.countP_eq_length_filter, ← r.isCompletion_iff, or_comm] at hroom
  rw [ReportUnit.place, mergeInto_of_new h]
  exact if_pos (Bool.or_eq_true_iff.2 (hroom.imp_right decide_eq_true))

theorem ReportUnit.place_of_full (h : ∀ e ∈ u.queue, e.sameThing r.newEntry = false)
    (hfull : 16 ≤ (u.queue.filter ReportEntry.isNotice).length) (hnotice : ∀ d, r ≠ .demandDone d) :
    u.place r = { u with lost := satInc8 u.lost } := by
  rw [← List.countP_eq_length_filter] at hfull
  rw [← not_exists, ← r.isCompletion_iff] at hnotice
  rw [ReportUnit.place, mergeInto_of_new h]
  refine if_neg ?_
  rw [Bool.or_eq_true, decide_eq_true_iff]
  exact not_or.2 ⟨hnotice, Nat.not_lt.2 hfull⟩

section
variable {ahead behind : List ReportEntry} {e e' : ReportEntry}

/-- A request updates in place the entry it merges with, the first that concerns its thing (R121). -/
theorem ReportUnit.place_of_merge (hq : u.queue = ahead ++ e :: behind) (hahead : ∀ x ∈ ahead, x.sameThing e = false)
    (hm : e.merge r = some e') : u.place r = { u with queue := ahead ++ e' :: behind } := by
  have hother : ∀ x ∈ ahead, x.sameThing r.newEntry = false := fun x hx =>
    (ReportEntry.sameThing_of_merge hm x).symm.trans (hahead x hx)
  have hmerged : mergeInto (e :: behind) r = some (e' :: behind) := by rw [mergeInto, hm]
  rw [ReportUnit.place, hq, mergeInto_append hother, hmerged]
  rfl

/-- A request that changes nothing in the entry it merges with changes nothing (R123, R128). -/
theorem ReportUnit.place_of_merge_self (hq : u.queue = ahead ++ e :: behind) (hahead : ∀ x ∈ ahead, x.sameThing e = false)
    (hm : e.merge r = some e) : u.place r = u := by
  rw [ReportUnit.place_of_merge hq hahead hm, ← hq]

end

end

/-- Settles O53: CREDIT by its range, a placement by whether a report stands, and a request by the entry it merges with. -/
theorem creditAddsAndRequestsArePlaced : Obligations.CreditAddsAndRequestsArePlaced := by
  refine ⟨fun s m rest n h hpay => ?_, fun s request => ⟨fun hn => ?_, fun t h ht => ?_⟩, fun u => ⟨?_, ?_⟩⟩
  · have hparse : parseOne m.payload = some n := congrArg parseOne hpay
    have credits {t : State} {res : Result} {body : List Byte}
        (hc : (s.taking m rest).addCredit n.toNat = (t.taking m rest, { result := res, body := body })) :
        exec .credit s = .next (t.answered m rest res body) :=
      h.answers (mine := (· == typeCredit)) (decide := fun (f : Byte) s => s.addCredit f.toNat) rfl hparse hc
    exact ⟨fun hout => credits (State.addCredit_of_outside _ hout),
      fun h1 h32 => credits (State.addCredit_of_inside _ h1 h32)⟩
  · exact State.place_of_none (State.dueReport_none_of_not hn) request
  · obtain rfl := State.eq_takeDueReport (fun hn => absurd h hn) (fun _ => ht)
    rfl
  · intro request new hnew hother
    obtain rfl := (request.makes_iff new).1 hnew
    exact ⟨ReportUnit.place_of_room hother, ReportUnit.place_of_full hother⟩
  · intro ahead e behind hq hahead
    refine ⟨?_, ?_, ?_, ?_, ?_⟩
    · rintro a rfl
      exact ReportUnit.place_of_merge_self hq hahead (if_pos rfl)
    · rintro a first n now rfl
      exact ReportUnit.place_of_merge hq hahead (if_pos rfl)
    · rintro c n now rfl
      exact ReportUnit.place_of_merge hq hahead rfl
    · rintro n a now rfl
      exact ReportUnit.place_of_merge hq hahead rfl
    · rintro hold grants long rfl
      exact ⟨ReportUnit.place_of_merge hq hahead rfl, ReportUnit.place_of_merge hq hahead rfl,
        ReportUnit.place_of_merge hq hahead rfl, ReportUnit.place_of_merge_self hq hahead rfl⟩

end Sys2Proof.Machine
end

section
/-! What the host link sees of the other blocks: their events reach it only through a report that the free transmitter takes
(R138, R141). -/

namespace Sys2Proof.Machine

/-- From the first host link to the second, at most a report was taken by the free transmitter, which takes none while a command
is being decided (R131, R141). -/
def HostLink.Sends (h k : HostLink) : Prop :=
  k = h ∨ h.processor = .idle ∧ h.tx = .free ∧ ∃ frame, k = { h with tx := .sendingReport frame }

theorem HostLink.Sends.refl (h : HostLink) : h.Sends h := Or.inl rfl

theorem HostLink.Sends.trans {h k l : HostLink} (hk : h.Sends k) (kl : k.Sends l) : h.Sends l := by
  rcases hk with rfl | ⟨hproc, htx, frame, rfl⟩
  · exact kl
  · rcases kl with rfl | ⟨-, hbusy, -⟩
    · exact Or.inr ⟨hproc, htx, frame, rfl⟩
    · cases hbusy

/-- While a command is being decided no report is taken (R141). -/
theorem HostLink.Sends.eq_of_deciding {h k : HostLink} (hk : h.Sends k) (hd : h.processor ≠ .idle) : k = h := by
  rcases hk with hk | ⟨hidle, -⟩
  · exact hk
  · exact absurd hidle hd

section
variable {h : HostLink} {s t : State}

theorem HostLink.Sends.takeDueReport (hs : h.Sends s.host) : h.Sends s.takeDueReport.host := by
  refine hs.trans ?_
  cases hd : s.dueReport with
  | none => rw [State.takeDueReport_of_none hd]; exact .refl _
  | some e =>
    obtain ⟨-, -, htx, hfree⟩ := State.dueReport_some hd
    rw [State.takeDueReport_of_due hd]
    exact Or.inr ⟨State.processor_of_free hfree, htx, _, rfl⟩

theorem HostLink.Sends.place (hs : h.Sends s.host) (r : ReportRequest) : h.Sends (s.place r).host := hs.takeDueReport

theorem HostLink.Sends.placeAll (hs : h.Sends s.host) (rs : List ReportRequest) : h.Sends (s.placeAll rs).host := by
  unfold State.placeAll
  induction rs generalizing s with
  | nil => exact hs
  | cons r rs ih => exact ih (hs.place r)

theorem HostLink.Sends.completeTicket (hs : h.Sends s.host) (id : Byte) (res : TicketResult) :
    h.Sends (s.completeTicket id res).host :=
  HostLink.Sends.placeAll (s := { s with tickets := (s.tickets.complete id res).1 }) hs _

/-- The moves of a choice that place reports are the grant, a ticket that cannot be taken and the end of a cycle (R100). -/
theorem sends_closed (h : HostLink) : ChoiceClosed (fun s => h.Sends s.host) where
  grant := fun s hs _ _ => HostLink.Sends.place (s := s.lendLine) hs _
  broadcast := fun s f hs _ _ => by
    have hframe := s.handOver_host 0 f .broadcast []
    rwa [← hframe] at hs
  own := fun s t hs _ _ _ => by
    rw [State.putOnLine, State.handOver_host]
    simpa using hs
  resync := fun s t hs _ _ _ => by simpa using hs
  down := fun s t hs _ _ => hs.completeTicket t.id _
  skip := fun _ _ hs _ _ _ _ => hs
  slot := fun s a f o hs _ _ _ _ => by
    rw [State.takeOffer, State.handOver_host]
    exact hs
  enter := fun _ hs _ _ => hs
  probe := fun s a hs _ _ _ _ => by
    rw [State.takeOffer, State.handOver_host]
    exact hs
  complete := fun s hs _ _ => hs.place (.cycleDone s.sched.summary)

theorem HostLink.Sends.arbiterChoice (hs : h.Sends s.host) : h.Sends s.arbiterChoice.host := (sends_closed h).choice s hs

theorem HostLink.Sends.choose (hs : h.Sends s.host) : h.Sends s.choose.host := hs.takeDueReport.arbiterChoice

theorem HostLink.Sends.followLreq (hs : h.Sends s.host) : h.Sends s.followLreq.host := by
  unfold State.followLreq
  split
  · exact hs
  · exact hs.arbiterChoice

/-! ## The events of the line and its timers (R44 to R46, R64 to R73, R94) -/

@[simp] theorem State.startBit_host (s : State) (b : BitSamples) : (s.startBit b).host = s.host := by
  unfold State.startBit
  split <;> rfl

@[simp] theorem State.receiveChar_host (s : State) (c : RxChar) : (s.receiveChar c).host = s.host := by
  cases hr : s.engine.record with
  | none => rw [State.receiveChar, hr]
  | some r =>
    rcases State.receiveChar_eq hr c with he | ⟨n, o, he, -⟩ <;> rw [he]
    · rfl
    · rfl

@[simp] theorem State.deliverChar_host (s : State) (c : RxChar) : (s.deliverChar c).host = s.host := by
  unfold State.deliverChar
  dsimp only
  split
  case h_3 => exact State.receiveChar_host (s.countLine _) c
  all_goals rfl

@[simp] theorem State.frameEnds_host (s : State) (r : ExchangeRecord) : (s.frameEnds r).host = s.host := by
  unfold State.frameEnds
  dsimp only
  split <;> rfl

theorem HostLink.Sends.guardEnds (hs : h.Sends s.host) (order : List ReportSource) : h.Sends (s.guardEnds order).host := by
  unfold State.guardEnds
  split
  · exact hs
  · split
    · exact hs
    · exact HostLink.Sends.placeAll (by simpa using hs) _

theorem HostLink.Sends.lineJams (hs : h.Sends s.host) (order : List ReportSource) : h.Sends (s.lineJams order).host := by
  cases hr : s.engine.record with
  | none => rw [State.lineJams_of_none hr]; exact hs
  | some r =>
    rw [State.lineJams_of_record hr]
    exact HostLink.Sends.placeAll (by simpa [State.jamCounted] using hs) _

theorem HostLink.Sends.periodExpires (hs : h.Sends s.host) : h.Sends s.periodExpires.host := by
  unfold State.periodExpires
  split
  · exact hs
  · exact hs
  · dsimp only
    split
    · exact HostLink.Sends.arbiterChoice (s := { s with sched := s.sched.nextCycle }) hs
    · exact hs

/-! ## The events of hold and handover (R151, R154 to R158) -/

theorem HostLink.Sends.enterHold (hs : h.Sends s.host) : h.Sends s.enterHold.host :=
  HostLink.Sends.place
    (s := State.forbidRetry { s with sup := { s.sup with hold := .held, holdTimer := none, claim := .hold } })
    hs (.supervision .holdEntered)

theorem HostLink.Sends.limitExpires (hs : h.Sends s.host) : h.Sends s.limitExpires.host :=
  HostLink.Sends.place (s := { s with sup := _ }) hs (.supervision .limitExpired)

theorem HostLink.Sends.assertLreq (hs : h.Sends s.host) : h.Sends s.assertLreq.host := HostLink.Sends.arbiterChoice hs

theorem HostLink.Sends.negateLreq (hs : h.Sends s.host) (order : List ReportSource) : h.Sends (s.negateLreq order).host := by
  unfold State.negateLreq
  split
  · exact hs
  · exact hs
  · exact HostLink.Sends.placeAll (s := s.lineBack) hs _

/-! ## The commands of the other blocks -/

theorem HostLink.Sends.remove (hs : h.Sends s.host) (a : Nat) : h.Sends (s.remove a).host := by
  have hcleared : h.Sends (s.cleared a).host := by
    rw [s.cleared_eq]
    exact hs
  change h.Sends ((s.cleared a).withdrawTickets a).host
  unfold State.withdrawTickets
  generalize (s.cleared a).tickets.queuedOf a = ids
  generalize s.cleared a = u at hcleared
  induction ids generalizing u with
  | nil => exact hcleared
  | cons id ids ih => exact ih _ (hcleared.completeTicket id _)

theorem HostLink.Sends.abandonCycle (hs : h.Sends s.host) : h.Sends s.abandonCycle.host := by
  have hplaced := hs.place (.cycleDone { s.sched.summary with abandoned := true })
  unfold State.abandonCycle
  dsimp only
  split
  · split
    · exact hplaced
    · exact hs
  · split
    · exact hplaced
    · exact hs

theorem HostLink.Sends.stopAfterSlot (hs : h.Sends s.host) : h.Sends s.stopAfterSlot.host := by
  unfold State.stopAfterSlot
  split
  · exact hs
  · exact hs
  · split
    · exact hs
    · exact hs.place (.cycleDone { s.sched.summary with abandoned := true })

theorem HostLink.Sends.stopAfterCycle (hs : h.Sends s.host) : h.Sends s.stopAfterCycle.host := by
  unfold State.stopAfterCycle
  split
  · exact hs
  · exact hs
  · split <;> exact hs

end

/-- The owning block's event changes of the host link what HELLO and STATUS read and clear, and the restart that RESTART arranges,
alone (R138, R145, R146). -/
def HostLink.Decided (h k : HostLink) : Prop :=
  k = { h with processor := k.processor, restart := k.restart, stats := k.stats }

theorem HostLink.Decided.refl (h : HostLink) : h.Decided h := rfl

/-- An event of another block, while the command is being decided, changes nothing of the host link (R141). -/
theorem HostLink.Sends.decided {h k : HostLink} (hk : h.Sends k) (hd : h.processor ≠ .idle) : h.Decided k := by
  rw [hk.eq_of_deciding hd]
  exact .refl h

section
variable {s : State}

theorem State.sends_lineSetup (rate timeout retries : Nat) : s.host.Sends (s.lineSetup rate timeout retries).1.host := by
  unfold State.lineSetup
  split
  · exact .refl _
  · split <;> exact .refl _

theorem State.sends_stationDefine (f : DefineFields) : s.host.Sends (s.stationDefine f).1.host := by
  unfold State.stationDefine
  split
  · exact .refl _
  · dsimp only
    rw [State.define_frame]
    exact .refl _

theorem State.sends_stationRemove (a : Nat) : s.host.Sends (s.stationRemove a).1.host := by
  unfold State.stationRemove
  split
  · exact .refl _
  · split
    · exact .refl _
    · exact HostLink.Sends.remove (.refl _) a

theorem State.sends_stationQuery (a : Nat) (clear : Byte) : s.host.Sends (s.stationQuery a clear).1.host := by
  unfold State.stationQuery
  split
  · exact .refl _
  · split
    · exact .refl _
    · dsimp only
      split
      · rw [State.clearCounters_host]
        exact .refl _
      · exact .refl _

theorem State.sends_cycleSet (slots : List Nat) : s.host.Sends (s.cycleSet slots).1.host := by
  unfold State.cycleSet
  split
  · exact .refl _
  · split <;> exact .refl _

theorem State.sends_cycleStart (f : StartFields) : s.host.Sends (s.cycleStart f).1.host := by
  unfold State.cycleStart
  split
  · exact .refl _
  · split
    · exact .refl _
    · split
      · exact .refl _
      · exact HostLink.Sends.arbiterChoice (s := s.beginCycling _ f) (HostLink.Sends.abandonCycle (.refl _))

theorem State.sends_cycleStop (when_ : Byte) : s.host.Sends (s.cycleStop when_).1.host := by
  have choice {u : State} (hu : s.host.Sends u.host) (wasActive : Bool) : s.host.Sends (u.choiceAfterStop wasActive).host := by
    unfold State.choiceAfterStop
    split
    · exact hu.arbiterChoice
    · exact hu
  unfold State.cycleStop
  split
  · exact .refl _
  · split
    · exact .refl _
    · dsimp only
      split
      · exact choice (HostLink.Sends.stopAfterSlot (.refl _)) _
      · exact choice (HostLink.Sends.stopAfterCycle (.refl _)) _

theorem State.sends_imageWrite (items : List WriteItem) : s.host.Sends (s.imageWrite items).1.host := by
  unfold State.imageWrite
  split
  · exact .refl _
  · dsimp only
    rw [State.applyItems_frame]
    exact .refl _

theorem State.sends_submit (f : SubmitFields) : s.host.Sends (s.submit f).1.host := by
  unfold State.submit
  split
  · exact .refl _
  · exact HostLink.Sends.arbiterChoice (s := s.placeTicket _) (.refl _)

theorem State.sends_cancel (id : Byte) : s.host.Sends (s.cancel id).1.host := by
  unfold State.cancel
  split
  · exact .refl _
  · split
    · have hdone : s.host.Sends (s.completeTicket id (.bare .cancelled 0)).host := HostLink.Sends.completeTicket (.refl _) id _
      dsimp only
      unfold State.choiceIfUnblocked
      split
      · exact hdone.arbiterChoice
      · exact hdone
    · exact .refl _
    · exact .refl _

theorem State.sends_addCredit (n : Nat) : s.host.Sends (s.addCredit n).1.host := by
  unfold State.addCredit
  split <;> exact .refl _

theorem State.sends_holdSetup (time limit : Nat) : s.host.Sends (s.holdSetup time limit).1.host := by
  unfold State.holdSetup
  split <;> exact .refl _

theorem State.sends_resume : s.host.Sends s.resume.1.host := by
  unfold State.resume
  split
  · exact HostLink.Sends.arbiterChoice (s := s.endHold) (HostLink.Sends.place (.refl _) _)
  · exact .refl _

theorem State.decided_arrangeRestart (level : Byte) : s.host.Decided (s.arrangeRestart level).1.host := by
  unfold State.arrangeRestart
  split <;> rfl

theorem HostLink.Decided.trans {h k l : HostLink} (hk : h.Decided k) (kl : k.Decided l) : h.Decided l := by
  unfold HostLink.Decided at hk kl ⊢
  rw [kl, hk]

theorem State.decided_readOne (k : ReadKind) (s : State) (b : ReadBlock) : s.host.Decided (s.readOne k b).host := by
  unfold State.readOne State.clearRead
  dsimp only
  split
  · rfl
  · split <;> rfl

theorem State.decided_readRest (k : ReadKind) : s.host.Decided (s.readRest k).1.host := by
  unfold State.readRest
  dsimp only
  generalize k.left s.host.processor.reads = bs
  induction bs generalizing s with
  | nil => exact .refl _
  | cons b bs ih => exact (State.decided_readOne k s b).trans ih

theorem State.decided_status (clear : Byte) : s.host.Decided (s.status clear).1.host := by
  unfold State.status
  split
  · exact .refl _
  · exact State.decided_readRest _

end

end Sys2Proof.Machine
end

section
/-! The nineteen command rows and the refusal of what cannot be read (R138 to R140, R163): O2, O3. -/

namespace Sys2Proof.Machine

/-! ## The payloads that are read are those that fit (R163) -/

theorem isSome_parseEmpty (p : List Byte) : (parseEmpty p).isSome = (p.length == 0) := by
  cases p <;> rfl

theorem isSome_parseOne (p : List Byte) : (parseOne p).isSome = (p.length == 1) := by
  rcases p with _ | ⟨_, _ | _⟩ <;> rfl

theorem isSome_parseStationQuery (p : List Byte) : (parseStationQuery p).isSome = (p.length == 2) := by
  rcases p with _ | ⟨_, _ | ⟨_, _ | _⟩⟩ <;> rfl

theorem isSome_parseLineSetup (p : List Byte) : (parseLineSetup p).isSome = (p.length == 3) := by
  rcases p with _ | ⟨_, _ | ⟨_, _ | ⟨_, _ | _⟩⟩⟩ <;> rfl

theorem isSome_parseHoldSetup (p : List Byte) : (parseHoldSetup p).isSome = (p.length == 3) := by
  rcases p with _ | ⟨_, _ | ⟨_, _ | ⟨_, _ | _⟩⟩⟩ <;> rfl

theorem isSome_parseStart (p : List Byte) : (parseStart p).isSome = (p.length == 5) := by
  rcases p with _ | ⟨_, _ | ⟨_, _ | ⟨_, _ | ⟨_, _ | ⟨_, _ | _⟩⟩⟩⟩⟩ <;> rfl

theorem isSome_parseDefine (p : List Byte) : (parseDefine p).isSome = (p.length == 9) := by
  rcases p with _ | ⟨_, _ | ⟨_, _ | ⟨_, _ | ⟨_, _ | ⟨_, _ | ⟨_, _ | ⟨_, _ | ⟨_, _ | ⟨_, _ | _⟩⟩⟩⟩⟩⟩⟩⟩⟩ <;> rfl

theorem isSome_parseCycleSet (p : List Byte) : (parseCycleSet p).isSome = (p.length == 1 + (p.headD 0).toNat) := by
  cases p with
  | nil => rfl
  | cons n addrs => by_cases h : addrs.length = n.toNat <;> simp [parseCycleSet, h, Nat.add_comm 1]

theorem isSome_parseItems (k : Nat) (p : List Byte) : (parseItems k p).isSome = itemsFit k p := by
  induction k generalizing p with
  | zero => cases p <;> rfl
  | succ k ih =>
    rcases p with _ | ⟨a, _ | ⟨off, _ | ⟨m, rest⟩⟩⟩
    case cons.cons.cons =>
      by_cases h : 1 ≤ m.toNat ∧ m.toNat ≤ 32 ∧ m.toNat ≤ rest.length
      · rw [parseItems, if_pos h, Option.isSome_map, ih, itemsFit, decide_eq_true h, Bool.true_and]
      · rw [parseItems, if_neg h, itemsFit, decide_eq_false h, Bool.false_and, Option.isSome_none]
    all_goals rfl

theorem isSome_parseImageWrite (p : List Byte) : (parseImageWrite p).isSome =
    (decide (1 ≤ (p.headD 0).toNat ∧ (p.headD 0).toNat ≤ 4) && itemsFit (p.headD 0).toNat (p.drop 1)) := by
  cases p with
  | nil => rfl
  | cons k rest => by_cases h : 1 ≤ k.toNat ∧ k.toNat ≤ 4 <;> simp [parseImageWrite, h, isSome_parseItems]

theorem isSome_parseImageRead (p : List Byte) : (parseImageRead p).isSome =
    (((p.headD 0).toNat == 1 || (p.headD 0).toNat == 2) && p.length == 1 + (p.headD 0).toNat) := by
  cases p with
  | nil => rfl
  | cons k addrs =>
    by_cases h : (k.toNat = 1 ∨ k.toNat = 2) ∧ addrs.length = k.toNat
    · obtain ⟨hk, hlen⟩ := h
      simp [parseImageRead, hk, hlen, Nat.add_comm 1]
    · rw [parseImageRead, if_neg h, Option.isSome_none, eq_comm, Bool.eq_false_iff]
      simpa [Nat.add_comm 1] using h

theorem isSome_parseSubmit (p : List Byte) : (parseSubmit p).isSome =
    (decide (6 ≤ p.length) && p.length == 6 + ((p[5]?).getD 0).toNat) := by
  rcases p with _ | ⟨_, _ | ⟨_, _ | ⟨_, _ | ⟨_, _ | ⟨_, _ | ⟨d, data⟩⟩⟩⟩⟩⟩
  case cons.cons.cons.cons.cons.cons =>
    by_cases h : data.length = d.toNat <;> simp [parseSubmit, h, Nat.add_comm 6]
  all_goals rfl

/-! ## What every command row does (R138, R139) -/

/-- The row `c` takes a message of the TYPE given, reads its payload exactly if R163 accepts it, and has the owning block decide
it, which changes little of the host link. The end of a reading that is in progress stands apart. -/
structure Decides (type : Byte) (c : Instr) {α : Type} (parse : List Byte → Option α)
    (decide : α → State → State × Reply) : Prop where
  taken : ∀ s : State, s.finishReading type = none → exec c s = takeCommand (· == type) parse decide s
  reads : ∀ p, (parse p).isSome = payloadFits type p
  link : ∀ (f : α) (s : State), s.host.processor ≠ .idle → s.host.Decided (decide f s).1.host

theorem exec_hello_of_notReading {s : State} (h : s.finishReading 0x01 = none) :
    exec .hello s = takeCommand (· == 0x01) parseEmpty (fun _ s => s.readRest .hello) s := by
  change execHello s = _
  rw [execHello, typeHello, h]

theorem exec_status_of_notReading {s : State} (h : s.finishReading 0x03 = none) :
    exec .status s = takeCommand (· == 0x03) parseOne (fun f s => s.status f) s := by
  change execStatus s = _
  rw [execStatus, typeStatus, h]

/-- Each of the nineteen rows takes the messages of its TYPE (R138, R163). -/
theorem exists_decides {row : Byte × Instr} (h : row ∈ commandRows) :
    ∃ (α : Type) (parse : List Byte → Option α) (decide : α → State → State × Reply),
      Decides row.1 row.2 parse decide := by
  simp only [commandRows, List.mem_cons, List.not_mem_nil, or_false] at h
  rcases h with rfl | rfl | rfl | rfl | rfl | rfl | rfl | rfl | rfl | rfl | rfl | rfl | rfl | rfl | rfl | rfl | rfl |
    rfl | rfl
  · exact ⟨_, parseEmpty, _, fun _ => exec_hello_of_notReading, isSome_parseEmpty, fun _ _ _ => State.decided_readRest _⟩
  · exact ⟨_, parseLineSetup, fun f s => s.lineSetup f.1 f.2.1 f.2.2, fun _ _ => rfl, isSome_parseLineSetup,
      fun _ _ hd => (State.sends_lineSetup ..).decided hd⟩
  · exact ⟨_, parseOne, _, fun _ => exec_status_of_notReading, isSome_parseOne, fun f _ _ => State.decided_status f⟩
  · exact ⟨_, parseDefine, fun f s => s.stationDefine f, fun _ _ => rfl, isSome_parseDefine,
      fun f _ hd => (State.sends_stationDefine f).decided hd⟩
  · exact ⟨_, parseOne, fun f s => s.stationRemove f.toNat, fun _ _ => rfl, isSome_parseOne,
      fun _ _ hd => (State.sends_stationRemove _).decided hd⟩
  · exact ⟨_, parseStationQuery, fun f s => s.stationQuery f.1 f.2, fun _ _ => rfl, isSome_parseStationQuery,
      fun _ _ hd => (State.sends_stationQuery ..).decided hd⟩
  · exact ⟨_, parseCycleSet, fun f s => s.cycleSet f, fun _ _ => rfl, isSome_parseCycleSet,
      fun f _ hd => (State.sends_cycleSet f).decided hd⟩
  · exact ⟨_, parseStart, fun f s => s.cycleStart f, fun _ _ => rfl, isSome_parseStart,
      fun f _ hd => (State.sends_cycleStart f).decided hd⟩
  · exact ⟨_, parseOne, fun f s => s.cycleStop f, fun _ _ => rfl, isSome_parseOne,
      fun f _ hd => (State.sends_cycleStop f).decided hd⟩
  · exact ⟨_, parseOne, fun f s => s.cycleQuery f, fun _ _ => rfl, isSome_parseOne,
      fun f s _ => by rw [s.cycleQuery_state f]; exact .refl _⟩
  · exact ⟨_, parseImageWrite, fun f s => s.imageWrite f, fun _ _ => rfl, isSome_parseImageWrite,
      fun f _ hd => (State.sends_imageWrite f).decided hd⟩
  · exact ⟨_, parseImageRead, fun f s => s.imageRead f, fun _ _ => rfl, isSome_parseImageRead,
      fun f s _ => by rw [s.imageRead_state f]; exact .refl _⟩
  · exact ⟨_, parseSubmit, fun f s => s.submit f, fun _ _ => rfl, isSome_parseSubmit,
      fun f _ hd => (State.sends_submit f).decided hd⟩
  · exact ⟨_, parseOne, fun f s => s.cancel f, fun _ _ => rfl, isSome_parseOne, fun f _ hd => (State.sends_cancel f).decided hd⟩
  · exact ⟨_, parseOne, fun f s => s.ticketQuery f, fun _ _ => rfl, isSome_parseOne,
      fun f s _ => by rw [s.ticketQuery_state f]; exact .refl _⟩
  · exact ⟨_, parseOne, fun f s => s.addCredit f.toNat, fun _ _ => rfl, isSome_parseOne,
      fun _ _ hd => (State.sends_addCredit _).decided hd⟩
  · exact ⟨_, parseHoldSetup, fun f s => s.holdSetup f.1 f.2, fun _ _ => rfl, isSome_parseHoldSetup,
      fun _ _ hd => (State.sends_holdSetup ..).decided hd⟩
  · exact ⟨_, parseEmpty, fun _ s => s.resume, fun _ _ => rfl, isSome_parseEmpty, fun _ _ hd => State.sends_resume.decided hd⟩
  · exact ⟨_, parseOne, fun f s => s.arrangeRestart f, fun _ _ => rfl, isSome_parseOne,
      fun f _ _ => State.decided_arrangeRestart f⟩

/-! ## Messages that cannot be read (R138, steps 1 and 2) -/

/-- A message offered whose payload is not read is answered BAD_LENGTH, and nothing else changes. -/
theorem State.offers.answersBadLength {s : State} {m : Message} {rest : List Message} {type : Byte} {α : Type}
    {mine : Byte → Bool} {parse : List Byte → Option α} {decide : α → State → State × Reply} (h : s.offers m rest type)
    (hm : mine type = true) (hp : parse m.payload = none) :
    takeCommand mine parse decide s = .next (s.answered m rest .badLength []) := by
  have hb := h.beginCommand
  obtain ⟨hin, rfl, hproc, hresp, hrst, hn⟩ := h
  have hfree : s.processorFree = true := by simp [State.processorFree, hproc, hresp, hrst]
  rw [takeCommand_of_badLength hin hm hfree (State.dueReport_none_of_not hn) hp, hb]
  rfl

/-- Settles O2: BAD_TYPE is the answer of the row for other TYPEs, BAD_LENGTH that of a row whose TYPE has no such payload. -/
theorem unreadableMessagesAreRefused : Obligations.UnreadableMessagesAreRefused := by
  intro s m rest
  refine ⟨fun hoffers hother => ?_, fun row hrow hoffers hfits => ?_⟩
  · have hmine : (!commandTypes.contains m.type) = true := by
      rw [Bool.not_eq_true', List.contains_eq_mem, decide_eq_false_iff_not]
      intro hmem
      obtain ⟨row, hrow, htype⟩ := List.mem_map.1 (show m.type ∈ commandRows.map Prod.fst from hmem)
      exact hother row hrow htype.symm
    exact hoffers.refuses (mine := fun t => !commandTypes.contains t) (parse := some)
      (decide := fun _ s => (s, .refuse .badType)) hmine rfl rfl
  · obtain ⟨α, parse, decide, hrowSpec⟩ := exists_decides hrow
    obtain ⟨-, -, hidle, -⟩ := id hoffers
    rw [hrowSpec.taken s (State.finishReading_of_idle hidle _)]
    exact hoffers.answersBadLength (beq_self_eq_true _) (by rw [← Option.not_isSome_iff_eq_none, hrowSpec.reads, hfits]; nofun)

/-! ## Each command is answered once (R138 to R140) -/

/-- A message taken is answered with one response, and the receiver and the transmitter go on as they were (R138, R139). -/
theorem Decides.answersOnce {type : Byte} {c : Instr} {α : Type} {parse : List Byte → Option α}
    {decide : α → State → State × Reply} (h : Decides type c parse decide) {s : State} {m : Message} {rest : List Message}
    (hoffers : s.offers m rest type) :
    ∃ t result body, exec c s = .next t ∧ t.host.inbound = rest ∧ t.host.dropped = 0 ∧
      t.host.response =
        some { type := m.type + 0x80, tag := m.tag, payload := Result.code result :: s.host.dropped :: body } ∧
      t.host.tx = s.host.tx ∧ t.host.rx = s.host.rx := by
  obtain ⟨-, -, hidle, -⟩ := id hoffers
  rw [h.taken s (State.finishReading_of_idle hidle _)]
  cases hp : parse m.payload with
  | none => exact ⟨_, .badLength, [], hoffers.answersBadLength (beq_self_eq_true _) hp, rfl, rfl, rfl, rfl, rfl⟩
  | some f =>
    have hlink : (s.taking m rest).host.Decided (decide f (s.taking m rest)).1.host := h.link f _ nofun
    have hb := hoffers.beginCommand
    obtain ⟨hin, rfl, -, hresp, hrst, hn⟩ := hoffers
    have hfree : s.processorFree = true := by simp [State.processorFree, hidle, hresp, hrst]
    refine ⟨_, (decide f (s.taking m rest)).2.result, (decide f (s.taking m rest)).2.body,
      takeCommand_of_parse hin (beq_self_eq_true _) hfree (State.dueReport_none_of_not hn) hp, ?_⟩
    rw [hb]
    generalize decide f (s.taking m rest) = d at hlink
    unfold HostLink.Decided at hlink
    refine ⟨?_, rfl, ?_, ?_, ?_⟩
    · rw [State.placeResponse_inbound, hlink]; rfl
    · rw [State.placeResponse_response, hlink]; rfl
    · change d.1.host.tx = _; rw [hlink]; rfl
    · change d.1.host.rx = _; rw [hlink]; rfl

/-- No message is taken while the processor is not free (R138, R140, R146). -/
theorem takeCommand_ne_next {α : Type} {mine : Byte → Bool} {parse : List Byte → Option α}
    {decide : α → State → State × Reply} {s : State} (h : s.processorFree = false) (t : State) :
    takeCommand mine parse decide s ≠ .next t := by
  intro ht
  obtain ⟨-, -, -, -, hfree, -⟩ := takeHead_next ht
  exact absurd (h.symm.trans hfree) nofun

/-- A message of another TYPE that is being decided is no reading of this TYPE's (R138). -/
theorem State.finishReading_of_otherType {s : State} {m : Message} {reads : List (ReadBlock × List Byte)} {type : Byte}
    (hp : s.host.processor = .deciding m reads) (h : m.type ≠ type) : s.finishReading type = none := by
  unfold State.finishReading
  rw [hp]
  exact if_neg h

/-- Settles O3: every row answers the message it takes once, and none takes one while the processor is not free. -/
theorem takenCommandIsAnsweredOnce : Obligations.TakenCommandIsAnsweredOnce := by
  intro s m rest row hrow
  obtain ⟨α, parse, decide, hspec⟩ := exists_decides hrow
  refine ⟨hspec.answersOnce, fun hidle hresp t => ?_, fun m' reads hdec hother t => ?_⟩
  · have hbusy : s.processorFree = false := by
      obtain ⟨r, hr⟩ := Option.ne_none_iff_exists'.1 hresp
      simp [State.processorFree, hr]
    rw [hspec.taken s (State.finishReading_of_idle hidle _)]
    exact takeCommand_ne_next hbusy t
  · have hbusy : s.processorFree = false := by simp [State.processorFree, hdec]
    rw [hspec.taken s (State.finishReading_of_otherType hdec hother)]
    exact takeCommand_ne_next hbusy t

end Sys2Proof.Machine
end

section
/-! The host receiver: its moves and discards, and the reception of a whole frame (R133 to R137): O4, O5. -/

namespace Sys2Proof.Machine

/-! ## A byte at the receiver (R135, R136) -/

/-- Two bytes are read as a field exactly if they are the field's bytes, low byte first (section 5.2 of the scope). -/
theorem half_eq_iff (lo hi : Byte) (h : Half) : half lo hi = h ↔ [lo, hi] = le16 h := by
  constructor
  · rintro rfl
    have hlo : (half lo hi).setWidth 8 = lo := by
      apply BitVec.eq_of_getLsbD_eq
      intro i hi8
      simp [half, hi8]
    have hhi : (half lo hi >>> 8).setWidth 8 = hi := by
      apply BitVec.eq_of_getLsbD_eq
      intro i hi8
      have hin : 8 + i < 16 ∧ i < 16 := by omega
      simp [half, hi8, hin]
    rw [le16, hlo, hhi]
  · intro hbytes
    simp only [le16, List.cons.injEq, and_true] at hbytes
    obtain ⟨rfl, rfl⟩ := hbytes
    exact half_le16 h

/-- HOST_BYTE_RECEIVED, where no report is due. -/
theorem State.exec_hostByteReceived {s : State} (hn : ¬s.standsReport) (b : Byte) (stopBit : Bool) :
    exec (.hostByteReceived b stopBit) s = .next (s.hostByte b stopBit) := by
  change Host.Outcome.next (s.takeDueReport.hostByte b stopBit) = _
  rw [State.takeDueReport_of_not_stands hn]

/-- HRXD_START_BIT, where no report is due. -/
theorem State.exec_hrxdStartBit {s : State} (hn : ¬s.standsReport) : exec .hrxdStartBit s = .next s.hostStartBit := by
  change Host.Outcome.next s.takeDueReport.hostStartBit = _
  rw [State.takeDueReport_of_not_stands hn]

section
variable {s : State} {len lo : Byte} {got : List Byte}

/-- In HUNT the return to HUNT is that of the gap timer alone. -/
theorem State.hostRxHunt_of_hunt (h : s.host.rx = .hunt) :
    s.hostRxHunt = { s with host := { s.host with gapTimer := none } } := by
  rw [State.hostRxHunt, State.setHostRx, ← h]

theorem State.takeHostByte_of_hunt (h : s.host.rx = .hunt) (b : Byte) : s.takeHostByte b =
    if b = 0x5A then s.hostRxOn .length
    else s.hostRxHunt.countLink (fun st => { st with huntDiscards := satInc st.huntDiscards }) := by
  rw [State.takeHostByte, h]
  rfl

theorem State.takeHostByte_of_length (h : s.host.rx = .length) (b : Byte) : s.takeHostByte b =
    if 2 ≤ b.toNat ∧ b.toNat ≤ 98 then s.hostRxOn (.body b [])
    else s.hostRxHunt.countLink (fun st => { st with lengthErrors := satInc st.lengthErrors }) := by
  rw [State.takeHostByte, h]

theorem State.takeHostByte_of_body (h : s.host.rx = .body len got) (b : Byte) : s.takeHostByte b =
    s.hostRxOn (if got.length + 1 < len.toNat then .body len (got ++ [b]) else .crc len (got ++ [b]) none) := by
  rw [State.takeHostByte, h]
  exact (apply_ite s.hostRxOn _ _ _).symm

theorem State.takeHostByte_of_firstCrc (h : s.host.rx = .crc len got none) (b : Byte) :
    s.takeHostByte b = s.hostRxOn (.crc len got (some b)) := by
  rw [State.takeHostByte, h]

theorem State.takeHostByte_of_secondCrc (h : s.host.rx = .crc len got (some lo)) (b : Byte) :
    s.takeHostByte b = s.checkMessage len got lo b := by
  rw [State.takeHostByte, h]

/-- A CRC that does not match discards the message (R136). -/
theorem State.checkMessage_of_mismatch {hi : Byte} (h : [lo, hi] ≠ le16 (crc16 (len :: got))) :
    s.checkMessage len got lo hi = s.hostRxHunt.countLink (fun st => { st with crcErrors := satInc st.crcErrors }) := by
  rw [State.checkMessage, if_neg (fun heq => h ((half_eq_iff ..).1 heq))]

/-- A CRC that matches has the message accepted (R137). -/
theorem State.checkMessage_of_match {hi : Byte} (h : [lo, hi] = le16 (crc16 (len :: got))) :
    s.checkMessage len got lo hi = s.hostRxHunt.acceptMessage (messageOf got) := by
  rw [State.checkMessage, if_pos ((half_eq_iff ..).2 h)]

/-- A message accepted restarts the hold timer if that runs, counts, and is placed or dropped (R137). -/
theorem State.acceptMessage_eq (s : State) (m : Message) : s.acceptMessage m = { s with
    sup := { s.sup with holdTimer := s.sup.holdTimer.map (fun _ => s.sup.holdTime) }
    host := { s.host with
      inbound := if s.host.inbound.length < 2 then s.host.inbound ++ [m] else s.host.inbound
      dropped := if s.host.inbound.length < 2 then s.host.dropped else satInc8 s.host.dropped
      stats := { s.host.stats with
        goodMessages := satInc s.host.stats.goodMessages
        drops := if s.host.inbound.length < 2 then s.host.stats.drops else satInc s.host.stats.drops } } } := by
  by_cases hroom : s.host.inbound.length < 2
  · simp only [if_pos hroom]
    exact if_pos hroom
  · simp only [if_neg hroom]
    exact if_neg hroom

end

/-- Settles O4: a byte by the receiver's state and its stop bit, the start bit, and the gap timer's expiry. -/
theorem receiverMovesAndDiscards : Obligations.ReceiverMovesAndDiscards := by
  intro s b hn
  have hlow : exec (.hostByteReceived b false) s = .next (s.hostByte b false) := State.exec_hostByteReceived hn b false
  have hhigh : exec (.hostByteReceived b true) s = .next ((s.setWaitHigh false).takeHostByte b) :=
    State.exec_hostByteReceived hn b true
  refine ⟨fun hwait => ?_, fun hwait => ?_, fun hrx => ?_, fun hrx => ?_, fun len got hrx => ?_, fun len got hrx => ?_,
    fun len got lo hrx hcrc => ?_, State.exec_hrxdStartBit hn, fun hgap => ?_⟩
  · rw [hlow, State.hostByte, hwait]
    rfl
  · rw [hlow, State.hostByte, hwait]
    rfl
  · rw [hhigh, State.takeHostByte_of_hunt (s := s.setWaitHigh false) hrx,
      State.hostRxHunt_of_hunt (s := s.setWaitHigh false) hrx]
    rfl
  · rw [hhigh, State.takeHostByte_of_length (s := s.setWaitHigh false) hrx]
    rfl
  · rw [hhigh, State.takeHostByte_of_body (s := s.setWaitHigh false) hrx]
    rfl
  · rw [hhigh, State.takeHostByte_of_firstCrc (s := s.setWaitHigh false) hrx]
    rfl
  · rw [hhigh, State.takeHostByte_of_secondCrc (s := s.setWaitHigh false) hrx, State.checkMessage_of_mismatch hcrc]
    rfl
  · change s.takeDueReport.hostGapExpires = _
    rw [State.takeDueReport_of_not_stands hn]
    exact guarded_of hgap

/-! ## A whole frame (R134, R135, R137) -/

/-- The state `s` with the receiver in the state given, within a message. -/
def State.receiving (s : State) (rx : HostRx) (gap : Option Nat) : State :=
  { s with host := { s.host with rx := rx, gapTimer := gap, waitHigh := false } }

section
variable {s t : State} {len : Byte} {gap : Option Nat}

/-- A byte received with its start bit. -/
theorem State.run_hostByte (hn : ¬s.standsReport) (b : Byte) :
    runCommands (receptionOf [b]) s = .next (s.hostStartBit.takeHostByte b) := by
  change runCommands [.hrxdStartBit, .hostByteReceived b true] s = _
  rw [runCommands, State.exec_hrxdStartBit hn]
  dsimp only
  rw [runCommands, State.exec_hostByteReceived (s := s.hostStartBit) hn]
  rfl

/-- Bytes received behind others. -/
theorem State.run_bytes_append {bytes : List Byte} (h : runCommands (receptionOf bytes) s = .next t) (more : List Byte) :
    runCommands (receptionOf (bytes ++ more)) s = runCommands (receptionOf more) t := by
  rw [receptionOf, List.flatMap_append]
  exact runCommands_append h

/-- TYPE, TAG and payload are collected until there are LEN of them, and the CRC is awaited then (R135). -/
theorem State.run_body (hn : ¬s.standsReport) {bytes got : List Byte} (hb : bytes ≠ [])
    (hlen : got.length + bytes.length = len.toNat) :
    runCommands (receptionOf bytes) (s.receiving (.body len got) gap) =
      .next (s.receiving (.crc len (got ++ bytes) none) (some 5)) := by
  induction bytes generalizing got gap with
  | nil => exact absurd rfl hb
  | cons b bytes ih =>
    have hone := State.run_hostByte (s := s.receiving (.body len got) gap) hn b
    rw [State.takeHostByte_of_body (s := (s.receiving (.body len got) gap).hostStartBit) rfl] at hone
    rw [List.length_cons] at hlen
    rw [← List.singleton_append, State.run_bytes_append hone, ← List.append_assoc]
    cases bytes with
    | nil =>
      rw [if_neg (by simp at hlen; omega), List.append_nil]
      rfl
    | cons c bytes =>
      rw [if_pos (by simp at hlen; omega)]
      exact ih nofun (by simp at hlen ⊢; omega)

/-- The frame of a message, received in HUNT, has the message accepted (R135, R137). -/
theorem State.run_frame (hn : ¬s.standsReport) (hrx : s.host.rx = .hunt) {m : Message} (hm : m.payload.length ≤ 96) :
    runCommands (receptionOf m.frame) s = .next ((s.receiving .hunt none).acceptMessage m) := by
  have hlen : (byte (m.payload.length + 2)).toNat = m.payload.length + 2 := toNat_byte (by omega)
  generalize hcrc : crc16 m.covered = crc
  have hsync : runCommands (receptionOf [syncByte]) s = .next (s.receiving .length (some 5)) := by
    rw [State.run_hostByte hn, State.takeHostByte_of_hunt (s := s.hostStartBit) hrx]
    rfl
  have hlength : runCommands (receptionOf [byte (m.payload.length + 2)]) (s.receiving .length (some 5)) =
      .next (s.receiving (.body (byte (m.payload.length + 2)) []) (some 5)) := by
    rw [State.run_hostByte (s := s.receiving .length (some 5)) hn,
      State.takeHostByte_of_length (s := (s.receiving .length (some 5)).hostStartBit) rfl, if_pos (by omega)]
    rfl
  have hbody := State.run_body (gap := some 5) (got := []) (len := byte (m.payload.length + 2)) hn
    (bytes := m.type :: m.tag :: m.payload) nofun (by rw [hlen]; simp)
  have hlow : runCommands (receptionOf [crc.setWidth 8])
      (s.receiving (.crc (byte (m.payload.length + 2)) (m.type :: m.tag :: m.payload) none) (some 5)) =
      .next (s.receiving (.crc (byte (m.payload.length + 2)) (m.type :: m.tag :: m.payload) (some (crc.setWidth 8)))
        (some 5)) := by
    rw [State.run_hostByte (s := s.receiving _ (some 5)) hn,
      State.takeHostByte_of_firstCrc (s := (s.receiving _ (some 5)).hostStartBit) rfl]
    rfl
  have hhigh : runCommands (receptionOf [(crc >>> 8).setWidth 8])
      (s.receiving (.crc (byte (m.payload.length + 2)) (m.type :: m.tag :: m.payload) (some (crc.setWidth 8))) (some 5)) =
      .next ((s.receiving .hunt none).acceptMessage m) := by
    rw [State.run_hostByte (s := s.receiving _ (some 5)) hn,
      State.takeHostByte_of_secondCrc (s := (s.receiving _ (some 5)).hostStartBit) rfl,
      State.checkMessage_of_match (by rw [← hcrc]; rfl)]
    rfl
  have hframe : m.frame = [syncByte] ++ ([byte (m.payload.length + 2)] ++ ((m.type :: m.tag :: m.payload) ++
      ([crc.setWidth 8] ++ [(crc >>> 8).setWidth 8]))) := by
    rw [Message.frame, hcrc]
    rfl
  rw [hframe, State.run_bytes_append hsync, State.run_bytes_append hlength, State.run_bytes_append hbody,
    List.nil_append, State.run_bytes_append hlow, hhigh]

end

/-- Settles O5: the frame moves the receiver through LEN, body and CRC back to HUNT, where its message is accepted. -/
theorem frameOfAnyMessageIsReceived : Obligations.FrameOfAnyMessageIsReceived := by
  intro s m hn hrx hm
  rw [State.run_frame hn hrx hm, State.acceptMessage_eq]
  simp only [State.receiving, ← hrx]

end Sys2Proof.Machine
end

section
/-! The transmitter (R133, R140 to R142), and the restart that RESTART arranges (R146, R147; log entries 6, 12, 25, 27): O7,
O10. -/

namespace Sys2Proof.Machine

/-- Settles O7: the bits of HTXD are those of the frame held, and the two events of a response are those of its buffer. -/
theorem responseStaysInItsBufferUntilSent : Obligations.ResponseStaysInItsBufferUntilSent := by
  intro s
  have hend {f : List Byte} (hf : s.host.tx = .sendingResponse f ∨ s.host.tx = .sendingReport f) :
      exec .transmitEnd s = .next s.transmitEnds := by
    have hbusy : s.host.tx ≠ .free := by rcases hf with hf | hf <;> rw [hf] <;> nofun
    change s.takeDueReport.endTransmission = _
    rw [State.takeDueReport_of_none (State.dueReport_of_busy hbusy)]
    exact guarded_of (by simpa using hbusy)
  refine ⟨State.htxd_of_free, fun f hf bits hbits k bit hbit => ?_, fun m hfree hresp => ?_, fun f hf => ?_, fun f hf => ?_⟩
  · have hframe : s.host.tx.frame = f := by rcases hf with hf | hf <;> rw [hf] <;> rfl
    have hsent : s.htxdBits = bits := by rw [State.htxdBits, hframe, hbits]; rfl
    rw [State.htxd, hsent, hbit, Option.getD_some]
  · have hnone : ¬s.standsReport := fun ⟨_, _, hempty, _⟩ => by rw [hresp] at hempty; cases hempty
    change s.takeDueReport.takeResponse = _
    rw [State.takeDueReport_of_not_stands hnone, State.takeResponse, if_neg (not_not.2 hfree), hresp]
  · rw [hend (Or.inl hf), State.transmitEnds, hf]
  · rw [hend (Or.inr hf), State.transmitEnds, hf]

/-! ## RESTART (R146) -/

theorem decodeLevel_of_reserved {b : Byte} (h : 2 ≤ b.toNat) : decodeLevel b = none := by
  have h0 : b ≠ 0 := by rintro rfl; exact absurd h (by decide)
  have h1 : b ≠ 1 := by rintro rfl; exact absurd h (by decide)
  rw [decodeLevel, if_neg h0, if_neg h1]

/-- RESTART offered with an assigned level arranges the restart, and no more (R119, R146). -/
theorem State.offers.arrangesRestart {s : State} {m : Message} {rest : List Message} {l : RestartLevel}
    (h : s.offers m rest 0x70) (hp : m.payload = [l.code]) :
    exec .restart s = .next (State.answered { s with host := { s.host with restart := some l } } m rest .ok
      [l.code, byte s.tickets.queue.length]) := by
  refine h.answers (mine := (· == typeRestart)) (parse := parseOne) (decide := fun f s => s.arrangeRestart f) (f := l.code)
    (t := { s with host := { s.host with restart := some l } }) (r := .ok _) rfl (by rw [hp]; rfl) ?_
  rw [State.arrangeRestart, decodeLevel_eq_some.2 rfl]
  rfl

/-! ## The restart taking effect (R146, R147) -/

section
variable {s : State} {level : RestartLevel}

theorem State.restartDue.responseEnding (h : s.restartDue level) : s.host.responseEnding = true := by
  obtain ⟨-, ⟨f, hf⟩ | ⟨hfree, hresp⟩⟩ := h
  · rw [HostLink.responseEnding, hf]
  · rw [HostLink.responseEnding, hfree, hresp]
    rfl

/-- A restart that is due takes effect, with or without a byte that comes with it (R146, R147). -/
theorem State.restartDue.exec (h : s.restartDue level) (crcByte : Option Byte) :
    Machine.exec (.restartTakesEffect crcByte) s = s.restartWith level crcByte := by
  have hending := h.responseEnding
  obtain ⟨hlevel, -⟩ := h
  change execRestartTakesEffect crcByte s = _
  rw [execRestartTakesEffect, hlevel]
  exact if_pos hending

/-- After a COLD restart every block but the host link is as after pin reset (R147, R148). -/
theorem State.coldRestart_eq (s : State) : s.coldRestart = { State.reset with
    pending := s.pending
    lreq := s.lreq
    freeDraws := s.freeDraws
    engine := .empty (if s.lreq then .released else .idle)
    line := { LinePort.initial with rx := if s.lreq then .off else .turnedOn }
    sup := { Supervision.initial with handover := if s.lreq then .granted else .none }
    host := s.host.restarted } := by
  have h := State.followLreq_eq (s := s.initialised s.host.strap) rfl rfl rfl rfl nofun rfl
  rw [State.coldRestart, h]
  cases hl : s.lreq <;> simp [State.initialised, State.reset, Supervision.initial, LinePort.initial, timerFor, hl]

/-- What follows LREQ after a reset leaves the host link alone (R161). -/
theorem State.followLreq_host {s : State} (h0 : s.engine = .empty .idle) (h1 : s.sup.handover = .none)
    (h2 : s.sup.claim = .none) (h3 : s.tickets.queue = []) (h4 : s.sched.state ≠ .active) (h5 : s.sup.limitTimer = none) :
    s.followLreq.host = s.host := by
  rw [State.followLreq_eq h0 h1 h2 h3 h4 h5]

/-- A restart of either level leaves the host link with its rate and its wait for a high HRXD alone (R147; log entry 27). -/
theorem State.takeRestart_host (s : State) (level : RestartLevel) : (s.takeRestart level).host = s.host.restarted := by
  cases level with
  | cold => rfl
  | warm =>
    change State.host (State.followLreq _) = _
    exact State.followLreq_host rfl rfl rfl rfl (by nofun) rfl

/-- In HUNT, with nothing waiting and no gap timer, a message whose second CRC byte comes is received or counted (R136, R137). -/
theorem State.checkMessage_of_restarted {t : State} (h : t.host = s.host.restarted) (m : Message) (len lo b : Byte) :
    ([lo, b] = le16 (crc16 (len :: m.type :: m.tag :: m.payload)) →
        t.checkMessage len (m.type :: m.tag :: m.payload) lo b = { t with
          sup := { t.sup with holdTimer := t.sup.holdTimer.map (fun _ => t.sup.holdTime) }
          host := { t.host with
            inbound := [m]
            stats := { t.host.stats with goodMessages := satInc t.host.stats.goodMessages } } }) ∧
      ([lo, b] ≠ le16 (crc16 (len :: m.type :: m.tag :: m.payload)) →
        t.checkMessage len (m.type :: m.tag :: m.payload) lo b = { t with
          host := { t.host with stats := { t.host.stats with crcErrors := satInc t.host.stats.crcErrors } } }) := by
  have hhunt : t.hostRxHunt = t := by
    rw [State.hostRxHunt_of_hunt (by rw [h]; rfl)]
    have hgap : t.host.gapTimer = none := by rw [h]; rfl
    rw [← hgap]
  have hempty : t.host.inbound = [] := by rw [h]; rfl
  refine ⟨fun hcrc => ?_, fun hcrc => ?_⟩
  · rw [State.checkMessage_of_match hcrc, hhunt, State.acceptMessage_eq, hempty]
    rfl
  · rw [State.checkMessage_of_mismatch hcrc, hhunt]
    rfl

end

/-- Settles O10: RESTART arranges, COLD is pin reset but for the host link's rate and wait, and a message that ends together with
the restart is checked in the state the restart leaves. -/
theorem restartIsArrangedAndTakesEffect : Obligations.RestartIsArrangedAndTakesEffect := by
  intro s m rest level
  refine ⟨fun hoffers hp => ⟨fun h0 => ?_, fun h1 => ?_, fun h2 => ?_⟩, fun hdue hl => ?_, fun hdue hl => ?_,
    fun lvl m len lo b t hdue hrx ht => ?_⟩
  · obtain rfl : level = RestartLevel.warm.code := BitVec.eq_of_toNat_eq h0
    exact hoffers.arrangesRestart (l := .warm) hp
  · obtain rfl : level = RestartLevel.cold.code := BitVec.eq_of_toNat_eq h1
    exact hoffers.arrangesRestart (l := .cold) hp
  · refine hoffers.refuses (mine := (· == typeRestart)) (parse := parseOne) (decide := fun f s => s.arrangeRestart f)
      (f := level) rfl (by rw [hp]; rfl) ?_
    rw [State.arrangeRestart, decodeLevel_of_reserved h2]
  · rw [hdue.exec none]
    change Host.Outcome.next s.coldRestart = _
    rw [State.coldRestart_eq, hl]
    rfl
  · rw [hdue.exec none]
    change Host.Outcome.next s.coldRestart = _
    rw [State.coldRestart_eq, hl]
    rfl
  · rw [hdue.exec none] at ht
    cases ht
    have hwith : s.restartWith lvl (some b) =
        .next ((s.takeRestart lvl).checkMessage len (m.type :: m.tag :: m.payload) lo b) := by
      rw [State.restartWith, hrx]
    rw [hdue.exec (some b), hwith]
    obtain ⟨hgood, hbad⟩ := State.checkMessage_of_restarted (s.takeRestart_host lvl) m len lo b
    exact ⟨fun hcrc => congrArg _ (hgood hcrc), fun hcrc => congrArg _ (hbad hcrc)⟩

end Sys2Proof.Machine
end

section
/-! The law of the host link (R133, R135 to R138, R140, R146) over every row, and over every step: O13. -/

namespace Sys2Proof.Machine

/-! ## The law, part by part -/

/-- A message in assembly has a LEN of 2..98 and no more bytes than it (R134, R135). -/
def HostRx.Fits : HostRx → Prop
  | .hunt | .length => True
  | .body len got => 2 ≤ len.toNat ∧ len.toNat ≤ 98 ∧ got.length < len.toNat
  | .crc len got _ => 2 ≤ len.toNat ∧ len.toNat ≤ 98 ∧ got.length = len.toNat

section
variable {s t : State}

theorem HostLaw.fits (h : HostLaw s) : s.host.rx.Fits := by
  obtain ⟨-, -, hrx, -⟩ := h
  unfold HostRx.Fits
  cases hs : s.host.rx with
  | hunt | length => trivial
  | body len got => rw [hs] at hrx; exact hrx
  | crc len got low => rw [hs] at hrx; exact hrx

theorem HostLaw.gapTimer_of_hunt (h : HostLaw s) (hhunt : s.host.rx = .hunt) : s.host.gapTimer = none := by
  obtain ⟨-, -, hrx, -⟩ := h
  rw [hhunt] at hrx
  exact hrx

/-- The law reads the host link alone. -/
theorem HostLaw.ofHost (h : HostLaw s) (ht : t.host = s.host) : HostLaw t := by
  unfold HostLaw
  rw [ht]
  exact h

/-- A report taken concerns the transmitter alone (R131, R140). -/
theorem HostLaw.sends (h : HostLaw s) (ht : s.host.Sends t.host) : HostLaw t := by
  rcases ht with ht | ⟨-, -, frame, ht⟩
  · exact h.ofHost ht
  · obtain ⟨hin, hwait, hrx, -, hproc⟩ := h
    unfold HostLaw
    rw [ht]
    exact ⟨hin, hwait, hrx, trivial, hproc⟩

theorem HostLaw.takeDueReport (h : HostLaw s) : HostLaw s.takeDueReport := h.sends (HostLink.Sends.takeDueReport (.refl _))

/-- After a restart or a pin reset the law holds: the receiver is in HUNT and every buffer is empty (R147, R148). -/
theorem HostLaw.ofReset {strap : BitVec 2} {wait : Bool}
    (h : HostLink.Sends { HostLink.initial strap with waitHigh := wait } t.host) : HostLaw t :=
  HostLaw.sends (s := { t with host := { HostLink.initial strap with waitHigh := wait } })
    ⟨Nat.zero_le _, fun _ => rfl, rfl, trivial, nofun⟩ h

/-! ## The receiver (R133, R135 to R137) -/

/-- The receiver set: in HUNT the gap timer is stopped, elsewhere it waits for no high HRXD (R133, R135). -/
theorem HostLaw.setRx (h : HostLaw s) {rx : HostRx} {gap : Option Nat} {wait : Bool} (hfits : rx.Fits)
    (hgap : rx = .hunt → gap = none) (hwait : wait = true → rx = .hunt) :
    HostLaw { s with host := { s.host with rx := rx, gapTimer := gap, waitHigh := wait } } := by
  obtain ⟨hin, -, -, hothers⟩ := h
  refine ⟨hin, hwait, ?_, hothers⟩
  cases rx with
  | hunt => exact hgap rfl
  | length => trivial
  | body len got => exact hfits
  | crc len got low => exact hfits

/-- The return to HUNT stops the gap timer (R135, R136). -/
theorem HostLaw.hostRxHunt (h : HostLaw s) : HostLaw s.hostRxHunt := h.setRx trivial (fun _ => rfl) (fun _ => rfl)

/-- The receiver goes on in a message, with no wait for a high HRXD (R135). -/
theorem HostLaw.hostRxOn (h : HostLaw s) (hwait : s.host.waitHigh = false) {rx : HostRx} (hfits : rx.Fits) (hne : rx ≠ .hunt) :
    HostLaw (s.hostRxOn rx) :=
  h.setRx hfits (fun heq => absurd heq hne) (fun hw => absurd (hwait.symm.trans hw) nofun)

/-- A message accepted finds room in the inbound buffer or is dropped (R137). -/
theorem HostLaw.acceptMessage (h : HostLaw s) (m : Message) : HostLaw (s.acceptMessage m) := by
  obtain ⟨hin, hothers⟩ := h
  rw [State.acceptMessage_eq]
  refine ⟨?_, hothers⟩
  dsimp only
  split
  · rename_i hroom
    rw [List.length_append]
    exact hroom
  · exact hin

theorem HostLaw.checkMessage (h : HostLaw s) (len : Byte) (got : List Byte) (lo hi : Byte) :
    HostLaw (s.checkMessage len got lo hi) := by
  unfold State.checkMessage
  split
  · exact h.hostRxHunt.acceptMessage _
  · exact h.hostRxHunt

/-- A byte with a high stop bit (R135). -/
theorem HostLaw.takeHostByte (h : HostLaw s) (hwait : s.host.waitHigh = false) (b : Byte) : HostLaw (s.takeHostByte b) := by
  have hfits := h.fits
  cases hrx : s.host.rx with
  | hunt =>
    rw [State.takeHostByte_of_hunt hrx]
    split
    · exact h.hostRxOn hwait (rx := .length) trivial nofun
    · exact h.hostRxHunt
  | length =>
    rw [State.takeHostByte_of_length hrx]
    split
    · rename_i hlen
      obtain ⟨hlow, hhigh⟩ := hlen
      exact h.hostRxOn hwait (rx := .body b []) ⟨hlow, hhigh, by simpa using (by omega : 0 < b.toNat)⟩ nofun
    · exact h.hostRxHunt
  | body len got =>
    rw [hrx] at hfits
    obtain ⟨hlow, hhigh, hgot⟩ := hfits
    rw [State.takeHostByte_of_body hrx]
    split
    · exact h.hostRxOn hwait (rx := .body len (got ++ [b])) ⟨hlow, hhigh, by simpa⟩ nofun
    · exact h.hostRxOn hwait (rx := .crc len (got ++ [b]) none) ⟨hlow, hhigh, by simp; omega⟩ nofun
  | crc len got low =>
    rw [hrx] at hfits
    cases low with
    | none =>
      rw [State.takeHostByte_of_firstCrc hrx]
      exact h.hostRxOn hwait (rx := .crc len got (some b)) hfits nofun
    | some lo =>
      rw [State.takeHostByte_of_secondCrc hrx]
      exact h.checkMessage len got lo b

/-- The start bit stops the gap timer and ends the wait (R133, R135). -/
theorem HostLaw.hostStartBit (h : HostLaw s) : HostLaw s.hostStartBit := h.setRx h.fits (fun _ => rfl) nofun

/-- A byte, with or without a framing error (R133, R135, R136). -/
theorem HostLaw.hostByte (h : HostLaw s) (b : Byte) (stopBit : Bool) : HostLaw (s.hostByte b stopBit) := by
  unfold State.hostByte
  split
  · have hready : HostLaw (s.setWaitHigh false) := h.setRx h.fits h.gapTimer_of_hunt nofun
    exact hready.takeHostByte rfl b
  · split
    · exact h
    · exact h.setRx (rx := .hunt) trivial (fun _ => rfl) (fun _ => rfl)

/-! ## The command processor (R138, R140, R146) -/

/-- The processor takes a message where no response and no restart stands (R138, R140, R146). -/
theorem HostLaw.beginCommand (h : HostLaw s) (hfree : s.processorFree = true) (m : Message) : HostLaw (s.beginCommand m) := by
  obtain ⟨hin, hwait, hrx, htx, -⟩ := h
  simp only [State.processorFree, Bool.and_eq_true, Option.isNone_iff_eq_none] at hfree
  obtain ⟨⟨-, hresp⟩, hrst⟩ := hfree
  exact ⟨(s.host.inbound.length_tail ▸ Nat.sub_le _ 1).trans hin, hwait, hrx, htx, fun _ => ⟨hresp, hrst⟩⟩

/-- The response to a command decided is placed, and the processor decides no more (R138, R139). -/
theorem HostLaw.placeResponse (h : HostLaw s) (hd : s.host.Decided t.host) (m : Message) (r : Reply) :
    HostLaw (t.placeResponse m r) := by
  obtain ⟨hin, hwait, hrx, htx, -⟩ := h
  unfold HostLaw State.placeResponse
  rw [hd]
  refine ⟨hin, hwait, hrx, ?_, nofun⟩
  dsimp only
  split <;> trivial

/-- A block read leaves the processor deciding, and the rest of the law alone (R138). -/
theorem HostLaw.readOne (h : HostLaw s) (hdec : s.host.processor ≠ .idle) (k : ReadKind) (b : ReadBlock) :
    HostLaw (s.readOne k b) := by
  obtain ⟨hin, hwait, hrx, htx, hproc⟩ := h
  obtain ⟨hresp, hrst⟩ := hproc hdec
  unfold State.readOne State.clearRead
  dsimp only
  split
  · exact ⟨hin, hwait, hrx, htx, fun _ => ⟨hresp, hrst⟩⟩
  · split <;> exact ⟨hin, hwait, hrx, htx, fun _ => ⟨hresp, hrst⟩⟩

/-- What the block does of itself (R138, R141). -/
theorem HostLaw.tick (h : HostLaw s) : HostLaw s.tick := by
  have hdue := h.takeDueReport
  unfold State.tick State.processorTurn
  split
  · unfold State.beginReading
    split
    · exact hdue
    · split
      · rename_i hc
        rw [Bool.and_eq_true] at hc
        exact hdue.beginCommand hc.1 _
      · exact hdue
  · rename_i m reads hp
    split
    · unfold State.readNext
      dsimp only
      split
      · exact HostLaw.readOne (s := s.takeDueReport) hdue (by rw [hp]; nofun) _ _
      · exact hdue.placeResponse (.refl _) _ _
    · exact hdue

/-- The taking of a message (R138, R139). -/
theorem HostLaw.command {α : Type} {mine : Byte → Bool} {parse : List Byte → Option α} {decide : α → State → State × Reply}
    (h : HostLaw s) (hlink : ∀ (f : α) (u : State), u.host.processor ≠ .idle → u.host.Decided (decide f u).1.host)
    (ht : takeCommand mine parse decide s = .next t) : HostLaw t := by
  obtain ⟨m, rest, -, -, hfree, hcase⟩ := takeHead_next ht
  have hbegun := h.takeDueReport.beginCommand hfree m
  rcases hcase with ⟨-, rfl⟩ | ⟨f, -, rfl⟩
  · exact hbegun.placeResponse (.refl _) _ _
  · exact hbegun.placeResponse (hlink f _ nofun) _ _

/-- The rest of a reading, and its response (R138, R139; log entry 17). -/
theorem HostLaw.finishReading (h : HostLaw s) {type : Byte} (ht : s.finishReading type = some t) : HostLaw t := by
  unfold State.finishReading at ht
  split at ht
  · cases ht
  · split at ht
    · obtain ⟨k, -, rfl⟩ := Option.map_eq_some_iff.1 ht
      exact h.placeResponse (State.decided_readRest k) _ _
    · cases ht

/-- A reading that is in progress is ended by the row of its TYPE (R138; log entry 17). -/
theorem exec_of_finishReading {row : Byte × Instr} (hrow : row ∈ commandRows) (h : s.finishReading row.1 = some t) :
    exec row.2 s = .next t := by
  have htype : row.1 = 0x01 ∨ row.1 = 0x03 := by
    unfold State.finishReading at h
    split at h
    · cases h
    · split at h
      · rename_i m _ _ heq
        obtain ⟨k, hk, -⟩ := Option.map_eq_some_iff.1 h
        rw [← heq]
        cases k with
        | hello => exact Or.inl (Message.readKind_eq_some.1 hk).1
        | status clear => exact Or.inr (Message.readKind_eq_some.1 hk).1
      · cases h
  obtain ⟨type, c⟩ := row
  rcases htype with rfl | rfl
  · obtain rfl : c = .hello := by simpa [commandRows] using hrow
    exact exec_hello_of_deciding h
  · obtain rfl : c = .status := by simpa [commandRows] using hrow
    exact exec_status_of_deciding h

/-- A command row takes a message, or ends the reading of its TYPE that is in progress (R138). -/
theorem HostLaw.commandRow {row : Byte × Instr} (hrow : row ∈ commandRows) (h : HostLaw s) (ht : exec row.2 s = .next t) :
    HostLaw t := by
  obtain ⟨α, parse, decide, hspec⟩ := exists_decides hrow
  cases hread : s.finishReading row.1 with
  | none =>
    rw [hspec.taken s hread] at ht
    exact h.command hspec.link ht
  | some u =>
    rw [exec_of_finishReading hrow hread] at ht
    cases ht
    exact h.finishReading hread

/-! ## The transmitter and the restart (R140 to R142, R146, R147) -/

/-- The response taken stands in its buffer (R140, R141). -/
theorem HostLaw.takeResponse (h : HostLaw s) (ht : s.takeResponse = .next t) : HostLaw t := by
  unfold State.takeResponse at ht
  split at ht
  · cases ht
  · split at ht <;> cases ht
    rename_i m hresp
    obtain ⟨hin, hwait, hrx, -, hproc⟩ := h
    exact ⟨hin, hwait, hrx, by rw [hresp]; rfl, hproc⟩

theorem HostLaw.execReportTaken (h : HostLaw s) (ht : execReportTaken s = .next t) : HostLaw t := by
  unfold Machine.execReportTaken at ht
  split at ht
  · cases ht
  · split at ht
    · cases ht
    · rename_i e he
      cases ht
      rw [← State.takeDueReport_of_due he]
      exact h.takeDueReport

/-- A response that has been sent leaves its buffer with the transmitter free (R140, R142). -/
theorem HostLaw.transmitEnds (h : HostLaw s) : HostLaw s.transmitEnds := by
  obtain ⟨hin, hwait, hrx, -, hproc⟩ := id h
  unfold State.transmitEnds
  split
  · exact h
  · exact ⟨hin, hwait, hrx, trivial, fun hdec => ⟨rfl, (hproc hdec).2⟩⟩
  · exact ⟨hin, hwait, hrx, trivial, hproc⟩

theorem HostLaw.takeRestart (s : State) (level : RestartLevel) : HostLaw (s.takeRestart level) :=
  HostLaw.ofReset (by rw [s.takeRestart_host level]; exact .refl _)

theorem HostLaw.execRestartTakesEffect {crcByte : Option Byte} (ht : execRestartTakesEffect crcByte s = .next t) :
    HostLaw t := by
  unfold Machine.execRestartTakesEffect at ht
  split at ht
  · cases ht
  · rename_i level _
    split at ht
    · unfold State.restartWith at ht
      split at ht
      · cases ht
        exact HostLaw.takeRestart s level
      · split at ht <;> cases ht
        exact (HostLaw.takeRestart s level).checkMessage ..
    · cases ht

/-! ## Every row, and every step -/

/-- A character that the line receiver delivers concerns the line and the engine (R45, R46). -/
theorem HostLaw.heard (h : HostLaw s) (rx : LineRx) (c : RxChar) : HostLaw ((s.setLineRx rx).deliverChar c) :=
  h.ofHost (by rw [State.deliverChar_host, State.setLineRx_host])

/-- The rows of the station line's characters (R44 to R46, R64). -/
theorem HostLaw.execStartDetected (h : HostLaw s) {b : BitSamples} (ht : execStartDetected b s = .next t) : HostLaw t := by
  cases ht
  split
  · exact h.takeDueReport.ofHost (State.startBit_host ..)
  · exact h.takeDueReport

theorem HostLaw.finishChar (h : HostLaw s) {x : CharSamples} (ht : s.finishChar x = .next t) : HostLaw t := by
  unfold State.finishChar at ht
  split at ht <;> cases ht
  · exact h.heard _ _
  · exact h

theorem HostLaw.lowLine (h : HostLaw s) (ht : s.lowLine = .next t) : HostLaw t := by
  unfold State.lowLine at ht
  split at ht <;> cases ht
  · exact h.heard _ _
  · exact h.heard _ _
  · exact h

theorem HostLaw.endFrame (h : HostLaw s) (ht : s.endFrame = .next t) : HostLaw t := by
  unfold State.endFrame at ht
  split at ht <;> cases ht
  exact h.ofHost (State.frameEnds_host ..)

/-- Every row keeps the law whose choice no event can precede. -/
theorem HostLaw.plain {c : Instr} (h : HostLaw s) (hc : ¬Instr.leadsToIdle c) (ht : exec c s = .next t) : HostLaw t := by
  by_cases hrow : ∃ type, (type, c) ∈ commandRows
  · obtain ⟨type, hrow⟩ := hrow
    exact h.commandRow hrow ht
  have hdue := h.takeDueReport
  have sent : s.takeDueReport.host.Sends s.takeDueReport.host := .refl _
  cases c with
  | hello | lineSetup | status | stationDefine | stationRemove | stationQuery | cycleSet | cycleStart | cycleStop | cycleQuery
  | imageWrite | imageRead | submit | cancel | ticketQuery | credit | holdSetup | resume | restart =>
    simp [commandRows] at hrow
  | quietTimerExpiry | lreqNegated => exact absurd trivial hc
  | badType =>
    exact h.command (mine := fun type => !commandTypes.contains type) (parse := some)
      (decide := fun _ s => (s, .refuse .badType)) (fun _ _ _ => .refl _) ht
  | hostByteReceived b stopBit => cases ht; exact hdue.hostByte b stopBit
  | hrxdStartBit => cases ht; exact hdue.hostStartBit
  | hostGapTimeout => obtain ⟨-, rfl⟩ := guarded_next ht; exact hdue.hostRxHunt
  | responseTaken => exact hdue.takeResponse ht
  | reportTaken => exact h.execReportTaken ht
  | transmitEnd => obtain ⟨-, rfl⟩ := guarded_next ht; exact hdue.transmitEnds
  | restartTakesEffect crcByte => exact HostLaw.execRestartTakesEffect ht
  | pinReset hrate1 hrate0 => cases ht; exact HostLaw.ofReset (wait := false) (HostLink.Sends.followLreq (.refl _))
  | startDetected b => exact h.execStartDetected ht
  | characterDelivered x => exact hdue.finishChar ht
  | lowLineBrokenCharacter => exact hdue.lowLine ht
  | frameSent => exact hdue.endFrame ht
  | replyTimeoutExpiry | gapTimerExpiry => obtain ⟨-, rfl⟩ := guarded_next ht; exact hdue
  | jamTimerExpiry order => obtain ⟨-, rfl⟩ := guarded_next ht; exact hdue.sends (sent.lineJams order)
  | periodTimerExpiry => obtain ⟨-, rfl⟩ := guarded_next ht; exact hdue.sends sent.periodExpires
  | holdTimerExpiry => obtain ⟨-, rfl⟩ := guarded_next ht; exact hdue.sends sent.enterHold.choose
  | lreqAsserted => obtain ⟨-, rfl⟩ := guarded_next ht; exact hdue.sends sent.assertLreq
  | limitTimerExpiry => obtain ⟨-, rfl⟩ := guarded_next ht; exact hdue.sends sent.limitExpires

/-- The event that falls before a choice keeps the law (log entry 26). -/
theorem HostLaw.beforeChoice (h : HostLaw s) {b : BeforeChoice} (ht : s.beforeChoice b = .next t) : HostLaw t := by
  cases b with
  | nothing => cases ht; exact h
  | lreqAsserted => exact h.plain (c := .lreqAsserted) id ht
  | holdTimerExpiry => exact h.plain (c := .holdTimerExpiry) id ht
  | command =>
    change s.takeMessage = .next t at ht
    rcases s.takeMessage_eq with hfault | ⟨c, hc, hrow⟩
    · rw [hfault] at ht; cases ht
    · exact h.plain hc (hrow.symm.trans ht)

/-- The choice behind that event keeps it too. -/
theorem HostLaw.chooseBehind (h : HostLaw s) {b : BeforeChoice} (ht : thenChoose (s.beforeChoice b) = .next t) : HostLaw t := by
  unfold thenChoose at ht
  split at ht <;> cases ht
  rename_i u hu
  exact (h.beforeChoice hu).sends (HostLink.Sends.choose (.refl _))

theorem HostLaw.quietExpiry (h : HostLaw s) {order : IdleOrder} (ht : s.quietExpiry order = .next t) : HostLaw t := by
  have hend : HostLaw (s.guardEnds order.reports) := h.sends (HostLink.Sends.guardEnds (.refl _) _)
  unfold State.quietExpiry State.quietExpires at ht
  split at ht
  · dsimp only at ht
    split at ht
    · exact hend.chooseBehind ht
    · split at ht <;> cases ht
      exact hend
  · cases ht

theorem HostLaw.lreqFalls (h : HostLaw s) {order : IdleOrder} (ht : s.lreqFalls order = .next t) : HostLaw t := by
  have hneg : HostLaw (s.negateLreq order.reports) := h.sends (HostLink.Sends.negateLreq (.refl _) _)
  unfold State.lreqFalls State.releaseLreq at ht
  split at ht
  · dsimp only at ht
    split at ht
    · exact hneg.chooseBehind ht
    · exact hneg.beforeChoice ht
  · cases ht

/-- Every row keeps the law of the host link. -/
theorem HostLaw.exec {c : Instr} (h : HostLaw s) (ht : Machine.exec c s = .next t) : HostLaw t := by
  by_cases hc : Instr.leadsToIdle c
  · cases c with
    | quietTimerExpiry order => exact h.takeDueReport.quietExpiry ht
    | lreqNegated order => exact h.takeDueReport.lreqFalls ht
    | _ => exact hc.elim
  · exact h.plain hc ht

end

/-- Settles O13: a row that is none of the host link's own reaches it through a report taken alone; its own rows, and what the
block does of itself, keep the law part by part. -/
theorem everyStepKeepsTheHostLinkLaw : Obligations.EveryStepKeepsTheHostLinkLaw := by
  intro s t h ht
  unfold step at ht
  split at ht
  · cases ht
    exact h.tick
  · rename_i c rest _
    have hrest : HostLaw { s with pending := rest } := h
    exact hrest.exec ht

end Sys2Proof.Machine
end

section
/-! HOLD_SETUP, and the frames that hold forbids over every step (R91, R110, R149, R153): O55, O59. -/

namespace Sys2Proof.Machine

/-! ## HOLD_SETUP (R149) -/

theorem parseHoldSetup_fields (time : Half) (limit : Byte) :
    parseHoldSetup (le16 time ++ [limit]) = some (time.toNat, limit.toNat) := by
  simp [parseHoldSetup, le16, half_le16]

section
variable {s : State} {time limit : Nat}

theorem State.holdSetup_of_outside (h : (1 ≤ time ∧ time ≤ 9) ∨ 60000 < time) :
    s.holdSetup time limit = (s, .refuse .range) :=
  if_pos (by rw [Config.holdTimeLow, Config.holdTimeHigh]; omega)

/-- An accepted HOLD_SETUP, in the words of the statements (R149). -/
theorem State.holdSetup_of_inside (h : time = 0 ∨ (10 ≤ time ∧ time ≤ 60000)) (hlimit : limit ≤ 255) :
    s.holdSetup time limit =
      ({ s with sup := { s.sup with
          holdTime := time
          handoverLimit := limit
          holdTimer := if s.sup.hold = .held ∨ time = 0 then none else some time } },
        .ok (le16 (BitVec.ofNat 16 time) ++ [byte limit, s.sup.hold.code])) := by
  have htimer : (if s.isHeld then none else timerFor time) = if s.sup.hold = .held ∨ time = 0 then none else some time := by
    simp only [timerFor, State.isHeld, beq_iff_eq, ite_or]
  rw [← htimer]
  exact if_neg (by rw [Config.holdTimeLow, Config.holdTimeHigh]; omega)

end

/-- Settles O55: the range of the hold time decides; the timer follows the hold time, unless the part is held. -/
theorem holdSetupReplacesTimeAndLimit : Obligations.HoldSetupReplacesTimeAndLimit := by
  intro s m rest time limit h hpay
  have hparse : parseHoldSetup m.payload = some (time.toNat, limit.toNat) := hpay ▸ parseHoldSetup_fields ..
  have answer {t : State} {res : Result} {body : List Byte}
      (hset : (s.taking m rest).holdSetup time.toNat limit.toNat = (t.taking m rest, { result := res, body := body })) :
      exec .holdSetup s = .next (t.answered m rest res body) :=
    h.answers (mine := (· == typeHoldSetup)) (decide := fun (f : Nat × Nat) s => s.holdSetup f.1 f.2) rfl hparse hset
  refine ⟨fun hout => answer (State.holdSetup_of_outside hout), fun hin => answer ?_⟩
  rw [State.holdSetup_of_inside hin (Nat.le_of_lt_succ limit.isLt), BitVec.ofNat_toNat, BitVec.setWidth_eq, byte_toNat]
  rfl

/-! ## The attempt being sent (R64, R69) -/

/-- Two records of one attempt: of the same function, with the same station, the same in number. -/
def ExchangeRecord.SameAttempt (q r : ExchangeRecord) : Prop :=
  q.func = r.func ∧ q.station = r.station ∧ q.attempt = r.attempt

/-- The engine is sending the frame of the record `r`. -/
def State.Sends (s : State) (r : ExchangeRecord) : Prop := s.engine.state = .sending ∧ s.engine.record = some r

/-- The engine is sending the frame of the attempt that `r` records. -/
def State.SendsAttempt (s : State) (r : ExchangeRecord) : Prop := ∃ q, s.Sends q ∧ q.SameAttempt r

/-- From `s` to `t` no attempt is started: one that is being sent in `t` was being sent in `s`. -/
def State.StartsNone (s t : State) : Prop := ∀ r, t.Sends r → s.SendsAttempt r

/-- From `s` to `t` no attempt that hold forbids is started, or the part is not held in `t` (R153). -/
def State.StartsAllowed (s t : State) : Prop :=
  t.isHeld = true → ∀ r, t.Sends r → r.func.heldForbidden = true → s.SendsAttempt r

section
variable {s t u : State}

theorem State.StartsNone.ofState (h : t.engine.state ≠ .sending) : s.StartsNone t := fun _ hr => absurd hr.1 h

theorem State.StartsNone.ofNone (h : t.engine.record = none) : s.StartsNone t := fun _ ⟨_, hr⟩ => by
  rw [h] at hr
  cases hr

/-- The record rewritten in other fields than those that tell the attempt. -/
theorem State.StartsNone.mapRecord (F : ExchangeRecord → ExchangeRecord) (hF : ∀ r : ExchangeRecord, r.SameAttempt (F r))
    (h1 : t.engine.state = s.engine.state) (h2 : t.engine.record = s.engine.record.map F) : s.StartsNone t := by
  rintro r ⟨hstate, hrec⟩
  rw [h2, Option.map_eq_some_iff] at hrec
  obtain ⟨q, hq, rfl⟩ := hrec
  exact ⟨q, ⟨h1 ▸ hstate, hq⟩, hF q⟩

theorem State.StartsNone.ofSame (h1 : t.engine.state = s.engine.state) (h2 : t.engine.record = s.engine.record) :
    s.StartsNone t := .mapRecord id (fun _ => ⟨rfl, rfl, rfl⟩) h1 (by simp [h2])

theorem State.StartsNone.ofEngine (h : t.engine = s.engine) : s.StartsNone t := .ofSame (by rw [h]) (by rw [h])

theorem State.StartsNone.allowed (h : s.StartsNone t) : s.StartsAllowed t := fun _ r hr _ => h r hr

theorem State.StartsAllowed.ofEngine (h : t.engine = s.engine) : s.StartsAllowed t := (State.StartsNone.ofEngine h).allowed

/-- Where no attempt is started up to `t`, what is sent behind `t` was sent in `s` if it was sent in `t`. -/
theorem State.StartsNone.behind (h : s.StartsNone t) (h' : t.StartsAllowed u) : s.StartsAllowed u := by
  intro hheld r hr hf
  obtain ⟨q, hq, hfunc, hstation, hattempt⟩ := h' hheld r hr hf
  obtain ⟨p, hp, hfunc', hstation', hattempt'⟩ := h q hq
  exact ⟨p, hp, hfunc'.trans hfunc, hstation'.trans hstation, hattempt'.trans hattempt⟩

theorem State.StartsAllowed.ofNotHeld (h : t.isHeld = false) : s.StartsAllowed t := fun hheld => by
  rw [h] at hheld
  cases hheld

/-! ## A choice starts no attempt that hold forbids (R91, R100, R110, R153) -/

theorem State.StartsAllowed.handOver {a : Nat} {f : LineFunction} {o : Origin} {d : List Byte}
    (hf : t.isHeld = true → f.heldForbidden = false) : s.StartsAllowed (t.handOver a f o d) := by
  rintro hheld r ⟨-, hr⟩ hforbidden
  rw [State.isHeld_congr (State.handOver_sup ..)] at hheld
  rw [State.handOver_engine] at hr
  cases hr
  rw [show (t.buildRecord a f o _).func = f from rfl, hf hheld] at hforbidden
  cases hforbidden

theorem startsAllowed_closed (s : State) : ChoiceClosed s.StartsAllowed where
  grant := fun _ _ _ _ => (State.StartsNone.ofNone rfl).allowed
  broadcast := fun t f _ _ hf =>
    have h : s.StartsAllowed (t.handOver 0 f .broadcast []) := .handOver (fun _ => by rcases hf with rfl | rfl <;> rfl)
    h
  own := fun t k _ _ hk _ => .handOver (fun hheld =>
    State.eligibleTicket_of_held hk (by rwa [State.isHeld_congr (s := t) (by simp)] at hheld))
  resync := fun _ _ _ _ _ _ => .handOver (fun _ => rfl)
  down := fun t k h _ _ => by
    rw [State.completeTicket_frame]
    exact h
  skip := fun _ _ h _ _ _ _ => h
  slot := fun _ _ _ _ _ _ _ _ hj => .handOver (State.judgeSlot_of_held hj)
  enter := fun _ h _ _ => h
  probe := fun _ _ _ _ _ _ _ => .handOver (fun _ => rfl)
  complete := fun _ h _ _ => h

theorem State.StartsAllowed.choice (h : s.StartsAllowed t) : s.StartsAllowed t.arbiterChoice :=
  (startsAllowed_closed s).choice t h

/-- An event that starts no attempt, with the choice behind it. -/
theorem State.StartsNone.choice (h : s.StartsNone t) : s.StartsAllowed t.arbiterChoice := h.allowed.choice

theorem State.StartsAllowed.choose (h : s.StartsAllowed t) : s.StartsAllowed t.choose :=
  State.StartsAllowed.choice (t := t.takeDueReport) h

end

/-! ## The events of the line start none (R45, R64 to R68, R72) -/

theorem State.startsNone_startBit (s : State) (b : BitSamples) : s.StartsNone (s.startBit b) := by
  unfold State.startBit Engine.startDetected
  split
  · exact .ofEngine rfl
  · dsimp only
    split
    · exact .ofState nofun
    all_goals exact .ofSame rfl rfl

theorem State.startsNone_classifyAttempt (s : State) (o : AttemptOutcome) : s.StartsNone (s.classifyAttempt o) :=
  .ofState nofun

/-- A character delivered in RECEIVING leaves the engine there, or its attempt is classified (R66). -/
theorem State.startsNone_receiveChar {s : State} (h : s.engine.state = .receiving) (c : RxChar) :
    s.StartsNone (s.receiveChar c) := by
  cases hr : s.engine.record with
  | none => rw [State.receiveChar, hr]; exact .ofEngine rfl
  | some r =>
    rcases State.receiveChar_eq hr c with he | ⟨n, o, he, -⟩ <;> rw [he]
    · exact .ofState (by simp [State.withReplyChar, h])
    · exact .ofState nofun

theorem State.startsNone_deliverChar (s : State) (c : RxChar) : s.StartsNone (s.deliverChar c) := by
  unfold State.deliverChar
  dsimp only
  split
  · exact .ofEngine rfl
  · exact .ofState nofun
  · rename_i hst
    exact State.startsNone_receiveChar (s := s.countLine _) hst c
  · exact .ofSame rfl rfl
  · exact .ofEngine rfl
  · exact .ofEngine rfl

theorem State.startsNone_frameEnds (s : State) (r : ExchangeRecord) : s.StartsNone (s.frameEnds r) := by
  unfold State.frameEnds
  dsimp only
  split <;> exact .ofState nofun

theorem State.startsNone_lineJams (s : State) (order : List ReportSource) : s.StartsNone (s.lineJams order) := by
  cases hr : s.engine.record with
  | none => rw [State.lineJams_of_none hr]; exact .ofNone hr
  | some r => rw [State.lineJams_of_record hr]; exact .ofNone rfl

/-! ## The events of hold, of resets and of the period timer -/

/-- Entry into hold sets the no-retry flag of an exchange that goes on (R80, R151). -/
theorem State.startsNone_enterHold (s : State) : s.StartsNone s.enterHold :=
  .mapRecord (fun r => if r.func.heldForbidden then { r with noRetry := true } else r)
    (fun r => by split <;> exact ⟨rfl, rfl, rfl⟩) rfl rfl

@[simp] theorem State.endHold_engine (s : State) : s.endHold.engine = s.engine := rfl

/-- The handover state that follows LREQ after a reset leaves hold alone (R84, R161). -/
@[simp] theorem State.followLreq_isHeld (s : State) : s.followLreq.isHeld = s.isHeld := by
  unfold State.followLreq
  split
  · rfl
  · simp

/-- A restart ends hold (R159, R160). -/
theorem State.takeRestart_isHeld (s : State) (level : RestartLevel) : (s.takeRestart level).isHeld = false := by
  cases level with
  | warm => exact State.followLreq_isHeld _
  | cold => exact State.followLreq_isHeld (s.initialised s.host.strap)

theorem State.pinReset_isHeld (s : State) (hrate1 hrate0 : Bool) : (s.pinReset hrate1 hrate0).isHeld = false :=
  State.followLreq_isHeld _

theorem State.startsAllowed_periodExpires (s : State) : s.StartsAllowed s.periodExpires := by
  unfold State.periodExpires
  split
  · exact .ofEngine rfl
  · exact .ofEngine rfl
  · dsimp only
    split
    · exact State.StartsNone.choice (t := { s with sched := s.sched.nextCycle }) (.ofEngine rfl)
    · exact .ofEngine rfl

/-- LREQ negated leaves the exchange in flight alone, or, where the line comes back, none is in flight (R82, R155, R158). -/
theorem State.startsNone_negateLreq (s : State) (order : List ReportSource) : s.StartsNone (s.negateLreq order) := by
  unfold State.negateLreq
  split
  · exact .ofEngine rfl
  · exact .ofEngine rfl
  · exact .ofNone (by rw [State.returnLine, State.placeAll_engine]; rfl)

/-! ## The events of the host link (R133 to R142, R144, R145) -/

@[simp] theorem State.checkMessage_engine (s : State) (len : Byte) (got : List Byte) (lo hi : Byte) :
    (s.checkMessage len got lo hi).engine = s.engine := by
  unfold State.checkMessage State.acceptMessage
  dsimp only
  split
  · split <;> rfl
  · rfl

@[simp] theorem State.checkMessage_isHeld (s : State) (len : Byte) (got : List Byte) (lo hi : Byte) :
    (s.checkMessage len got lo hi).isHeld = s.isHeld := by
  unfold State.checkMessage State.acceptMessage
  dsimp only
  split
  · split <;> rfl
  · rfl

@[simp] theorem State.hostByte_engine (s : State) (b : Byte) (stopBit : Bool) : (s.hostByte b stopBit).engine = s.engine := by
  unfold State.hostByte State.takeHostByte
  split
  · split
    · split <;> rfl
    · split <;> rfl
    · split <;> rfl
    · rfl
    · exact State.checkMessage_engine ..
  · split <;> rfl

@[simp] theorem State.transmitEnds_engine (s : State) : s.transmitEnds.engine = s.engine := by
  unfold State.transmitEnds
  split <;> rfl

@[simp] theorem State.readOne_engine (k : ReadKind) (s : State) (b : ReadBlock) : (s.readOne k b).engine = s.engine := by
  unfold State.readOne State.clearRead
  split
  · rfl
  · split <;> rfl

@[simp] theorem State.readRest_engine (s : State) (k : ReadKind) : (s.readRest k).1.engine = s.engine := by
  unfold State.readRest
  dsimp only
  generalize k.left s.host.processor.reads = l
  induction l generalizing s with
  | nil => rfl
  | cons b l ih => rw [List.foldl_cons, ih, State.readOne_engine]

theorem State.finishReading_engine {s t : State} {type : Byte} (ht : s.finishReading type = some t) :
    t.engine = s.engine := by
  unfold State.finishReading at ht
  split at ht
  · cases ht
  · split at ht
    · obtain ⟨k, -, rfl⟩ := Option.map_eq_some_iff.1 ht
      exact State.readRest_engine s k
    · cases ht

@[simp] theorem State.tick_engine (s : State) : s.tick.engine = s.engine := by
  unfold State.tick State.processorTurn State.beginReading State.readNext
  split
  · split
    · rfl
    · split <;> rfl
  · split
    · dsimp only
      split
      · exact State.readOne_engine _ s.takeDueReport _
      · rfl
    · rfl

/-! ## The commands at their owning blocks (R138) -/

section
variable (s : State)

@[simp] theorem State.status_engine (clear : Byte) : (s.status clear).1.engine = s.engine := by
  unfold State.status
  split
  · rfl
  · exact s.readRest_engine _

@[simp] theorem State.lineSetup_engine (rate timeout retries : Nat) :
    (s.lineSetup rate timeout retries).1.engine = s.engine := by
  unfold State.lineSetup
  split
  · rfl
  · split <;> rfl

@[simp] theorem State.stationQuery_engine (a : Nat) (clear : Byte) : (s.stationQuery a clear).1.engine = s.engine := by
  unfold State.stationQuery
  split
  · rfl
  · split
    · rfl
    · dsimp only
      split
      · exact s.clearCounters_engine a
      · rfl

@[simp] theorem State.cycleSet_engine (slots : List Nat) : (s.cycleSet slots).1.engine = s.engine := by
  unfold State.cycleSet
  split
  · rfl
  · split <;> rfl

@[simp] theorem State.imageWrite_engine (items : List WriteItem) : (s.imageWrite items).1.engine = s.engine := by
  unfold State.imageWrite
  split
  · rfl
  · dsimp only
    rw [State.applyItems_frame]

@[simp] theorem State.addCredit_engine (n : Nat) : (s.addCredit n).1.engine = s.engine := by
  unfold State.addCredit
  split <;> rfl

@[simp] theorem State.holdSetup_engine (time limit : Nat) : (s.holdSetup time limit).1.engine = s.engine := by
  unfold State.holdSetup
  split <;> rfl

@[simp] theorem State.arrangeRestart_engine (level : Byte) : (s.arrangeRestart level).1.engine = s.engine := by
  unfold State.arrangeRestart
  split <;> rfl

@[simp] theorem State.beginCycling_engine (mode : CycleMode) (f : StartFields) : (s.beginCycling mode f).engine = s.engine := by
  rw [State.beginCycling, State.abandonCycle_frame]

@[simp] theorem State.stopAfterSlot_engine : s.stopAfterSlot.engine = s.engine := by
  unfold State.stopAfterSlot
  split
  · rfl
  · rfl
  · split <;> rfl

@[simp] theorem State.stopAfterCycle_engine : s.stopAfterCycle.engine = s.engine := by
  unfold State.stopAfterCycle
  split
  · rfl
  · rfl
  · split <;> rfl

/-- The discard flag that a define or remove sets is none of what tells an attempt (R79). -/
theorem State.startsNone_discardExchange (a : Nat) : s.StartsNone (s.discardExchange a) :=
  .mapRecord (fun r => if r.station = a then { r with discard := true } else r)
    (fun r => by split <;> exact ⟨rfl, rfl, rfl⟩) rfl rfl

theorem State.startsAllowed_stationDefine (f : DefineFields) : s.StartsAllowed (s.stationDefine f).1 := by
  unfold State.stationDefine
  split
  · exact .ofEngine rfl
  · dsimp only
    rw [State.define_frame]
    exact (s.startsNone_discardExchange f.address).allowed

theorem State.startsAllowed_stationRemove (a : Nat) : s.StartsAllowed (s.stationRemove a).1 := by
  unfold State.stationRemove
  split
  · exact .ofEngine rfl
  · split
    · exact .ofEngine rfl
    · dsimp only
      rw [State.remove_frame]
      exact (s.startsNone_discardExchange a).allowed

theorem State.startsAllowed_cycleStart (f : StartFields) : s.StartsAllowed (s.cycleStart f).1 := by
  unfold State.cycleStart
  split
  · exact .ofEngine rfl
  · split
    · exact .ofEngine rfl
    · split
      · exact .ofEngine rfl
      · exact State.StartsNone.choice (.ofEngine (s.beginCycling_engine _ f))

theorem State.startsAllowed_cycleStop (when_ : Byte) : s.StartsAllowed (s.cycleStop when_).1 := by
  have hchoice {u : State} b (hu : s.StartsNone u) : s.StartsAllowed (u.choiceAfterStop b) := by
    unfold State.choiceAfterStop
    split
    · exact hu.choice
    · exact hu.allowed
  unfold State.cycleStop
  split
  · exact .ofEngine rfl
  · split
    · exact .ofEngine rfl
    · refine hchoice _ ?_
      split
      · exact .ofEngine s.stopAfterSlot_engine
      · exact .ofEngine s.stopAfterCycle_engine

theorem State.startsAllowed_submit (f : SubmitFields) : s.StartsAllowed (s.submit f).1 := by
  unfold State.submit
  split
  · exact .ofEngine rfl
  · exact State.StartsNone.choice (t := s.placeTicket _) (.ofEngine rfl)

theorem State.startsAllowed_cancel (id : Byte) : s.StartsAllowed (s.cancel id).1 := by
  have hcancel (res) : s.StartsNone (s.completeTicket id res) := .ofEngine (by simp)
  unfold State.cancel State.choiceIfUnblocked
  split
  · exact .ofEngine rfl
  · split
    · dsimp only
      split
      · exact (hcancel _).choice
      · exact (hcancel _).allowed
    · exact .ofEngine rfl
    · exact .ofEngine rfl

theorem State.startsAllowed_resume : s.StartsAllowed s.resume.1 := by
  unfold State.resume
  split
  · exact State.StartsNone.choice (t := s.endHold) (.ofEngine rfl)
  · exact .ofEngine rfl

end

/-! ## Every row, and every step (R153) -/

section
variable {s t : State}

/-- A message taken starts what the owning block's event starts. -/
theorem State.StartsAllowed.command {α : Type} {mine : Byte → Bool} {parse : List Byte → Option α}
    {decide : α → State → State × Reply} (ht : takeCommand mine parse decide s = .next t)
    (hdec : ∀ f (u : State), u.StartsAllowed (decide f u).1) : s.StartsAllowed t := by
  obtain ⟨m, -, -, -, -, ⟨-, rfl⟩ | ⟨f, -, rfl⟩⟩ := takeHead_next ht
  · exact .ofEngine rfl
  · exact hdec f (s.takeDueReport.beginCommand m)

theorem State.startsAllowed_execHello (ht : execHello s = .next t) : s.StartsAllowed t := by
  unfold execHello at ht
  split at ht
  · rename_i hf
    cases ht
    exact .ofEngine (State.finishReading_engine hf)
  · exact .command ht (fun _ s => .ofEngine (s.readRest_engine _))

theorem State.startsAllowed_execStatus (ht : execStatus s = .next t) : s.StartsAllowed t := by
  unfold execStatus at ht
  split at ht
  · rename_i hf
    cases ht
    exact .ofEngine (State.finishReading_engine hf)
  · exact .command ht (fun f s => .ofEngine (s.status_engine f))

theorem State.startsAllowed_takeResponse (ht : s.takeResponse = .next t) : s.StartsAllowed t := by
  unfold State.takeResponse at ht
  split at ht
  · cases ht
  · split at ht <;> cases ht
    exact .ofEngine rfl

theorem State.startsAllowed_execReportTaken (ht : execReportTaken s = .next t) : s.StartsAllowed t := by
  unfold execReportTaken at ht
  split at ht
  · cases ht
  · split at ht <;> cases ht
    exact .ofEngine rfl

/-- A restart ends hold, and a message received with it does not enter it (R147, R159, R160). -/
theorem State.startsAllowed_execRestartTakesEffect {crcByte : Option Byte} (ht : execRestartTakesEffect crcByte s = .next t) :
    s.StartsAllowed t := by
  unfold execRestartTakesEffect State.restartWith at ht
  split at ht
  · cases ht
  · split at ht
    · split at ht
      · cases ht
        exact .ofNotHeld (s.takeRestart_isHeld _)
      · split at ht <;> cases ht
        exact .ofNotHeld (by rw [State.checkMessage_isHeld, State.takeRestart_isHeld])
    · cases ht

theorem State.startsNone_heard (s : State) (rx : LineRx) (c : RxChar) : s.StartsNone ((s.setLineRx rx).deliverChar c) :=
  (s.setLineRx rx).startsNone_deliverChar c

theorem State.startsNone_finishChar {x : CharSamples} (ht : s.finishChar x = .next t) : s.StartsNone t := by
  unfold State.finishChar at ht
  split at ht <;> cases ht
  · exact s.startsNone_heard _ _
  · exact .ofEngine rfl

theorem State.startsNone_lowLine (ht : s.lowLine = .next t) : s.StartsNone t := by
  unfold State.lowLine at ht
  split at ht <;> cases ht
  · exact s.startsNone_heard _ _
  · exact s.startsNone_heard _ _
  · exact .ofEngine rfl

theorem State.startsNone_endFrame (ht : s.endFrame = .next t) : s.StartsNone t := by
  unfold State.endFrame at ht
  split at ht <;> cases ht
  exact s.startsNone_frameEnds _

/-- No row whose choice no event can precede starts an attempt that hold forbids. A report due that is taken first touches neither
the engine nor hold. -/
theorem State.startsAllowed_plain {c : Instr} (hc : ¬Instr.leadsToIdle c) (ht : exec c s = .next t) : s.StartsAllowed t := by
  cases c <;> simp only [exec] at ht
  case quietTimerExpiry | lreqNegated => exact absurd trivial hc
  case hello => exact State.startsAllowed_execHello ht
  case lineSetup => exact .command ht (fun f s => .ofEngine (s.lineSetup_engine f.1 f.2.1 f.2.2))
  case status => exact State.startsAllowed_execStatus ht
  case stationDefine => exact .command ht (fun f s => s.startsAllowed_stationDefine f)
  case stationRemove => exact .command ht (fun f s => s.startsAllowed_stationRemove _)
  case stationQuery => exact .command ht (fun f s => .ofEngine (s.stationQuery_engine f.1 f.2))
  case cycleSet => exact .command ht (fun f s => .ofEngine (s.cycleSet_engine f))
  case cycleStart => exact .command ht (fun f s => s.startsAllowed_cycleStart f)
  case cycleStop => exact .command ht (fun f s => s.startsAllowed_cycleStop f)
  case cycleQuery => exact .command ht (fun f s => .ofEngine (by rw [s.cycleQuery_state f]))
  case imageWrite => exact .command ht (fun f s => .ofEngine (s.imageWrite_engine f))
  case imageRead => exact .command ht (fun f s => .ofEngine (by rw [s.imageRead_state f]))
  case submit => exact .command ht (fun f s => s.startsAllowed_submit f)
  case cancel => exact .command ht (fun f s => s.startsAllowed_cancel f)
  case ticketQuery => exact .command ht (fun f s => .ofEngine (by rw [s.ticketQuery_state f]))
  case credit => exact .command ht (fun f s => .ofEngine (s.addCredit_engine f.toNat))
  case holdSetup => exact .command ht (fun f s => .ofEngine (s.holdSetup_engine f.1 f.2))
  case resume => exact .command ht (fun _ s => s.startsAllowed_resume)
  case restart => exact .command ht (fun f s => .ofEngine (s.arrangeRestart_engine f))
  case badType => exact .command ht (fun _ _ => .ofEngine rfl)
  case hostByteReceived b stopBit => cases ht; exact .ofEngine (s.takeDueReport.hostByte_engine b stopBit)
  case hostGapTimeout => obtain ⟨-, rfl⟩ := guarded_next ht; exact .ofEngine rfl
  case responseTaken => exact State.startsAllowed_takeResponse (s := s.takeDueReport) ht
  case reportTaken => exact State.startsAllowed_execReportTaken ht
  case transmitEnd => obtain ⟨-, rfl⟩ := guarded_next ht; exact .ofEngine s.takeDueReport.transmitEnds_engine
  case restartTakesEffect => exact State.startsAllowed_execRestartTakesEffect ht
  case pinReset hrate1 hrate0 => cases ht; exact .ofNotHeld (s.pinReset_isHeld hrate1 hrate0)
  case startDetected b =>
    cases ht
    split
    · exact (s.takeDueReport.startsNone_startBit b).allowed
    · exact .ofEngine rfl
  case characterDelivered => exact (State.startsNone_finishChar (s := s.takeDueReport) ht).allowed
  case lowLineBrokenCharacter => exact (State.startsNone_lowLine (s := s.takeDueReport) ht).allowed
  case frameSent => exact (State.startsNone_endFrame (s := s.takeDueReport) ht).allowed
  case replyTimeoutExpiry | gapTimerExpiry =>
    obtain ⟨-, rfl⟩ := guarded_next ht
    exact (s.takeDueReport.startsNone_classifyAttempt _).allowed
  case jamTimerExpiry order => obtain ⟨-, rfl⟩ := guarded_next ht; exact (s.takeDueReport.startsNone_lineJams order).allowed
  case periodTimerExpiry => obtain ⟨-, rfl⟩ := guarded_next ht; exact s.takeDueReport.startsAllowed_periodExpires
  case holdTimerExpiry => obtain ⟨-, rfl⟩ := guarded_next ht; exact s.takeDueReport.startsNone_enterHold.allowed.choose
  case lreqAsserted =>
    obtain ⟨-, rfl⟩ := guarded_next ht
    exact State.StartsNone.choice (.ofEngine rfl)
  case limitTimerExpiry => obtain ⟨-, rfl⟩ := guarded_next ht; exact .ofEngine rfl
  case hrxdStartBit => cases ht; exact .ofEngine rfl

/-- The event that falls before a choice starts none that hold forbids (log entry 26). -/
theorem State.startsAllowed_beforeChoice {b : BeforeChoice} (ht : s.beforeChoice b = .next t) : s.StartsAllowed t := by
  cases b with
  | nothing => cases ht; exact .ofEngine rfl
  | lreqAsserted => exact State.startsAllowed_plain (c := .lreqAsserted) id ht
  | holdTimerExpiry => exact State.startsAllowed_plain (c := .holdTimerExpiry) id ht
  | command =>
    change s.takeMessage = .next t at ht
    rcases s.takeMessage_eq with hfault | ⟨c, hc, hrow⟩
    · rw [hfault] at ht; cases ht
    · exact State.startsAllowed_plain hc (hrow.symm.trans ht)

theorem State.startsAllowed_chooseBehind {b : BeforeChoice} (ht : thenChoose (s.beforeChoice b) = .next t) :
    s.StartsAllowed t := by
  unfold thenChoose at ht
  split at ht <;> cases ht
  rename_i u hu
  exact (State.startsAllowed_beforeChoice hu).choose

/-- A guard that ends in hold ends without the retry of an exchange that hold forbids, by the law of hold (R80, R153). -/
theorem HoldLaw.startsAllowed_guardEnds (h : HoldLaw s) (order : List ReportSource) : s.StartsAllowed (s.guardEnds order) := by
  unfold State.guardEnds
  split
  · exact (State.StartsNone.ofNone rfl).allowed
  · rename_i r hr
    split
    · rename_i hretry
      rintro hheld q ⟨-, hq⟩ hf
      cases hq
      have hflag : r.noRetry = true := h hheld r hr hf
      have hmay : r.mayRetry = true := hretry.2
      simp [ExchangeRecord.mayRetry, hflag] at hmay
    · exact (State.StartsNone.ofNone rfl).allowed

theorem HoldLaw.startsAllowed_quietExpiry (h : HoldLaw s) {order : IdleOrder} (ht : s.quietExpiry order = .next t) :
    s.StartsAllowed t := by
  unfold State.quietExpiry State.quietExpires at ht
  split at ht
  · dsimp only at ht
    split at ht
    · rename_i hidle
      have hend : s.StartsNone (s.guardEnds order.reports) := .ofState (by rw [hidle]; nofun)
      exact hend.behind (State.startsAllowed_chooseBehind ht)
    · split at ht <;> cases ht
      exact h.startsAllowed_guardEnds order.reports
  · cases ht

theorem State.startsAllowed_lreqFalls {order : IdleOrder} (ht : s.lreqFalls order = .next t) : s.StartsAllowed t := by
  unfold State.lreqFalls State.releaseLreq at ht
  split at ht
  · refine (s.startsNone_negateLreq order.reports).behind ?_
    dsimp only at ht
    split at ht
    · exact State.startsAllowed_chooseBehind ht
    · exact State.startsAllowed_beforeChoice ht
  · cases ht

theorem HoldLaw.startsAllowed_exec {c : Instr} (h : HoldLaw s) (ht : exec c s = .next t) : s.StartsAllowed t := by
  by_cases hc : Instr.leadsToIdle c
  · cases c with
    | quietTimerExpiry order =>
      have hdue : HoldLaw s.takeDueReport := h
      exact hdue.startsAllowed_quietExpiry ht
    | lreqNegated order => exact State.startsAllowed_lreqFalls (s := s.takeDueReport) ht
    | _ => exact hc.elim
  · exact State.startsAllowed_plain hc ht

theorem HoldLaw.startsAllowed_step (h : HoldLaw s) (ht : step s = .next t) : s.StartsAllowed t := by
  unfold step at ht
  split at ht
  · cases ht
    exact .ofEngine s.tick_engine
  · rename_i c rest _
    have hrest : HoldLaw { s with pending := rest } := h
    exact hrest.startsAllowed_exec ht

end

/-- Settles O59: a choice starts nothing that hold forbids, by the judgement of slots and the eligibility of tickets, and the law
of hold forbids the retry; every row is made of these and of events that start no attempt. -/
theorem noForbiddenFrameIsStartedWhileHeld : Obligations.NoForbiddenFrameIsStartedWhileHeld := by
  intro s t r h ht hheld hstate hr hfunc
  have hforbidden : r.func.heldForbidden = true := by rcases hfunc with hf | hf <;> rw [hf] <;> rfl
  have hheld' : t.isHeld = true := beq_iff_eq.2 hheld
  obtain ⟨q, ⟨hsending, hq⟩, hsame⟩ := h.startsAllowed_step ht hheld' r ⟨hstate, hr⟩ hforbidden
  exact ⟨hsending, q, hq, hsame⟩

end Sys2Proof.Machine
end

section
/-! PROOF. O1: a step on a queue that holds a command, and on an empty one. -/

namespace Sys2Proof.Machine

/-- Events come one by one (spec/00_scope.md, 5.4; spec/95_what_each_step_holds.md): the front command takes its whole effect. -/
theorem step_of_pending_cons {s : State} {c : Instr} {rest : List Instr} (h : s.pending = c :: rest) :
    step s = exec c { s with pending := rest } := by
  simp only [step, h]

/-- On an empty queue a step is what the block does of itself (log entry 4). -/
theorem step_of_pending_nil {s : State} (h : s.pending = []) : step s = .next s.tick := by
  simp only [step, h]

/-- Settles O1: the two cases of the queue. -/
theorem stepExecutesTheFrontCommand : Obligations.StepExecutesTheFrontCommand :=
  ⟨fun _ _ _ => step_of_pending_cons rfl, fun _ => step_of_pending_nil⟩

end Sys2Proof.Machine
end
